-- ==== Sys2Proof/Word.lean ====
section
/-! DEFINITION. The word types of the KV9: task registers are 64 bits (R19), token lanes 32 bits (R10),
script and launch words 64 bits (R60, R241), memory is held in bytes. -/

namespace Sys2Proof

/-- A task general register, a script word, a command word (R19, R60). -/
abbrev Word := BitVec 64
/-- One lane of a token or of a vector register (R10, R19). -/
abbrev Lane := BitVec 32
/-- The smallest addressable unit (R245). -/
abbrev Byte := BitVec 8

end Sys2Proof
end

