-- ==== Sys2Proof/Machine/Num.lean ====
section
/-! DEFINITION. Number formats and arithmetic rules (02_number_formats.md, R35 to R59): the FMT codes,
exact values, the one rounding of R44, integer clamping (R39), conversion (R47), the pairing tree (R56),
and the lane forms of R38. -/

namespace Sys2Proof

/-- The FMT codes of R35, in code order. -/
inductive Fmt where
  | i32 | n32 | i16 | n16 | i8 | n8 | f32 | bf16 | f16 | e4m3 | e5m2 | gs4 | gs3 | b32
  deriving DecidableEq, Repr

namespace Machine

/-- The FMT code of a format (R35). -/
def fmtCode : Fmt → Nat
  | .i32 => 0 | .n32 => 1 | .i16 => 2 | .n16 => 3 | .i8 => 4 | .n8 => 5 | .f32 => 6 | .bf16 => 7
  | .f16 => 8 | .e4m3 => 9 | .e5m2 => 10 | .gs4 => 11 | .gs3 => 12 | .b32 => 13

/-- The format of an FMT code; 14 and 15 are reserved (R35). -/
def fmtOf? (n : Nat) : Option Fmt :=
  match n with
  | 0 => some .i32 | 1 => some .n32 | 2 => some .i16 | 3 => some .n16 | 4 => some .i8 | 5 => some .n8
  | 6 => some .f32 | 7 => some .bf16 | 8 => some .f16 | 9 => some .e4m3 | 10 => some .e5m2
  | 11 => some .gs4 | 12 => some .gs3 | 13 => some .b32 | _ => none

/-- The format of a code that validation has accepted. -/
def fmtOf (n : Nat) : Fmt := (fmtOf? n).getD .b32

/-- Width in bits (R35); a group-scaled weight counts its own bits without the scale. -/
def fmtBits : Fmt → Nat
  | .i32 | .n32 | .f32 | .b32 => 32
  | .i16 | .n16 | .bf16 | .f16 => 16
  | .i8 | .n8 | .e4m3 | .e5m2 => 8
  | .gs4 => 4 | .gs3 => 3

/-- Size of one element in memory, in bytes (R37). -/
def fmtSize (f : Fmt) : Nat := fmtBits f / 8

def fmtIsFloat : Fmt → Bool
  | .f32 | .bf16 | .f16 | .e4m3 | .e5m2 => true
  | _ => false

def fmtIsSigned : Fmt → Bool
  | .i32 | .i16 | .i8 => true
  | _ => false

def fmtIsInt : Fmt → Bool
  | .i32 | .n32 | .i16 | .n16 | .i8 | .n8 => true
  | _ => false

/-- Mantissa bits of a floating format (R40). -/
def mantBits : Fmt → Nat
  | .f32 => 23 | .bf16 => 7 | .f16 => 10 | .e4m3 => 3 | .e5m2 => 2 | _ => 0

/-- Exponent bias (R40). -/
def expBias : Fmt → Int
  | .f32 | .bf16 => 127 | .f16 | .e5m2 => 15 | .e4m3 => 7 | _ => 0

/-- Largest finite code without the sign bit (R40). -/
def maxFinite : Fmt → Nat
  | .f32 => 0x7F7FFFFF | .bf16 => 0x7F7F | .f16 => 0x7BFF | .e4m3 => 0x7E | .e5m2 => 0x7B | _ => 0

/-- Code of +infinity; e4m3 has none and gives its NaN there (R40, R44). -/
def infCode : Fmt → Nat
  | .f32 => 0x7F800000 | .bf16 => 0x7F80 | .f16 => 0x7C00 | .e4m3 => 0x7F | .e5m2 => 0x7C | _ => 0

/-- The canonical quiet NaN (R41). -/
def nanCode : Fmt → Nat
  | .f32 => 0x7FC00000 | .bf16 => 0x7FC0 | .f16 => 0x7E00 | .e4m3 => 0x7F | .e5m2 => 0x7E | _ => 0

def signBit (f : Fmt) : Nat := 2 ^ (fmtBits f - 1)

/-- An exact value: a NaN, a signed infinity, or (-1)^neg * m * 2^e with its sign of zero (R40, R44). -/
inductive Ex where
  | nan
  | inf (neg : Bool)
  | fin (neg : Bool) (m : Nat) (e : Int)
  deriving DecidableEq, Repr

/-- Number of significant bits of a natural number, by structural recursion on fuel. -/
def bitLenAux : Nat → Nat → Nat
  | 0, _ => 0
  | k + 1, n => if n = 0 then 0 else bitLenAux k (n / 2) + 1

/-- Number of significant bits: 0 for 0. `Nat.log2` is the library's. -/
def bitLen (n : Nat) : Nat := if n = 0 then 0 else Nat.log2 n + 1

/-- Decode the low bits of a code of a floating format into its exact value (R40, R41). -/
def decodeF (f : Fmt) (c : Nat) : Ex :=
  let sb := signBit f
  let c := c % (2 * sb)
  let neg := decide (sb ≤ c)
  let a := c % sb
  if a = infCode f && f != .e4m3 then .inf neg
  else if infCode f ≤ a then .nan
  else
    let mb := mantBits f
    let E := a / 2 ^ mb
    let M := a % 2 ^ mb
    if E = 0 then .fin neg M (1 - expBias f - mb) else .fin neg (2 ^ mb + M) (E - expBias f - mb)

/-- Read an operand: with FTZ a subnormal is a zero of the same sign (R45). -/
def readF (f : Fmt) (ftz : Bool) (c : Nat) : Ex :=
  match decodeF f c with
  | .fin neg m e => if ftz && decide (m < 2 ^ mantBits f) then .fin neg 0 e else .fin neg m e
  | x => x

/-- The rounding modes of R43. -/
inductive RM where
  | rne | rtz | rdn | rup
  deriving DecidableEq, Repr

/-- The arithmetic controls of R43. -/
structure Ctl where
  rm : RM := .rne
  ftz : Bool := false
  sat : Bool := false
  deriving DecidableEq, Repr

/-- Task instructions and memory conversions: RNE, subnormals kept, no saturation (R43, R122). -/
def Ctl.plain : Ctl := ⟨.rne, false, false⟩

/-- Does rounding a magnitude with the given low part move away from zero (R44)? `odd` is the parity of the
truncated value, `twice` twice the discarded part, `one` the unit it is measured in. -/
def roundsUp (rm : RM) (neg odd : Bool) (twice one : Nat) : Bool :=
  if twice = 0 then false
  else match rm with
    | .rne => decide (one < twice) || (decide (twice = one) && odd)
    | .rtz => false
    | .rdn => neg
    | .rup => !neg

/-- Shift a magnitude m*2^e onto the grid 2^q, rounding (R44). -/
def roundGrid (rm : RM) (neg : Bool) (m : Nat) (e q : Int) : Nat :=
  if q ≤ e then m * 2 ^ (e - q).toNat
  else
    let s := 2 ^ (q - e).toNat
    let n := m / s
    let r := m % s
    if roundsUp rm neg (n % 2 == 1) (2 * r) s then n + 1 else n

/-- A signed floating code. -/
def withSign (f : Fmt) (neg : Bool) (c : Nat) : Nat := if neg then c + signBit f else c

/-- The overflow table of R44. -/
def overflowCode (f : Fmt) (c : Ctl) (neg : Bool) : Nat :=
  if c.sat then withSign f neg (maxFinite f)
  else
    let toInf := match c.rm with
      | .rne => true | .rtz => false | .rdn => neg | .rup => !neg
    if toInf then (if f = .e4m3 then nanCode f else withSign f neg (infCode f))
    else withSign f neg (maxFinite f)

/-- An infinite result (R44): SAT makes it the largest finite, e4m3 its NaN. -/
def infResult (f : Fmt) (c : Ctl) (neg : Bool) : Nat :=
  if c.sat then withSign f neg (maxFinite f)
  else if f = .e4m3 then nanCode f else withSign f neg (infCode f)

/-- Round an exact value once, directly to the destination format (R44, R45). -/
def roundF (f : Fmt) (c : Ctl) (x : Ex) : Nat :=
  match x with
  | .nan => nanCode f
  | .inf neg => infResult f c neg
  | .fin neg m e =>
    if m = 0 then withSign f neg 0
    else
      let mb := mantBits f
      let qmin : Int := 1 - expBias f - mb
      let q : Int := max ((bitLen m : Int) - 1 + e - mb) qmin
      let n := roundGrid c.rm neg m e q
      let code := (q - qmin).toNat * 2 ^ mb + n
      if maxFinite f < code then overflowCode f c neg
      else if c.ftz && decide (code < 2 ^ mb) then withSign f neg 0
      else withSign f neg code

/-- A zero of the sign R44 gives an exact zero sum of operands of opposite sign. -/
def zeroSum (rm : RM) : Ex := .fin (decide (rm = .rdn)) 0 0

def Ex.neg : Ex → Ex
  | .nan => .nan
  | .inf s => .inf (!s)
  | .fin s m e => .fin (!s) m e

def Ex.abs : Ex → Ex
  | .nan => .nan
  | .inf _ => .inf false
  | .fin _ m e => .fin false m e

/-- The signed significand over the common exponent `q`. -/
def scaled (neg : Bool) (m : Nat) (e q : Int) : Int :=
  let v : Int := (m * 2 ^ (e - q).toNat : Nat)
  if neg then -v else v

/-- Exact sum; the rounding mode decides only the sign of an exact zero (R44). -/
def Ex.add (rm : RM) : Ex → Ex → Ex
  | .nan, _ | _, .nan => .nan
  | .inf s, .inf t => if s = t then .inf s else .nan
  | .inf s, _ => .inf s
  | _, .inf t => .inf t
  | .fin s m e, .fin t n g =>
    if m = 0 && n = 0 then (if s = t then .fin s 0 0 else zeroSum rm)
    else
      let q := min e g
      let v := scaled s m e q + scaled t n g q
      if v = 0 then zeroSum rm else .fin (decide (v < 0)) v.natAbs q

/-- Exact product; 0 times infinity is invalid (R41, R54). -/
def Ex.mul : Ex → Ex → Ex
  | .nan, _ | _, .nan => .nan
  | .inf s, .inf t => .inf (s != t)
  | .inf s, .fin t n _ => if n = 0 then .nan else .inf (s != t)
  | .fin s m _, .inf t => if m = 0 then .nan else .inf (s != t)
  | .fin s m e, .fin t n g => .fin (s != t) (m * n) (e + g)

/-- Quotient with 80 bits and a sticky bit: exact for every rounding of R44 to at most 24 bits. -/
def Ex.div : Ex → Ex → Ex
  | .nan, _ | _, .nan => .nan
  | .inf _, .inf _ => .nan
  | .inf s, .fin t _ _ => .inf (s != t)
  | .fin s _ _, .inf t => .fin (s != t) 0 0
  | .fin s m e, .fin t n g =>
    if n = 0 then (if m = 0 then .nan else .inf (s != t))
    else if m = 0 then .fin (s != t) 0 0
    else
      let k := 80 + bitLen n
      let a := m * 2 ^ k
      .fin (s != t) (2 * (a / n) + (if a % n = 0 then 0 else 1)) (e - g - k - 1)

/-- Integer square root (floor), by bisection on the bit length. -/
def isqrtAux : Nat → Nat → Nat → Nat
  | 0, _, r => r
  | k + 1, n, r =>
    let c := r + 2 ^ k
    if c * c ≤ n then isqrtAux k n c else isqrtAux k n r

def isqrt (n : Nat) : Nat := isqrtAux (bitLen n / 2 + 1) n 0

/-- Square root with a sticky bit; a negative non-zero operand is invalid, sqrt(-0) is -0 (R41, R88). -/
def Ex.sqrt : Ex → Ex
  | .nan => .nan
  | .inf s => if s then .nan else .inf false
  | .fin s m e =>
    if m = 0 then .fin s 0 0
    else if s then .nan
    else
      let par := (e % 2).toNat
      let a := m * 2 ^ (par + 120)
      let r := isqrt a
      .fin false (2 * r + (if r * r = a then 0 else 1)) ((e - par - 120) / 2 - 1)

/-- Numeric comparison of two non-NaN values, zeros equal (R91): the sign of x - y. -/
def Ex.cmp : Ex → Ex → Ordering
  | .inf s, .inf t => if s = t then .eq else if s then .lt else .gt
  | .inf s, _ => if s then .lt else .gt
  | _, .inf t => if t then .gt else .lt
  | .fin s m e, .fin t n g =>
    let q := min e g
    compare (scaled s m e q) (scaled t n g q)
  | _, _ => .eq

def Ex.isNan : Ex → Bool
  | .nan => true
  | _ => false

def Ex.negSign : Ex → Bool
  | .nan => false
  | .inf s => s
  | .fin s _ _ => s

/-- The order of R90: -0 is less than +0. True when x is before or equal to y. -/
def Ex.le0 (x y : Ex) : Bool :=
  match Ex.cmp x y with
  | .lt => true
  | .gt => false
  | .eq => x.negSign || !y.negSign

/-- Round an exact finite value to an integer under a rounding mode (R47, R95). -/
def roundInt (rm : RM) (neg : Bool) (m : Nat) (e : Int) : Int :=
  let n : Int := roundGrid rm neg m e 0
  if neg then -n else n

/-- Integer range of a format (R39). -/
def intMin (f : Fmt) : Int := if fmtIsSigned f then -(2 ^ (fmtBits f - 1)) else 0
def intMax (f : Fmt) : Int := if fmtIsSigned f then 2 ^ (fmtBits f - 1) - 1 else 2 ^ fmtBits f - 1

def clampInt (lo hi v : Int) : Int := if v < lo then lo else if hi < v then hi else v

/-- Place an integer in a lane (R38): two's complement at the format's width, extended. -/
def placeInt (f : Fmt) (v : Int) : Lane :=
  let w := fmtBits f
  if fmtIsSigned f then (BitVec.ofInt w v).signExtend 32 else (BitVec.ofInt w v).setWidth 32

/-- The low bits of a lane that a format uses (R38). -/
def lowBits (f : Fmt) (l : Lane) : Nat := l.toNat % 2 ^ fmtBits f

/-- Place the low bits of a value in a lane by R38. -/
def placeBits (f : Fmt) (n : Nat) : Lane :=
  if fmtIsSigned f then ((BitVec.ofNat (fmtBits f) n).signExtend 32) else BitVec.ofNat 32 (n % 2 ^ fmtBits f)

/-- Read a lane as an integer of the format (R38). -/
def readInt (f : Fmt) (l : Lane) : Int :=
  let n := lowBits f l
  if fmtIsSigned f && decide (2 ^ (fmtBits f - 1) ≤ n) then (n : Int) - 2 ^ fmtBits f else n

/-- An exact integer result in a lane: clamped with SAT, else wrapped (R39, R89). -/
def finishInt (f : Fmt) (sat : Bool) (v : Int) : Lane :=
  placeInt f (if sat then clampInt (intMin f) (intMax f) v else v)

/-- A floating lane read under the controls (R38, R45). -/
def laneF (f : Fmt) (c : Ctl) (l : Lane) : Ex := readF f c.ftz l.toNat

/-- Round into a lane (R38, R44). -/
def roundLane (f : Fmt) (c : Ctl) (x : Ex) : Lane := BitVec.ofNat 32 (roundF f c x)

def ofIntEx (v : Int) : Ex := .fin (decide (v < 0)) v.natAbs 0

/-- The value of a group-scaled weight's low bits, two's complement (R52). -/
def gsInt (f : Fmt) (n : Nat) : Int :=
  let w := fmtBits f
  let k := n % 2 ^ w
  if 2 ^ (w - 1) ≤ k then (k : Int) - 2 ^ w else k

/-- Floating to integer (R47): rounded under RM, then clamped; NaN gives 0. -/
def exToInt (lo hi : Int) (rm : RM) : Ex → Int
  | .nan => 0
  | .inf neg => if neg then lo else hi
  | .fin neg m e => clampInt lo hi (roundInt rm neg m e)

/-- Floating to floating: a wider format keeps infinities whatever SAT says (R47). -/
def widenCtl (src dst : Fmt) (c : Ctl) (x : Ex) : Ctl :=
  match x with
  | .inf _ => if fmtBits src < fmtBits dst then { c with sat := false } else c
  | _ => c

/-- Conversion of one lane from format src to format dst (R47, R48, R96). -/
def cvtLane (src dst : Fmt) (c : Ctl) (l : Lane) : Lane :=
  if dst = .b32 then (if src = .b32 then l else placeBits src l.toNat)
  else if src = .b32 then placeBits dst l.toNat
  else if fmtIsFloat src then
    let x := laneF src c l
    if fmtIsFloat dst then roundLane dst (widenCtl src dst c x) x
    else placeInt dst (exToInt (intMin dst) (intMax dst) c.rm x)
  else
    let v := readInt src l
    if fmtIsFloat dst then roundLane dst c (ofIntEx v)
    else finishInt dst c.sat v

/-- Widen a floating lane to its exact f32 code; every narrower value is an f32 value (R40, R47). -/
def widenF32 (f : Fmt) (l : Lane) : Lane := roundLane .f32 .plain (laneF f .plain l)

/-- rne32 of an exact value, as a lane (R57). -/
def rne32 (x : Ex) : Lane := roundLane .f32 .plain x

def exOf32 (l : Lane) : Ex := decodeF .f32 l.toNat
def exOfBf16 (n : Nat) : Ex := decodeF .bf16 n

/-- One level of the fixed pairing tree (R56): absent positions pass the other value unchanged. -/
def pairLevel {α : Type} (f : α → α → α) : List (Option α) → List (Option α)
  | a :: b :: rest =>
    (match a, b with
      | some x, some y => some (f x y)
      | some x, none => some x
      | none, y => y) :: pairLevel f rest
  | [a] => [a]
  | [] => []

/-- The fixed pairing tree of R56 in L levels. -/
def pairTree {α : Type} (f : α → α → α) : Nat → List (Option α) → Option α
  | 0, v => (v.headD none)
  | L + 1, v => pairTree f L (pairLevel f v)

/-- Least L with n positions inside 2^L (R59). -/
def ceilLog2 (n : Nat) : Nat := bitLen (n - 1)

/-- A floating pair: rne32(a + b) (R56, R57). -/
def pairAdd32 (a b : Lane) : Lane := rne32 (Ex.add .rne (exOf32 a) (exOf32 b))

/-- The product of the matrix multiplier (R53, R54): exact, rounded RNE only outside the f32 range. -/
def mulProduct (w s x : Ex) : Lane := rne32 (Ex.mul (Ex.mul w s) x)

/-- Split a list into pieces of 32, the blocks of R57. -/
def blocks32Aux {α : Type} : Nat → List α → List (List α)
  | 0, _ => []
  | k + 1, xs => if xs.isEmpty then [] else xs.take 32 :: blocks32Aux k (xs.drop 32)

def blocks32 {α : Type} (xs : List α) : List (List α) := blocks32Aux xs.length xs

/-- The K32 rule of R57 over products already formed; absent positions are `none`. -/
def k32Sum (init : Lane) (p : List (Option Lane)) : Lane :=
  (blocks32 p).foldl (fun acc blk =>
    match pairTree pairAdd32 5 blk with
    | some s => pairAdd32 acc s
    | none => acc) init

/-- The drain conversion of R57: the f32 accumulator to the node's format under its controls. -/
def drainCvt (f : Fmt) (c : Ctl) (acc : Lane) : Lane := cvtLane .f32 f c acc

/-- CRC-32C over bytes, reflected polynomial 0x82F63B78, without the initial and final inversion (R119). -/
def crcBit (c : Nat) : Nat := if c % 2 = 1 then (c / 2).xor 0x82F63B78 else c / 2

def crcByte (c : Nat) (b : Byte) : Nat :=
  crcBit (crcBit (crcBit (crcBit (crcBit (crcBit (crcBit (crcBit (c.xor b.toNat))))))))

def crcLanes (c : Nat) (ls : List Lane) : Nat :=
  ls.foldl (fun c l =>
    crcByte (crcByte (crcByte (crcByte c (l.extractLsb' 0 8)) (l.extractLsb' 8 8)) (l.extractLsb' 16 8))
      (l.extractLsb' 24 8)) c

end Machine
end Sys2Proof
end

