-- ==== Sys2Proof/Syntax.lean ====
section
/-! DEFINITION. The instruction set as syntax: one constructor of `Instr` for each row of
spec/opcode_table.json. Task words carry their register and immediate fields (R72), a node firing carries
the fields of its script entry (R60 to R66), a callboard command the window it is written in and its
64 bytes (R277 to R279, R398). An event carries nothing: the unit it happens at is the actor of the state. -/

namespace Sys2Proof

/-- A general register g0 to g31 (R19). -/
abbrev Reg := BitVec 5
/-- A vector register v0 to v15 (R19); the field's fifth bit is 0 (R72). -/
abbrev VReg := BitVec 4

/-- An operand field of a script entry: distance in entries and producer port (R63). -/
structure Opnd where
  dist : BitVec 18 := 0
  port : BitVec 2 := 0
  deriving DecidableEq, Repr

/-- The fields of a script entry other than its opcode (R61, R62) and its extension words (R66). -/
structure NodeF where
  repm1 : BitVec 6 := 0
  fmt : BitVec 4 := 0
  wid : BitVec 3 := 0
  rate : BitVec 5 := 1
  ndt : BitVec 1 := 0
  ord : BitVec 1 := 0
  res : BitVec 1 := 0
  scope : BitVec 3 := 0
  mod : BitVec 8 := 0
  cfg : BitVec 24 := 0
  sa : Opnd := {}
  sb : Opnd := {}
  sc : Opnd := {}
  ext : List Word := []
  deriving DecidableEq, Repr

/-- A callboard command: 64 bytes, eight little-endian words (R277, R397). -/
structure Cmd where
  w0 : Word := 0
  w1 : Word := 0
  w2 : Word := 0
  w3 : Word := 0
  w4 : Word := 0
  w5 : Word := 0
  w6 : Word := 0
  w7 : Word := 0
  deriving DecidableEq, Repr

/-- A host access to HBM through CXL.mem (R392): a read, or a store of bytes, at a physical address. -/
inductive HostReq where
  | read (addr len : Nat)
  | write (addr : Nat) (bytes : List Byte)
  deriving DecidableEq, Repr

/-- One step of the KV9: one constructor per row of the opcode table. -/
inductive Instr where
  -- Task words: the integer ALU and its immediates (R194, R196)
  | add (d a b : Reg)
  | sub (d a b : Reg)
  | and (d a b : Reg)
  | or (d a b : Reg)
  | xor (d a b : Reg)
  | sll (d a b : Reg)
  | srl (d a b : Reg)
  | sra (d a b : Reg)
  | slt (d a b : Reg)
  | sltu (d a b : Reg)
  | min (d a b : Reg)
  | max (d a b : Reg)
  | mul (d a b : Reg)
  | mulh (d a b : Reg)
  | div (d a b : Reg)
  | divu (d a b : Reg)
  | rem (d a b : Reg)
  | divt (d a b : Reg)
  | clz (d a : Reg)
  | popc (d a : Reg)
  | addi (d a : Reg) (i : BitVec 16)
  | andi (d a : Reg) (i : BitVec 16)
  | ori (d a : Reg) (i : BitVec 16)
  | xori (d a : Reg) (i : BitVec 16)
  | slli (d a : Reg) (sh : BitVec 6)
  | srli (d a : Reg) (sh : BitVec 6)
  | srai (d a : Reg) (sh : BitVec 6)
  | slti (d a : Reg) (i : BitVec 16)
  | lui (d : Reg) (i : BitVec 16)
  | lhi (d a : Reg) (i : BitVec 16)
  -- Task loads and stores (R197)
  | ldb (d a : Reg) (i : BitVec 16)
  | ldbu (d a : Reg) (i : BitVec 16)
  | ldh (d a : Reg) (i : BitVec 16)
  | ldhu (d a : Reg) (i : BitVec 16)
  | ldw (d a : Reg) (i : BitVec 16)
  | ldwu (d a : Reg) (i : BitVec 16)
  | ldd (d a : Reg) (i : BitVec 16)
  | vld (d : VReg) (a : Reg) (i : BitVec 16)
  | stb (d a : Reg) (i : BitVec 16)
  | sth (d a : Reg) (i : BitVec 16)
  | stw (d a : Reg) (i : BitVec 16)
  | std (d a : Reg) (i : BitVec 16)
  | vst (d : VReg) (a : Reg) (i : BitVec 16)
  -- Branches, jumps and register groups (R200, R201)
  | beq (a b : Reg) (o : BitVec 16)
  | bne (a b : Reg) (o : BitVec 16)
  | blt (a b : Reg) (o : BitVec 16)
  | bge (a b : Reg) (o : BitVec 16)
  | bltu (a b : Reg) (o : BitVec 16)
  | bgeu (a b : Reg) (o : BitVec 16)
  | j (o : BitVec 26)
  | jal (o : BitVec 26)
  | jalr (d a : Reg) (i : BitVec 16)
  | pushm (first last : Reg)
  | popm (first last : Reg)
  -- CSRs (R202)
  | csrr (d : Reg) (c : BitVec 12)
  | csrw (d a : Reg) (c : BitVec 12)
  | csrs (d a : Reg) (c : BitVec 12)
  | csrc (d a : Reg) (c : BitVec 12)
  -- Vector group (R204 to R206)
  | vadd (d a b : VReg) (t : Fmt)
  | vsub (d a b : VReg) (t : Fmt)
  | vmul (d a b : VReg) (t : Fmt)
  | vfma (d a b : VReg) (t : Fmt)
  | vmin (d a b : VReg) (t : Fmt)
  | vmax (d a b : VReg) (t : Fmt)
  | vand (d a b : VReg) (t : Fmt)
  | vor (d a b : VReg) (t : Fmt)
  | vshl (d a b : VReg) (t : Fmt)
  | vshr (d a b : VReg) (t : Fmt)
  | veq (d a b : VReg) (t : Fmt)
  | vlt (d a b : VReg) (t : Fmt)
  | vsplat (d : VReg) (a : Reg) (t : Fmt)
  | vget (d : Reg) (a : VReg) (b : Reg) (t : Fmt)
  | vput (d : VReg) (a b : Reg) (t : Fmt)
  | vcvt (d a : VReg) (u t : Fmt)
  | vrsum (d : Reg) (a : VReg) (t : Fmt)
  -- FP32 group (R203)
  | fadd (d a b : Reg)
  | fsub (d a b : Reg)
  | fmul (d a b : Reg)
  | fdiv (d a b : Reg)
  | fsqrt (d a : Reg)
  | flt (d a b : Reg)
  | fcvtif (d a : Reg)
  | fcvtfi (d a : Reg)
  -- Atomics and fences (R207, R208)
  | aadd (d a b : Reg) (r : BitVec 3) (w : BitVec 1)
  | amax (d a b : Reg) (r : BitVec 3) (w : BitVec 1)
  | amin (d a b : Reg) (r : BitVec 3) (w : BitVec 1)
  | aand (d a b : Reg) (r : BitVec 3) (w : BitVec 1)
  | aor (d a b : Reg) (r : BitVec 3) (w : BitVec 1)
  | aswp (d a b : Reg) (r : BitVec 3) (w : BitVec 1)
  | acas (d a b : Reg) (r : BitVec 3) (w : BitVec 1)
  | afadd (d a b : Reg) (r : BitVec 3)
  | amaxa (d a b : Reg) (r : BitVec 3)
  | fenceAcq (r : BitVec 3)
  | fenceRel (r : BitVec 3)
  | fenceFull (r : BitVec 3)
  -- Tile tags, channels and packets (R209 to R213)
  | tflip (d a : Reg) (e n : BitVec 3)
  | twait (a : Reg) (e : BitVec 3)
  | recv (d : Reg) (e : BitVec 5)
  | recvv (d : VReg) (e : BitVec 5)
  | send (a : Reg) (e : BitVec 5)
  | sendv (a : VReg) (e : BitVec 5)
  | sendp (a b : Reg) (c : BitVec 4)
  | maskc (c : BitVec 4)
  | unmaskc (c : BitVec 4)
  -- Time, engines, tables, barriers and system calls (R215 to R221)
  | sleepuntil (a : Reg)
  | flyc (d a : Reg)
  | wngc (d a : Reg)
  | tload (a b : Reg)
  | bara (a : Reg) (r : BitVec 3)
  | barw (a : Reg) (r : BitVec 3)
  | baraw (a : Reg) (r : BitVec 3)
  | ecall
  | eret
  | brk
  -- The word that is no instruction (R79)
  | illegalWord (w : BitVec 32)
  -- Node firings: one per opcode of R68
  | constN (n : NodeF)
  | iotaN (n : NodeF)
  | srcN (n : NodeF)
  | snkN (n : NodeF)
  | steerN (n : NodeF)
  | mergeN (n : NodeF)
  | carryN (n : NodeF)
  | invN (n : NodeF)
  | gateN (n : NodeF)
  | barN (n : NodeF)
  | curtN (n : NodeF)
  | movN (n : NodeF)
  | addN (n : NodeF)
  | subN (n : NodeF)
  | mulN (n : NodeF)
  | fmaN (n : NodeF)
  | fmsN (n : NodeF)
  | fnmaN (n : NodeF)
  | divN (n : NodeF)
  | sqrtN (n : NodeF)
  | negN (n : NodeF)
  | absN (n : NodeF)
  | minN (n : NodeF)
  | maxN (n : NodeF)
  | mulhN (n : NodeF)
  | remN (n : NodeF)
  | clampN (n : NodeF)
  | cmpeqN (n : NodeF)
  | cmpneN (n : NodeF)
  | cmpltN (n : NodeF)
  | cmpleN (n : NodeF)
  | cmpgtN (n : NodeF)
  | cmpgeN (n : NodeF)
  | cmpunN (n : NodeF)
  | classN (n : NodeF)
  | selN (n : NodeF)
  | andN (n : NodeF)
  | orN (n : NodeF)
  | xorN (n : NodeF)
  | notN (n : NodeF)
  | andnN (n : NodeF)
  | shlN (n : NodeF)
  | shrN (n : NodeF)
  | shraN (n : NodeF)
  | rotlN (n : NodeF)
  | popcN (n : NodeF)
  | clzN (n : NodeF)
  | ctzN (n : NodeF)
  | brevN (n : NodeF)
  | floorN (n : NodeF)
  | ceilN (n : NodeF)
  | truncN (n : NodeF)
  | rintN (n : NodeF)
  | copysignN (n : NodeF)
  | absdiffN (n : NodeF)
  | cvtN (n : NodeF)
  | quantN (n : NodeF)
  | deqN (n : NodeF)
  | scaleN (n : NodeF)
  | sclwN (n : NodeF)
  | rsumN (n : NodeF)
  | rmaxN (n : NodeF)
  | rminN (n : NodeF)
  | rmaxaN (n : NodeF)
  | rdotN (n : NodeF)
  | wsumN (n : NodeF)
  | wmaxN (n : NodeF)
  | wminN (n : NodeF)
  | wmaxaN (n : NodeF)
  | shufN (n : NodeF)
  | bcastN (n : NodeF)
  | packN (n : NodeF)
  | unpackN (n : NodeF)
  | ldsN (n : NodeF)
  | stsN (n : NodeF)
  | ldgN (n : NodeF)
  | stgN (n : NodeF)
  | atmN (n : NodeF)
  | fencenN (n : NodeF)
  | ordjN (n : NodeF)
  | tfillN (n : NodeF)
  | ttagN (n : NodeF)
  | twaitnN (n : NodeF)
  | ldiN (n : NodeF)
  | mmaN (n : NodeF)
  | mvmN (n : NodeF)
  | gmmaN (n : NodeF)
  | wscaleN (n : NodeF)
  | mxmaxN (n : NodeF)
  | tselN (n : NodeF)
  | tswapN (n : NodeF)
  | tevalN (n : NodeF)
  | chainN (n : NodeF)
  | csumN (n : NodeF)
  | flypN (n : NodeF)
  | wngpN (n : NodeF)
  | sendnN (n : NodeF)
  | recvnN (n : NodeF)
  -- Callboard commands (R398); each names the window written and its eight words
  | launchCmd (win : Nat) (c : Cmd)
  | cueCmd (win : Nat) (c : Cmd)
  | cuerelCmd (win : Nat) (c : Cmd)
  | curtainCmd (win : Nat) (c : Cmd)
  | blackoutCmd (win : Nat) (c : Cmd)
  | resumeCmd (win : Nat) (c : Cmd)
  | replaceCmd (win : Nat) (c : Cmd)
  | releaseCmd (win : Nat) (c : Cmd)
  | unloadCmd (win : Nat) (c : Cmd)
  | unloadForceCmd (win : Nat) (c : Cmd)
  | tlbinvCmd (win : Nat) (c : Cmd)
  | debugCmd (win : Nat) (c : Cmd)
  | incqCmd (win : Nat) (c : Cmd)
  | attestCmd (win : Nat) (c : Cmd)
  | tenantCmd (win : Nat) (c : Cmd)
  | shareCmd (win : Nat) (c : Cmd)
  | powerRunningCmd (win : Nat) (c : Cmd)
  | powerDarkCmd (win : Nat) (c : Cmd)
  | powerOffCmd (win : Nat) (c : Cmd)
  | leaveCmd (win : Nat) (c : Cmd)
  | quotaCmd (win : Nat) (c : Cmd)
  | soundSetCmd (win : Nat) (c : Cmd)
  | soundQueryCmd (win : Nat) (c : Cmd)
  | evictCmd (win : Nat) (c : Cmd)
  | podmapCmd (win : Nat) (c : Cmd)
  | checkpointSaveCmd (win : Nat) (c : Cmd)
  | checkpointRestoreCmd (win : Nat) (c : Cmd)
  | fwloadCmd (win : Nat) (c : Cmd)
  | callboardOtherWrite (win : Nat) (bytes : List Byte)
  -- Reset (R280)
  | reset
  -- The moves of a task slot (R20, R215)
  | taskWake
  | sleepExpiry
  | taskWaitResume
  -- Control tokens (R13)
  | cfgTokenTake
  | eosTokenTake
  | curtainTokenTake
  -- Events of engines, memory, frames, Crossing, cues, faults, network and power
  | leaveGrant
  | flyCommandStart
  | flyPiece
  | flyCommandComplete
  | flyPromiseExpiry
  | wingsBlockStart
  | wingsBlockComplete
  | tloadCopyComplete
  | pageWalk
  | eviction
  | scratchpadBankServe
  | remoteAccessServe
  | frameBoundary
  | pageHold
  | curtainHold
  | swapInstant
  | crossingTransferStart
  | crossingCommit
  | crossingReroute
  | leaseEnd
  | controlCueCond
  | controlCueLoop
  | controlCueSwitch
  | placement
  | regionStart
  | regionCompletion
  | barrierPhaseComplete
  | curtainComplete
  | blackoutWaveArrive
  | tableauReadout
  | packetInject
  | packetHop
  | packetArrive
  | markerSend
  | thermalTrip
  | uncorrectableError
  | correctableError
  | powerStateReached
  | hostMemoryAccess
  -- Time passing and the remaining events
  | tick
  | memoryResponse
  | wingsPiece
  | thermalTripClear
  | incidentQueueRoom
  deriving DecidableEq, Repr

end Sys2Proof
end

