-- ==== Sys2Proof/Decode.lean ====
section
/-! DEFINITION. Decoding and encoding: the task word of R71 to R79, the script entry of R60 to R68, and the
callboard command of R398. Every decoder is total and names why it refuses; every encoder packs the fields the
same tables give. -/

namespace Sys2Proof

/-- Why a task word is not an instruction, in the order of R79. -/
inductive WordErr where
  | unassignedMajor | unassignedFunction | nonzeroField | vectorTopBit | tmRange | badFormat
  deriving DecidableEq, Repr

/-! ### The fields of a task word (R72) -/

def wMaj (w : BitVec 32) : BitVec 6 := w.extractLsb' 26 6
def wD (w : BitVec 32) : Reg := w.extractLsb' 21 5
def wA (w : BitVec 32) : Reg := w.extractLsb' 16 5
def wB (w : BitVec 32) : Reg := w.extractLsb' 11 5
def wFn (w : BitVec 32) : BitVec 11 := w.extractLsb' 0 11
def wImm (w : BitVec 32) : BitVec 16 := w.extractLsb' 0 16
def wOff26 (w : BitVec 32) : BitVec 26 := w.extractLsb' 0 26

/-- A vector field: its top bit must be 0 (R72, R79). -/
def vecField (r : Reg) : Except WordErr VReg :=
  if r.extractLsb' 4 1 = 0 then .ok (r.extractLsb' 0 4) else .error .vectorTopBit

/-- A field the format requires to be 0 (R79). -/
def needZero (z : Bool) (i : Instr) : Except WordErr Instr := if z then .ok i else .error .nonzeroField

/-- The ALU group (R75). -/
def decodeAlu (d a b : Reg) (fn : Nat) : Except WordErr Instr :=
  match fn with
  | 0x000 => .ok (.add d a b) | 0x001 => .ok (.sub d a b) | 0x002 => .ok (.and d a b)
  | 0x003 => .ok (.or d a b) | 0x004 => .ok (.xor d a b) | 0x005 => .ok (.sll d a b)
  | 0x006 => .ok (.srl d a b) | 0x007 => .ok (.sra d a b) | 0x008 => .ok (.slt d a b)
  | 0x009 => .ok (.sltu d a b) | 0x00A => .ok (.min d a b) | 0x00B => .ok (.max d a b)
  | 0x010 => .ok (.mul d a b) | 0x011 => .ok (.mulh d a b)
  | 0x014 => .ok (.div d a b) | 0x015 => .ok (.divu d a b) | 0x016 => .ok (.rem d a b)
  | 0x018 => .ok (.divt d a b)
  | 0x020 => needZero (b == 0) (.clz d a) | 0x021 => needZero (b == 0) (.popc d a)
  | _ => .error .unassignedFunction

/-- The FP32 group (R76). -/
def decodeFp (d a b : Reg) (fn : Nat) : Except WordErr Instr :=
  match fn with
  | 0x000 => .ok (.fadd d a b) | 0x001 => .ok (.fsub d a b) | 0x002 => .ok (.fmul d a b)
  | 0x003 => .ok (.fdiv d a b) | 0x004 => needZero (b == 0) (.fsqrt d a)
  | 0x008 => .ok (.flt d a b)
  | 0x010 => needZero (b == 0) (.fcvtif d a) | 0x011 => needZero (b == 0) (.fcvtfi d a)
  | _ => .error .unassignedFunction

/-- The formats a vector function accepts (R204): `0–10`, or `0–5, 13`, or `0–10, 13`. -/
def vfmtArith (n : Nat) : Bool := n ≤ 10
def vfmtBits (n : Nat) : Bool := n ≤ 5 || n == 13
def vfmtMove (n : Nat) : Bool := n ≤ 10 || n == 13

/-- The lane format of a vector word, if the function accepts it (R77, R204). -/
def vecFmt (ok : Nat → Bool) (t : BitVec 4) : Except WordErr Fmt :=
  if ok t.toNat then
    match Machine.fmtOf? t.toNat with
    | some f => .ok f
    | none => .error .badFormat
  else .error .badFormat

/-- A lane-wise vector function of three vector registers (R205). -/
def vec3 (mk : VReg → VReg → VReg → Fmt → Instr) (ok : Nat → Bool) (d a b : Reg) (t : BitVec 4) :
    Except WordErr Instr := do
  let d ← vecField d
  let a ← vecField a
  let b ← vecField b
  let t ← vecFmt ok t
  pure (mk d a b t)

/-- The vector group (R77, R204). VSPLAT and VRSUM use no field b, and no rule says what a word with it set is: it decodes to
nothing (DESIGN CHOICE, log 16). -/
def decodeVec (d a b : Reg) (fn : Nat) (t : BitVec 4) : Except WordErr Instr :=
  match fn with
  | 0x00 => vec3 .vadd vfmtArith d a b t | 0x01 => vec3 .vsub vfmtArith d a b t
  | 0x02 => vec3 .vmul vfmtArith d a b t | 0x03 => vec3 .vfma vfmtArith d a b t
  | 0x04 => vec3 .vmin vfmtArith d a b t | 0x05 => vec3 .vmax vfmtArith d a b t
  | 0x06 => vec3 .vand vfmtBits d a b t | 0x07 => vec3 .vor vfmtBits d a b t
  | 0x08 => vec3 .vshl vfmtBits d a b t | 0x09 => vec3 .vshr vfmtBits d a b t
  | 0x0A => vec3 .veq vfmtArith d a b t | 0x0B => vec3 .vlt vfmtArith d a b t
  | 0x10 => do
    let d ← vecField d
    let t ← vecFmt vfmtMove t
    needZero (b == 0) (.vsplat d a t)
  | 0x11 => do
    let a ← vecField a
    let t ← vecFmt vfmtMove t
    pure (.vget d a b t)
  | 0x12 => do
    let d ← vecField d
    let t ← vecFmt vfmtMove t
    pure (.vput d a b t)
  | 0x13 => do
    let d ← vecField d
    let a ← vecField a
    let u ← vecField b
    let u ← vecFmt vfmtMove u
    let t ← vecFmt vfmtMove t
    pure (.vcvt d a u t)
  | 0x14 => do
    let a ← vecField a
    let t ← vecFmt vfmtArith t
    needZero (b == 0) (.vrsum d a t)
  | _ => .error .unassignedFunction

/-- The ATOM group (R78): fn[10:8] rung, fn[7] width, fn[6:4] zero, fn[3:0] the operation. -/
def decodeAtom (d a b : Reg) (fn : BitVec 11) : Except WordErr Instr :=
  let r : BitVec 3 := fn.extractLsb' 8 3
  let w : BitVec 1 := fn.extractLsb' 7 1
  let z : Bool := fn.extractLsb' 4 3 == 0
  match (fn.extractLsb' 0 4).toNat with
  | 0 => needZero z (.aadd d a b r w) | 1 => needZero z (.amax d a b r w)
  | 2 => needZero z (.amin d a b r w) | 3 => needZero z (.aand d a b r w)
  | 4 => needZero z (.aor d a b r w) | 5 => needZero z (.aswp d a b r w)
  | 6 => needZero z (.acas d a b r w)
  | 7 => needZero (z && w == 0) (.afadd d a b r) | 8 => needZero (z && w == 0) (.amaxa d a b r)
  | _ => .error .unassignedFunction

/-- FENCE (R78): kind in imm16[1:0], rung in imm16[4:2], the rest zero. -/
def decodeFence (d a : Reg) (i : BitVec 16) : Except WordErr Instr :=
  let r : BitVec 3 := i.extractLsb' 2 3
  let z : Bool := d == 0 && a == 0 && i.extractLsb' 5 11 == 0
  match (i.extractLsb' 0 2).toNat with
  | 1 => needZero z (.fenceAcq r) | 2 => needZero z (.fenceRel r) | 3 => needZero z (.fenceFull r)
  | _ => .error .unassignedFunction

/-- The TILE group (R78). -/
def decodeTile (d a b : Reg) (fn : BitVec 11) : Except WordErr Instr :=
  let e : BitVec 3 := fn.extractLsb' 8 3
  let n : BitVec 3 := fn.extractLsb' 5 3
  match (fn.extractLsb' 0 5).toNat with
  | 0 => needZero (b == 0) (.tflip d a e n)
  | 1 => needZero (b == 0 && d == 0 && n == 0) (.twait a e)
  | _ => .error .unassignedFunction

/-- The CHAN group (R78, R210 to R213). -/
def decodeChan (d a b : Reg) (fn : BitVec 11) : Except WordErr Instr :=
  let e : BitVec 5 := fn.extractLsb' 0 5
  let c : BitVec 4 := fn.extractLsb' 0 4
  let c4 : Bool := fn.extractLsb' 4 1 == 0
  match (fn.extractLsb' 5 6).toNat with
  | 0 => needZero (a == 0 && b == 0) (.recv d e)
  | 1 => do
    let d ← vecField d
    needZero (a == 0 && b == 0) (.recvv d e)
  | 2 => needZero (d == 0 && b == 0) (.send a e)
  | 3 => do
    let a ← vecField a
    needZero (d == 0 && b == 0) (.sendv a e)
  | 4 => needZero (d == 0 && c4) (.sendp a b c)
  | 5 => needZero (d == 0 && a == 0 && b == 0 && c4) (.maskc c)
  | 6 => needZero (d == 0 && a == 0 && b == 0 && c4) (.unmaskc c)
  | _ => .error .unassignedFunction

/-- The ENG group (R78). -/
def decodeEng (d a b : Reg) (fn : Nat) : Except WordErr Instr :=
  match fn with
  | 0 => needZero (b == 0) (.flyc d a)
  | 1 => needZero (b == 0) (.wngc d a)
  | _ => .error .unassignedFunction

/-- The BARR group (R78): fn[10:8] rung. -/
def decodeBarr (d a b : Reg) (fn : BitVec 11) : Except WordErr Instr :=
  let r : BitVec 3 := fn.extractLsb' 8 3
  let z : Bool := d == 0 && b == 0
  match (fn.extractLsb' 0 8).toNat with
  | 0 => needZero z (.bara a r) | 1 => needZero z (.barw a r) | 2 => needZero z (.baraw a r)
  | _ => .error .unassignedFunction

/-- The SYS group (R78). -/
def decodeSys (d a b : Reg) (fn : Nat) : Except WordErr Instr :=
  let z : Bool := d == 0 && a == 0 && b == 0
  match fn with
  | 0 => needZero z .ecall | 1 => needZero z .eret | 2 => needZero z .brk
  | _ => .error .unassignedFunction

/-- The CSR group (R78): csr in [15:4], op in [3:0]. -/
def decodeCsr (d a : Reg) (i : BitVec 16) : Except WordErr Instr :=
  let c : BitVec 12 := i.extractLsb' 4 12
  match (i.extractLsb' 0 4).toNat with
  | 0 => needZero (a == 0) (.csrr d c) | 1 => .ok (.csrw d a c)
  | 2 => .ok (.csrs d a c) | 3 => .ok (.csrc d a c)
  | _ => .error .unassignedFunction

/-- A shift immediate (R73): imm16[15:6] must be 0. -/
def decodeShift (mk : BitVec 6 → Instr) (i : BitVec 16) : Except WordErr Instr :=
  needZero (i.extractLsb' 6 10 == 0) (mk (i.extractLsb' 0 6))

/-- A vector load or store: the data field's top bit is 0 (R72). -/
def decodeVmem (mk : VReg → Instr) (d : Reg) : Except WordErr Instr := do
  let d ← vecField d
  pure (mk d)

/-- PUSHM and POPM (R72, R79): first ≤ last, imm16 zero. -/
def decodeTm (mk : Instr) (first last : Reg) (i : BitVec 16) : Except WordErr Instr :=
  if i == 0 then (if first.toNat ≤ last.toNat then .ok mk else .error .tmRange) else .error .nonzeroField

/-- The task word decoder (R74 to R79). -/
def decodeTask (w : BitVec 32) : Except WordErr Instr :=
  let d := wD w
  let a := wA w
  let b := wB w
  let fn := wFn w
  let i := wImm w
  match (wMaj w).toNat with
  | 0x01 => decodeAlu d a b fn.toNat
  | 0x02 => .ok (.addi d a i) | 0x03 => .ok (.andi d a i) | 0x04 => .ok (.ori d a i)
  | 0x05 => .ok (.xori d a i)
  | 0x06 => decodeShift (.slli d a) i | 0x07 => decodeShift (.srli d a) i | 0x08 => decodeShift (.srai d a) i
  | 0x09 => .ok (.slti d a i)
  | 0x0A => needZero (a == 0) (.lui d i)
  | 0x0B => .ok (.lhi d a i)
  | 0x10 => .ok (.ldb d a i) | 0x11 => .ok (.ldbu d a i) | 0x12 => .ok (.ldh d a i)
  | 0x13 => .ok (.ldhu d a i) | 0x14 => .ok (.ldw d a i) | 0x15 => .ok (.ldwu d a i)
  | 0x16 => .ok (.ldd d a i)
  | 0x17 => decodeVmem (fun d => .vld d a i) d
  | 0x18 => .ok (.stb d a i) | 0x19 => .ok (.sth d a i) | 0x1A => .ok (.stw d a i)
  | 0x1B => .ok (.std d a i)
  | 0x1C => decodeVmem (fun d => .vst d a i) d
  | 0x20 => .ok (.beq d a i) | 0x21 => .ok (.bne d a i) | 0x22 => .ok (.blt d a i)
  | 0x23 => .ok (.bge d a i) | 0x24 => .ok (.bltu d a i) | 0x25 => .ok (.bgeu d a i)
  | 0x26 => .ok (.j (wOff26 w)) | 0x27 => .ok (.jal (wOff26 w))
  | 0x28 => .ok (.jalr d a i)
  | 0x29 => decodeTm (.pushm d a) d a i | 0x2A => decodeTm (.popm d a) d a i
  | 0x2C => decodeCsr d a i
  | 0x30 => decodeVec d a b (fn.extractLsb' 4 7).toNat (fn.extractLsb' 0 4)
  | 0x31 => decodeFp d a b fn.toNat
  | 0x34 => decodeAtom d a b fn
  | 0x35 => decodeFence d a i
  | 0x36 => decodeTile d a b fn
  | 0x37 => decodeChan d a b fn
  | 0x38 => needZero (d == 0 && i == 0) (.sleepuntil a)
  | 0x39 => decodeEng d a b fn.toNat
  | 0x3A => if fn == 0 then needZero (d == 0) (.tload a b) else .error .unassignedFunction
  | 0x3B => decodeBarr d a b fn
  | 0x3C => decodeSys d a b fn.toNat
  | _ => .error .unassignedMajor

/-! ### Encoding a task word (R72 to R78) -/

/-- TR: major, d, a, b, function. -/
def packTR (maj : BitVec 6) (d a b : Reg) (fn : BitVec 11) : BitVec 32 := maj ++ d ++ a ++ b ++ fn
/-- TI, TB, TM and TC: major, two registers, 16 bits. -/
def packTI (maj : BitVec 6) (d a : Reg) (i : BitVec 16) : BitVec 32 := maj ++ d ++ a ++ i
/-- TJ: major, 26-bit offset. -/
def packTJ (maj : BitVec 6) (o : BitVec 26) : BitVec 32 := maj ++ o
/-- A vector register in a five-bit field. -/
def vreg (v : VReg) : Reg := (0 : BitVec 1) ++ v
/-- TV: vector function and lane format. -/
def packTV (d a b : Reg) (fn : BitVec 7) (t : Fmt) : BitVec 32 :=
  packTR 0x30 d a b (fn ++ BitVec.ofNat 4 (Machine.fmtCode t))
/-- ATOM: rung, width, operation. -/
def packAtom (d a b : Reg) (r : BitVec 3) (w : BitVec 1) (op : BitVec 4) : BitVec 32 :=
  packTR 0x34 d a b (r ++ w ++ (0 : BitVec 3) ++ op)
/-- FENCE: rung and kind. -/
def packFence (r : BitVec 3) (k : BitVec 2) : BitVec 32 :=
  packTI 0x35 0 0 ((0 : BitVec 11) ++ r ++ k)
/-- CHAN: function and end. -/
def packChan (d a b : Reg) (fn : BitVec 6) (e : BitVec 5) : BitVec 32 := packTR 0x37 d a b (fn ++ e)
/-- CSR: address and operation. -/
def packCsr (d a : Reg) (c : BitVec 12) (op : BitVec 4) : BitVec 32 := packTI 0x2C d a (c ++ op)
/-- A shift immediate. -/
def packShift (maj : BitVec 6) (d a : Reg) (s : BitVec 6) : BitVec 32 :=
  packTI maj d a ((0 : BitVec 10) ++ s)
/-- BARR: rung and function. -/
def packBarr (a : Reg) (r : BitVec 3) (k : BitVec 8) : BitVec 32 := packTR 0x3B 0 a 0 (r ++ k)

/-- The word of a task instruction; `none` for a step that is no task word. -/
def encodeTask : Instr → Option (BitVec 32)
  | .add d a b => some (packTR 1 d a b 0x000) | .sub d a b => some (packTR 1 d a b 0x001)
  | .and d a b => some (packTR 1 d a b 0x002) | .or d a b => some (packTR 1 d a b 0x003)
  | .xor d a b => some (packTR 1 d a b 0x004) | .sll d a b => some (packTR 1 d a b 0x005)
  | .srl d a b => some (packTR 1 d a b 0x006) | .sra d a b => some (packTR 1 d a b 0x007)
  | .slt d a b => some (packTR 1 d a b 0x008) | .sltu d a b => some (packTR 1 d a b 0x009)
  | .min d a b => some (packTR 1 d a b 0x00A) | .max d a b => some (packTR 1 d a b 0x00B)
  | .mul d a b => some (packTR 1 d a b 0x010) | .mulh d a b => some (packTR 1 d a b 0x011)
  | .div d a b => some (packTR 1 d a b 0x014) | .divu d a b => some (packTR 1 d a b 0x015)
  | .rem d a b => some (packTR 1 d a b 0x016) | .divt d a b => some (packTR 1 d a b 0x018)
  | .clz d a => some (packTR 1 d a 0 0x020) | .popc d a => some (packTR 1 d a 0 0x021)
  | .addi d a i => some (packTI 0x02 d a i) | .andi d a i => some (packTI 0x03 d a i)
  | .ori d a i => some (packTI 0x04 d a i) | .xori d a i => some (packTI 0x05 d a i)
  | .slli d a s => some (packShift 0x06 d a s) | .srli d a s => some (packShift 0x07 d a s)
  | .srai d a s => some (packShift 0x08 d a s) | .slti d a i => some (packTI 0x09 d a i)
  | .lui d i => some (packTI 0x0A d 0 i) | .lhi d a i => some (packTI 0x0B d a i)
  | .ldb d a i => some (packTI 0x10 d a i) | .ldbu d a i => some (packTI 0x11 d a i)
  | .ldh d a i => some (packTI 0x12 d a i) | .ldhu d a i => some (packTI 0x13 d a i)
  | .ldw d a i => some (packTI 0x14 d a i) | .ldwu d a i => some (packTI 0x15 d a i)
  | .ldd d a i => some (packTI 0x16 d a i) | .vld d a i => some (packTI 0x17 (vreg d) a i)
  | .stb d a i => some (packTI 0x18 d a i) | .sth d a i => some (packTI 0x19 d a i)
  | .stw d a i => some (packTI 0x1A d a i) | .std d a i => some (packTI 0x1B d a i)
  | .vst d a i => some (packTI 0x1C (vreg d) a i)
  | .beq a b o => some (packTI 0x20 a b o) | .bne a b o => some (packTI 0x21 a b o)
  | .blt a b o => some (packTI 0x22 a b o) | .bge a b o => some (packTI 0x23 a b o)
  | .bltu a b o => some (packTI 0x24 a b o) | .bgeu a b o => some (packTI 0x25 a b o)
  | .j o => some (packTJ 0x26 o) | .jal o => some (packTJ 0x27 o)
  | .jalr d a i => some (packTI 0x28 d a i)
  | .pushm f l => some (packTI 0x29 f l 0) | .popm f l => some (packTI 0x2A f l 0)
  | .csrr d c => some (packCsr d 0 c 0) | .csrw d a c => some (packCsr d a c 1)
  | .csrs d a c => some (packCsr d a c 2) | .csrc d a c => some (packCsr d a c 3)
  | .vadd d a b t => some (packTV (vreg d) (vreg a) (vreg b) 0x00 t)
  | .vsub d a b t => some (packTV (vreg d) (vreg a) (vreg b) 0x01 t)
  | .vmul d a b t => some (packTV (vreg d) (vreg a) (vreg b) 0x02 t)
  | .vfma d a b t => some (packTV (vreg d) (vreg a) (vreg b) 0x03 t)
  | .vmin d a b t => some (packTV (vreg d) (vreg a) (vreg b) 0x04 t)
  | .vmax d a b t => some (packTV (vreg d) (vreg a) (vreg b) 0x05 t)
  | .vand d a b t => some (packTV (vreg d) (vreg a) (vreg b) 0x06 t)
  | .vor d a b t => some (packTV (vreg d) (vreg a) (vreg b) 0x07 t)
  | .vshl d a b t => some (packTV (vreg d) (vreg a) (vreg b) 0x08 t)
  | .vshr d a b t => some (packTV (vreg d) (vreg a) (vreg b) 0x09 t)
  | .veq d a b t => some (packTV (vreg d) (vreg a) (vreg b) 0x0A t)
  | .vlt d a b t => some (packTV (vreg d) (vreg a) (vreg b) 0x0B t)
  | .vsplat d a t => some (packTV (vreg d) a 0 0x10 t)
  | .vget d a b t => some (packTV d (vreg a) b 0x11 t)
  | .vput d a b t => some (packTV (vreg d) a b 0x12 t)
  | .vcvt d a u t => some (packTV (vreg d) (vreg a) (vreg (BitVec.ofNat 4 (Machine.fmtCode u))) 0x13 t)
  | .vrsum d a t => some (packTV d (vreg a) 0 0x14 t)
  | .fadd d a b => some (packTR 0x31 d a b 0x000) | .fsub d a b => some (packTR 0x31 d a b 0x001)
  | .fmul d a b => some (packTR 0x31 d a b 0x002) | .fdiv d a b => some (packTR 0x31 d a b 0x003)
  | .fsqrt d a => some (packTR 0x31 d a 0 0x004) | .flt d a b => some (packTR 0x31 d a b 0x008)
  | .fcvtif d a => some (packTR 0x31 d a 0 0x010) | .fcvtfi d a => some (packTR 0x31 d a 0 0x011)
  | .aadd d a b r w => some (packAtom d a b r w 0) | .amax d a b r w => some (packAtom d a b r w 1)
  | .amin d a b r w => some (packAtom d a b r w 2) | .aand d a b r w => some (packAtom d a b r w 3)
  | .aor d a b r w => some (packAtom d a b r w 4) | .aswp d a b r w => some (packAtom d a b r w 5)
  | .acas d a b r w => some (packAtom d a b r w 6)
  | .afadd d a b r => some (packAtom d a b r 0 7) | .amaxa d a b r => some (packAtom d a b r 0 8)
  | .fenceAcq r => some (packFence r 1) | .fenceRel r => some (packFence r 2)
  | .fenceFull r => some (packFence r 3)
  | .tflip d a e n => some (packTR 0x36 d a 0 (e ++ n ++ (0 : BitVec 5)))
  | .twait a e => some (packTR 0x36 0 a 0 (e ++ (0 : BitVec 3) ++ (1 : BitVec 5)))
  | .recv d e => some (packChan d 0 0 0 e) | .recvv d e => some (packChan (vreg d) 0 0 1 e)
  | .send a e => some (packChan 0 a 0 2 e) | .sendv a e => some (packChan 0 (vreg a) 0 3 e)
  | .sendp a b c => some (packChan 0 a b 4 ((0 : BitVec 1) ++ c))
  | .maskc c => some (packChan 0 0 0 5 ((0 : BitVec 1) ++ c))
  | .unmaskc c => some (packChan 0 0 0 6 ((0 : BitVec 1) ++ c))
  | .sleepuntil a => some (packTI 0x38 0 a 0)
  | .flyc d a => some (packTR 0x39 d a 0 0) | .wngc d a => some (packTR 0x39 d a 0 1)
  | .tload a b => some (packTR 0x3A 0 a b 0)
  | .bara a r => some (packBarr a r 0) | .barw a r => some (packBarr a r 1)
  | .baraw a r => some (packBarr a r 2)
  | .ecall => some (packTR 0x3C 0 0 0 0) | .eret => some (packTR 0x3C 0 0 0 1)
  | .brk => some (packTR 0x3C 0 0 0 2)
  | _ => none

/-! ### Script entries (R60 to R68) -/

/-- Whether an opcode uses an operand field (R68). -/
inductive OpUse where
  | absent | optional | required
  deriving DecidableEq, Repr

/-- A row of R68: its operands, its range of extension words, and whether REP above 1 is allowed. -/
structure NodeRow where
  a : OpUse
  b : OpUse
  c : OpUse
  xmin : Nat
  xmax : Nat
  rep : Bool
  deriving DecidableEq, Repr

/-- The operand, extension-word and replication columns of R68. -/
def nodeRow (opc : Nat) : Option NodeRow :=
  match opc with
  | 0x00 => some ⟨.absent, .absent, .absent, 0, 3, false⟩
  | 0x01 => some ⟨.absent, .absent, .absent, 0, 1, false⟩
  | 0x02 => some ⟨.absent, .absent, .absent, 1, 3, false⟩
  | 0x03 => some ⟨.required, .absent, .absent, 1, 2, false⟩
  | 0x04 => some ⟨.required, .required, .absent, 0, 0, false⟩
  | 0x05 => some ⟨.required, .required, .required, 0, 0, false⟩
  | 0x06 => some ⟨.required, .required, .required, 0, 1, false⟩
  | 0x07 => some ⟨.required, .required, .absent, 0, 0, false⟩
  | 0x08 => some ⟨.required, .required, .absent, 0, 0, false⟩
  | 0x09 => some ⟨.required, .absent, .absent, 0, 0, false⟩
  | 0x0A => some ⟨.required, .absent, .absent, 0, 0, false⟩
  | 0x10 => some ⟨.required, .absent, .absent, 0, 0, true⟩
  | 0x11 => some ⟨.required, .required, .absent, 0, 0, true⟩
  | 0x12 => some ⟨.required, .required, .absent, 0, 0, true⟩
  | 0x13 => some ⟨.required, .required, .absent, 0, 0, true⟩
  | 0x14 => some ⟨.required, .required, .required, 0, 0, true⟩
  | 0x15 => some ⟨.required, .required, .required, 0, 0, true⟩
  | 0x16 => some ⟨.required, .required, .required, 0, 0, true⟩
  | 0x17 => some ⟨.required, .required, .absent, 0, 0, true⟩
  | 0x18 => some ⟨.required, .absent, .absent, 0, 0, true⟩
  | 0x19 => some ⟨.required, .absent, .absent, 0, 0, true⟩
  | 0x1A => some ⟨.required, .absent, .absent, 0, 0, true⟩
  | 0x1B => some ⟨.required, .required, .absent, 0, 0, true⟩
  | 0x1C => some ⟨.required, .required, .absent, 0, 0, true⟩
  | 0x1D => some ⟨.required, .required, .absent, 0, 0, true⟩
  | 0x1E => some ⟨.required, .required, .absent, 0, 0, true⟩
  | 0x1F => some ⟨.required, .required, .required, 0, 0, true⟩
  | 0x20 => some ⟨.required, .required, .absent, 0, 0, true⟩
  | 0x21 => some ⟨.required, .required, .absent, 0, 0, true⟩
  | 0x22 => some ⟨.required, .required, .absent, 0, 0, true⟩
  | 0x23 => some ⟨.required, .required, .absent, 0, 0, true⟩
  | 0x24 => some ⟨.required, .required, .absent, 0, 0, true⟩
  | 0x25 => some ⟨.required, .required, .absent, 0, 0, true⟩
  | 0x26 => some ⟨.required, .required, .absent, 0, 0, true⟩
  | 0x27 => some ⟨.required, .absent, .absent, 0, 0, true⟩
  | 0x28 => some ⟨.required, .required, .required, 0, 0, true⟩
  | 0x29 => some ⟨.required, .required, .absent, 0, 0, true⟩
  | 0x2A => some ⟨.required, .required, .absent, 0, 0, true⟩
  | 0x2B => some ⟨.required, .required, .absent, 0, 0, true⟩
  | 0x2C => some ⟨.required, .absent, .absent, 0, 0, true⟩
  | 0x2D => some ⟨.required, .required, .absent, 0, 0, true⟩
  | 0x2E => some ⟨.required, .required, .absent, 0, 0, true⟩
  | 0x2F => some ⟨.required, .required, .absent, 0, 0, true⟩
  | 0x30 => some ⟨.required, .required, .absent, 0, 0, true⟩
  | 0x31 => some ⟨.required, .required, .absent, 0, 0, true⟩
  | 0x32 => some ⟨.required, .absent, .absent, 0, 0, true⟩
  | 0x33 => some ⟨.required, .absent, .absent, 0, 0, true⟩
  | 0x34 => some ⟨.required, .absent, .absent, 0, 0, true⟩
  | 0x35 => some ⟨.required, .absent, .absent, 0, 0, true⟩
  | 0x36 => some ⟨.required, .absent, .absent, 0, 0, true⟩
  | 0x37 => some ⟨.required, .absent, .absent, 0, 0, true⟩
  | 0x38 => some ⟨.required, .absent, .absent, 0, 0, true⟩
  | 0x39 => some ⟨.required, .absent, .absent, 0, 0, true⟩
  | 0x3A => some ⟨.required, .required, .absent, 0, 0, true⟩
  | 0x3B => some ⟨.required, .required, .absent, 0, 0, true⟩
  | 0x40 => some ⟨.required, .absent, .absent, 0, 0, true⟩
  | 0x41 => some ⟨.required, .absent, .absent, 0, 1, true⟩
  | 0x42 => some ⟨.required, .optional, .absent, 1, 1, true⟩
  | 0x43 => some ⟨.required, .absent, .absent, 1, 2, true⟩
  | 0x44 => some ⟨.required, .absent, .absent, 0, 0, false⟩
  | 0x50 => some ⟨.required, .absent, .absent, 0, 0, true⟩
  | 0x51 => some ⟨.required, .absent, .absent, 0, 0, true⟩
  | 0x52 => some ⟨.required, .absent, .absent, 0, 0, true⟩
  | 0x53 => some ⟨.required, .absent, .absent, 0, 0, true⟩
  | 0x54 => some ⟨.required, .required, .absent, 0, 0, true⟩
  | 0x55 => some ⟨.required, .absent, .absent, 1, 1, true⟩
  | 0x56 => some ⟨.required, .absent, .absent, 1, 1, true⟩
  | 0x57 => some ⟨.required, .absent, .absent, 1, 1, true⟩
  | 0x58 => some ⟨.required, .absent, .absent, 1, 1, true⟩
  | 0x59 => some ⟨.required, .absent, .absent, 1, 1, true⟩
  | 0x5A => some ⟨.required, .absent, .absent, 0, 0, true⟩
  | 0x5B => some ⟨.required, .absent, .absent, 0, 0, true⟩
  | 0x5C => some ⟨.required, .absent, .absent, 0, 0, true⟩
  | 0x60 => some ⟨.optional, .absent, .optional, 1, 3, true⟩
  | 0x61 => some ⟨.required, .optional, .optional, 1, 3, true⟩
  | 0x62 => some ⟨.optional, .absent, .optional, 2, 3, true⟩
  | 0x63 => some ⟨.required, .optional, .optional, 2, 3, true⟩
  | 0x64 => some ⟨.required, .optional, .optional, 1, 2, true⟩
  | 0x65 => some ⟨.required, .absent, .absent, 0, 0, false⟩
  | 0x66 => some ⟨.required, .required, .optional, 0, 0, false⟩
  | 0x67 => some ⟨.required, .absent, .absent, 1, 1, false⟩
  | 0x68 => some ⟨.required, .absent, .absent, 0, 0, false⟩
  | 0x69 => some ⟨.required, .absent, .absent, 0, 0, false⟩
  | 0x6A => some ⟨.required, .absent, .optional, 2, 2, true⟩
  | 0x80 => some ⟨.required, .optional, .absent, 1, 2, false⟩
  | 0x81 => some ⟨.required, .absent, .absent, 2, 3, false⟩
  | 0x82 => some ⟨.required, .required, .absent, 2, 3, false⟩
  | 0x83 => some ⟨.required, .absent, .absent, 0, 0, false⟩
  | 0x84 => some ⟨.required, .absent, .absent, 1, 1, false⟩
  | 0x90 => some ⟨.required, .absent, .absent, 0, 0, false⟩
  | 0x91 => some ⟨.required, .required, .absent, 0, 0, false⟩
  | 0x92 => some ⟨.required, .absent, .absent, 0, 1, true⟩
  | 0xA0 => some ⟨.optional, .absent, .absent, 2, 3, true⟩
  | 0xA1 => some ⟨.required, .optional, .absent, 1, 1, false⟩
  | 0xA2 => some ⟨.required, .absent, .absent, 0, 1, false⟩
  | 0xA3 => some ⟨.required, .absent, .absent, 0, 1, false⟩
  | 0xA4 => some ⟨.required, .absent, .absent, 0, 1, false⟩
  | 0xA5 => some ⟨.absent, .absent, .absent, 0, 1, false⟩
  | _ => none

/-- The firing instruction of an opcode (R68). -/
def nodeOf (opc : Nat) (n : NodeF) : Option Instr :=
  match opc with
  | 0x00 => some (.constN n)
  | 0x01 => some (.iotaN n)
  | 0x02 => some (.srcN n)
  | 0x03 => some (.snkN n)
  | 0x04 => some (.steerN n)
  | 0x05 => some (.mergeN n)
  | 0x06 => some (.carryN n)
  | 0x07 => some (.invN n)
  | 0x08 => some (.gateN n)
  | 0x09 => some (.barN n)
  | 0x0A => some (.curtN n)
  | 0x10 => some (.movN n)
  | 0x11 => some (.addN n)
  | 0x12 => some (.subN n)
  | 0x13 => some (.mulN n)
  | 0x14 => some (.fmaN n)
  | 0x15 => some (.fmsN n)
  | 0x16 => some (.fnmaN n)
  | 0x17 => some (.divN n)
  | 0x18 => some (.sqrtN n)
  | 0x19 => some (.negN n)
  | 0x1A => some (.absN n)
  | 0x1B => some (.minN n)
  | 0x1C => some (.maxN n)
  | 0x1D => some (.mulhN n)
  | 0x1E => some (.remN n)
  | 0x1F => some (.clampN n)
  | 0x20 => some (.cmpeqN n)
  | 0x21 => some (.cmpneN n)
  | 0x22 => some (.cmpltN n)
  | 0x23 => some (.cmpleN n)
  | 0x24 => some (.cmpgtN n)
  | 0x25 => some (.cmpgeN n)
  | 0x26 => some (.cmpunN n)
  | 0x27 => some (.classN n)
  | 0x28 => some (.selN n)
  | 0x29 => some (.andN n)
  | 0x2A => some (.orN n)
  | 0x2B => some (.xorN n)
  | 0x2C => some (.notN n)
  | 0x2D => some (.andnN n)
  | 0x2E => some (.shlN n)
  | 0x2F => some (.shrN n)
  | 0x30 => some (.shraN n)
  | 0x31 => some (.rotlN n)
  | 0x32 => some (.popcN n)
  | 0x33 => some (.clzN n)
  | 0x34 => some (.ctzN n)
  | 0x35 => some (.brevN n)
  | 0x36 => some (.floorN n)
  | 0x37 => some (.ceilN n)
  | 0x38 => some (.truncN n)
  | 0x39 => some (.rintN n)
  | 0x3A => some (.copysignN n)
  | 0x3B => some (.absdiffN n)
  | 0x40 => some (.cvtN n)
  | 0x41 => some (.quantN n)
  | 0x42 => some (.deqN n)
  | 0x43 => some (.scaleN n)
  | 0x44 => some (.sclwN n)
  | 0x50 => some (.rsumN n)
  | 0x51 => some (.rmaxN n)
  | 0x52 => some (.rminN n)
  | 0x53 => some (.rmaxaN n)
  | 0x54 => some (.rdotN n)
  | 0x55 => some (.wsumN n)
  | 0x56 => some (.wmaxN n)
  | 0x57 => some (.wminN n)
  | 0x58 => some (.wmaxaN n)
  | 0x59 => some (.shufN n)
  | 0x5A => some (.bcastN n)
  | 0x5B => some (.packN n)
  | 0x5C => some (.unpackN n)
  | 0x60 => some (.ldsN n)
  | 0x61 => some (.stsN n)
  | 0x62 => some (.ldgN n)
  | 0x63 => some (.stgN n)
  | 0x64 => some (.atmN n)
  | 0x65 => some (.fencenN n)
  | 0x66 => some (.ordjN n)
  | 0x67 => some (.tfillN n)
  | 0x68 => some (.ttagN n)
  | 0x69 => some (.twaitnN n)
  | 0x6A => some (.ldiN n)
  | 0x80 => some (.mmaN n)
  | 0x81 => some (.mvmN n)
  | 0x82 => some (.gmmaN n)
  | 0x83 => some (.wscaleN n)
  | 0x84 => some (.mxmaxN n)
  | 0x90 => some (.tselN n)
  | 0x91 => some (.tswapN n)
  | 0x92 => some (.tevalN n)
  | 0xA0 => some (.chainN n)
  | 0xA1 => some (.csumN n)
  | 0xA2 => some (.flypN n)
  | 0xA3 => some (.wngpN n)
  | 0xA4 => some (.sendnN n)
  | 0xA5 => some (.recvnN n)
  | _ => none

/-- The opcode and fields of a node firing (R68). -/
def opcOf : Instr → Option (Nat × NodeF)
  | .constN n => some (0x00, n)
  | .iotaN n => some (0x01, n)
  | .srcN n => some (0x02, n)
  | .snkN n => some (0x03, n)
  | .steerN n => some (0x04, n)
  | .mergeN n => some (0x05, n)
  | .carryN n => some (0x06, n)
  | .invN n => some (0x07, n)
  | .gateN n => some (0x08, n)
  | .barN n => some (0x09, n)
  | .curtN n => some (0x0A, n)
  | .movN n => some (0x10, n)
  | .addN n => some (0x11, n)
  | .subN n => some (0x12, n)
  | .mulN n => some (0x13, n)
  | .fmaN n => some (0x14, n)
  | .fmsN n => some (0x15, n)
  | .fnmaN n => some (0x16, n)
  | .divN n => some (0x17, n)
  | .sqrtN n => some (0x18, n)
  | .negN n => some (0x19, n)
  | .absN n => some (0x1A, n)
  | .minN n => some (0x1B, n)
  | .maxN n => some (0x1C, n)
  | .mulhN n => some (0x1D, n)
  | .remN n => some (0x1E, n)
  | .clampN n => some (0x1F, n)
  | .cmpeqN n => some (0x20, n)
  | .cmpneN n => some (0x21, n)
  | .cmpltN n => some (0x22, n)
  | .cmpleN n => some (0x23, n)
  | .cmpgtN n => some (0x24, n)
  | .cmpgeN n => some (0x25, n)
  | .cmpunN n => some (0x26, n)
  | .classN n => some (0x27, n)
  | .selN n => some (0x28, n)
  | .andN n => some (0x29, n)
  | .orN n => some (0x2A, n)
  | .xorN n => some (0x2B, n)
  | .notN n => some (0x2C, n)
  | .andnN n => some (0x2D, n)
  | .shlN n => some (0x2E, n)
  | .shrN n => some (0x2F, n)
  | .shraN n => some (0x30, n)
  | .rotlN n => some (0x31, n)
  | .popcN n => some (0x32, n)
  | .clzN n => some (0x33, n)
  | .ctzN n => some (0x34, n)
  | .brevN n => some (0x35, n)
  | .floorN n => some (0x36, n)
  | .ceilN n => some (0x37, n)
  | .truncN n => some (0x38, n)
  | .rintN n => some (0x39, n)
  | .copysignN n => some (0x3A, n)
  | .absdiffN n => some (0x3B, n)
  | .cvtN n => some (0x40, n)
  | .quantN n => some (0x41, n)
  | .deqN n => some (0x42, n)
  | .scaleN n => some (0x43, n)
  | .sclwN n => some (0x44, n)
  | .rsumN n => some (0x50, n)
  | .rmaxN n => some (0x51, n)
  | .rminN n => some (0x52, n)
  | .rmaxaN n => some (0x53, n)
  | .rdotN n => some (0x54, n)
  | .wsumN n => some (0x55, n)
  | .wmaxN n => some (0x56, n)
  | .wminN n => some (0x57, n)
  | .wmaxaN n => some (0x58, n)
  | .shufN n => some (0x59, n)
  | .bcastN n => some (0x5A, n)
  | .packN n => some (0x5B, n)
  | .unpackN n => some (0x5C, n)
  | .ldsN n => some (0x60, n)
  | .stsN n => some (0x61, n)
  | .ldgN n => some (0x62, n)
  | .stgN n => some (0x63, n)
  | .atmN n => some (0x64, n)
  | .fencenN n => some (0x65, n)
  | .ordjN n => some (0x66, n)
  | .tfillN n => some (0x67, n)
  | .ttagN n => some (0x68, n)
  | .twaitnN n => some (0x69, n)
  | .ldiN n => some (0x6A, n)
  | .mmaN n => some (0x80, n)
  | .mvmN n => some (0x81, n)
  | .gmmaN n => some (0x82, n)
  | .wscaleN n => some (0x83, n)
  | .mxmaxN n => some (0x84, n)
  | .tselN n => some (0x90, n)
  | .tswapN n => some (0x91, n)
  | .tevalN n => some (0x92, n)
  | .chainN n => some (0xA0, n)
  | .csumN n => some (0xA1, n)
  | .flypN n => some (0xA2, n)
  | .wngpN n => some (0xA3, n)
  | .sendnN n => some (0xA4, n)
  | .recvnN n => some (0xA5, n)
  | _ => none

/-- The fields of word 0 and word 1, with the extension words that follow (R61, R62). -/
def entryFields (w0 w1 : Word) (ext : List Word) : NodeF where
  repm1 := w0.extractLsb' 50 6
  fmt := w0.extractLsb' 46 4
  wid := w0.extractLsb' 43 3
  rate := w0.extractLsb' 38 5
  ndt := w0.extractLsb' 37 1
  ord := w0.extractLsb' 36 1
  res := w0.extractLsb' 35 1
  scope := w0.extractLsb' 32 3
  mod := w0.extractLsb' 24 8
  cfg := w0.extractLsb' 0 24
  sa := ⟨w1.extractLsb' 44 18, w1.extractLsb' 42 2⟩
  sb := ⟨w1.extractLsb' 24 18, w1.extractLsb' 22 2⟩
  sc := ⟨w1.extractLsb' 4 18, w1.extractLsb' 2 2⟩
  ext := ext

/-- Why bytes are no script entry: an unassigned opcode, reserved bits of word 1, or words past the image. -/
inductive EntryErr where
  | opcode | reserved | truncated
  deriving DecidableEq, Repr

/-- Split one entry off an image (R60, R62): its firing instruction and the words that remain. -/
def decodeEntry : List Word → Except EntryErr (Instr × List Word)
  | w0 :: w1 :: rest =>
    let x := (w1.extractLsb' 0 2).toNat
    if w1.extractLsb' 62 2 = 0 then
      if rest.length < x then .error .truncated
      else
        match nodeOf (w0.extractLsb' 56 8).toNat (entryFields w0 w1 (rest.take x)) with
        | some i => .ok (i, rest.drop x)
        | none => .error .opcode
    else .error .reserved
  | _ => .error .truncated

def packOpnd (o : Opnd) : BitVec 20 := o.dist ++ o.port

/-- Word 0 of an entry (R61). -/
def packW0 (opc : BitVec 8) (n : NodeF) : Word :=
  opc ++ n.repm1 ++ n.fmt ++ n.wid ++ n.rate ++ n.ndt ++ n.ord ++ n.res ++ n.scope ++ n.mod ++ n.cfg

/-- Word 1 of an entry (R62). -/
def packW1 (n : NodeF) : Word :=
  (0 : BitVec 2) ++ packOpnd n.sa ++ packOpnd n.sb ++ packOpnd n.sc ++ BitVec.ofNat 2 n.ext.length

/-- The words of a node firing's entry (R60). -/
def encodeEntry (i : Instr) : Option (List Word) :=
  match opcOf i with
  | some (opc, n) => some (packW0 (BitVec.ofNat 8 opc) n :: packW1 n :: n.ext)
  | none => none

/-! ### Bytes and words, little-endian (R60, R71, R397) -/

def bytesOf (nb : Nat) (v : Nat) : List Byte :=
  match nb with
  | 0 => []
  | k + 1 => BitVec.ofNat 8 v :: bytesOf k (v / 256)

def natOf : List Byte → Nat
  | [] => 0
  | b :: bs => b.toNat + 256 * natOf bs

def wordsOfBytes : List Byte → List Word
  | a :: b :: c :: d :: e :: f :: g :: h :: rest =>
    BitVec.ofNat 64 (natOf [a, b, c, d, e, f, g, h]) :: wordsOfBytes rest
  | _ => []

def bytesOfWords (ws : List Word) : List Byte := ws.flatMap (fun w => bytesOf 8 w.toNat)

/-! ### Callboard commands (R398) -/

def cmdOfWords (ws : List Word) : Cmd :=
  ⟨ws.getD 0 0, ws.getD 1 0, ws.getD 2 0, ws.getD 3 0, ws.getD 4 0, ws.getD 5 0, ws.getD 6 0, ws.getD 7 0⟩

def Cmd.words (c : Cmd) : List Word := [c.w0, c.w1, c.w2, c.w3, c.w4, c.w5, c.w6, c.w7]

/-- The command a 64-byte write carries (R398). A write of another size, or with a code the table leaves out,
is the step CALLBOARD_OTHER_WRITE (R395, R397). POWER states 6 and 7 reach the POWER command that refuses
them. -/
def decodeCommand (win : Nat) (bytes : List Byte) : Instr :=
  if bytes.length = 64 then
    let c := cmdOfWords (wordsOfBytes bytes)
    match (c.w0.extractLsb' 0 8).toNat with
    | 0x01 => .launchCmd win c
    | 0x02 => .cueCmd win c
    | 0x03 => .cuerelCmd win c
    | 0x04 => .curtainCmd win c
    | 0x05 => .blackoutCmd win c
    | 0x06 => .resumeCmd win c
    | 0x07 => .replaceCmd win c
    | 0x08 => .releaseCmd win c
    | 0x09 => if c.w0.extractLsb' 8 1 = 0 then .unloadCmd win c else .unloadForceCmd win c
    | 0x0A => .tlbinvCmd win c
    | 0x0B => .debugCmd win c
    | 0x0C => .incqCmd win c
    | 0x0D => .attestCmd win c
    | 0x10 => .tenantCmd win c
    | 0x11 => .shareCmd win c
    | 0x12 =>
      if (c.w0.extractLsb' 12 3).toNat = 4 then .powerDarkCmd win c
      else if (c.w0.extractLsb' 12 3).toNat = 5 then .powerOffCmd win c
      else .powerRunningCmd win c
    | 0x13 => .leaveCmd win c
    | 0x14 => .quotaCmd win c
    | 0x15 => if c.w0.extractLsb' 27 1 = 0 then .soundSetCmd win c else .soundQueryCmd win c
    | 0x16 => .evictCmd win c
    | 0x17 => .podmapCmd win c
    | 0x18 => if c.w0.extractLsb' 8 1 = 0 then .checkpointSaveCmd win c else .checkpointRestoreCmd win c
    | 0x19 => .fwloadCmd win c
    | _ => .callboardOtherWrite win bytes
  else .callboardOtherWrite win bytes

/-- The bytes a callboard step writes (R397). -/
def commandBytes : Instr → Option (Nat × List Byte)
  | .launchCmd w c | .cueCmd w c | .cuerelCmd w c | .curtainCmd w c | .blackoutCmd w c | .resumeCmd w c
  | .replaceCmd w c | .releaseCmd w c | .unloadCmd w c | .unloadForceCmd w c | .tlbinvCmd w c
  | .debugCmd w c | .incqCmd w c | .attestCmd w c | .tenantCmd w c | .shareCmd w c | .powerRunningCmd w c
  | .powerDarkCmd w c | .powerOffCmd w c | .leaveCmd w c | .quotaCmd w c | .soundSetCmd w c
  | .soundQueryCmd w c | .evictCmd w c | .podmapCmd w c | .checkpointSaveCmd w c
  | .checkpointRestoreCmd w c | .fwloadCmd w c => some (w, bytesOfWords c.words)
  | .callboardOtherWrite w bs => some (w, bs)
  | _ => none

/-! ### One encoder for every instruction that has an encoding -/

/-- The bytes of an instruction as the part holds them: a task word of 4 bytes (R71), a script entry of
16 to 40 (R60), a callboard write (R397); empty for an event, which has no encoding. -/
def encode (i : Instr) : List Byte :=
  match encodeTask i with
  | some w => bytesOf 4 w.toNat
  | none =>
    match encodeEntry i with
    | some ws => bytesOfWords ws
    | none => match commandBytes i with
      | some (_, bs) => bs
      | none => []

/-- The instruction of a row of the opcode table from its bits: task words are the table's 32-bit rows. The word
is laid out as the store holds it, little-endian (R71), and read back by the task decoder. -/
def decodeTableWord (nbits w : Nat) : Option Instr :=
  if nbits = 32 then
    match decodeTask (BitVec.ofNat 32 (natOf (bytesOf 4 w))) with
    | .ok i => some i
    | .error _ => none
  else none

end Sys2Proof
end

