-- ==== Sys2Proof/Machine/State.lean ====
section
/-! DEFINITION. The state of one KV9 package: every piece of state spec/ names, as plain data, with the model's own
scheduling fields (who moves next, log 1) and the state right after reset. -/

namespace Sys2Proof.Machine

/-- Why a run stops with a fault. -/
inductive Fault where
  /-- Raised by HOST_MEMORY_ACCESS at a physical address that is neither HBM nor the host's own memory: R392
  exposes only the 768 GiB of HBM over CXL.mem, so such an address does not exist for the host (log 20). Safe: the model stops where no access exists. -/
  | noSuchHostAddress (addr : Nat)
  deriving DecidableEq, Repr

/-- Why a step is refused. -/
inductive Refusal where
  /-- Raised by an arm of `exec` that has no meaning yet. Safe: the model stops. -/
  | notModelled (mnemonic : String)
  deriving DecidableEq, Repr

/-- A sparse table keyed by a number; `Tab.get` and `Tab.set` of Machine/Ops.lean read and write it. -/
abbrev Tab (α : Type) := List (Nat × α)

/-- Memory: (address, byte) pairs, addresses strictly rising, no byte equal to what an unlisted address reads as
(log 3). One key space holds every byte memory of the package; Machine/Ops.lean lays it out. -/
abbrev Mem := List Host.Cell

/-! ### Who acts -/

/-- The unit a step happens at. -/
inductive Actor where
  | none
  | slot (cue vcell slot : Nat)
  | node (cue entry : Nat)
  | region (cue : Nat)
  | cell (cue vcell : Nat)
  | cue (cue : Nat)
  | die (die : Nat)
  | fly (engine : Nat)
  | wings (stack engine : Nat)
  | walk (unit tenant va : Nat) (write : Bool)
  | bank (cue vcell bank : Nat)
  | access (cue id : Nat)
  | tload (cue vcell slot : Nat)
  | barrier (cue vcell bar : Nat)
  | packet (id : Nat)
  | stop (plane ring stop : Nat)
  | window (win : Nat)
  | error (stretch kind a b addr : Nat)
  | host (req : HostReq)
  deriving DecidableEq, Repr

/-- What the next step is: a slot issues the word at its PC, a node takes what its operands hold, the host writes
a callboard window, which processes the command in the same step (`write`) or accepts it and processes it in a later
one (`accept`, `process`: how long that takes is not fixed, R397), the host writes at an offset of the BAR (R392, R395), or an
event happens at a unit. -/
inductive Pick where
  | slot (cue vcell slot : Nat)
  | node (cue entry : Nat)
  | write (win : Nat) (bytes : List Byte)
  | accept (win : Nat) (bytes : List Byte)
  | process (win : Nat)
  | bar (off : Nat) (bytes : List Byte)
  | event (i : Instr) (unit : Actor)
  deriving DecidableEq, Repr, Inhabited

/-! ### Tokens and channels (R9 to R11) -/

/-- A token (R10). A CFG token is one of four kinds: 0 WSCALE, 1 TSEL, 2 TSWAP (R164), 3 a scale-register load (R101). -/
inductive Token where
  | data (lanes : List Lane)
  | eos
  | curtain
  | cfg (kind target : Nat) (payload : List Lane)
  | order (scope : Nat)
  deriving DecidableEq, Repr

/-- One end of a channel: an entry's output port or operand, or a channel end of a task slot (R239). -/
inductive End where
  | entry (e k : Nat)
  | task (vcell slot e : Nat)
  deriving DecidableEq, Repr

/-- A hop of a route: `n` tracks of one length starting at box (x, y) in one direction, 0 +X, 1 -X, 2 +Y,
3 -Y (R314, R316). -/
structure Hop where
  x : Nat
  y : Nat
  dir : Nat
  len : Nat
  n : Nat
  deriving DecidableEq, Repr

/-- A channel in route order (R9, R11, R328): its ends, its width in lanes and RATE, the queue at its consumer
end of up to 4 tokens, its route, and its 24-bit traffic counter (R358). -/
structure Chan where
  prod : End
  cons : End
  wid : Nat := 16
  rate : Nat := 16
  q : List Token := []
  route : List Hop := []
  traffic : Nat := 0
  /-- The tick in which the head token reached the operand slot (R133). -/
  headAt : Nat := 0
  /-- The model's own: for each queued token, and for what the consumer last took, the accesses not yet performed that
  precede its next firing (R148). -/
  pre : List (List Nat) := []
  cur : List Nat := []
  deriving DecidableEq, Repr

/-! ### Task slots (R19 to R21) -/

/-- The states of R20, in code order. -/
inductive SlotSt where
  | free | idle | run | sleep | wait | supv | frozen | done
  deriving DecidableEq, Repr

/-- What a slot in WAIT waits for (R20 and the instruction pages). -/
inductive WaitFor where
  | nothing
  | head (e : Nat)            -- a token on input end e (R210)
  | space (e : Nat)           -- a free slot on output end e (R211)
  | tag (tile e : Nat)        -- tile tag (R209)
  | tiles (vcell : Nat) (ts : List Nat)   -- tiles to return to the fabric (R29)
  | barrier (b phase : Nat)   -- a barrier phase (R220)
  | walk (va : Nat) (write : Bool)        -- a page walk (R198)
  | bucket                    -- a bucket request (R354)
  | leave                     -- a leave request (R216, R218)
  | room (unit : Nat)         -- a full queue: a Fly engine, or 64 + 2 × stack + queue (R300, R308)
  | copy (s : Nat)            -- an earlier TLOAD of slot s (R219)
  | port (c : Nat)            -- credit, quota or an exchange, for class c (R212, R348, R363)
  | quota                     -- flit quota of the cell's port, or an exchange (R353, R363)
  | own                       -- the slot's own stores to be performed (R208, R216, R218, R220)
  | stores (rs : List (Nat × Nat))        -- its own stores to these ranges of memory (R268)
  | answer                    -- the answer to its memory requests (R248, R340), or its banks (R247)
  | queue                     -- room in the queue of the task element's scratchpad port (R247)
  deriving DecidableEq, Repr

/-- One task slot (R19, R22). -/
structure Slot where
  g : Vector Word 32 := Vector.replicate 32 0
  v : Vector (Vector Lane 16) 16 := Vector.replicate 16 (Vector.replicate 16 0)
  pc : BitVec 16 := 0
  st : SlotSt := .free
  bind : BitVec 6 := 0
  ssp : BitVec 32 := 0
  ssbase : BitVec 32 := 0
  sslim : BitVec 32 := 0
  tvec : BitVec 16 := 0
  tcause : Word := 0
  trapval : Word := 0
  tepc : BitVec 16 := 0
  tstat : BitVec 2 := 0
  cmask : BitVec 16 := 0
  sleepTill : Word := 0
  waiting : WaitFor := .nothing
  /-- The state a FROZEN slot held before it froze (R382). -/
  before : SlotSt := .free
  /-- Host entry, send mask and code object of the slot record, and its entry address (R242). -/
  host : Nat := 0
  sends : BitVec 16 := 0
  code : Nat := 0
  entryPc : BitVec 16 := 0
  /-- The last token taken was EOS (R214); the slot stopped at a curtain (R378). -/
  ended : Bool := false
  /-- The slot has ended at least once (R293). -/
  endedOnce : Bool := false
  stopped : Bool := false
  /-- Packets queued on the bound class and not yet taken: source cell and tag with each token (R210, R349). -/
  queue : List (Nat × Nat × Token) := []
  /-- Markers still to be sent on the slot's send classes: class and kind, and the tick they go out in (R418). -/
  markers : List (Nat × Token) := []
  markersAt : Nat := 0
  /-- The barrier and phase a BARW or BARAW in progress waits for, kept over its re-issue (R220). -/
  arrived : Option (Nat × Nat) := none
  /-- Receivers that the SENDP in progress has reached by a unicast of their own, bit i for receiver i (R350). -/
  sent : Nat := 0
  deriving DecidableEq, Repr

/-! ### Nodes (R16 to R18) -/

/-- State of one copy of a node (R16): P1 to P6, the eight stall counters, SCL0 to SCL3, TBIND, BSEL. -/
structure Elem where
  p : Vector (Vector Lane 16) 6 := Vector.replicate 6 (Vector.replicate 16 0)
  stall : Vector (BitVec 16) 8 := Vector.replicate 8 0
  scl : Vector Lane 4 := Vector.replicate 4 0
  tbind : BitVec 5 := 0
  bsel : Bool := false
  deriving DecidableEq, Repr

/-- Opcode state of a node; the pages name which of these an opcode keeps. -/
structure OpSt where
  /-- CARRY PH and INV's held mark; SRC and SNK descriptor closed; TSEL start done; WNGP first half present. -/
  flag : Bool := false
  /-- CURT count, window count, SRC RCOUNT, TFILL offset, CHAIN next i, CSUM bytes, matrix step. -/
  n : Nat := 0
  /-- A second counter: TFILL tile, CHAIN pass, CSUM block number, MVM drain position. -/
  m : Nat := 0
  /-- CARRY HELD, INV HOLD, the token BAR, ORDJ or FENCEN holds. -/
  held : Option Token := none
  /-- Partial tree of a window: finished subtrees, the latest first, each with its level (R110). -/
  win : List (Nat × List Lane) := []
  /-- MVM gathered inputs, WNGP halves, MMA outputs not yet given. -/
  rows : List (List Lane) := []
  /-- Outputs computed and not yet given, in order. -/
  out : List Token := []
  /-- A deadline or barrier phase, and the leave or path of the operation in progress. -/
  phase : Nat := 0
  asked : Bool := false
  granted : Bool := false
  /-- Control tokens taken within an MVM call and applied or forwarded after it (R179). -/
  later : List Token := []
  /-- PRMCNT, stage and wings path (R22). -/
  prm : Nat := 0
  prmw : Nat := 0
  deriving DecidableEq, Repr

/-- State of one node of a region. -/
structure Node where
  /-- Next firing index (R17). -/
  fire : Nat := 0
  elems : Tab Elem := []
  op : OpSt := {}
  eos : Bool := false
  curt : Bool := false
  /-- Fired in the present tick (R14). -/
  fired : Bool := false
  /-- The cause this node last waited for, as a stall priority of R14 less one. -/
  cause : Nat := 6
  /-- Faulting tokens with the operand each was taken from (R374, R382). -/
  faulting : List (Nat × Token) := []
  /-- Weight-scale configured values of a matrix node, rows 0 to 31 (R18). -/
  wsc : List (BitVec 16) := []
  /-- Results of Wings commands by command number, until given in order (R157). -/
  results : Tab (List Token) := []
  /-- Counters cleared in the present tick, as (copy, stall cause) and (0, 16 + path) of the Prompter's (R202). -/
  cleared : List (Nat × Nat) := []
  deriving DecidableEq, Repr

/-- A byte range of an access: its memory key, length and, for a global page, the leaf. -/
structure Seg where
  key : Nat
  len : Nat
  leaf : Option Word := none
  deriving DecidableEq, Repr

/-- Kinds of node access; a poll is a descriptor read that waits for its page. -/
inductive AccKind where
  | load | store | atomic | poll
  deriving DecidableEq, Repr

/-- A node access that has been presented and is not yet performed (R144 to R146, R247, R248, R258). -/
structure Acc where
  /-- Age within the region, shared with task stores. -/
  id : Nat := 0
  /-- The node's entry and copy, its firing index, and the virtual cells the access comes from and goes to. -/
  entry : Nat := 0
  copy : Nat := 0
  fire : Nat := 0
  cell : Nat := 0
  target : Nat := 0
  kind : AccKind := .load
  /-- Where it is performed: 0 global, 1 own scratchpad, 2 another cell's. -/
  space : Nat := 0
  /-- Runs of bytes: address or offset, and length; a run of length 0 gives a lane of 0. -/
  ptrs : List (Nat × Nat) := []
  /-- The same runs as memory ranges, once translated. -/
  segs : List (List Seg) := []
  fmt : Nat := 13
  xfmt : Nat := 15
  /-- Token lanes stored or combined, the compare lanes of ACAS, the atomic's operation. -/
  lanes : List Lane := []
  cmp : List Lane := []
  op : Nat := 0
  /-- Bytes stored. -/
  bytes : List Byte := []
  /-- A token given on port 0 in place of the loaded one (MXMAX). -/
  pass : Option Token := none
  /-- Port 0 gives what the access returns. -/
  gives : Bool := false
  /-- An ORDER token is owed on port 1, at this scope (R144). -/
  owed : Option Nat := none
  /-- A tile that flips fabric/0 to fabric/1 when the store is performed (R154). -/
  flip : Option Nat := none
  /-- The store writes CLOSED (R131). -/
  closes : Bool := false
  /-- Withheld on a translation fault: virtual address and cause (R146, R389). -/
  withheld : Option (Nat × Nat) := none
  /-- Banks that have not yet served their part (R247). -/
  banks : List Nat := []
  /-- The tick it was presented in, and the accesses that precede its firing (R148, R247). -/
  made : Nat := 0
  pre : List Nat := []
  /-- The tokens its firing took, with their operands. -/
  took : List (Nat × Token) := []
  /-- What its pages' FMT must be: 0 anything, 1 the node's (R146), 2 that of an atomic (R152), 3 of MXMAX (R180). -/
  pages : Nat := 0
  /-- Leave the firing index as it is when it faults: the access belongs to no firing of its own. -/
  extra : Bool := false
  /-- Performed, with the token it returns; given on in firing order (R144, R247). -/
  done : Bool := false
  res : Option Token := none
  /-- MRSPs that have not reached its cell yet (R340, R346). -/
  answers : Nat := 0
  deriving DecidableEq, Repr

/-- A task store that has issued and is not yet performed (R199, R266): the storing slot, its bytes by memory key,
and where it is performed: 0 the slice or port of a global page, 1 the cell's scratchpad, 2 another cell's. -/
structure PStore where
  id : Nat
  vcell : Nat
  slot : Nat
  space : Nat
  segs : List (Nat × List Byte)
  /-- The virtual cell whose scratchpad it goes to. -/
  target : Nat
  /-- The tick it reached its port in, and the banks that have not yet served their part (R247). -/
  made : Nat := 0
  banks : List Nat := []
  deriving DecidableEq, Repr

/-! ### Cells of a region -/

/-- Barrier state of one cell: phases completed in its domain, and the arrivals so far of each member that stands
in the cell (R293): slot k at key k, the BAR entry e at key 16 + e. -/
structure Barrier where
  phase : Nat := 0
  arrivals : Tab Nat := []
  deriving DecidableEq, Repr

/-- A TLOAD copy in progress (R219): slot, bank, the image's bytes read so far. -/
structure TCopy where
  slot : Nat
  bank : Nat
  bytes : List Byte
  by_ : Nat
  deriving DecidableEq, Repr

/-- One virtual cell of a region. -/
structure VCell where
  /-- Serpentine index of its site on the region's die (R313). -/
  site : Nat := 0
  slots : Tab Slot := []
  /-- Tile tags, OWNER in [2:1] and FULL in [0] (R27). -/
  tags : Tab (BitVec 3) := []
  /-- Front bank of each Table Store slot (R183). -/
  front : Tab Nat := []
  tloads : List TCopy := []
  /-- Data-marked lines of the instruction store (R226, R237). -/
  marked : List (Nat × Nat) := []
  barriers : Tab Barrier := []
  /-- The freeze wave has reached this cell (R381). -/
  frozen : Bool := false
  /-- The slot next in the issue rotation, and the tick of the last issue (R20). -/
  turn : Nat := 0
  issuedAt : Option Nat := none
  /-- The Table Store's service: the tick it last served in, the blocks given in it, the element its order began with in it,
  and the last element served (R189). -/
  tabAt : Nat := 0
  tabUsed : Nat := 0
  tabStart : Nat := 0
  tabLast : Nat := 15
  /-- For each tile, the tick of the last flip and its place in that tick's order (R28). -/
  flips : Tab (Nat × Nat) := []
  deriving DecidableEq, Repr

/-! ### Engine commands -/

/-- A queued or running Fly command (R297 to R302, R408). -/
structure FlyCmd where
  seq : Nat
  cue : Nat
  vcell : Nat
  /-- The issuing agent: a node's entry, or a slot number. -/
  task : Bool
  agent : Nat
  /-- Own-engine command, ordered by R426. -/
  own : Bool
  c : Cmd
  promise : Nat
  /-- The tick it reached the engine in (R300). -/
  made : Nat := 0
  /-- The promise last told to a waiting slot: at queueing d of FLYC, then each TRAPVAL of FLY_LATE (R217). -/
  told : Nat := 0
  /-- The path rate of R301, for later promises. -/
  reff : Nat := 1
  /-- The command's tiles have flipped, its flag not yet stored (R300). -/
  flipped : Bool := false
  /-- Bytes written, and the piece read and not yet written. -/
  done : Nat := 0
  piece : Option (List Byte) := none
  started : Bool := false
  withheld : Option (Nat × Nat) := none
  stopped : Bool := false
  /-- A promise of it has expired (R302). -/
  late : Bool := false
  /-- The issuing node's firing, or the PC of the issuing slot (R388); and when the access now withheld was presented, with the
  progress it belongs to (R377). -/
  fire : Nat := 0
  heldAt : Option (Nat × Nat) := none
  deriving DecidableEq, Repr

structure FlyEng where
  q : List FlyCmd := []
  deriving DecidableEq, Repr

/-- A queued or running Wings block, or a wings-path call of an MVM node (R303 to R311, R429). -/
structure WBlk where
  cue : Nat
  vcell : Nat
  task : Bool
  agent : Nat
  call : Bool := false
  /-- Command number of a WNGP. -/
  seq : Nat := 0
  /-- The tick it reached the unit in (R308). -/
  made : Nat := 0
  words : List Word := []
  /-- X of a call, lanes in XFMT per vector, and the row scale values it takes along. -/
  x : List (List Lane) := []
  sr : List (BitVec 16) := []
  /-- Progress: next element, byte or piece; bytes gathered so far; bytes or rows computed. -/
  pos : Nat := 0
  buf : List Byte := []
  res : List Byte := []
  rows : List (List Lane) := []
  /-- Format code and geometry of the weights, once WBASE's page has been reached. -/
  geo : Option (Nat × Nat) := none
  /-- An element read and not yet written. -/
  held : Option (List Byte) := none
  /-- All work done; tiles flipped. -/
  finished : Bool := false
  flipped : Bool := false
  status : Nat := 0
  withheld : Option (Nat × Nat) := none
  stopped : Bool := false
  /-- As for a Fly command (R377). -/
  fire : Nat := 0
  heldAt : Option (Nat × Nat) := none
  deriving DecidableEq, Repr

/-! ### Regions -/

/-- A fault, violation or double trap recorded for the incident and the fault list (R376, R388). -/
structure Rec where
  w0 : Word := 0
  w1 : Word := 0xFFFFFFFF
  w2 : Word := 0
  w3 : Word := 0
  w4 : Word := 0
  w5 : Word := 0
  w6 : Word := 0
  w7 : Word := 0
  deriving DecidableEq, Repr

/-- A freeze in progress (R376, R381): its first tick, its starting cell, its tableau kind, and the incident held
for readout. -/
structure Freeze where
  t0 : Nat
  start : Nat
  kind : Nat
  incident : Rec
  deriving DecidableEq, Repr

/-- A receiver of a route class: a task slot bound to it, or a RECVN entry (R348). -/
inductive Recv where
  | slot (vcell slot : Nat)
  | node (entry : Nat)
  deriving DecidableEq, Repr

/-- A class entry of a region (R348): receivers, sending cells, the credits of each sender for each receiver
(keyed 65,536 × sending cell + receiver index), the queue of each RECVN receiver as (source cell, tag, token),
and the markers each receiver holds, as (receiver index, sending cell, kind) (R349). -/
structure ClassEnt where
  recvs : List Recv := []
  senders : List Nat := []
  credits : Tab Nat := []
  queues : Tab (List (Nat × Nat × Token)) := []
  marks : List (Nat × Nat × Nat) := []
  deriving DecidableEq, Repr

/-- A Crossing exchange in progress (R363 to R366). -/
structure Exchange where
  /-- Serpentine indices of the pair and the virtual cells that stood there at the swap instant. -/
  a : Nat
  b : Nat
  va : Option Nat := none
  vb : Option Nat := none
  /-- 0 settling, 1 transferring, 2 committed. -/
  stage : Nat := 0
  /-- The tick the transfer ends, then the tick of the commit. -/
  finish : Nat := 0
  /-- The channels of the moved cells are all routed again; an attempt has failed since the last frame boundary. -/
  routed : Bool := false
  tried : Bool := false
  /-- The forwarding lease has ended. -/
  leaseOver : Bool := false
  /-- Rest of the two sites before the swap: RLEFT, RLEN and PART. -/
  restA : Nat × Nat × Option (Nat × Nat) := (0, 0, none)
  restB : Nat × Nat × Option (Nat × Nat) := (0, 0, none)
  deriving DecidableEq, Repr

/-- A placed region (R8, R241, R286), keyed in `State.regions` by its cue. -/
structure Region where
  tenant : Nat := 0
  die : Nat := 0
  /-- The launch record and its lists, and the script image, as read (R60, R243, R407). -/
  launch : List Word := []
  slotRecs : List Word := []
  endRecs : List Word := []
  tableRecs : List Word := []
  codeRecs : List Word := []
  image : List Word := []
  tableImages : List (List Byte) := []
  codeImages : List (List Byte) := []
  lrec : Nat := 0
  /-- The decoded entries. -/
  entries : List Instr := []
  /-- First virtual cell and first element of each entry (R322). -/
  cellOf : List (Nat × Nat) := []
  cells : Tab VCell := []
  ncells : Nat := 0
  nodes : Tab Node := []
  chans : List Chan := []
  accs : List Acc := []
  nextAcc : Nat := 0
  /-- Task stores not yet performed, in issue order. -/
  pend : List PStore := []
  classes : Tab ClassEnt := []
  /-- Loaded and started (R286); completed. -/
  loaded : Bool := false
  started : Bool := false
  startTick : Nat := 0
  /-- The present tick, as the region's channels see it. -/
  now : Nat := 0
  /-- First frame of the region's Crossing windows (R357). -/
  winBase : Nat := 0
  /-- Fault hold count (R377). -/
  holdCount : Nat := 0
  /-- A curtain in progress, with the frame boundaries passed since its command (R378 to R380). -/
  curtain : Bool := false
  curtFrames : Nat := 0
  freeze : Option Freeze := none
  faults : List Rec := []
  xfaults : Nat := 0
  /-- Frozen and read out, or frozen and waiting for arena room (R383). -/
  frozen : Bool := false
  fullPosted : Bool := false
  /-- Physical address and length of the region's tableau, kind and CURT bit. -/
  tableau : Option (Nat × Nat) := none
  tkind : Nat := 0
  tcurt : Bool := false
  /-- TARGET_DARK and TARGET_OFF incidents already posted (R387): code and die. -/
  darkPosted : List (Nat × Nat) := []
  /-- Engine commands of the region kept while it is frozen (R299, R375, R381). -/
  parkedFly : List (Nat × FlyCmd) := []
  parkedWings : List (Nat × WBlk) := []
  exchanges : List Exchange := []
  /-- The frame of the region's last swap instant. -/
  instant : Nat := 0
  deriving DecidableEq, Repr

/-! ### Cues, jobs, tenants and windows -/

/-- The states of R280, in code order. -/
inductive CueSt where
  | free | waiting | ready | placing | running | frozen | failed
  deriving DecidableEq, Repr

/-- One Cue Sheet entry (R277, R278, R399). -/
structure Cue where
  st : CueSt := .free
  /-- 0 graph, 1 COND, 2 LOOP, 3 SWITCH. -/
  kind : Nat := 0
  tenant : Nat := 0
  count : Nat := 0
  preds : Nat := 0
  rearm : Bool := false
  job : Nat := 0
  lrec : Nat := 0
  succ : List Nat := []
  njreg : Nat := 0
  nsreg : Nat := 0
  addr : Nat := 0
  split : Nat := 0
  recount : Nat := 0
  iter : Nat := 0
  /-- Status entry: updates, start tick, done tick, failure record (R399). -/
  updates : Nat := 0
  startTick : Nat := 0
  doneTick : Nat := 0
  failure : List Word := []
  /-- Tick in which the cue became READY (R282). -/
  readyAt : Nat := 0
  deriving DecidableEq, Repr

/-- A region placed for a job (R425): its cue, the number of the LAUNCH it came from, its SCRIPT address and NSREG, and whether
it has started or completed. -/
structure JobReg where
  cue : Nat
  launch : Nat
  script : Nat
  nsreg : Nat
  started : Bool := false
  completed : Bool := false
  deriving DecidableEq, Repr

/-- A job of a tenant (R425). -/
structure Job where
  njreg : Nat := 0
  launched : Nat := 0
  /-- Cues of the job, in launch order. -/
  cues : List Nat := []
  placed : List JobReg := []
  deriving DecidableEq, Repr

/-- A tenant's binding and its bandwidth state (R354, R428). -/
structure Tenant where
  bound : Bool := false
  win : Option Nat := none
  cueBase : Nat := 0
  ncue : Nat := 0
  troot : Nat := 0
  tsbase : Nat := 0
  tslim : Nat := 0
  classMask : BitVec 16 := 0
  stackMask : BitVec 12 := 0
  arena : Nat := 0
  arenaLen : Nat := 0
  cstat : Nat := 0
  /-- SHARE_t, all ones unthrottled, and a SHARE waiting for the next boundary (R354, R398). -/
  share : Nat := 2 ^ 64 - 1
  sharePending : Option Nat := none
  bkt : Int := 0
  demand : Bool := false
  /-- Requests of the present tick with their rank; waiting requests in the order they began to wait, with the bytes of
  each part not yet granted; and requests granted and not yet used. -/
  asks : List (Nat × Actor × List Nat) := []
  waiters : List (Actor × List Nat) := []
  grants : List Actor := []
  /-- Tableaux held in the arena: address, length, STALE mark, IMAGE addresses named, cue (R383, R385). -/
  tableaux : List (Nat × Nat × Bool × List Nat × Nat) := []
  /-- UNLOADs deferred while pinned, and code objects unloaded (R385). -/
  deferred : List Nat := []
  unloaded : List Nat := []
  deriving DecidableEq, Repr

/-- A callboard window (R395, R396, R400). -/
structure Win where
  tenant : Option Nat := none
  state : Nat := 0
  lost : Bool := false
  result : Nat := 0
  seq : BitVec 32 := 0
  record : List Word := []
  /-- The command still BUSY (R397). -/
  busy : Option Instr := none
  /-- The bytes of a command accepted and not yet processed, and whether the one processed now was counted when it was
  accepted (R397). -/
  taken : Option (List Byte) := none
  counted : Bool := false
  /-- Incident ring: BASE and LOG2N, PROD, LOST, incidents held while it is full (R400). -/
  ring : Option (Nat × Nat) := none
  prod : BitVec 32 := 0
  dropped : BitVec 32 := 0
  held : List Rec := []
  deriving DecidableEq, Repr

/-! ### Dies, stacks and engines -/

/-- The power states of R6. -/
inductive Power where
  | full | even | low | dim | dark | off
  deriving DecidableEq, Repr

/-- A leave request (R290): who asks, and how many units. -/
structure LeaveReq where
  who : Actor
  units : Nat
  /-- The tick it was made in, and its rank among the requests of a tick. -/
  made : Nat := 0
  rank : Nat := 0
  deriving DecidableEq, Repr

/-- One die. -/
structure Die where
  power : Power := .full
  /-- A transition commanded and not reached (R401, R402). -/
  target : Option Power := none
  /-- The frame boundary at which the transition starts has passed (R401). -/
  moving : Bool := false
  tripped : Bool := false
  lb : Nat := 64
  lbPending : Option Nat := none
  left : Nat := 64
  leaveQ : List LeaveReq := []
  leaveGranted : List Actor := []
  fq : Nat := 2048
  fqPending : Option Nat := none
  /-- Soundness map, bit s for serpentine index s (R332). -/
  sound : BitVec 576 := BitVec.allOnes 576
  /-- Correctable errors counted, by stretch code (R390). -/
  errors : Tab Nat := []
  /-- The graph cue the Blocking Engine is placing (R320). -/
  placing : Option Nat := none
  /-- Swap instants of the die so far, and the frame that the last of them began (R362). -/
  instants : Nat := 0
  instantMark : Nat := 0
  deriving DecidableEq, Repr

/-- A physical cell: flit quota used in this frame, and its Crossing rest (R353, R362). -/
structure PCell where
  used : Nat := 0
  rleft : Nat := 0
  rlen : Nat := 0
  partner : Option (Nat × Nat) := none
  deriving DecidableEq, Repr

/-- A Wings unit and its stack (R262, R308): queue of the MVM engine, the second queue, and what each engine
runs: 0 MVM, 1 REDUCE, 2 to 5 the indirect streams. -/
structure Wings where
  qm : List WBlk := []
  qs : List WBlk := []
  running : Tab WBlk := []
  evlow : Nat := 0
  freeList : Nat := 0
  sweep : Nat := 0
  stuck : Bool := false
  /-- An eviction in progress: tenant, address of the leaf, virtual page, old and new physical page (R263). -/
  evicting : Option (Nat × Nat × Nat × Nat × Nat) := none
  deriving DecidableEq, Repr

/-- A cached translation (R256): valid leaf by tenant and page base. -/
structure TlbEnt where
  unit : Nat
  tenant : Nat
  va : Nat
  size : Nat
  leaf : Word
  dirty : Bool
  deriving DecidableEq, Repr

/-! ### The packet network (R336 to R346, R419, R420) -/

/-- A place a packet has taken: a ring's stop and virtual channel, or a bridge buffer; where its header came from (0 the
ring, 1 the injection port, 2 a bridge), the tick it reached the place, the tick it left and by which output (R419).
The place of a copy that a branch stop split off counts no flits again. -/
structure PktHop where
  ring : Nat
  stop : Nat
  vc : Nat
  origin : Nat
  arrive : Nat
  leave : Option Nat := none
  out : Nat := 0
  ghost : Bool := false
  deriving DecidableEq, Repr

/-- A destination of a packet: a receiver index of its class, or a virtual cell for CREDIT, MREQ and MRSP, and the site it lies
at; a Wings unit has site 576 + stack (R338), a memory slice, to which R338 gives no number, 600 + 24 × column + y (log 10). -/
structure Dst where
  recv : Nat
  die : Nat
  site : Nat
  deriving DecidableEq, Repr

/-- The request flit of an MREQ (R340): offset, operation (0 read, 1 write) and bytes less one; who makes it, and the number of
the access it belongs to, which the MRSP that answers it carries too. -/
structure MemFlit where
  who : Actor := .none
  acc : Nat
  off : Nat := 0
  op : Nat := 0
  count : Nat
  deriving DecidableEq, Repr

/-- A packet presented to a port or in the network (R338). -/
structure Packet where
  id : Nat
  cue : Nat
  /-- 0 plane Q, 1 plane P (R341). -/
  plane : Nat
  /-- 0 DATA, 1 EOS marker, 2 CURTAIN marker, 3 MREQ, 4 MRSP, 5 CREDIT. -/
  kind : Nat
  len : Nat
  frame : Nat := 0
  ten : Nat
  cls : Nat
  tag : Nat := 0
  lanes : List Lane := []
  mc : Bool := false
  srcDie : Nat
  srcSite : Nat
  srcCell : Nat
  dsts : List Dst
  /-- Injected into the network; the tick it was presented. -/
  injected : Bool := false
  presented : Nat := 0
  /-- A frame boundary lets it go although it is longer than FQ (R353). -/
  long : Bool := false
  /-- Its places, the latest first, while any of its flits may still be there. -/
  hops : List PktHop := []
  /-- The tick its tail crosses into its destination stop (R419); its receivers have it, and its links are in use to the
  end of that tick. -/
  arrives : Option Nat := none
  taken : Bool := false
  mem : Option MemFlit := none
  deriving DecidableEq, Repr

/-- Operations of R152 and R207, in encoding order. -/
inductive AtomOp where
  | add | max | min | and | or | swp | cas | fadd | maxa
  deriving DecidableEq, Repr

/-- What an access does to its bytes: read n of them, write others, or an atomic of n bytes with operands b and d (R207). -/
inductive MemJob where
  | read (n : Nat)
  | write (bytes : List Byte)
  | atom (op : AtomOp) (n b d : Nat)
  deriving DecidableEq, Repr

/-- An access whose requester goes on once its answer has come: a task load, an atomic or a store to a strong page, a node's read
of a descriptor or of weights, and a task access that waits at its scratchpad's banks (R247, R248, R340). -/
structure Fetch where
  who : Actor
  cue : Nat
  id : Nat
  /-- What the requester asks for. -/
  key : Nat
  /-- 0 global, 1 the own scratchpad, 2 another cell's; the virtual cells it comes from and goes to, and the ranges there. -/
  space : Nat
  cell : Nat
  target : Nat
  ranges : List (Nat × Nat)
  /-- Addresses and lengths of its MREQs. -/
  parts : List (Nat × Nat)
  job : MemJob
  /-- The tick it reached its scratchpad's port in, and the banks that have not yet served their part (R247). -/
  made : Nat := 0
  banks : List Nat := []
  /-- It has been performed there, and its MRSPs are sent; the bytes it read. -/
  served : Bool := false
  bytes : List Byte := []
  deriving DecidableEq, Repr

/-- The package. -/
structure State where
  /-- CYC, the reference tick counter (R5). -/
  cyc : Word
  /-- The model's own: who moves next, steps due in this tick, who moves now, the counter of free values. -/
  pick : Option Pick
  due : List (Instr × Actor)
  actor : Actor
  free : Nat
  /-- The frame whose boundary has been run, the model's own. -/
  framed : Nat
  mem : Mem
  tlb : List TlbEnt
  cues : Tab Cue
  /-- READY cues in the order they became READY (R282). -/
  readyQ : List Nat
  jobs : Tab Job
  regions : Tab Region
  tenants : Tab Tenant
  windows : Tab Win
  /-- The window that took a command last, with the tick (R397). -/
  accepted : Option (Nat × Nat)
  dies : Tab Die
  pcells : Tab PCell
  flys : Tab FlyEng
  nextFly : Nat
  wings : Tab Wings
  packets : List Packet
  nextPkt : Nat
  /-- Accesses that wait for their answer, in the order they were made. -/
  fetches : List Fetch
  podmap : Tab Word
  /-- Digest of the image FWLOAD has loaded, empty while the boot image runs; the fused security version counter; and the
  accept-only-FWLOAD mark (R405). -/
  fwDigest : List Byte
  fwVersion : Nat
  fwOnly : Bool
  deriving DecidableEq, Repr

/-- Right after reset: every cue FREE (R280), LB 64 (R309), FQ 2,048 (R353); memory lists nothing; the values the
spec does not give are those of logs 2 and 3. -/
def State.reset : State where
  cyc := 0
  pick := none
  due := []
  actor := .none
  free := 0
  framed := 0
  mem := []
  tlb := []
  cues := []
  readyQ := []
  jobs := []
  regions := []
  tenants := []
  windows := []
  accepted := none
  dies := [(0, {}), (1, {}), (2, {}), (3, {})]
  pcells := []
  flys := []
  nextFly := 0
  wings := []
  packets := []
  nextPkt := 0
  fetches := []
  podmap := []
  fwDigest := []
  fwVersion := 0
  fwOnly := false

end Sys2Proof.Machine
end

