-- ==== Sys2Proof/Config.lean ====
section
/-! DEFINITION. What the spec leaves open, as constants without a body: nothing can evaluate them, so a claim holds
whatever they are. Each is applied to the counter State.free, or to the operands it depends on. -/

namespace Sys2Proof.Config

/-- Which agent moves next, when nothing is picked and nothing is due in this tick (R1: no result depends on it;
log 1). -/
opaque schedule : Nat → Machine.Pick

/-- A free choice between two allowed behaviours: the cached or the changed translation (R257), whether a stack's free
frames number fewer than EVLOW (R262) (log 7). -/
opaque freeBool : Nat → Bool

/-- A free number: the entry that leaves a full TLB (R256), or a value the spec does not state (log 7, log 31). -/
opaque freeNat : Nat → Nat

/-- A free lane (log 7). -/
opaque freeLane : Nat → Lane

/-- Whether an image of bytes carries a valid signature under the fused key, and its security version (R405); the
image layout is not given (log 8). -/
opaque fwSigned : List Byte → Bool
opaque fwVersion : List Byte → Nat

/-- Whether the boot image carries a valid signature, and its security version (R405; log 8). -/
opaque bootSigned : Bool
opaque bootVersion : Nat

/-- SHA-384 of the firmware image the boot ROM started (R405, R406), byte by byte (log 8). -/
opaque bootDigest : Nat → Byte

/-- The ECDSA brainpoolP384r1 signature of the part key over a digest: 96 bytes (R406); the key never leaves the
part (R405), so its value is free (log 8). -/
opaque partSign : List Byte → List Byte

/-- The part's identity chain (R405), byte by byte, and its length of at most 8 KiB; its certificates are not given (log 8). -/
opaque chainByte : Nat → Byte
opaque chainLen : Nat

/-- The frame at the head of the host's free list, none when the list is empty (R262); the list's layout is not
given (log 19). -/
opaque freeFrame : Nat → Option Nat

end Sys2Proof.Config
end

