-- ==== Sys2Proof/Machine/Ops.lean ====
section
/-! DEFINITION. The named operations over the state: sparse tables, memory in its one canonical form, the geometry
of a die, the fields of a launch record, the registers of a task slot, taking a task trap and returning from it
(R370, R372, R221), and starting a freeze (R376, R381). -/

namespace Sys2Proof.Machine

/-! ### Sparse tables -/

/-- The value a table holds at a key, or the given default. -/
def Tab.get {α : Type} (t : Tab α) (k : Nat) (d : α) : α :=
  match t with
  | [] => d
  | (j, v) :: r => if j = k then v else Tab.get r k d

/-- Set a key, keeping keys in ascending order. -/
def Tab.set {α : Type} (t : Tab α) (k : Nat) (v : α) : Tab α :=
  match t with
  | [] => [(k, v)]
  | (j, w) :: r => if k < j then (k, v) :: (j, w) :: r else if k = j then (k, v) :: r else (j, w) :: Tab.set r k v

def Tab.del {α : Type} (t : Tab α) (k : Nat) : Tab α := t.filter (fun p => p.1 != k)

def Tab.keys {α : Type} (t : Tab α) : List Nat := t.map (fun p => p.1)

def Tab.has {α : Type} (t : Tab α) (k : Nat) : Bool := t.any (fun p => p.1 == k)

def Tab.mapVal {α β : Type} (f : Nat → α → β) (t : Tab α) : Tab β :=
  List.map (fun p : Nat × α => (p.1, f p.1 p.2)) t

/-- Insertion into a list kept in ascending order of a key, after equal keys. -/
def insertBy {α : Type} (key : α → Nat) (x : α) : List α → List α
  | [] => [x]
  | y :: ys => if key x < key y then x :: y :: ys else y :: insertBy key x ys

/-- Stable sort by an ascending key. -/
def sortBy {α : Type} (key : α → Nat) (xs : List α) : List α := xs.foldl (fun acc x => insertBy key x acc) []

/-! ### Memory -/

/-- What an unlisted address reads as (log 3). -/
def memDefault : Byte := 0

/-- One byte of memory. -/
def memGet (m : Mem) (a : Nat) : Byte :=
  match m with
  | [] => memDefault
  | (k, b) :: r => if k = a then b else memGet r a

/-- The cells of bytes that stand upwards from an address; a byte of the default value has none. -/
def memPlace (a : Nat) : List Byte → Mem
  | [] => []
  | b :: bs => if b = memDefault then memPlace (a + 1) bs else (a, b) :: memPlace (a + 1) bs

/-- Write bytes upwards from an address, keeping the canonical form: the cells below, the new cells, the cells above. -/
def memSetList (m : Mem) (a : Nat) (bs : List Byte) : Mem :=
  m.filter (fun p => decide (p.1 < a)) ++ (memPlace a bs ++ m.filter (fun p => decide (a + bs.length ≤ p.1)))

/-- Write one byte. -/
def memSet (m : Mem) (a : Nat) (b : Byte) : Mem := memSetList m a [b]

/-- Read n bytes upwards from an address. -/
def memGetList (m : Mem) (a : Nat) : Nat → List Byte
  | 0 => []
  | n + 1 => memGet m a :: memGetList m (a + 1) n

/-- Addresses strictly rising from a bound. -/
def risingFrom : Nat → Mem → Bool
  | _, [] => true
  | lo, (k, _) :: r => decide (lo ≤ k) && risingFrom (k + 1) r

/-- The canonical form of memory. -/
def Mem.wf (m : Mem) : Bool := risingFrom 0 m && m.all (fun p => p.2 != memDefault)

/-! The one key space of memory: the 52-bit physical space (R252) at 0, the 2 MiB pool of each cell (R25) at 2^52,
the 128 KiB Table Store of each cell (R181) at 2^53, the 64 KiB instruction store of each cell (R71) at 2^54. -/

/-- Number of a physical cell of the package from its die and serpentine index (R313). -/
def cellNo (die site : Nat) : Nat := die * 576 + site
def poolKey (die site off : Nat) : Nat := 2 ^ 52 + cellNo die site * 2 ^ 21 + off
def tableKey (die site off : Nat) : Nat := 2 ^ 53 + cellNo die site * 2 ^ 17 + off
def storeKey (die site off : Nat) : Nat := 2 ^ 54 + cellNo die site * 2 ^ 16 + off

/-- Where an address of one cell's memory stands in another's; an address elsewhere stays. -/
def movedKey (old new : Nat × Nat) (key : Nat) : Nat :=
  if poolKey old.1 old.2 0 ≤ key ∧ key < poolKey old.1 old.2 (2 ^ 21) then
    key - poolKey old.1 old.2 0 + poolKey new.1 new.2 0
  else key

def State.read (s : State) (key n : Nat) : List Byte := memGetList s.mem key n
def State.write (s : State) (key : Nat) (bs : List Byte) : State := { s with mem := memSetList s.mem key bs }
/-- Little-endian value of n bytes. -/
def State.load (s : State) (key n : Nat) : Nat := natOf (s.read key n)
def State.store (s : State) (key n v : Nat) : State := s.write key (bytesOf n v)

/-! ### Geometry (R312, R313) -/

/-- Ordinal of a cell column within its row: slice columns 8, 17, 26 are no cells. -/
def colOrd (x : Nat) : Nat := x - x / 9
def colOf (c : Nat) : Nat := c + c / 8

/-- Serpentine index of cell (x, y) (R313). -/
def serp (x y : Nat) : Nat := 24 * y + (if y % 2 = 0 then colOrd x else 23 - colOrd x)
def siteY (s : Nat) : Nat := s / 24
def siteX (s : Nat) : Nat := colOf (if siteY s % 2 = 0 then s % 24 else 23 - s % 24)

def absDiff (a b : Nat) : Nat := (a - b) + (b - a)
/-- Manhattan distance between two sites' grid positions (R359, R381). -/
def siteDist (a b : Nat) : Nat := absDiff (siteX a) (siteX b) + absDiff (siteY a) (siteY b)
/-- Two cells share a tile edge (R313). -/
def adjacent (a b : Nat) : Bool := siteDist a b == 1

/-! ### Bit fields -/

/-- Bits hi:lo of a word as a number. -/
def bits (w : Word) (hi lo : Nat) : Nat := (w.toNat / 2 ^ lo) % 2 ^ (hi + 1 - lo)

def wordAt (ws : List Word) (k : Nat) : Word := ws.getD k 0

/-! ### The launch record (R241) -/

def Region.lw (r : Region) (k : Nat) : Word := wordAt r.launch k
def Region.nent (r : Region) : Nat := bits (r.lw 0) 16 0
def Region.ladder (r : Region) (j : Nat) : Nat := bits (r.lw 2) (3 * j + 2) (3 * j)
def Region.partw (r : Region) : Nat := bits (r.lw 2) 63 32
def Region.taskg (r : Region) : Nat := r.partw % 64
def Region.spadg (r : Region) : Nat := r.partw / 2 ^ 8 % 64
def Region.accg (r : Region) : Nat := r.partw / 2 ^ 16 % 64
def Region.resident (r : Region) : Bool := bits (r.lw 0) 29 29 == 1
def Region.hold (r : Region) : Nat := bits (r.lw 3) 31 0
def Region.fhold (r : Region) : Nat := bits (r.lw 3) 63 32
def Region.nbar (r : Region) : Nat := bits (r.lw 4) 11 0
def Region.xwin (r : Region) : Nat := bits (r.lw 5) 16 0
def Region.xthr (r : Region) : Nat := bits (r.lw 5) 40 17
def Region.xkap (r : Region) : Nat := bits (r.lw 5) 56 41
def Region.prmBatch (r : Region) : Nat := bits (r.lw 6) 7 0
def Region.prmQmax (r : Region) : Nat := bits (r.lw 6) 15 8
def Region.prmPort (r : Region) : Nat := bits (r.lw 6) 23 16
def Region.prmBytes (r : Region) : Nat := (r.lw 7).toNat
/-- Bytes of scratchpad and of task area in each cell (R25, R26). -/
def Region.spadBytes (r : Region) : Nat := r.spadg * 65536
def Region.taskBytes (r : Region) : Nat := r.taskg * 65536

/-! ### Reading and writing the parts of the state -/

def State.region (s : State) (c : Nat) : Region := Tab.get s.regions c {}
def State.setRegion (s : State) (c : Nat) (r : Region) : State := { s with regions := Tab.set s.regions c r }
def State.cue (s : State) (c : Nat) : Cue := Tab.get s.cues c {}
def State.setCue (s : State) (c : Nat) (q : Cue) : State := { s with cues := Tab.set s.cues c q }
def State.tenant (s : State) (t : Nat) : Tenant := Tab.get s.tenants t {}
def State.setTenant (s : State) (t : Nat) (q : Tenant) : State := { s with tenants := Tab.set s.tenants t q }
def State.win (s : State) (w : Nat) : Win := Tab.get s.windows w {}
def State.setWin (s : State) (w : Nat) (q : Win) : State := { s with windows := Tab.set s.windows w q }
def State.die (s : State) (d : Nat) : Die := Tab.get s.dies d {}
def State.setDie (s : State) (d : Nat) (q : Die) : State := { s with dies := Tab.set s.dies d q }
def State.pcell (s : State) (d site : Nat) : PCell := Tab.get s.pcells (cellNo d site) {}
def State.setPcell (s : State) (d site : Nat) (q : PCell) : State :=
  { s with pcells := Tab.set s.pcells (cellNo d site) q }
def State.fly (s : State) (e : Nat) : FlyEng := Tab.get s.flys e {}
def State.setFly (s : State) (e : Nat) (q : FlyEng) : State := { s with flys := Tab.set s.flys e q }
def State.wing (s : State) (k : Nat) : Wings := Tab.get s.wings k {}
def State.setWing (s : State) (k : Nat) (q : Wings) : State := { s with wings := Tab.set s.wings k q }

def Region.cell (r : Region) (v : Nat) : VCell := Tab.get r.cells v {}
def Region.setCell (r : Region) (v : Nat) (c : VCell) : Region := { r with cells := Tab.set r.cells v c }
def Region.node (r : Region) (e : Nat) : Node := Tab.get r.nodes e {}
def Region.setNode (r : Region) (e : Nat) (n : Node) : Region := { r with nodes := Tab.set r.nodes e n }
def VCell.slot (c : VCell) (k : Nat) : Slot := Tab.get c.slots k {}
def VCell.setSlot (c : VCell) (k : Nat) (sl : Slot) : VCell := { c with slots := Tab.set c.slots k sl }
def VCell.tag (c : VCell) (t : Nat) : BitVec 3 := Tab.get c.tags t 0
def VCell.setTag (c : VCell) (t : Nat) (v : BitVec 3) : VCell := { c with tags := Tab.set c.tags t v }
/-- Place of a flip in the order of one tick: engine completions 0, nodes by entry, slots by number (R28). -/
def nodeFlipRank (e : Nat) : Nat := 1 + e
def slotFlipRank (k : Nat) : Nat := 2 ^ 17 + k
/-- A flip of a tile that comes later in that order has been made in the tick. -/
def VCell.flipLate (c : VCell) (now rank t : Nat) : Bool :=
  (Tab.get c.flips t (0, 0)).1 == now && decide (rank < (Tab.get c.flips t (0, 0)).2)
def VCell.noteFlip (c : VCell) (now rank t : Nat) : VCell := { c with flips := Tab.set c.flips t (now, rank) }
def VCell.flipTag (c : VCell) (now rank t : Nat) (v : BitVec 3) : VCell := (c.setTag t v).noteFlip now rank t
def Node.elem (n : Node) (k : Nat) : Elem := Tab.get n.elems k {}
def Node.setElem (n : Node) (k : Nat) (e : Elem) : Node := { n with elems := Tab.set n.elems k e }

def Region.slot (r : Region) (v k : Nat) : Slot := (r.cell v).slot k
def Region.setSlot (r : Region) (v k : Nat) (sl : Slot) : Region := r.setCell v ((r.cell v).setSlot k sl)

def State.slotAt (s : State) (c v k : Nat) : Slot := (s.region c).slot v k
def State.setSlotAt (s : State) (c v k : Nat) (sl : Slot) : State := s.setRegion c ((s.region c).setSlot v k sl)

/-! ### The slot that executes -/

def State.actCue (s : State) : Nat :=
  match s.actor with
  | .slot c _ _ | .node c _ | .region c | .cell c _ | .cue c | .bank c _ _ | .access c _ | .tload c _ _
  | .barrier c _ _ => c
  | _ => 0
def State.actCell (s : State) : Nat :=
  match s.actor with
  | .slot _ v _ | .cell _ v | .bank _ v _ | .tload _ v _ | .barrier _ v _ => v
  | _ => 0
def State.actSlot (s : State) : Nat :=
  match s.actor with
  | .slot _ _ k | .tload _ _ k => k
  | _ => 0

def State.me (s : State) : Slot := s.slotAt s.actCue s.actCell s.actSlot
def State.setMe (s : State) (sl : Slot) : State := s.setSlotAt s.actCue s.actCell s.actSlot sl
def State.myRegion (s : State) : Region := s.region s.actCue
def State.setMyRegion (s : State) (r : Region) : State := s.setRegion s.actCue r
def State.myCell (s : State) : VCell := s.myRegion.cell s.actCell
def State.setMyCell (s : State) (c : VCell) : State := s.setMyRegion (s.myRegion.setCell s.actCell c)
def State.myTenant (s : State) : Tenant := s.tenant s.myRegion.tenant

/-! ### Registers (R19) -/

/-- g0 reads 0 (R19). -/
def Slot.reg (sl : Slot) (r : Reg) : Word := if r = 0 then 0 else sl.g.get r.toFin
/-- Writes to g0 are discarded (R19). -/
def Slot.setReg (sl : Slot) (r : Reg) (v : Word) : Slot :=
  if r = 0 then sl else { sl with g := sl.g.set r.toFin v }
def Slot.vec (sl : Slot) (r : VReg) : Vector Lane 16 := sl.v.get r.toFin
def Slot.setVec (sl : Slot) (r : VReg) (x : Vector Lane 16) : Slot := { sl with v := sl.v.set r.toFin x }
/-- Go to the next word (R200). No rule says what follows a word at 0xFFFC that does not jump, since R73 gives BOUNDS to the targets of
branches and jumps alone; here the PC of 16 bits goes to 0 (DESIGN CHOICE, log 34). -/
def Slot.next (sl : Slot) : Slot := { sl with pc := sl.pc + 4 }

def State.rg (s : State) (r : Reg) : Word := s.me.reg r
def State.rv (s : State) (r : VReg) : Vector Lane 16 := s.me.vec r

/-- A register instruction completes: it writes its destination and the PC moves to the next word. -/
def State.writeReg (s : State) (d : Reg) (v : Word) : State := s.setMe ((s.me.setReg d v).next)
def State.writeVec (s : State) (d : VReg) (x : Vector Lane 16) : State := s.setMe ((s.me.setVec d x).next)
/-- An instruction with no destination completes. -/
def State.advance (s : State) : State := s.setMe s.me.next
/-- The slot goes to WAIT with its PC at the instruction, which issues afresh (R20, R193). -/
def State.wait (s : State) (w : WaitFor) : State := s.setMe { s.me with st := .wait, waiting := w }

/-! ### Incidents and freezes (R376, R381, R388) -/

def field (v lo : Nat) : Nat := v * 2 ^ lo

/-- Words 0 and 1 of an incident, and the rest (R388). -/
def mkRec (code sub ten die cue vcell slot copy entry aux fire v0 v1 cyc : Nat) : Rec :=
  { w0 := BitVec.ofNat 64 (code + field sub 8 + field ten 16 + field die 22 + field cue 24 + field vcell 36
      + field slot 46 + field copy 50)
    w1 := BitVec.ofNat 64 (entry + field aux 32)
    w2 := BitVec.ofNat 64 fire, w3 := BitVec.ofNat 64 v0, w4 := BitVec.ofNat 64 v1
    w7 := BitVec.ofNat 64 cyc }

def noEntry : Nat := 0xFFFFFFFF

/-- Rank of an agent among those of one tick: cue, then virtual cell, then entry, then slot (R290, R300). -/
def agentRank (cue vcell : Nat) (task : Bool) (agent : Nat) : Nat :=
  field agent 0 + field (if task then 1 else 0) 16 + field vcell 17 + field cue 33

/-- Join a queue at its end, but before entries there that are `behind` the new one: those of the same tick that the rule
puts after it. -/
def joinTied {α : Type} (behind : α → Bool) (x : α) (l : List α) : List α :=
  let n := l.length - (l.reverse.takeWhile behind).length
  l.take n ++ x :: l.drop n

/-- Order of R376 for faults of one tick: virtual cell, then entry, then slot. -/
def recKey (q : Rec) : Nat :=
  (q.w0.toNat / 2 ^ 36 % 1024) * 2 ^ 40 + (q.w1.toNat % 2 ^ 32) * 2 ^ 4 + q.w0.toNat / 2 ^ 46 % 16

/-- Keep a further fault in the region's list, up to 16, then count (R376). -/
def Region.keepFault (r : Region) (q : Rec) : Region :=
  if r.faults.length < 16 then { r with faults := r.faults ++ [q] }
  else { r with xfaults := min (r.xfaults + 1) (2 ^ 32 - 1) }

/-- A fault, violation, double trap, hold or command freezes a region (R376, R381). The wave starts in this tick at
the starting cell. When the region already freezes, the fault joins the fault list; of faults of one tick the
first by virtual cell, entry and slot starts the freeze and names the incident. A command or a hold (code 0 record
or a code of R389 that is no fault) does not join the list. -/
def State.startFreeze (s : State) (c start kind : Nat) (isFault : Bool) (q : Rec) : State :=
  let r := s.region c
  match r.freeze with
  | none =>
    let r := { r with freeze := some { t0 := s.cyc.toNat, start := start, kind := kind, incident := q } }
    { s.setRegion c r with due := s.due ++ [(.blackoutWaveArrive, .cell c start)] }
  | some f =>
    if isFault then
      if f.t0 = s.cyc.toNat ∧ f.kind = 2 ∧ recKey q < recKey f.incident then
        let r := r.keepFault f.incident
        let r := { r with freeze := some { f with start := start, incident := q } }
        { s.setRegion c r with due := s.due ++ [(.blackoutWaveArrive, .cell c start)] }
      else s.setRegion c (r.keepFault q)
    else s

/-- Fields of an incident that name the executing slot (R388). -/
def State.slotRec (s : State) (code sub v0 v1 : Nat) : Rec :=
  mkRec code sub s.myRegion.tenant s.myRegion.die s.actCue s.actCell s.actSlot 0 noEntry 0 s.me.pc.toNat v0 v1
    s.cyc.toNat

/-! ### Task traps (R369 to R372, R221) -/

/-- Cause codes of R369. -/
inductive Cause where
  | ill | poolExec | misalign | windowSplit | bounds | page | flyLate | spillOver | divZero | ecall | brk
  | targetDark | targetOff
  deriving DecidableEq, Repr

def causeCode : Cause → Nat
  | .ill => 1 | .poolExec => 2 | .misalign => 3 | .windowSplit => 4 | .bounds => 5 | .page => 6
  | .flyLate => 7 | .spillOver => 8 | .divZero => 9 | .ecall => 10 | .brk => 11 | .targetDark => 12
  | .targetOff => 13

/-- The trap entry of R370: saved PC, cause and value, the nesting bit, the emulation bit, SUPV, PC := TVEC. -/
def Slot.trapEntry (sl : Slot) (c : Cause) (val : Word) : Slot :=
  { sl with
    tepc := sl.pc
    tcause := BitVec.ofNat 64 (causeCode c)
    trapval := val
    tstat := (if c = .ill then (1 : BitVec 1) else 0) ++ (1 : BitVec 1)
    st := .supv
    waiting := .nothing
    pc := sl.tvec }

def Slot.nested (sl : Slot) : Bool := sl.tstat.getLsbD 0

/-- A double trap (R372): the slot becomes FROZEN, having been in SUPV, and the region is blacked out from its
cell. -/
def State.doubleTrap (s : State) (c : Cause) (val : Word) : State :=
  let sl := s.me
  let q := s.slotRec 0x03 (causeCode c) val.toNat
    (sl.tepc.toNat + field (sl.tcause.toNat % 256) 16)
  let s := s.setMe { sl with st := .frozen, before := .supv, waiting := .nothing }
  s.startFreeze s.actCue s.actCell 2 true q

/-- Taking a task trap: the one operation every trap goes through. -/
def State.trap (s : State) (c : Cause) (val : Word) : State :=
  if s.me.nested then s.doubleTrap c val else s.setMe (s.me.trapEntry c val)

/-- The return of R221: PC := TEPC, TSTAT[0] := 0, RUN. -/
def Slot.trapReturn (sl : Slot) : Slot :=
  { sl with pc := sl.tepc, tstat := sl.tstat &&& 2, st := .run }

/-- A violation of a task slot (R193, R375): FROZEN at the instruction, then its region. -/
def State.violation (s : State) (val right : Nat) : State :=
  let q := s.slotRec 0x02 0 val right
  let s := s.setMe { s.me with st := .frozen, before := s.me.st, waiting := .nothing }
  s.startFreeze s.actCue s.actCell 2 true q

/-- The state a slot issues in: SUPV while the nesting bit is set, else RUN (R20, log 6). -/
def Slot.issueState (sl : Slot) : SlotSt := if sl.nested then .supv else .run

/-! ### A fresh free value -/

def State.tickFree (s : State) : State := { s with free := s.free + 1 }

/-- The step has used n free values. -/
def State.skipFree (s : State) (n : Nat) : State := { s with free := s.free + n }

end Sys2Proof.Machine
end

