-- ==== Sys2Proof/Machine/Translate.lean ====
section
/-! DEFINITION. Translation (R249 to R257): the page-table walk, leaf checks, the cached translations, and the
scopes and stacks of the physical map (R252). -/

namespace Sys2Proof.Machine

/-! ### The physical map (R252) -/

def inHbm (pa : Nat) : Bool := pa < 12 * 2 ^ 36
def inTier (pa : Nat) : Bool := 2 ^ 48 ≤ pa && pa < 2 ^ 48 + 8 * 2 ^ 41
def inPod (pa : Nat) : Bool := 2 ^ 50 ≤ pa && pa < 2 ^ 51
def inHost (pa : Nat) : Bool := 2 ^ 51 ≤ pa && pa < 2 ^ 52
def mapped (pa : Nat) : Bool := inHbm pa || inTier pa || inPod pa || inHost pa
/-- The TIER bit a range has. -/
def tierOf (pa : Nat) : Nat := if inTier pa || inHost pa then 1 else 0
/-- Home stack of an HBM address, and the die of a stack (R3, R252). -/
def stackOf (pa : Nat) : Nat := pa / 2 ^ 36
def dieOfStack (k : Nat) : Nat := k / 3

def Power.dead : Power → Bool
  | .dark | .off => true
  | _ => false
def Power.running : Power → Bool
  | .dark | .off => false
  | _ => true

def powerOfCode (k : Nat) : Power :=
  match k with
  | 0 => .full | 1 => .even | 2 => .low | 3 => .dim | 4 => .dark | _ => .off

/-- Running states from the fastest clock down. -/
def powerRank : Power → Nat
  | .full => 0 | .even => 1 | .low => 2 | .dim => 3 | .dark => 4 | .off => 5

/-- One step toward a running state: to the adjacent one between running states, straight there from DARK and OFF. -/
def powerStep (now target : Power) : Power :=
  if now.dead || target.dead then target
  else if powerRank now < powerRank target then powerOfCode (powerRank now + 1)
  else if powerRank target < powerRank now then powerOfCode (powerRank now - 1)
  else now

/-- The clock a die runs at: within a step between running states the lower of its two (R401). -/
def Die.clock (d : Die) : Power :=
  match d.target with
  | none => d.power
  | some p =>
    let q := powerStep d.power p
    if d.moving && !q.dead && decide (powerRank d.power < powerRank q) then q else d.power

/-- The power of the die an HBM frame's stack lies on; other ranges are always reachable. -/
def State.powerAt (s : State) (pa : Nat) : Power :=
  if inHbm pa then (s.die (dieOfStack (stackOf pa))).power else .full

/-- The power of the dies whose stacks a physical range lies on: OFF or DARK where one of them is. -/
def State.rangePower (s : State) (pa n : Nat) : Power :=
  let ps := ((List.range 12).filter (fun k => decide (k * 2 ^ 36 < pa + n) && decide (pa < (k + 1) * 2 ^ 36))).map (fun k =>
    (s.die (dieOfStack k)).power)
  if ps.contains .off then .off else if ps.contains .dark then .dark else .full

/-! ### Leaf fields (R251) -/

def leafV (e : Word) : Bool := bits e 0 0 == 1
def leafLeaf (e : Word) : Bool := bits e 1 1 == 1
def leafRd (e : Word) : Bool := bits e 2 2 == 1
def leafWr (e : Word) : Bool := bits e 3 3 == 1
def leafPriv (e : Word) : Bool := bits e 4 4 == 1
def leafOrd (e : Word) : Nat := bits e 6 5
def leafFmt (e : Word) : Nat := bits e 10 7
def leafGeom (e : Word) : Nat := bits e 13 11
def leafTier (e : Word) : Nat := bits e 14 14
def leafAcc (e : Word) : Bool := bits e 15 15 == 1
def leafDirty (e : Word) : Bool := bits e 16 16 == 1
def leafMig (e : Word) : Bool := bits e 17 17 == 1
def leafTen (e : Word) : Nat := bits e 23 18
def leafFrame (e : Word) : Nat := bits e 63 28
/-- ACC, and DIRTY for a write, set in a leaf (R254). -/
def leafTouch (e : Word) (write : Bool) : Word := e ||| (if write then 0x18000 else 0x8000)

/-- Address bits below the frame of a leaf at a level (R249). -/
def levelBits (level : Nat) : Nat := 16 + 10 * (3 - level)

/-- A valid entry that breaks R253. -/
def malformed (e : Word) (level : Nat) : Bool :=
  if leafLeaf e then
    let gs := leafFmt e == 11 || leafFmt e == 12
    let base := leafFrame e * 65536
    level == 0 || leafOrd e == 3 || 13 < leafFmt e
      || leafGeom e % 4 == 3 || (leafGeom e != 0 && !gs)
      || leafFrame e % 2 ^ (10 * (3 - level)) != 0 || leafMig e
      || (leafTen e != 0 && !leafPriv e) || bits e 27 24 != 0
      || !mapped base || tierOf base != leafTier e
  else
    level == 3 || bits e 12 2 != 0 || bits e 63 52 != 0 || !inHbm (bits e 51 13 * 8192)

/-- The outcome of a walk (R254). -/
inductive Walk where
  | leaf (entry : Nat) (e : Word) (level : Nat)
  | invalid
  | malformed
  | migrating
  /-- The entry at this address lies in a stack of a die at DARK or OFF and cannot be read (R402). -/
  | dark (pa : Nat)
  deriving DecidableEq, Repr

/-- One level of the walk and those below it, by fuel (R254). `dead` says which addresses are out of reach (R402). -/
def walkFrom (dead : Nat → Bool) (m : Mem) (va : Nat) : Nat → Nat → Nat → Walk
  | 0, _, _ => .malformed
  | k + 1, level, tbl =>
    let at_ := tbl + 8 * (va / 2 ^ (46 - 10 * level) % 1024)
    if dead at_ then .dark at_
    else
    let e : Word := BitVec.ofNat 64 (natOf (memGetList m at_ 8))
    if leafV e = false then (if leafMig e then .migrating else .invalid)
    else if malformed e level then .malformed
    else if leafLeaf e then .leaf at_ e level
    else walkFrom dead m va k (level + 1) (bits e 51 13 * 8192)

/-- The walk of a tenant's table for a virtual address (R249, R254). An address of 2^56 or more, which no page table can name
(R245), is that of no page. -/
def walk (s : State) (ten va : Nat) : Walk :=
  if 2 ^ 56 ≤ va then .invalid
  else walkFrom (fun a => (s.powerAt a).dead) s.mem va 4 0 (s.tenant ten).troot

/-- The physical address a leaf gives. -/
def leafPa (e : Word) (level va : Nat) : Nat := leafFrame e * 65536 + va % 2 ^ levelBits level

/-! ### Cached translations (R256, R257) -/

/-- The slice that serves a site (R256): numbered by die, slice column and row. -/
def sliceOf (die site : Nat) : Nat := die * 72 + siteX site / 9 * 24 + siteY site
/-- The translating unit of a Wings unit. -/
def wingsUnit (stack : Nat) : Nat := 1000 + stack

/-- The translations a unit holds: a slice 512, a Wings unit 1,024 (R256); the unit of the control cues is the
scheduler's, to which the spec gives no size, and takes a Wings unit's (log 31). -/
def tlbSize (unit : Nat) : Nat := if unit < 1000 then 512 else 1024

def TlbEnt.hits (t : TlbEnt) (unit ten va : Nat) : Bool :=
  t.unit == unit && t.tenant == ten && t.va ≤ va && va < t.va + t.size

/-- A translation: the leaf used and the physical address, or why there is none. -/
inductive Trans where
  | ok (e : Word) (pa : Nat)
  | invalid
  | malformed
  | migrating
  | dark (pa : Nat)
  deriving DecidableEq, Repr

/-- Room for one more translation of a unit: of a full TLB one entry goes, which the spec does not name (R256; log 31). -/
def State.tlbRoom (s : State) (unit : Nat) : State :=
  let own := s.tlb.filter (fun t => t.unit == unit)
  match own[Config.freeNat s.free % own.length]? with
  | some victim => if own.length < tlbSize unit then s else ({ s with tlb := s.tlb.filter (fun t => t != victim) }).tickFree
  | none => s

/-- Use the walk's leaf: set ACC and DIRTY before the access (R254), and cache the translation (R256). -/
def State.walkIn (s : State) (unit ten va : Nat) (write : Bool) (at_ : Nat) (e : Word) (level : Nat) : State :=
  let e' := leafTouch e write
  let base := va - va % 2 ^ levelBits level
  let s := if e' = e then s else s.store at_ 8 e'.toNat
  if s.tlb.any (fun t => t.unit == unit && t.tenant == ten && t.va == base && t.leaf == e') then s
  else
    let s := ({ s with tlb := s.tlb.filter (fun t => !(t.unit == unit && t.tenant == ten && t.va == base)) }).tlbRoom unit
    { s with tlb := s.tlb ++ [⟨unit, ten, base, 2 ^ levelBits level, e', leafDirty e'⟩] }

/-- A walk's translation is the cached one: they differ in ACC and DIRTY at most. -/
def sameTrans (fresh : Trans) (leaf : Word) (pa : Nat) : Bool :=
  match fresh with
  | .ok e p => leafTouch e true == leafTouch leaf true && p == pa
  | _ => false

/-- Translate one address. A cached translation that the table still has is used as it stands, and leaves ACC and
DIRTY of the table alone (R257); where the table has changed since, the access uses either, as a free value says
(R257). A cached leaf without DIRTY is walked at a store. -/
def translate (s : State) (unit ten va : Nat) (write : Bool) : Trans × State :=
  let fresh : Trans × State :=
    match walk s ten va with
    | .leaf at_ e level => (.ok (leafTouch e write) (leafPa e level va), s.walkIn unit ten va write at_ e level)
    | .invalid => (.invalid, s)
    | .malformed => (.malformed, s)
    | .migrating => (.migrating, s)
    | .dark pa => (.dark pa, s)
  match s.tlb.find? (fun t => t.hits unit ten va && (!write || t.dirty)) with
  | none => fresh
  | some t =>
    let pa := leafFrame t.leaf * 65536 + va % t.size
    let cached : Trans := .ok t.leaf pa
    if sameTrans fresh.1 t.leaf pa then (cached, s)
    else if Config.freeBool s.free then (cached, s.tickFree) else (fresh.1, fresh.2.tickFree)

/-- Rights of R255, in order: RD, WR, PRIV. `none` when allowed; else 0 read, 1 write, 2 other right (R389). -/
def rights (e : Word) (ten : Nat) (rd wr : Bool) : Option Nat :=
  if rd && !leafRd e then some 0
  else if wr && !leafWr e then some 1
  else if leafPriv e && leafTen e != ten then some 2
  else none

end Sys2Proof.Machine
end

