-- ==== Sys2Proof/Machine/Access.lean ====
section
/-! DEFINITION. Task accesses: the windows of R245 and R246, the checks of R198 in their order, tiles (R29, R199),
bandwidth and flit quota (R353, R354, R409), and the slot's view of memory with its own stores not yet performed
(R199, R266; log 5). -/

namespace Sys2Proof.Machine

/-- The window of a generic pointer: its top byte (R245). -/
def winOf (p : Nat) : Nat := p / 2 ^ 56 % 256
def offOf (p : Nat) : Nat := p % 2 ^ 56
def winNamed (w : Nat) : Bool := w == 0 || w == 0xF0 || w == 0xF1 || w == 0xF2 || w == 0xF3

/-- The outcome of the checks of R198. -/
inductive Chk where
  | ok (segs : List Seg)
  | trap (c : Cause) (v : Word)
  | viol (addr right : Nat)
  | wait (w : WaitFor)
  deriving DecidableEq, Repr

/-- The parts of a global range within each 64 KiB page, by fuel (R249). -/
def pageParts (va n : Nat) : List (Nat × Nat) :=
  let room := 65536 - va % 65536
  if n ≤ room then [(va, n)] else [(va, room), (va + room, n - room)]

/-- Step 6 of R198 over the pages of a global range: each is translated, or the first that is not decides. -/
def walkParts (ea : Word) (ten unit : Nat) (wr : Bool) : List (Nat × Nat) → List Seg → State → Chk × State
  | [], acc, s => (.ok acc.reverse, s)
  | (va, n) :: rest, acc, s =>
    match translate s unit ten va wr with
    | (.ok e pa, s') => walkParts ea ten unit wr rest (⟨pa, n, some e⟩ :: acc) s'
    | (.migrating, s') => (.wait (.walk va wr), s')
    | (.dark pa, s') => (.trap (if s'.powerAt pa = .off then .targetOff else .targetDark) ea, s')
    | (_, s') => (.trap .page ea, s')

/-- Step 7: the first page whose rights the access breaks. -/
def rightsBroken (ten : Nat) (rd wr : Bool) : List (Nat × Nat) → List Seg → Option (Nat × Nat)
  | (va, _) :: ps, g :: gs =>
    match (g.leaf.bind (fun e => rights e ten rd wr)) with
    | some right => some (va, right)
    | none => rightsBroken ten rd wr ps gs
  | _, _ => none

/-- Step 8: the first page in a stack that is out of reach; a stack of the own die is in reach at DARK. -/
def State.powerTrap (s : State) (die : Nat) : List Seg → Option Cause
  | [] => none
  | g :: gs =>
    match s.powerAt g.key with
    | .off => some .targetOff
    | .dark => if dieOfStack (stackOf g.key) = die then s.powerTrap die gs else some .targetDark
    | _ => s.powerTrap die gs

/-- Steps 6 to 8 of R198 over the pages of a global range. -/
def checkParts (ea : Word) (ten die unit : Nat) (rd wr : Bool) (parts : List (Nat × Nat)) (s : State) : Chk × State :=
  match walkParts ea ten unit wr parts [] s with
  | (.ok segs, s) =>
    match rightsBroken ten rd wr parts segs, s.powerTrap die segs with
    | some (va, right), _ => (.viol va right, s)
    | none, some c => (.trap c ea, s)
    | none, none => (.ok segs, s)
  | p => p

/-- The tiles a scratchpad range touches (R27). -/
def tilesOf (off n : Nat) : List Nat :=
  if n = 0 then [] else (List.range ((off + n - 1) / 4096 + 1 - off / 4096)).map (fun k => off / 4096 + k)

/-- Whether the fabric owns a tile (R27, R29). -/
def fabricOwns (t : BitVec 3) : Bool := t.extractLsb' 1 2 == 0

/-- A scratchpad range of a virtual cell: its bound, then its tiles (R29, R199, R245). -/
def checkSpad (ea : Word) (s : State) (v off n : Nat) : Chk :=
  let r := s.myRegion
  if r.spadBytes < off + n then .trap .bounds ea
  else
    let ts := (tilesOf off n).filter (fun t => !fabricOwns ((r.cell v).tag t))
    if ts.isEmpty then .ok [⟨poolKey r.die (r.cell v).site (r.taskBytes + off), n, none⟩]
    else .wait (.tiles v ts)

/-- The checks of a task access to n bytes at EA, in the order of R198 after alignment: window, split, store to
0xF2, bound, walk, rights, power; then the wait for tiles. -/
def checkWindow (s : State) (ea : Word) (n : Nat) (rd wr : Bool) : Chk × State :=
  let p := ea.toNat
  let w := winOf p
  let off := offOf p
  let r := s.myRegion
  let ten := s.myTenant
  if winNamed w = false then (.trap .bounds ea, s)
  else if winOf ((ea + BitVec.ofNat 64 (n - 1)).toNat) ≠ w then (.trap .windowSplit ea, s)
  else if w = 0xF2 && wr then (.trap .bounds ea, s)
  else if w = 0x00 then
    checkParts ea r.tenant r.die (sliceOf r.die s.myCell.site) rd wr (pageParts off n) s
  else if w = 0xF0 then (checkSpad ea s s.actCell off n, s)
  else if w = 0xF1 then
    let v := off / 2 ^ 40 % 4096
    if off / 2 ^ 52 ≠ 0 ∨ r.ncells ≤ v then (.trap .bounds ea, s)
    else (checkSpad ea s v (off % 2 ^ 40) n, s)
  else if w = 0xF2 then
    if (ten.tslim + 1 - ten.tsbase) * 8192 < off + n then (.trap .bounds ea, s)
    else (.ok [⟨tableKey r.die s.myCell.site (ten.tsbase * 8192 + off), n, none⟩], s)
  else
    if off < s.me.ssbase.toNat ∨ s.me.sslim.toNat < off + n then (.trap .bounds ea, s)
    else (.ok [⟨poolKey r.die s.myCell.site off, n, none⟩], s)

/-- R198 whole: alignment first. -/
def checkAccess (s : State) (ea : Word) (n align : Nat) (rd wr : Bool) : Chk × State :=
  if ea.toNat % align ≠ 0 then (.trap .misalign ea, s) else checkWindow s ea n rd wr

/-! ### Bandwidth (R353, R354, R409) -/

def Tenant.unthrottled (t : Tenant) : Bool := t.share == 2 ^ 64 - 1

/-- A requester's request is still to be judged or waits. -/
def Tenant.bucketBusy (t : Tenant) (who : Actor) : Bool :=
  !t.unthrottled && !t.grants.contains who && (t.asks.any (fun a => a.2.1 == who) || t.waiters.any (fun p => p.1 == who))

/-- A bucket request for parts of the given bytes: true once every part of it has been granted, which uses it up; else it
joins the requests of this tick, which are judged together (R354). -/
def Tenant.draw (t : Tenant) (rank : Nat) (who : Actor) (ns : List Nat) : Bool × Tenant :=
  if t.unthrottled || ns.isEmpty then (true, t)
  else if t.grants.contains who then (true, { t with grants := t.grants.erase who })
  else if t.bucketBusy who then (false, t)
  else (false, { t with asks := t.asks ++ [(rank, who, ns)] })

/-- Grant the parts of a request in order while the bucket is positive: those left, and the bucket. -/
def grantParts : List Nat → Int → List Nat × Int
  | [], b => ([], b)
  | n :: ns, b => if 0 < b then grantParts ns (b - n) else (n :: ns, b)

/-- A request at its turn: granted, or it waits and marks demand. -/
def Tenant.judge (t : Tenant) (a : Nat × Actor × List Nat) : Tenant :=
  match grantParts a.2.2 t.bkt with
  | ([], b) => { t with bkt := b, grants := t.grants ++ [a.2.1] }
  | (left, b) => { t with bkt := b, demand := true, waiters := t.waiters ++ [(a.2.1, left)] }

/-- The requests of a tick, judged together in their order (R354). -/
def Tenant.judgeAll (t : Tenant) : Tenant := (sortBy (fun a => a.1) t.asks).foldl Tenant.judge { t with asks := [] }

/-- Order of bucket requests of one tick: die, serpentine index, port (an element's, then the task element's), the engines
of a die after its cells (R354; log 25). -/
def State.bucketRank (s : State) (who : Actor) : Nat :=
  let cellRank (r : Region) (v port tie : Nat) : Nat := field r.die 60 + field (r.cell v).site 24 + field port 18 + tie
  match who with
  | .slot c v k => cellRank (s.region c) v 16 k
  | .node c e =>
    let r := s.region c
    cellRank r (r.cellOf.getD e (0, 0)).1 (r.cellOf.getD e (0, 0)).2 e
  | .fly e => field (e / 16) 60 + field 1 59 + e
  | .wings k e => field (dieOfStack k) 60 + field 1 59 + 64 + 8 * k + e
  | _ => 0

def State.draw (s : State) (ten : Nat) (who : Actor) (ns : List Nat) : Bool × State :=
  let (ok, t) := (s.tenant ten).draw (s.bucketRank who) who ns
  (ok, s.setTenant ten t)

/-- Whatever some requesters have asked of a bucket, or been granted and not used, is withdrawn. -/
def Tenant.forget (t : Tenant) (mine : Actor → Bool) : Tenant :=
  { t with asks := t.asks.filter (fun a => !mine a.2.1), waiters := t.waiters.filter (fun p => !mine p.1)
           grants := t.grants.filter (fun a => !mine a) }
/-- No tenant keeps a request of these requesters. -/
def State.forgetDraws (s : State) (mine : Actor → Bool) : State :=
  { s with tenants := Tab.mapVal (fun _ (t : Tenant) => t.forget mine) s.tenants }

/-- MREQs of a run of n bytes: the address and the bytes of each, 1 to 64 (R340). -/
def mreqs : Nat → Nat → Nat → List (Nat × Nat)
  | 0, _, _ => []
  | k + 1, a, n => if n = 0 then [] else if n ≤ 64 then [(a, n)] else (a, 64) :: mreqs k (a + 64) (n - 64)
def mreqParts (runs : List (Nat × Nat)) : List (Nat × Nat) := runs.flatMap (fun p => mreqs (p.2 / 64 + 1) p.1 p.2)

/-- Flits of an MREQ: its header, its request flit, and a write's bytes; of an MRSP: its header, and a read's bytes (R340). -/
def mreqFlits (wr : Bool) (n : Nat) : Nat := 2 + (if wr then (n + 15) / 16 else 0)
def mrspFlits (data : Bool) (n : Nat) : Nat := 1 + (if data then (n + 15) / 16 else 0)

/-! ### Memory packets (R248, R338, R340) -/

/-- An exchange of some kind has a site in its pair. -/
def State.exchangeAt (s : State) (die site : Nat) (f : Exchange → Bool) : Bool :=
  s.regions.any (fun p => p.2.die == die && p.2.exchanges.any (fun x => f x && (x.a == site || x.b == site)))

/-- An exchange or its lease holds the plane Q packets to and from a site (R363, R365). -/
def State.leased (s : State) (die site : Nat) : Bool := s.exchangeAt die site (fun x => x.stage != 2 || !x.leaseOver)

/-- Packets join their port, and the first of them enters its stop in this tick where it can (R419). -/
def State.queuePackets (s : State) (ps : List Packet) : State :=
  { s with packets := s.packets ++ ps, nextPkt := s.nextPkt + ps.length,
           due := s.due ++ (ps.take 1).map (fun p => (.packetInject, .packet p.id)) }

/-- The slice that serves a site, as a destination (R256), and the destination of a virtual cell. -/
def sliceSite (site : Nat) : Nat := 600 + siteX site / 9 * 24 + siteY site
def Region.sliceDst (r : Region) (v : Nat) : Dst := { recv := v, die := r.die, site := sliceSite (r.cell v).site }
def Region.cellDst (r : Region) (v : Nat) : Dst := { recv := v, die := r.die, site := (r.cell v).site }

/-- The MREQs of access `id` join the port of virtual cell v; the TAG is the access's number (R338, R340; log 10). -/
def State.sendReqs (s : State) (v id : Nat) (dst : Dst) (wr : Bool) (parts : List (Nat × Nat)) : State :=
  let r := s.myRegion
  s.queuePackets (parts.zipIdx.map (fun q =>
    { id := s.nextPkt + q.2, cue := s.actCue, plane := 0, kind := 3, len := mreqFlits wr q.1.2, ten := r.tenant, cls := 0,
      tag := id % 65536, srcDie := r.die, srcSite := (r.cell v).site, srcCell := v, dsts := [dst], presented := s.cyc.toNat,
      mem := some { who := s.actor, acc := id, off := q.1.1 % 2 ^ 40, op := if wr then 1 else 0, count := q.1.2 - 1 } }))

def Packet.ofAcc (p : Packet) (c kind id : Nat) : Bool :=
  p.cue == c && p.kind == kind && (p.mem.map (fun m => m.acc)) == some id

/-- No packet of a kind, of access `id` of a region, is still on its way. -/
def State.landed (s : State) (c kind id : Nat) : Bool := s.packets.all (fun p => !p.ofAcc c kind id || p.taken)

/-- An MREQ of the requester waits at its port for quota or room (R353). -/
def State.reqWaits (s : State) (who : Actor) : Bool :=
  s.packets.any (fun p => p.kind == 3 && !p.injected && (p.mem.map (fun m => m.who)) == some who)

/-- The MREQs of the acting unit's next accesses at the port of virtual cell v, each access with its runs and whether it writes:
the bucket grants those to global memory, then they join the port (R248, R340, R354); false while the requester must wait. -/
def State.portRequest (s : State) (v : Nat) (dst : Dst) (accs : List (List (Nat × Nat) × Bool)) (glob : Bool) : Bool × State :=
  let r := s.myRegion
  let parts := accs.map (fun p => (mreqParts p.1, p.2))
  let lens := parts.flatMap (fun p => p.1.map (fun q => q.2))
  if lens.isEmpty then (true, s)
  else if s.leased r.die (r.cell v).site then (false, s)
  else
    match s.draw r.tenant s.actor (if glob then lens else []) with
    | (false, s) => (false, s)
    | (true, s) => (true, parts.zipIdx.foldl (fun s p => s.sendReqs v (r.nextAcc + p.2) dst p.1.2 p.1.1) s)

/-- Why a request would wait before it is made: an exchange (0), or the bucket or an earlier MREQ that waits for quota (5), as
stall priorities of R14 less one. -/
def State.portHeld (s : State) (who : Actor) (ten die site : Nat) (runs : List (Nat × Nat)) : Option Nat :=
  if (mreqParts runs).isEmpty then none
  else if s.leased die site then some 0
  else if (s.tenant ten).bucketBusy who || s.reqWaits who then some 5
  else none

/-! ### What a requester waits for (R247, R248, R340) -/

/-- Whether a job reads its bytes, and whether it writes them. -/
def MemJob.reads : MemJob → Bool
  | .write _ => false
  | _ => true
/-- The access stores bytes. -/
def MemJob.writes : MemJob → Bool
  | .read _ => false
  | _ => true
/-- The bytes it touches. -/
def MemJob.size : MemJob → Nat
  | .read n | .atom _ n _ _ => n
  | .write bs => bs.length

/-- The acting unit's fetch for a job at what it asks for. -/
def State.fetchOf (s : State) (key : Nat) (job : MemJob) : Option Fetch :=
  s.fetches.find? (fun f => f.who == s.actor && f.key == key && f.job == job)

/-- It has been performed, and its answer has come (R340, R346). -/
def State.fetched (s : State) (f : Fetch) : Bool := f.served && s.landed f.cue 4 f.id

/-- The requester has taken its answer. -/
def State.dropFetches (s : State) : State := { s with fetches := s.fetches.filter (fun f => f.who != s.actor) }

/-- A requester's fetch is on its way. -/
def State.fetching (s : State) (who : Actor) : Bool := s.fetches.any (fun f => f.who == who && !s.fetched f)

/-- Where the MREQs of a fetch go: the cell it names, or its cell's slice (R248, R256). -/
def Region.fetchDst (r : Region) (space cell target : Nat) : Dst := if space = 2 then r.cellDst target else r.sliceDst cell

/-- The acting unit's new fetch, of the next age, in place of the one it had. -/
def State.pushFetch (s : State) (f : Fetch) : State :=
  let r := s.myRegion
  let f := { f with who := s.actor, cue := s.actCue, id := r.nextAcc }
  { s.setMyRegion { r with nextAcc := r.nextAcc + 1 } with fetches := s.dropFetches.fetches ++ [f] }

/-- The acting unit asks for an access from which it goes on once the answer has come: the MREQs of its runs join the port, where
nothing holds them. -/
def State.askFor (s : State) (f : Fetch) (runs : List (Nat × Nat)) : State :=
  match s.portRequest f.cell (s.myRegion.fetchDst f.space f.cell f.target) [(runs, f.job.writes)] (f.space == 0) with
  | (false, s) => s
  | (true, s) => s.pushFetch { f with parts := mreqParts runs }

/-! ### The register images (R19, R240) -/

/-- Byte j of a slot's register image: g0 to g31, then v0 to v15 (log 17). -/
def Slot.regByte (sl : Slot) (j : Nat) : Byte :=
  if j < 256 then (sl.g.toList.getD (j / 8) 0).extractLsb' (8 * (j % 8)) 8
  else (((sl.v.toList.getD ((j - 256) / 64) (Vector.replicate 16 0)).toList).getD (j % 64 / 4) 0).extractLsb' (8 * (j % 4)) 8

/-- A value with one byte replaced. -/
def putByte {w : Nat} (x : BitVec w) (j : Nat) (b : Byte) : BitVec w :=
  BitVec.ofNat w (x.toNat - x.toNat / 2 ^ (8 * j) % 256 * 2 ^ (8 * j) + b.toNat * 2 ^ (8 * j))

/-- Write a byte of a slot's register image; g0 discards (R19). -/
def Slot.setRegByte (sl : Slot) (j : Nat) (b : Byte) : Slot :=
  if j < 256 then
    let r : Reg := BitVec.ofNat 5 (j / 8)
    sl.setReg r (putByte (sl.reg r) (j % 8) b)
  else
    let r : VReg := BitVec.ofNat 4 ((j - 256) / 64)
    let x := sl.vec r
    sl.setVec r (x.setIfInBounds (j % 64 / 4) (putByte (x.toList.getD (j % 64 / 4) 0) (j % 4) b))

/-- The configured slot of the executing cell whose image holds a memory key, and the byte of it. -/
def State.imageAt (s : State) (key : Nat) : Option (Nat × Nat) :=
  let c := s.myCell
  let o := key - poolKey s.myRegion.die c.site 0
  if poolKey s.myRegion.die c.site 0 ≤ key ∧ o < 32768 ∧ o % 2048 < 1280 ∧ Tab.has c.slots (o / 2048) then
    some (o / 2048, o % 2048)
  else none

/-! ### Own stores, banks and other cells -/

/-- The slot's own stores that are not yet performed, in issue order. -/
def Region.ownPend (r : Region) (v k : Nat) : List PStore := r.pend.filter (fun p => p.vcell == v && p.slot == k)

/-- A range meets one of some ranges. -/
def rangeMeets (a n : Nat) (rs : List (Nat × Nat)) : Bool := rs.any (fun h => decide (a < h.1 + h.2) && decide (h.1 < a + n))

/-- Ranges of the bytes a store writes. -/
def PStore.ranges (p : PStore) : List (Nat × Nat) := p.segs.map (fun g => (g.1, g.2.length))

/-- One of the slot's own stores, still to be performed, touches a range (R268). -/
def Region.ownMeets (r : Region) (v k : Nat) (rs : List (Nat × Nat)) : Bool :=
  (r.ownPend v k).any (fun p => rs.any (fun g => rangeMeets g.1 g.2 p.ranges))

def segRanges (segs : List Seg) : List (Nat × Nat) := segs.map (fun g => (g.key, g.len))

/-- Cut a range at the 64-byte boundaries of its address, by fuel. -/
def cut64 : Nat → Nat → Nat → List (Nat × Nat)
  | 0, _, _ => []
  | k + 1, a, n => if n = 0 then [] else
      let m := min n (64 - a % 64)
      (a, m) :: cut64 k (a + m) (n - m)
def pieces64 (a n : Nat) : List (Nat × Nat) := cut64 (n / 64 + 2) a n

/-- The banks of a scratchpad that ranges of its memory touch: the stored address's bits 10:6 (R142). -/
def keyBanks (rs : List (Nat × Nat)) : List Nat :=
  (rs.flatMap (fun g => (pieces64 g.1 g.2).map (fun p => p.1 / 64 % 32))).eraseDups

/-- Requests are queued at one of these banks of a cell's scratchpad (R247). -/
def State.bankQueued (s : State) (c v : Nat) (bs : List Nat) : Bool :=
  let r := s.region c
  r.accs.any (fun a => a.target == v && bs.any a.banks.contains) || r.pend.any (fun p => p.target == v && bs.any p.banks.contains)
    || s.fetches.any (fun f => f.cue == c && f.target == v && bs.any f.banks.contains)

/-- The queue of 8 of the task element's scratchpad port is full (R247). -/
def State.taskPortFull (s : State) (c v : Nat) : Bool :=
  decide (8 ≤ ((s.region c).pend.filter (fun p => p.space == 1 && p.target == v && !p.banks.isEmpty)).length
    + (s.fetches.filter (fun f => f.cue == c && f.space == 1 && f.target == v && !f.banks.isEmpty)).length)

/-- The first access of a source cell to a target cell that is still to be performed (R248). -/
def Region.firstRemote (r : Region) (src dst : Nat) : Option Nat :=
  (((r.accs.filter (fun a => a.space == 2 && !a.done && a.cell == src && a.target == dst)).map (fun a => a.id))
    ++ ((r.pend.filter (fun p => p.space == 2 && p.vcell == src && p.target == dst)).map (fun p => p.id))).min?

/-- Where an access is performed: 0 global, 1 own scratchpad, 2 another cell's, 3 private to the slot. -/
def spaceOf (ea : Word) : Nat :=
  let w := winOf ea.toNat
  if w = 0 then 0 else if w = 0xF0 then 1 else if w = 0xF1 then 2 else 3

/-- The virtual cell whose scratchpad a pointer reaches: 0xF1 names it, else the issuing cell. -/
def spadTarget (ea : Word) (v : Nat) : Nat := if winOf ea.toNat = 0xF1 then offOf ea.toNat / 2 ^ 40 % 4096 else v

/-- The strongest ordering kind of an access's pages: strong 0, release-consistent 1, unordered 2 (R269). -/
def strongest (segs : List Seg) : Nat :=
  segs.foldl (fun a g => match g.leaf with
    | some e => min a (leafOrd e)
    | none => a) 2

/-- An access to the own scratchpad joins its port's queue: a store, and a load or an atomic where requests are queued at its
banks (R247). -/
def State.queuesOwn (s : State) (ea : Word) (segs : List Seg) (job : MemJob) : Bool :=
  spaceOf ea == 1 && (!job.reads || s.bankQueued s.actCue s.actCell (keyBanks (segRanges segs)))

/-- What an access that has passed its checks waits for before it is asked for: the slot's own stores to the same bytes (R268),
and room in its port's queue (R247). Stores but those to strong pages are performed later, in their order. -/
def State.accessWait (s : State) (ea : Word) (segs : List Seg) (job : MemJob) : Option WaitFor :=
  let rs := segRanges segs
  if (job.reads || (spaceOf ea == 0 && strongest segs == 0)) && s.myRegion.ownMeets s.actCell s.actSlot rs then some (.stores rs)
  else if s.queuesOwn ea segs job && s.taskPortFull s.actCue s.actCell then some .queue
  else none

/-- Addresses and lengths of an access's segments. -/
def segRuns : Nat → List Seg → List (Nat × Nat)
  | _, [] => []
  | a, g :: gs => (a, g.len) :: segRuns (a + g.len) gs

/-- The requests of a task access at EA that has not been asked for: none, or what it waits for. A store that is performed later
goes on once its MREQs have joined the port, and an access to the own scratchpad at whose banks nothing is queued at once; every
other access waits until it has been performed and answered (R247, R248, R340). -/
def State.request (s : State) (ea : Word) (segs : List Seg) (job : MemJob) : Option WaitFor × State :=
  let r := s.myRegion
  let v := s.actCell
  let sp := spaceOf ea
  let t := spadTarget ea v
  let f : Fetch := { who := s.actor, cue := s.actCue, id := 0, key := ea.toNat, space := sp, cell := v, target := t,
                     ranges := segRanges segs, parts := [], job := job }
  let runs := if sp == 0 || sp == 2 then segRuns ea.toNat segs else []
  let waits (s : State) : Option WaitFor :=
    some (if (s.tenant r.tenant).bucketBusy s.actor then .bucket else if s.fetching s.actor then .answer else .quota)
  if runs.isEmpty then
    if job.reads && s.queuesOwn ea segs job then
      (some .answer, s.pushFetch { f with made := s.cyc.toNat, banks := keyBanks (segRanges segs) })
    else (none, s)
  else if sp == 2 && s.leased r.die (r.cell t).site then (some .quota, s)
  else if (s.portHeld s.actor r.tenant r.die (r.cell v).site runs).isSome then (waits s, s)
  else if job.reads || (sp == 0 && strongest segs == 0) then
    let s := s.askFor f runs
    (waits s, s)
  else
    match s.portRequest v (r.fetchDst sp v t) [(runs, true)] (sp == 0) with
    | (true, s) => (none, s)
    | (false, s) => (waits s, s)

/-! ### The slot's view of memory -/

/-- One byte as the executing slot reads it: a register image stands in its cell's task area (R19). -/
def State.viewByte (s : State) (key : Nat) : Byte :=
  match s.imageAt key with
  | some (k, j) => (s.myCell.slot k).regByte j
  | none => memGet s.mem key

def State.viewBytes (s : State) (key : Nat) : Nat → List Byte
  | 0 => []
  | n + 1 => s.viewByte key :: s.viewBytes (key + 1) n

/-- The bytes of an access's segments, in order. -/
def State.viewSegs (s : State) (segs : List Seg) : List Byte := segs.flatMap (fun g => s.viewBytes g.key g.len)

/-- Store bytes upwards from a key as the executing slot does: into a register image byte by byte. -/
def State.putBytes (s : State) (key : Nat) : List Byte → State
  | [] => s
  | b :: bs =>
    (match s.imageAt key with
      | some (k, j) => s.setMyCell (s.myCell.setSlot k ((s.myCell.slot k).setRegByte j b))
      | none => s.write key [b]).putBytes (key + 1) bs

/-- Store bytes at a key of the executing cell's task area. -/
def State.putTask (s : State) (key : Nat) (bs : List Byte) : State :=
  if key < poolKey s.myRegion.die s.myCell.site 32768 then s.putBytes key bs else s.write key bs

/-- Distribute bytes over segments. -/
def splitSegs : List Seg → List Byte → List (Nat × List Byte)
  | [], _ => []
  | g :: gs, bs => (g.key, bs.take g.len) :: splitSegs gs (bs.drop g.len)

/-- Write segments to memory at once, in order. -/
def State.writeSegs (s : State) : List (Nat × List Byte) → State
  | [] => s
  | (k, bs) :: rest => (s.write k bs).writeSegs rest

/-- An instruction that releases goes on once the slot's own stores are performed (R208, R266). -/
def State.released (s : State) (k : State → State) : State :=
  if (s.myRegion.ownPend s.actCell s.actSlot).isEmpty then k s else s.wait .own

/-- Issue a store whose checks and requests have passed. A store to the slot's task area is performed at once; every other store
is performed later (R199, R268), one to a strong page before the slot goes on. -/
def State.issueStore (s : State) (ea : Word) (segs : List Seg) (bs : List Byte) : State :=
  let parts := splitSegs segs bs
  if spaceOf ea = 3 then parts.foldl (fun s g => s.putTask g.1 g.2) s
  else
    let r := s.myRegion
    let p : PStore := { id := r.nextAcc, vcell := s.actCell, slot := s.actSlot, space := spaceOf ea, segs := parts,
                        target := spadTarget ea s.actCell, made := s.cyc.toNat,
                        banks := if spaceOf ea = 1 then keyBanks (segRanges segs) else [] }
    s.setMyRegion { r with pend := r.pend ++ [p], nextAcc := r.nextAcc + 1 }

end Sys2Proof.Machine
end

