-- ==== Sys2Proof/Machine/NetOps.lean ====
section
/-! DEFINITION. Channels and ports as producers and consumers use them: giving and taking tokens (R9 to R13), the
traffic counters (R358), presenting a packet on a class with its credits (R338, R339, R348), and returning a
credit. -/

namespace Sys2Proof.Machine

/-! ### Cells that run (R363, R366, R381) -/

/-- An exchange holds its two cells until the moved channels are routed again. -/
def Region.exchangeHolds (r : Region) (site : Nat) : Bool :=
  r.exchanges.any (fun x => (x.stage != 2 || !x.routed) && (x.a == site || x.b == site))

def Region.cellHeld (r : Region) (v : Nat) : Bool := r.exchangeHolds (r.cell v).site

/-- The virtual cell an end of a channel lies at (R359). -/
def Region.endCell (r : Region) : End → Nat
  | .task v _ _ => v
  | .entry e _ => (r.cellOf.getD e (0, 0)).1

/-- A node gives tokens to a channel that enters a held cell (R363). -/
def Region.feedsHeld (r : Region) (e : Nat) : Bool :=
  r.chans.any (fun ch => (match ch.prod with
    | .entry i _ => i == e
    | .task _ _ _ => false) && r.cellHeld (r.endCell ch.cons))

/-- The region's cells run: it has started, its die runs (R402, R431) and the wave has not reached the cell (R381). -/
def State.cellRuns (s : State) (c v : Nat) : Bool :=
  let r := s.region c
  r.started && !(r.cell v).frozen && (s.die r.die).power.running

/-- The slots of a cell run: its region's cells do and no exchange holds it. -/
def State.slotRuns (s : State) (c v : Nat) : Bool := s.cellRuns c v && !(s.region c).cellHeld v

/-! ### Channels -/

/-- Lanes a token carries, for the width and the traffic count. -/
def Token.laneCount : Token → Nat
  | .data ls | .cfg _ _ ls => ls.length
  | _ => 0

/-- What a token adds to a traffic counter (R358). -/
def Token.weight (t : Token) : Nat := if t.laneCount = 0 then 1 else (t.laneCount + 3) / 4

/-- Queue a token with the accesses that precede it (R148); a resident region's channels count it (R358). -/
def Chan.give (c : Chan) (now : Nat) (resident : Bool) (t : Token) (pre : List Nat := []) : Chan :=
  { c with q := c.q ++ [t], traffic := if resident then min (c.traffic + t.weight) (2 ^ 24 - 1) else c.traffic
           headAt := if c.q.isEmpty then now else c.headAt
           pre := c.pre ++ List.replicate (c.q.length - c.pre.length) [] ++ [pre] }

/-- Every channel of the producer's port has n free slots (R11, R12); a port without channels never holds (R85). -/
def Region.room (r : Region) (p : End) (n : Nat) : Bool :=
  (r.chans.filter (fun c => c.prod == p)).all (fun c => c.q.length + n ≤ 4)

/-- Give a token on a port: every channel of it receives it (R9). -/
def Region.give (r : Region) (p : End) (t : Token) (pre : List Nat := []) : Region :=
  { r with chans := r.chans.map (fun c => if c.prod = p then c.give r.now r.resident t pre else c) }

def Region.giveAll (r : Region) (p : End) (ts : List Token) (pre : List Nat := []) : Region :=
  ts.foldl (fun r t => r.give p t pre) r

/-- The channel that feeds a consumer. -/
def Region.chanTo (r : Region) (c : End) : Option Chan := r.chans.find? (fun ch => ch.cons == c)

/-- The token in a consumer's operand slot: the head of its queue (R11). -/
def Region.head (r : Region) (c : End) : Option Token := (r.chanTo c).bind (fun ch => ch.q.head?)

/-- Take the head token of a consumer's queue. -/
def Region.take (r : Region) (c : End) : Region :=
  { r with chans := r.chans.map (fun ch => if ch.cons = c then
      { ch with q := ch.q.tail, headAt := r.now, pre := ch.pre.tail, cur := ch.cur ++ ch.pre.headD [] } else ch) }

/-! ### Accesses that precede a firing (R148) -/

/-- An access of the region is presented and not yet performed. -/
def Region.pending (r : Region) (id : Nat) : Bool := r.accs.any (fun a => a.id == id && !a.done)

/-- The channels into an entry's operands. -/
def Chan.into (c : Chan) (e : Nat) : Bool :=
  match c.cons with
  | .entry i _ => i == e
  | .task _ _ _ => false

/-- What precedes the firing in progress of an entry: the accesses that precede the tokens it has taken. -/
def Region.preOf (r : Region) (e : Nat) : List Nat :=
  ((r.chans.filter (fun c => c.into e)).flatMap (fun c => c.cur)).eraseDups.filter r.pending

/-- A new firing begins. -/
def Region.forget (r : Region) (e : Nat) : Region :=
  { r with chans := r.chans.map (fun c => if c.into e then { c with cur := [] } else c) }

/-- Output ends of a task slot, in ascending order (R239). -/
def Region.outEnds (r : Region) (v k : Nat) : List Nat :=
  (List.range 32).filter (fun e => r.chans.any (fun c => c.prod == .task v k e))

/-! ### Route classes -/

def Region.cls (r : Region) (c : Nat) : ClassEnt := Tab.get r.classes c {}
def Region.setCls (r : Region) (c : Nat) (e : ClassEnt) : Region := { r with classes := Tab.set r.classes c e }

def creditKey (cell recv : Nat) : Nat := cell * 65536 + recv
def ClassEnt.credit (e : ClassEnt) (cell recv : Nat) : Nat := Tab.get e.credits (creditKey cell recv) 0
def ClassEnt.addCredit (e : ClassEnt) (cell recv : Nat) (f : Nat → Nat) : ClassEnt :=
  { e with credits := Tab.set e.credits (creditKey cell recv) (f (e.credit cell recv)) }

/-- The marker of a kind: 1 EOS, 2 CURTAIN (R338). -/
def markerToken (kind : Nat) : Token := if kind = 1 then .eos else .curtain

/-- The virtual cell that hosts a receiver. -/
def Region.recvCell (r : Region) : Recv → Nat
  | .slot v _ => v
  | .node e => (r.cellOf.getD e (0, 0)).1

/-- Destinations of a class from its receivers (R348). -/
def Region.classDsts (r : Region) (c : Nat) : List Dst :=
  let rs := (r.cls c).recvs
  (List.range rs.length).filterMap (fun i => (rs[i]?).map (fun q =>
    { recv := i, die := r.die, site := (r.cell (r.recvCell q)).site : Dst }))

/-- Flits of a DATA packet of L lanes (R339); markers and CREDIT are one flit. -/
def dataFlits (l : Nat) : Nat := if l ≤ 1 then 1 else 1 + (l + 3) / 4

/-- The packets one send makes, by their destinations: one flit goes to every receiver at once, more flits as one unicast per
receiver in ascending DST (R350). -/
def Region.sends (r : Region) (c len : Nat) : List (List Dst) :=
  let ds := r.classDsts c
  if len = 1 then (if ds.isEmpty then [] else [ds]) else (sortBy (fun d => d.die * 1024 + d.site) ds).map (fun d => [d])

/-- A sending cell holds the credit of each destination (R348). -/
def ClassEnt.pays (e : ClassEnt) (cell : Nat) (ds : List Dst) : Bool := ds.all (fun d => decide (0 < e.credit cell d.recv))

/-- The packets of a send that are not gone yet: `sent` has bit i for each receiver i that a unicast has gone to, so that an
exchange between two of them sends none twice (R368). -/
def Region.sendsLeft (r : Region) (c len sent : Nat) : List (List Dst) :=
  (r.sends c len).filter (fun ds => ds.any (fun d => !sent.testBit d.recv))

/-- The next of the packets of a send that are not gone yet has its credits. -/
def Region.sendReady (r : Region) (cell cls len sent : Nat) : Bool :=
  match (r.sendsLeft cls len sent).head? with
  | some ds => (r.cls cls).pays cell ds
  | none => true

/-- Present one packet of a class at a cell's port: it consumes a credit of each receiver it goes to (R348). -/
def State.presentTo (s : State) (cue cell cls kind tag : Nat) (lanes : List Lane) (ds : List Dst) : State :=
  let r := s.region cue
  let p : Packet :=
    { id := s.nextPkt, cue := cue, plane := 0, kind := kind, len := if kind = 0 then dataFlits lanes.length else 1,
      ten := r.tenant, cls := cls, tag := tag, lanes := lanes, mc := decide (1 < ds.length), srcDie := r.die,
      srcSite := (r.cell cell).site, srcCell := cell, dsts := ds, presented := s.cyc.toNat }
  (s.setRegion cue (r.setCls cls (ds.foldl (fun e d => e.addCredit cell d.recv (fun n => n - 1)) (r.cls cls)))).queuePackets [p]

/-- Present a marker of a class (R349, R418). -/
def State.presentMarker (s : State) (cue cell cls kind : Nat) : State :=
  ((s.region cue).sends cls 1).foldl (fun s ds => s.presentTo cue cell cls kind 0 [] ds) s

/-- The receivers of a packet marked as sent to. -/
def markSent (sent : Nat) (ds : List Dst) : Nat := ds.foldl (fun m d => m ||| 2 ^ d.recv) sent

/-- Present the packets of a send in order, each as its credit allows: those still left, the receivers sent to, and the state
(R350). -/
def State.presentRun (cue cell cls tag : Nat) (lanes : List Lane) : List (List Dst) → Nat → State → List (List Dst) × Nat × State
  | [], m, s => ([], m, s)
  | ds :: rest, m, s =>
    if ((s.region cue).cls cls).pays cell ds then
      State.presentRun cue cell cls tag lanes rest (markSent m ds) (s.presentTo cue cell cls 0 tag lanes ds)
    else (ds :: rest, m, s)

/-- Present what is left of a send; `done` goes on once all of it is presented, `more` while some waits for credit. -/
def State.presentData (s : State) (cue cell cls tag : Nat) (lanes : List Lane) (sent : Nat) (done : State → State)
    (more : Nat → State → State) : State :=
  let q := State.presentRun cue cell cls tag lanes ((s.region cue).sendsLeft cls (dataFlits lanes.length) sent) sent s
  if q.1.isEmpty then done q.2.2 else more q.2.1 q.2.2

/-- The site at which ports address a cell: the old one while a forwarding lease lasts (R365). -/
def Region.portSite (r : Region) (v : Nat) : Nat :=
  match r.exchanges.find? (fun x => x.stage == 2 && !x.leaseOver && (x.va == some v || x.vb == some v)) with
  | some x => if x.va = some v then x.a else x.b
  | none => (r.cell v).site

/-- The receiver's port returns a CREDIT packet to the sending cell (R348), on plane P, exempt from quota. -/
def State.sendCredit (s : State) (cue cls src recv : Nat) : State :=
  let r := s.region cue
  let here := r.recvCell ((r.cls cls).recvs.getD recv (.node 0))
  let p : Packet :=
    { id := s.nextPkt, cue := cue, plane := 1, kind := 5, len := 1, ten := r.tenant, cls := cls, tag := recv,
      srcDie := r.die, srcSite := (r.cell here).site, srcCell := here,
      dsts := [{ recv := src, die := r.die, site := r.portSite src }], presented := s.cyc.toNat }
  s.queuePackets [p]

/-- The MRSPs that answer the MREQs of access `id` go back to virtual cell v, on plane P (R340, R346). -/
def State.answer (s : State) (c v id : Nat) (src : Dst) (parts : List (Nat × Nat)) (data : Bool) : State :=
  let r := s.region c
  s.queuePackets (parts.zipIdx.map (fun q =>
    { id := s.nextPkt + q.2, cue := c, plane := 1, kind := 4, len := mrspFlits data q.1.2, ten := r.tenant, cls := 0,
      tag := id % 65536, srcDie := src.die, srcSite := src.site, srcCell := src.recv,
      dsts := [{ recv := v, die := r.die, site := r.portSite v }], presented := s.cyc.toNat,
      mem := some { acc := id, count := q.1.2 - 1 } }))

/-- Index of a receiver in its class. -/
def ClassEnt.recvIdx (e : ClassEnt) (q : Recv) : Nat := e.recvs.findIdx (fun x => x == q)

end Sys2Proof.Machine
end

