-- ==== Sys2Proof/Machine/Flags.lean ====
section
/-! DEFINITION. Conditions. The KV9 keeps no status flags (R42): what a condition gives is a value. Here are the
branch conditions (R200), the integer comparisons of the task element (R194), the lane relations of R91, the class
mask of R92 and the orders of R90. -/

namespace Sys2Proof.Machine

/-! ### 64-bit conditions (R194, R200) -/

def ltS (a b : Word) : Bool := BitVec.slt a b
def ltU (a b : Word) : Bool := BitVec.ult a b
def boolWord (b : Bool) : Word := if b then 1 else 0

/-! ### Lane relations (R91) -/

/-- The mask of a relation (R91). -/
def maskLane (b : Bool) : Lane := if b then 0xFFFFFFFF else 0

/-- Comparison of two lanes of a format: `none` when a NaN takes part (R91). -/
def cmpLane (f : Fmt) (a b : Lane) : Option Ordering :=
  if fmtIsFloat f then
    let x := laneF f .plain a
    let y := laneF f .plain b
    if x.isNan || y.isNan then none else some (Ex.cmp x y)
  else some (compare (readInt f a) (readInt f b))

def relEq (f : Fmt) (a b : Lane) : Lane := maskLane (cmpLane f a b == some .eq)
def relNe (f : Fmt) (a b : Lane) : Lane := maskLane (cmpLane f a b != some .eq)
def relLt (f : Fmt) (a b : Lane) : Lane := maskLane (cmpLane f a b == some .lt)
def relLe (f : Fmt) (a b : Lane) : Lane :=
  maskLane (cmpLane f a b == some .lt || cmpLane f a b == some .eq)
def relGt (f : Fmt) (a b : Lane) : Lane := maskLane (cmpLane f a b == some .gt)
def relGe (f : Fmt) (a b : Lane) : Lane :=
  maskLane (cmpLane f a b == some .gt || cmpLane f a b == some .eq)
def relUn (f : Fmt) (a b : Lane) : Lane := maskLane (cmpLane f a b == none)

/-- FLT: 1 when a < b as CMPLT on f32, else 0 (R203). -/
def fltWord (a b : Lane) : Word := if cmpLane .f32 a b == some .lt then 1 else 0

/-! ### The class mask (R92) -/

/-- CLASS: one bit set, never flushing. -/
def classLane (f : Fmt) (a : Lane) : Lane :=
  match decodeF f a.toNat with
  | .nan => 0x100
  | .inf true => 0x001
  | .inf false => 0x080
  | .fin neg m _ =>
    if m = 0 then (if neg then 0x008 else 0x010)
    else if m < 2 ^ mantBits f then (if neg then 0x004 else 0x020)
    else (if neg then 0x002 else 0x040)

/-! ### Selection (R90) -/

/-- The canonical NaN as a lane (R41). -/
def nanLane (f : Fmt) : Lane := BitVec.ofNat 32 (nanCode f)

/-- a precedes or equals b in the order of R90, for operands that are no NaN. -/
def leLane (f : Fmt) (a b : Lane) : Bool :=
  if fmtIsFloat f then Ex.le0 (laneF f .plain a) (laneF f .plain b) else decide (readInt f a ≤ readInt f b)

def anyNan (f : Fmt) (a b : Lane) : Bool :=
  fmtIsFloat f && ((laneF f .plain a).isNan || (laneF f .plain b).isNan)

/-- MIN (R90). -/
def minLane (f : Fmt) (a b : Lane) : Lane :=
  if anyNan f a b then nanLane f else placeBits f (if leLane f a b then a else b).toNat
/-- MAX (R90). -/
def maxLane (f : Fmt) (a b : Lane) : Lane :=
  if anyNan f a b then nanLane f else placeBits f (if leLane f a b then b else a).toNat
/-- CLAMP: MIN(MAX(a, b), c) (R90). -/
def clampLane (f : Fmt) (a b c : Lane) : Lane := minLane f (maxLane f a b) c

end Sys2Proof.Machine
end

