-- ==== Sys2Proof/Machine/Lanes.lean ====
section
/-! DEFINITION. Lane functions of the element-wise nodes, which the vector instructions share (R88 to R95, R205):
arithmetic, bit operations, rounding to integral values, and the lane and window reduction trees (R56, R58, R59,
R103). -/

namespace Sys2Proof.Machine

/-! ### Arithmetic (R88, R89) -/

def addLane (f : Fmt) (c : Ctl) (a b : Lane) : Lane :=
  if fmtIsFloat f then roundLane f c (Ex.add c.rm (laneF f c a) (laneF f c b))
  else finishInt f c.sat (readInt f a + readInt f b)

def subLane (f : Fmt) (c : Ctl) (a b : Lane) : Lane :=
  if fmtIsFloat f then roundLane f c (Ex.add c.rm (laneF f c a) (laneF f c b).neg)
  else finishInt f c.sat (readInt f a - readInt f b)

def mulLane (f : Fmt) (c : Ctl) (a b : Lane) : Lane :=
  if fmtIsFloat f then roundLane f c (Ex.mul (laneF f c a) (laneF f c b))
  else finishInt f c.sat (readInt f a * readInt f b)

/-- FMA: a×b + c, one rounding. -/
def fmaLane (f : Fmt) (k : Ctl) (a b c : Lane) : Lane :=
  if fmtIsFloat f then roundLane f k (Ex.add k.rm (Ex.mul (laneF f k a) (laneF f k b)) (laneF f k c))
  else finishInt f k.sat (readInt f a * readInt f b + readInt f c)

/-- FMS: a×b − c. -/
def fmsLane (f : Fmt) (k : Ctl) (a b c : Lane) : Lane :=
  if fmtIsFloat f then roundLane f k (Ex.add k.rm (Ex.mul (laneF f k a) (laneF f k b)) (laneF f k c).neg)
  else finishInt f k.sat (readInt f a * readInt f b - readInt f c)

/-- FNMA: −(a×b) + c. -/
def fnmaLane (f : Fmt) (k : Ctl) (a b c : Lane) : Lane :=
  if fmtIsFloat f then roundLane f k (Ex.add k.rm (Ex.mul (laneF f k a) (laneF f k b)).neg (laneF f k c))
  else finishInt f k.sat (readInt f c - readInt f a * readInt f b)

/-- Integer quotient of R89. -/
def divInt (f : Fmt) (a b : Int) : Int :=
  if b = 0 then (if a < 0 then intMin f else intMax f) else Int.tdiv a b

def divLane (f : Fmt) (c : Ctl) (a b : Lane) : Lane :=
  if fmtIsFloat f then roundLane f c (Ex.div (laneF f c a) (laneF f c b))
  else finishInt f c.sat (divInt f (readInt f a) (readInt f b))

def sqrtLane (f : Fmt) (c : Ctl) (a : Lane) : Lane := roundLane f c (Ex.sqrt (laneF f c a))

/-- ABSDIFF: |a − b|; +0 for equal finite operands. -/
def absdiffLane (f : Fmt) (c : Ctl) (a b : Lane) : Lane :=
  if fmtIsFloat f then roundLane f c (Ex.add c.rm (laneF f c a) (laneF f c b).neg).abs
  else finishInt f c.sat ((readInt f a - readInt f b).natAbs : Int)

/-- MULH: bits 2W−1:W of the exact product (R89). -/
def mulhLane (f : Fmt) (a b : Lane) : Lane := placeInt f ((readInt f a * readInt f b) / 2 ^ fmtBits f)

/-- REM: the sign of a; a divisor of 0 gives a (R89). -/
def remLane (f : Fmt) (a b : Lane) : Lane :=
  placeInt f (if readInt f b = 0 then readInt f a else Int.tmod (readInt f a) (readInt f b))

/-- A floating code with its sign bit cleared, then set as asked; a NaN becomes canonical (R90). -/
def signLane (f : Fmt) (neg : Bool) (a : Lane) : Lane :=
  if (laneF f .plain a).isNan then nanLane f
  else BitVec.ofNat 32 (withSign f neg (lowBits f a % signBit f))

def isNegCode (f : Fmt) (a : Lane) : Bool := decide (signBit f ≤ lowBits f a)

def negLane (f : Fmt) (a : Lane) : Lane :=
  if fmtIsFloat f then signLane f (!isNegCode f a) a else placeInt f (-readInt f a)

def absLane (f : Fmt) (a : Lane) : Lane :=
  if fmtIsFloat f then signLane f false a else placeInt f ((readInt f a).natAbs : Int)

/-- COPYSIGN: magnitude of a, sign of b; a NaN in either gives the canonical NaN (R90). -/
def copysignLane (f : Fmt) (a b : Lane) : Lane :=
  if (laneF f .plain b).isNan then nanLane f else signLane f (isNegCode f b) a

/-! ### Bit operations on the low W bits (R94) -/

def andLane (f : Fmt) (a b : Lane) : Lane := placeBits f (a &&& b).toNat
def orLane (f : Fmt) (a b : Lane) : Lane := placeBits f (a ||| b).toNat
def xorLane (f : Fmt) (a b : Lane) : Lane := placeBits f (a ^^^ b).toNat
def notLane (f : Fmt) (a : Lane) : Lane := placeBits f (~~~a).toNat
def andnLane (f : Fmt) (a b : Lane) : Lane := placeBits f (a &&& ~~~b).toNat

def shlLane (f : Fmt) (a b : Lane) : Lane :=
  if fmtBits f ≤ b.toNat then placeBits f 0 else placeBits f (lowBits f a * 2 ^ b.toNat)
def shrLane (f : Fmt) (a b : Lane) : Lane :=
  if fmtBits f ≤ b.toNat then placeBits f 0 else placeBits f (lowBits f a / 2 ^ b.toNat)
/-- SHRA: bit W−1 fills. -/
def shraLane (f : Fmt) (a b : Lane) : Lane :=
  let w := fmtBits f
  let x : BitVec w := BitVec.ofNat w a.toNat
  placeBits f (x.sshiftRight (min b.toNat w)).toNat
def rotlLane (f : Fmt) (a b : Lane) : Lane :=
  let w := fmtBits f
  let x : BitVec w := BitVec.ofNat w a.toNat
  placeBits f (x.rotateLeft (b.toNat % w)).toNat

/-- Number of set bits among the low k bits. -/
def popNat : Nat → Nat → Nat
  | 0, _ => 0
  | k + 1, n => n % 2 + popNat k (n / 2)

/-- Trailing zeros among k bits: k for 0. -/
def ctzNat : Nat → Nat → Nat
  | 0, _ => 0
  | k + 1, n => if n % 2 = 1 then 0 else 1 + ctzNat k (n / 2)

/-- Bit reversal of k bits. -/
def brevNat : Nat → Nat → Nat
  | 0, _ => 0
  | k + 1, n => (n % 2) * 2 ^ k + brevNat k (n / 2)

def popcLane (f : Fmt) (a : Lane) : Lane := BitVec.ofNat 32 (popNat (fmtBits f) (lowBits f a))
def clzLane (f : Fmt) (a : Lane) : Lane := BitVec.ofNat 32 (fmtBits f - bitLen (lowBits f a))
def ctzLane (f : Fmt) (a : Lane) : Lane := BitVec.ofNat 32 (ctzNat (fmtBits f) (lowBits f a))
def brevLane (f : Fmt) (a : Lane) : Lane := placeBits f (brevNat (fmtBits f) (lowBits f a))

/-! ### Rounding to integral values (R95) -/

def integralLane (f : Fmt) (c : Ctl) (a : Lane) : Lane :=
  match laneF f c a with
  | .nan => nanLane f
  | .inf neg => roundLane f .plain (.inf neg)
  | .fin neg m e => roundLane f .plain (.fin neg (roundGrid c.rm neg m e 0) 0)

/-! ### Select (R93) -/

def selLane (a b c : Lane) : Lane := if c = 0 then b else a

/-! ### Reductions (R56, R58, R59, R103) -/

/-- The reductions of R103. -/
inductive Red where
  | sum | max | min | maxa
  deriving DecidableEq, Repr

/-- A lane as it enters a reduction: f32 for a floating sum, its magnitude for MAXA, else its own low bits. -/
def redIn (k : Red) (f : Fmt) (c : Ctl) (a : Lane) : Lane :=
  match k with
  | .sum => if fmtIsFloat f then roundLane .f32 .plain (laneF f c a) else placeBits f a.toNat
  | .maxa =>
    if fmtIsFloat f then signLane f false a
    else placeInt f (clampInt (intMin f) (intMax f) ((readInt f a).natAbs : Int))
  | _ => if fmtIsFloat f && (laneF f .plain a).isNan then nanLane f else placeBits f a.toNat

/-- A pair of present values (R56, R58, R103); FTZ holds for RDOT's pairs as for every other rounding (R43; DESIGN CHOICE,
log 21). -/
def redPair (k : Red) (f : Fmt) (c : Ctl) (a b : Lane) : Lane :=
  match k with
  | .sum =>
    if fmtIsFloat f then
      roundLane .f32 { c with sat := false } (Ex.add c.rm (laneF .f32 .plain a) (laneF .f32 .plain b))
    else finishInt f c.sat (readInt f a + readInt f b)
  | .min => minLane f a b
  | _ => maxLane f a b

/-- The value a reduction gives: a floating sum is converted to the format (R103). -/
def redOut (k : Red) (f : Fmt) (c : Ctl) (a : Lane) : Lane :=
  match k with
  | .sum => if fmtIsFloat f then roundLane f c (decodeF .f32 a.toNat) else a
  | _ => a

/-- The tree of R58 over the lanes of one token. -/
def redLanes (k : Red) (f : Fmt) (c : Ctl) (ls : List Lane) : Lane :=
  match pairTree (redPair k f c) (ceilLog2 ls.length) (ls.map (fun a => some (redIn k f c a))) with
  | some v => redOut k f c v
  | none => 0

/-- RDOT (R104): products rounded to f32 under RM and FTZ, or integer products at the format width. -/
def dotLanes (f : Fmt) (c : Ctl) (as bs : List Lane) : Lane :=
  let prods := List.zipWith (fun a b =>
    if fmtIsFloat f then roundLane .f32 { c with sat := false } (Ex.mul (laneF f c a) (laneF f c b))
    else finishInt f c.sat (readInt f a * readInt f b)) as bs
  match pairTree (redPair .sum f c) (ceilLog2 prods.length) (prods.map some) with
  | some v => redOut .sum f c v
  | none => 0

/-- A window's partial tree (R59, R110): finished subtrees, the latest first, each with its level. -/
abbrev Partial := List (Nat × List Lane)

/-- Merge equal levels at the top of a partial tree. -/
def mergeTop (f : Lane → Lane → Lane) : Nat → Partial → Partial
  | 0, t => t
  | k + 1, (i, y) :: (j, x) :: r =>
    if i = j then mergeTop f k ((i + 1, List.zipWith f x y) :: r) else (i, y) :: (j, x) :: r
  | _, t => t

/-- Add the next position of a window. -/
def pushTree (f : Lane → Lane → Lane) (t : Partial) (x : List Lane) : Partial :=
  mergeTop f (t.length + 1) ((0, x) :: t)

/-- Close a window: positions beyond the last are absent, so each partial subtree joins the one before it. -/
def closeTree (f : Lane → Lane → Lane) : Partial → List Lane
  | [] => []
  | (_, x) :: r => r.foldl (fun acc p => List.zipWith f p.2 acc) x

end Sys2Proof.Machine
end

