-- ==== Sys2Proof/Machine/Operands.lean ====
section
/-! DEFINITION. The operand forms of task words: immediates and targets (R73), effective addresses (R197), lane
operands (R205, R206), and the shared course of a task access: its checks (R198), its requests (R354), and what it
does once both have passed. -/

namespace Sys2Proof.Machine

/-- imm16 sign-extended to 64 bits (R73). -/
def sext16 (i : BitVec 16) : Word := i.signExtend 64
/-- imm16 zero-extended (R73). -/
def zext16 (i : BitVec 16) : Word := i.setWidth 64

/-- EA of a load or store (R197). -/
def State.ea (s : State) (a : Reg) (i : BitVec 16) : Word := s.rg a + sext16 i

/-- Target of a branch or jump, computed modulo nothing (R73). -/
def relTarget (pc : BitVec 16) (off : Int) : Int := (pc.toNat : Int) + 4 * off

/-- Go to a target of R73 and R200: outside 0 to 0xFFFC it raises BOUNDS with the target. -/
def State.goTo (s : State) (t : Int) (link : Slot → Slot) : State :=
  if t < 0 ∨ 0xFFFC < t then s.trap .bounds (BitVec.ofInt 64 t)
  else s.setMe { link s.me with pc := BitVec.ofInt 16 t }

/-- PC + 4 as a register value (R200). -/
def State.linkValue (s : State) : Word := BitVec.ofNat 64 (s.me.pc.toNat + 4)

/-- A taken or untaken branch (R200). -/
def State.branch (s : State) (taken : Bool) (o : BitVec 16) : State :=
  if taken then s.goTo (relTarget s.me.pc o.toInt) id else s.advance

/-- Low lane of a general register (R203). -/
def loLane (w : Word) : Lane := w.setWidth 32

/-- What a task access gives its instruction: the memory it reaches, the bytes it read there, whether its job has been done there
already, and the fetch that brought it. -/
structure Got where
  segs : List Seg := []
  bytes : List Byte := []
  done : Bool := false
  fetch : List Fetch := []
  deriving DecidableEq, Repr

/-- An instruction that has its bytes waits for something else, and keeps them. -/
def Got.wait (g : Got) (s : State) (w : WaitFor) : State := ({ s with fetches := s.fetches ++ g.fetch }).wait w

/-- The requests of an access whose checks have passed, then its effect. -/
def State.askAccess (s : State) (ea : Word) (segs : List Seg) (job : MemJob) (k : Got → State → State) : State :=
  match s.accessWait ea segs job with
  | some w => s.wait w
  | none =>
    match s.request ea segs job with
    | (none, s) => k { segs := segs, bytes := s.viewSegs segs } s
    | (some w, s) => s.wait w

/-- The course of a task access: one that has been asked for goes on with its answer, once it has come; another passes the checks
of R198, and asks. -/
def State.withAccess (s : State) (ea : Word) (align : Nat) (job : MemJob) (k : Got → State → State) : State :=
  match s.fetchOf ea.toNat job with
  | some f => if s.fetched f then k { bytes := f.bytes, done := true, fetch := [f] } s.dropFetches else s.wait .answer
  | none =>
    match checkAccess s ea job.size align job.reads job.writes with
    | (.trap c v, s) => s.trap c v
    | (.viol a right, s) => s.violation a right
    | (.wait w, s) => s.wait w
    | (.ok segs, s) => s.askAccess ea segs job k

/-- The executing instruction's word, for TRAPVAL of an ILL (R193). -/
def wordOf (i : Instr) : Word := ((encodeTask i).getD 0).setWidth 64

/-- ILL raised by an instruction's own page (R23, R221, R371). -/
def State.ill (s : State) (i : Instr) : State := s.trap .ill (wordOf i)

/-- Lane-wise functions over whole vectors (R205). -/
def vec1 (f : Lane → Lane) (a : Vector Lane 16) : Vector Lane 16 := a.map f
def vec2 (f : Lane → Lane → Lane) (a b : Vector Lane 16) : Vector Lane 16 := Vector.zipWith f a b
def vecThree (f : Lane → Lane → Lane → Lane) (a b c : Vector Lane 16) : Vector Lane 16 :=
  Vector.ofFn (fun i => f (a.get i) (b.get i) (c.get i))

/-- Lane i of a vector (R206). -/
def laneAt (v : Vector Lane 16) (i : Nat) : Lane := v.toList.getD i 0

/-- A lane as VGET places it in a general register (R206): sign-extended for i32, i16, i8, else zero-extended from
the format's low bits. -/
def getLane (f : Fmt) (l : Lane) : Word :=
  if fmtIsSigned f then BitVec.ofInt 64 (readInt f l) else BitVec.ofNat 64 (lowBits f l)

end Sys2Proof.Machine
end

