-- ==== Sys2Proof/Machine/TaskAlu.lean ====
section
/-! DEFINITION. The integer ALU group and its immediates (R194 to R196), and the FP32 group (R203). -/

namespace Sys2Proof.Machine

/-- The outcome of a step that always has a next state. -/
abbrev Out := Host.Outcome State Fault Refusal

/-! ### Values (R194, R195, R196) -/

/-- Shift amount b[5:0] (R194). -/
def shamt (b : Word) : Nat := b.toNat % 64

def divWord (a b : Word) : Word :=
  if b = 0 then (if ltS a 0 then 0x8000000000000000 else 0x7FFFFFFFFFFFFFFF) else BitVec.sdiv a b
def divuWord (a b : Word) : Word := if b = 0 then 0xFFFFFFFFFFFFFFFF else a / b
def remWord (a b : Word) : Word := if b = 0 then a else BitVec.srem a b
def mulhWord (a b : Word) : Word := BitVec.ofInt 64 ((a.toInt * b.toInt) / 2 ^ 64)
def clzWord (a : Word) : Word := BitVec.ofNat 64 (64 - bitLen a.toNat)
def popcWord (a : Word) : Word := BitVec.ofNat 64 (popNat 64 a.toNat)

/-- The f32 result of R203, zero-extended. -/
def fpWord (x : Ex) : Word := (rne32 x).setWidth 64
def fpIn (a : Word) : Ex := exOf32 (loLane a)
/-- FCVTFI: RNE to an integer, clamped to the signed 64-bit range; NaN gives 0 (R203). -/
def fpToInt (x : Ex) : Word := BitVec.ofInt 64 (exToInt (-(2 ^ 63)) (2 ^ 63 - 1) .rne x)

/-! ### Meanings -/

def execAdd (d a b : Reg) (s : State) : Out := .next (s.writeReg d (s.rg a + s.rg b))
def execSub (d a b : Reg) (s : State) : Out := .next (s.writeReg d (s.rg a - s.rg b))
def execAnd (d a b : Reg) (s : State) : Out := .next (s.writeReg d (s.rg a &&& s.rg b))
def execOr (d a b : Reg) (s : State) : Out := .next (s.writeReg d (s.rg a ||| s.rg b))
def execXor (d a b : Reg) (s : State) : Out := .next (s.writeReg d (s.rg a ^^^ s.rg b))
def execSll (d a b : Reg) (s : State) : Out := .next (s.writeReg d (s.rg a <<< shamt (s.rg b)))
def execSrl (d a b : Reg) (s : State) : Out := .next (s.writeReg d (s.rg a >>> shamt (s.rg b)))
def execSra (d a b : Reg) (s : State) : Out := .next (s.writeReg d ((s.rg a).sshiftRight (shamt (s.rg b))))
def execSlt (d a b : Reg) (s : State) : Out := .next (s.writeReg d (boolWord (ltS (s.rg a) (s.rg b))))
def execSltu (d a b : Reg) (s : State) : Out := .next (s.writeReg d (boolWord (ltU (s.rg a) (s.rg b))))
def execMin (d a b : Reg) (s : State) : Out :=
  .next (s.writeReg d (if ltS (s.rg b) (s.rg a) then s.rg b else s.rg a))
def execMax (d a b : Reg) (s : State) : Out :=
  .next (s.writeReg d (if ltS (s.rg a) (s.rg b) then s.rg b else s.rg a))
def execMul (d a b : Reg) (s : State) : Out := .next (s.writeReg d (s.rg a * s.rg b))
def execMulh (d a b : Reg) (s : State) : Out := .next (s.writeReg d (mulhWord (s.rg a) (s.rg b)))
def execDiv (d a b : Reg) (s : State) : Out := .next (s.writeReg d (divWord (s.rg a) (s.rg b)))
def execDivu (d a b : Reg) (s : State) : Out := .next (s.writeReg d (divuWord (s.rg a) (s.rg b)))
def execRem (d a b : Reg) (s : State) : Out := .next (s.writeReg d (remWord (s.rg a) (s.rg b)))
/-- DIVT traps with DIVZERO, its TRAPVAL the dividend, and leaves d unchanged (R193, R195). -/
def execDivt (d a b : Reg) (s : State) : Out :=
  if s.rg b = 0 then .next (s.trap .divZero (s.rg a)) else .next (s.writeReg d (divWord (s.rg a) (s.rg b)))
def execClz (d a : Reg) (s : State) : Out := .next (s.writeReg d (clzWord (s.rg a)))
def execPopc (d a : Reg) (s : State) : Out := .next (s.writeReg d (popcWord (s.rg a)))

def execAddi (d a : Reg) (i : BitVec 16) (s : State) : Out := .next (s.writeReg d (s.rg a + sext16 i))
def execAndi (d a : Reg) (i : BitVec 16) (s : State) : Out := .next (s.writeReg d (s.rg a &&& zext16 i))
def execOri (d a : Reg) (i : BitVec 16) (s : State) : Out := .next (s.writeReg d (s.rg a ||| zext16 i))
def execXori (d a : Reg) (i : BitVec 16) (s : State) : Out := .next (s.writeReg d (s.rg a ^^^ zext16 i))
def execSlli (d a : Reg) (sh : BitVec 6) (s : State) : Out := .next (s.writeReg d (s.rg a <<< sh.toNat))
def execSrli (d a : Reg) (sh : BitVec 6) (s : State) : Out := .next (s.writeReg d (s.rg a >>> sh.toNat))
def execSrai (d a : Reg) (sh : BitVec 6) (s : State) : Out :=
  .next (s.writeReg d ((s.rg a).sshiftRight sh.toNat))
def execSlti (d a : Reg) (i : BitVec 16) (s : State) : Out :=
  .next (s.writeReg d (boolWord (ltS (s.rg a) (sext16 i))))
def execLui (d : Reg) (i : BitVec 16) (s : State) : Out := .next (s.writeReg d (sext16 i <<< 16))
def execLhi (d a : Reg) (i : BitVec 16) (s : State) : Out :=
  .next (s.writeReg d ((s.rg a &&& 0x0000FFFFFFFFFFFF) ||| (zext16 i <<< 48)))

def execFadd (d a b : Reg) (s : State) : Out :=
  .next (s.writeReg d (fpWord (Ex.add .rne (fpIn (s.rg a)) (fpIn (s.rg b)))))
def execFsub (d a b : Reg) (s : State) : Out :=
  .next (s.writeReg d (fpWord (Ex.add .rne (fpIn (s.rg a)) (fpIn (s.rg b)).neg)))
def execFmul (d a b : Reg) (s : State) : Out :=
  .next (s.writeReg d (fpWord (Ex.mul (fpIn (s.rg a)) (fpIn (s.rg b)))))
def execFdiv (d a b : Reg) (s : State) : Out :=
  .next (s.writeReg d (fpWord (Ex.div (fpIn (s.rg a)) (fpIn (s.rg b)))))
def execFsqrt (d a : Reg) (s : State) : Out := .next (s.writeReg d (fpWord (Ex.sqrt (fpIn (s.rg a)))))
def execFlt (d a b : Reg) (s : State) : Out :=
  .next (s.writeReg d (fltWord (loLane (s.rg a)) (loLane (s.rg b))))
def execFcvtif (d a : Reg) (s : State) : Out := .next (s.writeReg d (fpWord (ofIntEx (s.rg a).toInt)))
def execFcvtfi (d a : Reg) (s : State) : Out := .next (s.writeReg d (fpToInt (fpIn (s.rg a))))

end Sys2Proof.Machine
end

