-- ==== Sys2Proof/Machine/TaskMem.lean ====
section
/-! DEFINITION. Task loads and stores (R197 to R199), PUSHM and POPM (R201), and the ATOM group (R207). -/

namespace Sys2Proof.Machine

/-- A value of n bytes in a general register, sign- or zero-extended (R197). -/
def extend (n : Nat) (signed : Bool) (v : Nat) : Word :=
  if signed && decide (2 ^ (8 * n - 1) ≤ v % 2 ^ (8 * n)) then
    BitVec.ofInt 64 ((v % 2 ^ (8 * n) : Nat) - (2 ^ (8 * n) : Nat) : Int)
  else BitVec.ofNat 64 (v % 2 ^ (8 * n))

/-- A load of n bytes into g[d] (R197, R199). -/
def State.loadReg (s : State) (n : Nat) (signed : Bool) (d a : Reg) (i : BitVec 16) : State :=
  s.withAccess (s.ea a i) n (.read n) (fun g s' => s'.writeReg d (extend n signed (natOf g.bytes)))

/-- A store of bytes at EA: issued now, or performed already where its page is strong. -/
def State.storeAt (s : State) (ea : Word) (align : Nat) (bs : List Byte) : State :=
  s.withAccess ea align (.write bs) (fun g s' => (if g.done then s' else s'.issueStore ea g.segs bs).advance)

/-- A store of the low n bytes of g[d] (R197). -/
def State.storeReg (s : State) (n : Nat) (d a : Reg) (i : BitVec 16) : State :=
  s.storeAt (s.ea a i) n (bytesOf n (s.rg d).toNat)

def execLdb (d a : Reg) (i : BitVec 16) (s : State) : Out := .next (s.loadReg 1 true d a i)
def execLdbu (d a : Reg) (i : BitVec 16) (s : State) : Out := .next (s.loadReg 1 false d a i)
def execLdh (d a : Reg) (i : BitVec 16) (s : State) : Out := .next (s.loadReg 2 true d a i)
def execLdhu (d a : Reg) (i : BitVec 16) (s : State) : Out := .next (s.loadReg 2 false d a i)
def execLdw (d a : Reg) (i : BitVec 16) (s : State) : Out := .next (s.loadReg 4 true d a i)
def execLdwu (d a : Reg) (i : BitVec 16) (s : State) : Out := .next (s.loadReg 4 false d a i)
def execLdd (d a : Reg) (i : BitVec 16) (s : State) : Out := .next (s.loadReg 8 false d a i)
def execStb (d a : Reg) (i : BitVec 16) (s : State) : Out := .next (s.storeReg 1 d a i)
def execSth (d a : Reg) (i : BitVec 16) (s : State) : Out := .next (s.storeReg 2 d a i)
def execStw (d a : Reg) (i : BitVec 16) (s : State) : Out := .next (s.storeReg 4 d a i)
def execStd (d a : Reg) (i : BitVec 16) (s : State) : Out := .next (s.storeReg 8 d a i)

/-- Lanes of 64 bytes, little-endian, and back (R197). -/
def lanesOfBytes : List Byte → List Lane
  | a :: b :: c :: d :: rest => BitVec.ofNat 32 (natOf [a, b, c, d]) :: lanesOfBytes rest
  | _ => []
def bytesOfLanes (ls : List Lane) : List Byte := ls.flatMap (fun l => bytesOf 4 l.toNat)

/-- A vector register from a list of lanes, missing lanes 0. -/
def vecOfList (ls : List Lane) : Vector Lane 16 := Vector.ofFn (fun i => ls.getD i.val 0)

/-- VLD: lane k := the 4 bytes at EA + 4k (R197). -/
def execVld (d : VReg) (a : Reg) (i : BitVec 16) (s : State) : Out :=
  .next (s.withAccess (s.ea a i) 4 (.read 64) (fun g s' => s'.writeVec d (vecOfList (lanesOfBytes g.bytes))))

/-- VST: lane k of v[d] is stored at EA + 4k (R197). -/
def execVst (d : VReg) (a : Reg) (i : BitVec 16) (s : State) : Out :=
  .next (s.storeAt (s.ea a i) 4 (bytesOfLanes (s.rv d).toList))

/-! ### PUSHM and POPM (R21, R201) -/

/-- Registers first to last. -/
def regRange (f l : Reg) : List Reg :=
  (List.range (l.toNat + 1 - f.toNat)).map (fun k => BitVec.ofNat 5 (f.toNat + k))

/-- Memory key of a byte of the executing cell's task area (R26). -/
def State.taskKey (s : State) (off : Nat) : Nat := poolKey s.myRegion.die s.myCell.site off

def execPushm (first last : Reg) (s : State) : Out :=
  let n := 8 * (last.toNat + 1 - first.toNat)
  let sl := s.me
  if sl.ssp.toNat < sl.ssbase.toNat + n then .next (s.trap .spillOver (BitVec.ofNat 64 n))
  else
    let bs := (regRange first last).flatMap (fun r => bytesOf 8 (s.rg r).toNat)
    let s := s.putTask (s.taskKey (sl.ssp.toNat - n)) bs
    .next (s.setMe ({ s.me with ssp := BitVec.ofNat 32 (sl.ssp.toNat - n) }).next)

/-- Write registers from consecutive 8-byte values, all read before the first is written (R192); g0 discards (R201). -/
def Slot.putRegs (sl : Slot) : List Reg → List Byte → Slot
  | [], _ => sl
  | r :: rs, bs => (sl.setReg r (BitVec.ofNat 64 (natOf (bs.take 8)))).putRegs rs (bs.drop 8)
def State.popInto (s : State) (key : Nat) (rs : List Reg) : State := s.setMe (s.me.putRegs rs (s.viewBytes key (8 * rs.length)))

def execPopm (first last : Reg) (s : State) : Out :=
  let n := 8 * (last.toNat + 1 - first.toNat)
  let sl := s.me
  if sl.sslim.toNat < sl.ssp.toNat + n then .next (s.trap .spillOver (BitVec.ofNat 64 n))
  else
    let s := s.popInto (s.taskKey sl.ssp.toNat) (regRange first last)
    .next (s.setMe ({ s.me with ssp := BitVec.ofNat 32 (sl.ssp.toNat + n) }).next)

/-! ### Atomics (R152, R207, R424) -/

/-- Width in bytes from fn[7]. -/
def atomBytes (w : BitVec 1) : Nat := if w = 0 then 4 else 8

/-- A W-bit value read as signed (R207). -/
def signedOf (n v : Nat) : Int := if 2 ^ (8 * n - 1) ≤ v then (v : Int) - (2 ^ (8 * n) : Nat) else v

/-- AMAXA of R152 on f32 codes: the larger magnitude with its sign cleared; any NaN gives the canonical NaN. -/
def amaxaLane (m b : Lane) : Lane := maxLane .f32 (signLane .f32 false m) (signLane .f32 false b)

/-- The new value m' of R207 on n bytes. -/
def atomNew (op : AtomOp) (n m b d : Nat) : Nat :=
  let w := 2 ^ (8 * n)
  match op with
  | .add => (m + b) % w
  | .max => if signedOf n m < signedOf n b then b else m
  | .min => if signedOf n b < signedOf n m then b else m
  | .and => m &&& b
  | .or => m ||| b
  | .swp => b
  | .cas => if m = d then b else m
  | .fadd => (addLane .f32 .plain (BitVec.ofNat 32 m) (BitVec.ofNat 32 b)).toNat
  | .maxa => (amaxaLane (BitVec.ofNat 32 m) (BitVec.ofNat 32 b)).toNat

/-- A job done at ranges of memory: the bytes read there, before the job writes. -/
def State.doJob (s : State) (ranges : List (Nat × Nat)) (job : MemJob) : List Byte × State :=
  let segs := ranges.map (fun g => (⟨g.1, g.2, none⟩ : Seg))
  let old := ranges.flatMap (fun g => s.read g.1 g.2)
  match job with
  | .read _ => (old, s)
  | .write bs => ([], s.writeSegs (splitSegs segs bs))
  | .atom op n b d => (old, s.writeSegs (splitSegs segs (bytesOf n (atomNew op n (natOf old) b d))))

/-- One read-modify-write at g[a] (R207): windows 0x00, 0xF0, 0xF1; read and write rights; the slot's own stores to its
bytes are performed before it (R268), and it is performed at SYSTEM, which R424 allows. -/
def State.atomic (s : State) (op : AtomOp) (n : Nat) (d a b : Reg) : State :=
  let ea := s.rg a
  let w := winOf ea.toNat
  if ea.toNat % n ≠ 0 then s.trap .misalign ea
  else if w ≠ 0x00 ∧ w ≠ 0xF0 ∧ w ≠ 0xF1 then s.trap .bounds ea
  else
    let job : MemJob := .atom op n ((s.rg b).toNat % 2 ^ (8 * n)) ((s.rg d).toNat % 2 ^ (8 * n))
    s.withAccess ea n job (fun g s' =>
      let signed := match op with
        | .fadd | .maxa => false
        | _ => true
      (if g.done then s' else (s'.doJob (segRanges g.segs) job).2).writeReg d (extend n signed (natOf g.bytes)))

def execAadd (d a b : Reg) (_r : BitVec 3) (w : BitVec 1) (s : State) : Out :=
  .next (s.atomic .add (atomBytes w) d a b)
def execAmax (d a b : Reg) (_r : BitVec 3) (w : BitVec 1) (s : State) : Out :=
  .next (s.atomic .max (atomBytes w) d a b)
def execAmin (d a b : Reg) (_r : BitVec 3) (w : BitVec 1) (s : State) : Out :=
  .next (s.atomic .min (atomBytes w) d a b)
def execAand (d a b : Reg) (_r : BitVec 3) (w : BitVec 1) (s : State) : Out :=
  .next (s.atomic .and (atomBytes w) d a b)
def execAor (d a b : Reg) (_r : BitVec 3) (w : BitVec 1) (s : State) : Out :=
  .next (s.atomic .or (atomBytes w) d a b)
def execAswp (d a b : Reg) (_r : BitVec 3) (w : BitVec 1) (s : State) : Out :=
  .next (s.atomic .swp (atomBytes w) d a b)
/-- ACAS compares with the old d and stores b (R192, R207). -/
def execAcas (d a b : Reg) (_r : BitVec 3) (w : BitVec 1) (s : State) : Out :=
  .next (s.atomic .cas (atomBytes w) d a b)
def execAfadd (d a b : Reg) (_r : BitVec 3) (s : State) : Out := .next (s.atomic .fadd 4 d a b)
def execAmaxa (d a b : Reg) (_r : BitVec 3) (s : State) : Out := .next (s.atomic .maxa 4 d a b)

end Sys2Proof.Machine
end

