-- ==== Sys2Proof/Machine/TaskFlow.lean ====
section
/-! DEFINITION. Branches and jumps (R200), CSRs (R22, R23, R202), SLEEPUNTIL (R215), the SYS group (R221), and the
word that is no instruction (R79). -/

namespace Sys2Proof.Machine

def execBeq (a b : Reg) (o : BitVec 16) (s : State) : Out := .next (s.branch (s.rg a == s.rg b) o)
def execBne (a b : Reg) (o : BitVec 16) (s : State) : Out := .next (s.branch (s.rg a != s.rg b) o)
def execBlt (a b : Reg) (o : BitVec 16) (s : State) : Out := .next (s.branch (ltS (s.rg a) (s.rg b)) o)
def execBge (a b : Reg) (o : BitVec 16) (s : State) : Out := .next (s.branch (!ltS (s.rg a) (s.rg b)) o)
def execBltu (a b : Reg) (o : BitVec 16) (s : State) : Out := .next (s.branch (ltU (s.rg a) (s.rg b)) o)
def execBgeu (a b : Reg) (o : BitVec 16) (s : State) : Out := .next (s.branch (!ltU (s.rg a) (s.rg b)) o)
def execJ (o : BitVec 26) (s : State) : Out := .next (s.goTo (relTarget s.me.pc o.toInt) id)
/-- JAL writes PC + 4 to g31. -/
def execJal (o : BitVec 26) (s : State) : Out :=
  .next (s.goTo (relTarget s.me.pc o.toInt) (fun sl => sl.setReg 31 s.linkValue))
/-- JALR: MISALIGN first, then BOUNDS; the old g[a] is read before d is written (R192, R200). -/
def execJalr (d a : Reg) (i : BitVec 16) (s : State) : Out :=
  let t := s.ea a i
  if t.toNat % 4 ≠ 0 then .next (s.trap .misalign t)
  else .next (s.goTo (t.toNat : Int) (fun sl => sl.setReg d s.linkValue))

/-! ### CSRs (R22) -/

/-- Fields of an entry that is a node firing. -/
def nodeOfInstr (i : Instr) : Option (Nat × NodeF) := opcOf i
def Region.entryOp (r : Region) (e : Nat) : Option (Nat × NodeF) := (r.entries[e]?).bind nodeOfInstr
def Region.opcode (r : Region) (e : Nat) : Nat := ((r.entryOp e).map (fun p => p.1)).getD 0xFF
def Region.fields (r : Region) (e : Nat) : NodeF := ((r.entryOp e).map (fun p => p.2)).getD {}
def nodeRep (n : NodeF) : Nat := n.repm1.toNat + 1
/-- STEER, MERGE, CARRY and INV stand in a switch box (R319). -/
def isSbox (opc : Nat) : Bool := 4 ≤ opc && opc ≤ 7

/-- The copy of entry i that holds element e of virtual cell v (R32, R322). -/
def Region.copyAt (r : Region) (v e i : Nat) : Option Nat :=
  if isSbox (r.opcode i) then none
  else
    let rep := nodeRep (r.fields i)
    let (v0, f) := r.cellOf.getD i (0, 0)
    if rep ≤ 16 then (if v0 = v ∧ f ≤ e ∧ e < f + rep then some (e - f) else none)
    else if v0 ≤ v ∧ (v - v0) * 16 + e < rep then some ((v - v0) * 16 + e) else none

/-- The node and copy on an element of a cell. -/
def Region.elemOwner (r : Region) (v e : Nat) : Option (Nat × Nat) :=
  (List.range r.entries.length).findSome? (fun i => (r.copyAt v e i).map (fun c => (i, c)))

/-- Switch-box nodes in a cell's terminal box, in entry order (R22). -/
def Region.boxNodes (r : Region) (v : Nat) : List Nat :=
  (List.range r.entries.length).filter (fun i => isSbox (r.opcode i) && (r.cellOf.getD i (0, 0)).1 == v)

/-- A counter CSR as entry, copy and index (R22): stall counters, the Prompter counts, switch-box counters. -/
inductive CsrCtr where
  | stall (entry copy k : Nat)
  | prm (entry k : Nat)
  | unused
  deriving DecidableEq, Repr

def csrCtr (r : Region) (v c : Nat) : CsrCtr :=
  if c < 0x180 then
    match r.elemOwner v ((c - 0x100) / 8) with
    | some (i, copy) => .stall i copy ((c - 0x100) % 8)
    | none => .unused
  else if c < 0x1A0 then
    match r.elemOwner v ((c - 0x180) / 2) with
    | some (i, _) => .prm i ((c - 0x180) % 2)
    | none => .unused
  else
    match (r.boxNodes v)[(c - 0x200) / 8]? with
    | some i => .stall i 0 ((c - 0x200) % 8)
    | none => .unused

def stallOf (e : Elem) (k : Nat) : BitVec 16 := e.stall.toList.getD k 0
def setStall (e : Elem) (k : Nat) (v : BitVec 16) : Elem := { e with stall := e.stall.setIfInBounds k v }

def Region.readCtr (r : Region) : CsrCtr → Word
  | .stall i c k => (stallOf ((r.node i).elem c) k).setWidth 64
  | .prm i k => BitVec.ofNat 64 (if k = 0 then (r.node i).op.prm else (r.node i).op.prmw)
  | .unused => 0

/-- A write to a counter clears it, and an increment of that tick is lost (R202). -/
def Region.clearCtr (r : Region) : CsrCtr → Region
  | .stall i c k =>
    let n := r.node i
    r.setNode i { n.setElem c (setStall (n.elem c) k 0) with cleared := (c, k) :: n.cleared }
  | .prm i k =>
    let n := r.node i
    r.setNode i { n with op := if k = 0 then { n.op with prm := 0 } else { n.op with prmw := 0 }
                         cleared := (0, 16 + k) :: n.cleared }
  | .unused => r

/-- The access classes of R22. -/
inductive CsrAccess where
  | read | readWrite | supvWrite | supv | supvRead | clear
  deriving DecidableEq, Repr

def csrAccess (c : Nat) : Option CsrAccess :=
  match c with
  | 0x000 | 0x001 | 0x002 | 0x003 => some .read
  | 0x010 => some .readWrite
  | 0x011 | 0x012 => some .supvWrite
  | 0x020 | 0x023 | 0x024 => some .supv
  | 0x021 | 0x022 => some .supvRead
  | 0x030 | 0x031 | 0x040 | 0x041 | 0x042 | 0x050 | 0x051 | 0x052 | 0x053 | 0x060 | 0x070 => some .read
  | n =>
    if (0x100 ≤ n ∧ n < 0x1A0) ∨ (0x200 ≤ n ∧ n < 0x280) then some .clear else none

def slotCode : SlotSt → Nat
  | .free => 0 | .idle => 1 | .run => 2 | .sleep => 3 | .wait => 4 | .supv => 5 | .frozen => 6 | .done => 7

/-- WHO (R22). -/
def State.whoWord (s : State) : Word :=
  let r := s.myRegion
  let site := s.myCell.site
  BitVec.ofNat 64 (field r.tenant 36 + field r.die 34 + field (siteX site) 29 + field (siteY site) 24
    + field s.actCell 4 + s.actSlot)

/-- The value of a CSR (R22). -/
def State.readCsr (s : State) (c : Nat) : Word :=
  let sl := s.me
  let r := s.myRegion
  match c with
  | 0x000 => s.cyc
  | 0x001 => s.cyc >>> 10
  | 0x002 => s.whoWord
  | 0x003 => BitVec.ofNat 64 (slotCode sl.st + field sl.bind.toNat 8)
  | 0x010 => sl.ssp.setWidth 64
  | 0x011 => sl.ssbase.setWidth 64
  | 0x012 => sl.sslim.setWidth 64
  | 0x020 => sl.tvec.setWidth 64
  | 0x021 => sl.tcause
  | 0x022 => sl.trapval
  | 0x023 => sl.tepc.setWidth 64
  | 0x024 => sl.tstat.setWidth 64
  | 0x030 => BitVec.ofNat 64 s.myTenant.tsbase
  | 0x031 => BitVec.ofNat 64 s.myTenant.tslim
  | 0x040 => BitVec.ofNat 64 r.xwin
  | 0x041 => BitVec.ofNat 64 r.xthr
  | 0x042 => BitVec.ofNat 64 r.xkap
  | 0x050 => BitVec.ofNat 64 r.prmBatch
  | 0x051 => BitVec.ofNat 64 r.prmQmax
  | 0x052 => BitVec.ofNat 64 r.prmPort
  | 0x053 => BitVec.ofNat 64 r.prmBytes
  | 0x060 => BitVec.ofNat 64 r.partw
  | 0x070 => sl.cmask.setWidth 64
  | n => r.readCtr (csrCtr r s.actCell n)

/-- Whether an access is allowed from this slot (R23). -/
def csrAllowed (k : CsrAccess) (supv wr : Bool) : Bool :=
  match k with
  | .read => !wr
  | .readWrite | .clear => true
  | .supvWrite => supv || !wr
  | .supv => supv
  | .supvRead => supv && !wr

/-- The limits of a written value (R19, R22); SSP has its own trap (R21). A value of SSBASE or SSLIM that would part SSP from its
limits breaks R19, and no rule says what the write does: it takes the trap of R202 (DESIGN CHOICE, log 16). -/
def csrValueOk (s : State) (c : Nat) (v : Word) : Bool :=
  let sl := s.me
  let n := v.toNat
  match c with
  | 0x011 => n % 8 == 0 && n ≤ sl.ssp.toNat
  | 0x012 => n % 8 == 0 && sl.ssp.toNat ≤ n && n ≤ s.myRegion.taskBytes
  | 0x020 | 0x023 => n % 4 == 0 && n ≤ 0xFFFC
  | 0x024 => n ≤ 3
  | _ => true

def sspOk (sl : Slot) (v : Word) : Bool :=
  v.toNat % 8 == 0 && sl.ssbase.toNat ≤ v.toNat && v.toNat ≤ sl.sslim.toNat

/-- Write a CSR whose value has been checked. -/
def State.writeCsr (s : State) (c : Nat) (v : Word) : State :=
  let sl := s.me
  match c with
  | 0x010 => s.setMe { sl with ssp := v.setWidth 32 }
  | 0x011 => s.setMe { sl with ssbase := v.setWidth 32 }
  | 0x012 => s.setMe { sl with sslim := v.setWidth 32 }
  | 0x020 => s.setMe { sl with tvec := v.setWidth 16 }
  | 0x023 => s.setMe { sl with tepc := v.setWidth 16 }
  | 0x024 => s.setMe { sl with tstat := v.setWidth 2 }
  | n => s.setMyRegion (s.myRegion.clearCtr (csrCtr s.myRegion s.actCell n))

/-- The CSR operation of R202: one atomic read and write; `wr` the value to write, if any. -/
def State.csrOp (s : State) (i : Instr) (d : Reg) (c : BitVec 12) (wr : Option (Word → Word)) : State :=
  let n := c.toNat
  match csrAccess n with
  | none => s.ill i
  | some k =>
    if csrAllowed k (s.me.st == .supv) wr.isSome = false then s.ill i
    else
      let old := s.readCsr n
      match wr with
      | none => s.writeReg d old
      | some f =>
        let v := f old
        if n = 0x010 ∧ sspOk s.me v = false then s.trap .spillOver v
        else if csrValueOk s n v = false then s.ill i
        else (s.writeCsr n v).writeReg d old

def execCsrr (d : Reg) (c : BitVec 12) (s : State) : Out := .next (s.csrOp (.csrr d c) d c none)
def execCsrw (d a : Reg) (c : BitVec 12) (s : State) : Out :=
  .next (s.csrOp (.csrw d a c) d c (some (fun _ => s.rg a)))
/-- CSRS with a = g0 counts as a read (R78). -/
def execCsrs (d a : Reg) (c : BitVec 12) (s : State) : Out :=
  .next (s.csrOp (.csrs d a c) d c (if a = 0 then none else some (fun old => old ||| s.rg a)))
def execCsrc (d a : Reg) (c : BitVec 12) (s : State) : Out :=
  .next (s.csrOp (.csrc d a c) d c (if a = 0 then none else some (fun old => old &&& ~~~(s.rg a))))

/-! ### Time and system calls -/

/-- SLEEPUNTIL (R215): SLEEP while CYC < g[a], else it completes. The slot leaves SLEEP with its instruction
complete or re-issued: either way the next issue finds CYC at the time. -/
def execSleepuntil (a : Reg) (s : State) : Out :=
  if ltU s.cyc (s.rg a) then .next (s.setMe { s.me with st := .sleep, sleepTill := s.rg a })
  else .next s.advance

def execEcall (s : State) : Out := .next (s.trap .ecall 0)
def execBrk (s : State) : Out := .next (s.trap .brk 0)
/-- ERET (R221): only in SUPV; elsewhere ILL. -/
def execEret (s : State) : Out :=
  if s.me.st = .supv then .next (s.setMe s.me.trapReturn) else .next (s.ill .eret)

/-- Issue of a word that is not an instruction (R79): POOL_EXEC when it was fetched from a data-marked line, with
the store byte address as TRAPVAL, else ILL with the word. -/
def lineMarked (c : VCell) (pc : Nat) : Bool :=
  c.marked.any (fun p => p.1 ≤ pc / 64 && pc / 64 < p.1 + p.2)

def execIllegalWord (w : BitVec 32) (s : State) : Out :=
  if lineMarked s.myCell s.me.pc.toNat then .next (s.trap .poolExec (s.me.pc.setWidth 64))
  else .next (s.trap .ill (w.setWidth 64))

end Sys2Proof.Machine
end

