-- ==== Sys2Proof/Machine/Barrier.lean ====
section
/-! DEFINITION. Named barriers (R291 to R295, R425): the rung of a barrier, its members and domain, arriving,
and when a phase completes. -/

namespace Sys2Proof.Machine

/-- A member of a barrier (R292). -/
inductive Member where
  | slot (vcell slot : Nat)
  | node (entry : Nat)
  deriving DecidableEq, Repr

def Member.key : Member → Nat
  | .slot _ k => k
  | .node e => 16 + e

/-- The virtual cell a member stands in. -/
def Region.memberCell (r : Region) : Member → Nat
  | .slot v _ => v
  | .node e => (r.cellOf.getD e (0, 0)).1

/-- Instruction words of an image of bytes. -/
def wordsOfImage : List Byte → List (BitVec 32)
  | a :: b :: c :: d :: rest => BitVec.ofNat 32 (natOf [a, b, c, d]) :: wordsOfImage rest
  | _ => []

/-- The rung of a BARA or BARAW word (R220). -/
def arriveRung (w : BitVec 32) : Option Nat :=
  match decodeTask w with
  | .ok (.bara _ r) => some r.toNat
  | .ok (.baraw _ r) => some r.toNat
  | _ => none

/-- The LENW words of code object k; its pool entries follow them in the image as read. -/
def Region.codeBytes (r : Region) (k : Nat) : List Byte :=
  (r.codeImages.getD k []).take (4 * bits (wordAt r.codeRecs (4 * k + 2)) 31 16)

/-- Rungs of the arriving words of code object k (R292). A word of a line marked as pool data whose bits are those of a BARA or BARAW
counts too: R292 does not say if it does (DESIGN CHOICE, log 34). -/
def Region.codeRungs (r : Region) (k : Nat) : List Nat := (wordsOfImage (r.codeBytes k)).filterMap arriveRung

/-- BAR entries that name barrier b (R137). -/
def Region.barEntries (r : Region) (b : Nat) : List Nat :=
  (List.range r.entries.length).filter (fun i => r.opcode i == 0x09 && (r.fields i).cfg.toNat % 2048 == b)

/-- The rung of barrier b (R291): that of the BAR entries that name it, else the lowest rung of any arriving word. -/
def Region.barRung (r : Region) (b : Nat) : Option Nat :=
  match r.barEntries b with
  | i :: _ => some (r.fields i).scope.toNat
  | [] => ((List.range r.codeImages.length).flatMap r.codeRungs).min?

/-- Virtual cells of the domain of a rung around a cell (R31). -/
def Region.domCells (r : Region) (rung v : Nat) : List Nat :=
  if rung ≤ 2 then List.range r.ncells
  else if rung = 3 then (List.range 16).map (fun k => v / 16 * 16 + k) |>.filter (fun c => c < r.ncells)
  else [v]

/-- The members of a barrier among given cells (R292). -/
def Region.membersIn (r : Region) (b rung : Nat) (cells : List Nat) : List Member :=
  (r.barEntries b).filter (fun e => cells.contains (r.cellOf.getD e (0, 0)).1) |>.map Member.node
    |>.append (cells.flatMap (fun v => (r.cell v).slots.filterMap (fun p =>
        if p.2.st ≠ .free ∧ (r.codeRungs p.2.code).contains rung then some (.slot v p.1) else none)))

/-- The members of b in the domain that holds an agent (R292); at rungs 5 to 7 the agent alone. -/
def Region.members (r : Region) (b rung : Nat) (m : Member) : List Member :=
  if rung ≤ 4 then r.membersIn b rung (r.domCells rung (r.memberCell m)) else [m]

def VCell.bar (c : VCell) (b : Nat) : Barrier := Tab.get c.barriers b {}
def VCell.setBar (c : VCell) (b : Nat) (q : Barrier) : VCell := { c with barriers := Tab.set c.barriers b q }

/-- Arrivals so far of a member. -/
def Region.arrivals (r : Region) (b : Nat) (m : Member) : Nat :=
  Tab.get ((r.cell (r.memberCell m)).bar b).arrivals m.key 0

/-- A member that has ended counts as arrived at every later phase (R293). -/
def Region.memberEnded (r : Region) : Member → Bool
  | .slot v k => (r.slot v k).endedOnce
  | .node e => (r.node e).eos

/-- A region has arrived at phase k of b: each of its members has (R293, R294). -/
def Region.arrivedAll (r : Region) (b k : Nat) (ms : List Member) : Bool :=
  ms.all (fun m => r.memberEnded m || k < r.arrivals b m)

/-- Phases completed, as a member sees them: those of its domain, or its own arrivals where it stands alone
(R293). -/
def Region.phaseOf (r : Region) (b rung : Nat) (m : Member) : Nat :=
  if rung ≤ 4 then ((r.cell (r.memberCell m)).bar b).phase else r.arrivals b m

/-! ### Regions of a job (R294, R425) -/

def jobKey (ten job : Nat) : Nat := ten * 256 + job
def State.job (s : State) (ten job : Nat) : Job := Tab.get s.jobs (jobKey ten job) {}
def State.setJob (s : State) (ten job : Nat) (j : Job) : State := { s with jobs := Tab.set s.jobs (jobKey ten job) j }

/-- The number of a cue's latest LAUNCH among those of its job. -/
def Job.launchOf (j : Job) (c : Nat) : Nat := j.cues.length - j.cues.reverse.findIdx (fun d => d == c)
/-- A record of the region that this launch has made; a run that REARM repeats is of the same launch (R425). -/
def Job.present (j : Job) (c : Nat) (p : JobReg) : Bool := p.cue == c && p.launch == j.launchOf c

/-- The regions of the job that combine with a region at rung 0 or 1. -/
def State.peers (s : State) (c rung : Nat) : List JobReg :=
  let q := s.cue c
  let script := ((s.region c).lw 1).toNat
  (s.job q.tenant q.job).placed.filter (fun p => rung == 0 || p.script == script)

/-- Enough regions have started: NJREG at rung 0, NSREG at rung 1 (R425). -/
def State.peersStarted (s : State) (c rung : Nat) : Bool :=
  let q := s.cue c
  decide ((if rung = 0 then q.njreg else q.nsreg) ≤ ((s.peers c rung).filter (fun p => p.started)).length)

/-- A region's members of b where b has that rung in it; a number of another rung there has none. -/
def Region.atRung (r : Region) (b rung : Nat) : List Member :=
  if r.barRung b = some rung then r.membersIn b rung (List.range r.ncells) else []

/-- Every region of the job has arrived at phase k; a completed region has, one that is frozen holds (R294). -/
def State.peersArrived (s : State) (c b rung k : Nat) : Bool :=
  (s.peers c rung).all (fun p => p.completed ||
    (p.started && !(s.region p.cue).frozen && (s.region p.cue).freeze.isNone &&
      (s.region p.cue).arrivedAll b k ((s.region p.cue).atRung b rung)))

/-- The open phase of b in the domain of virtual cell v completes now (R293, R294). -/
def State.phaseReady (s : State) (c v b : Nat) : Bool :=
  let r := s.region c
  match r.barRung b with
  | none => false
  | some rung =>
    let k := ((r.cell v).bar b).phase
    if rung ≤ 1 then s.peersStarted c rung && s.peersArrived c b rung k
    else if rung ≤ 4 then
      let ms := r.membersIn b rung (r.domCells rung v)
      !ms.isEmpty && r.arrivedAll b k ms
    else false

def Region.bumpPhase (r : Region) (b : Nat) (cells : List Nat) : Region :=
  cells.foldl (fun r v =>
    let q := (r.cell v).bar b
    r.setCell v ((r.cell v).setBar b { q with phase := q.phase + 1 })) r

/-- Complete one phase of b over the domain of cell v. -/
def State.completePhase (s : State) (c v b : Nat) : State :=
  match (s.region c).barRung b with
  | none => s
  | some rung =>
    if rung ≤ 1 then
      (s.peers c rung).foldl (fun s p =>
        if p.completed ∨ p.started = false ∨ (s.region p.cue).barRung b ≠ some rung then s
        else s.setRegion p.cue ((s.region p.cue).bumpPhase b (List.range (s.region p.cue).ncells))) s
    else s.setRegion c ((s.region c).bumpPhase b ((s.region c).domCells rung v))

/-- Arrive (R293): the member's count rises; the phase arrived at is the count before. -/
def Region.arrive (r : Region) (b : Nat) (m : Member) : Region :=
  let v := r.memberCell m
  let q := (r.cell v).bar b
  r.setCell v ((r.cell v).setBar b { q with arrivals := Tab.set q.arrivals m.key (r.arrivals b m + 1) })

/-- Members of the domain of an agent; at rungs 0 and 1 it spans the regions of the job (R294). -/
def State.domainSize (s : State) (c b rung : Nat) (m : Member) : Nat :=
  if rung ≤ 1 then ((s.peers c rung).filter (fun p => p.started && !p.completed)).foldl (fun k p => k + ((s.region p.cue).atRung b rung).length) 0
  else ((s.region c).members b rung m).length

/-- A member arrives; in a domain of one member its phase completes with it (R293). -/
def State.arriveAs (s : State) (c b : Nat) (m : Member) : State :=
  let s := s.setRegion c ((s.region c).arrive b m)
  let v := (s.region c).memberCell m
  if decide (s.domainSize c b (((s.region c).barRung b).getD 7) m = 1) && s.phaseReady c v b then s.completePhase c v b else s

/-- The actor of a barrier event. -/
def State.actBar (s : State) : Nat × Nat × Nat :=
  match s.actor with
  | .barrier c v b => (c, v, b)
  | _ => (0, 0, 0)

/-- BARRIER_PHASE_COMPLETE (R293, R294). -/
def execBarrierPhaseComplete (s : State) : Out :=
  let (c, v, b) := s.actBar
  if s.phaseReady c v b then .next (s.completePhase c v b) else .next s

/-! ### BARA, BARW, BARAW (R220) -/

/-- The number and rung checks of R220 and R291. -/
def State.barOk (s : State) (b rung : Nat) : Bool :=
  let r := s.myRegion
  decide (b < 2048) && decide (b < r.nbar) && (r.barRung b == some rung)

def State.meMember (s : State) : Member := .slot s.actCell s.actSlot

/-- The phase BARW waits for: the one last arrived at, or the open one when that has completed (R220). -/
def State.barTarget (s : State) (b rung : Nat) : Nat :=
  let r := s.myRegion
  let n := r.arrivals b s.meMember
  let p := r.phaseOf b rung s.meMember
  if p < n then n - 1 else p

/-- Wait until a phase completes, then go on. -/
def State.barWait (s : State) (b rung k : Nat) : State :=
  if k < s.myRegion.phaseOf b rung s.meMember then s.setMe { s.me with arrived := none }.next
  else (s.setMe { s.me with arrived := some (b, k) }).wait (.barrier b k)

/-- Arrive; the slot's earlier accesses have been released (R220). -/
def State.barArrive (s : State) (b : Nat) : State :=
  s.arriveAs s.actCue b s.meMember

def execBara (a : Reg) (r : BitVec 3) (s : State) : Out :=
  let b := (s.rg a).toNat
  if s.barOk b r.toNat = false then .next (s.trap .bounds (s.rg a))
  else .next (s.released (fun s => (s.barArrive b).advance))

def execBarw (a : Reg) (r : BitVec 3) (s : State) : Out :=
  let b := (s.rg a).toNat
  if s.barOk b r.toNat = false then .next (s.trap .bounds (s.rg a))
  else
    match s.me.arrived with
    | some (_, k) => .next (s.barWait b r.toNat k)
    | none => .next (s.barWait b r.toNat (s.barTarget b r.toNat))

def execBaraw (a : Reg) (r : BitVec 3) (s : State) : Out :=
  let b := (s.rg a).toNat
  if s.barOk b r.toNat = false then .next (s.trap .bounds (s.rg a))
  else
    match s.me.arrived with
    | some (_, k) => .next (s.barWait b r.toNat k)
    | none =>
      .next (s.released (fun s => (s.barArrive b).barWait b r.toNat (s.myRegion.arrivals b s.meMember)))

end Sys2Proof.Machine
end

