-- ==== Sys2Proof/Machine/TaskSync.lean ====
section
/-! DEFINITION. Fences (R208), tile tags (R28, R29, R209), channels and packets of a task (R210 to R214, R418), and
the moves of a slot between its states (R20, R215). -/

namespace Sys2Proof.Machine

/-! ### Fences -/

/-- FENCE.acq: every load and atomic of the slot is performed when it issues (log 5), so nothing is waited for. -/
def execFenceAcq (_r : BitVec 3) (s : State) : Out := .next s.advance
/-- FENCE.rel and FENCE.full: every earlier access of the slot is performed, for every scope at once (R266). -/
def execFenceRel (_r : BitVec 3) (s : State) : Out := .next (s.released State.advance)
def execFenceFull (_r : BitVec 3) (s : State) : Out := .next (s.released State.advance)

/-! ### Tile tags -/

/-- Some row of [base + r × stride, + len), for r = 0 to rows - 1, holds a byte of [lo, hi). -/
def rowsHit (base stride len : Int) (rows : Nat) (lo hi : Int) : Bool :=
  if stride = 0 then decide (base < hi ∧ lo < base + len)
  else
    let base' := if stride < 0 then base + ((rows : Int) - 1) * stride else base
    let st : Int := stride.natAbs
    let first : Int := max 0 (-((base' + len - 1 - lo) / st))
    let last : Int := min ((rows : Int) - 1) ((hi - 1 - base') / st)
    decide (first ≤ last)

/-- Some row holds a byte of tile t. -/
def rowsTouch (base stride len : Int) (rows : Nat) (t : Nat) : Bool :=
  rowsHit base stride len rows ((t : Int) * 4096) ((t : Int) * 4096 + 4096)

/-- Fields of a Fly command (R297). -/
def flyOp (c : Cmd) : Nat := bits c.w0 7 0
def flySrct (c : Cmd) : Bool := bits c.w0 8 8 == 1
def flyDstt (c : Cmd) : Bool := bits c.w0 9 9 == 1
def flyLen (c : Cmd) : Nat := bits c.w0 63 32
def flyRows (c : Cmd) : Nat := bits c.w3 31 0 + 1
def flySs (c : Cmd) : Int := c.w4.toInt
def flyDs (c : Cmd) : Int := c.w5.toInt

/-- Tile t lies in the destination tiles of a command. -/
def flyDestTile (c : Cmd) (t : Nat) : Bool :=
  flyDstt c && rowsTouch (offOf c.w2.toNat) (flyDs c) (flyLen c) (flyRows c) t

/-- Bytes of a command, and quotients rounded up. -/
def flyBytes (c : Cmd) : Nat := flyLen c * flyRows c
def ceilDiv (a b : Nat) : Nat := (a + b - 1) / b

/-- A command whose promise CYC has reached has a new one (R302). -/
def FlyCmd.renew (cyc : Nat) (f : FlyCmd) : FlyCmd :=
  if f.promise ≤ cyc then { f with promise := cyc + 64 + ceilDiv (flyBytes f.c - f.done) f.reff, late := true } else f

/-- The slot's own late command on tile t (R217): issued by it, not complete, and its told promise reached. -/
def State.lateCmd (s : State) (c v k t : Nat) : Option (Nat × FlyCmd) :=
  s.flys.findSome? (fun p => (p.2.q.find? (fun f => f.cue == c && f.vcell == v && f.task && f.agent == k
    && flyDestTile f.c t && decide (f.told ≤ s.cyc.toNat))).map (fun f => (p.1, f)))

/-- The promise told to the slot is replaced by the present one (R217, R302). -/
def State.tellPromise (s : State) (e : Nat) (f : FlyCmd) : State :=
  s.setFly e { q := (s.fly e).q.map (fun g => if g.seq = f.seq then { f with told := f.promise } else g) }

/-- TWAIT and TFLIP of a tile in its bound, with the late command's trap first (R209, R217). -/
def State.onTile (s : State) (a : Reg) (k : Nat → State → State) : State :=
  let t := (s.rg a).toNat
  if s.myRegion.spadg * 16 ≤ t then s.trap .bounds (s.rg a)
  else
    match s.lateCmd s.actCue s.actCell s.actSlot t with
    | some (e, f) =>
      let f := f.renew s.cyc.toNat
      (s.tellPromise e f).trap .flyLate (BitVec.ofNat 64 f.promise)
    | none => k t s

/-- TFLIP (R28, R209): a flip to an engine releases the slot's earlier writes (R29). In the tick in which a higher slot has
flipped the tile, it issues again later. -/
def execTflip (d a : Reg) (e n : BitVec 3) (s : State) : Out :=
  .next (s.onTile a (fun t s =>
    let now := s.cyc.toNat
    let rank := slotFlipRank s.actSlot
    if s.myCell.flipLate now rank t then s
    else if s.myCell.tag t = e then
      let flip (s : State) : State := (s.setMyCell (s.myCell.flipTag now rank t n)).writeReg d 0
      if fabricOwns n then flip s else s.released flip
    else (s.setMyCell (s.myCell.noteFlip now rank t)).writeReg d 1))

def execTwait (a : Reg) (e : BitVec 3) (s : State) : Out :=
  .next (s.onTile a (fun t s => if s.myCell.tag t = e then s.advance else s.wait (.tag t e.toNat)))

/-! ### Taking from a channel or a class (R210, R214) -/

/-- The class a slot is bound to (R19). -/
def Slot.bindClass (sl : Slot) : Option Nat :=
  if sl.bind.getLsbD 5 then some (sl.bind.toNat % 16) else none

/-- Queued packets of a masked class are held (R20, R213). -/
def Slot.classHead (sl : Slot) (c : Nat) : Option (Nat × Nat × Token) :=
  if sl.cmask.getLsbD c then none else sl.queue.head?

/-- The head token of a slot's input end, or of its class. -/
def State.inHead (s : State) (c v k e : Nat) : Option (Nat × Nat × Token) :=
  let sl := s.slotAt c v k
  match sl.bindClass with
  | some cl => sl.classHead cl
  | none => ((s.region c).head (.task v k e)).map (fun t => (0, 0, t))

/-- The bound end or class, where a word wakes the slot. -/
def Slot.boundEnd (sl : Slot) : Nat := if sl.bind.getLsbD 5 then 0 else sl.bind.toNat % 32

/-- Return the credits of a token taken by receiver i of a class: its sender's, or for a marker every sender's
(R348, R349). -/
def State.creditFor (s : State) (c cl i src : Nat) (t : Token) : State :=
  match t with
  | .eos | .curtain => ((s.region c).cls cl).senders.foldl (fun s v => s.sendCredit c cl v i) s
  | _ => s.sendCredit c cl src i

/-- Take the head token of an input end, or of the slot's class. -/
def State.takeIn (s : State) (c v k e : Nat) : State :=
  let sl := s.slotAt c v k
  match sl.bindClass with
  | some cl =>
    match sl.queue with
    | [] => s
    | (src, _, t) :: rest =>
      let s := s.setSlotAt c v k { sl with queue := rest }
      s.creditFor c cl (((s.region c).cls cl).recvIdx (.slot v k)) src t
  | none => s.setRegion c ((s.region c).take (.task v k e))

/-- Classes of a mask. -/
def maskClasses (m : BitVec 16) : List Nat := (List.range 16).filter (fun c => m.getLsbD c)

/-- Markers a slot that ends or stops owes (R418): each class of its mask that no other configured slot of the cell
still holds back. -/
def VCell.owedMarkers (c : VCell) (k : Nat) (done : Slot → Bool) (t : Token) : List (Nat × Token) :=
  (maskClasses (c.slot k).sends).filterMap (fun cl =>
    if c.slots.any (fun p => p.1 != k && p.2.st != .free && p.2.sends.getLsbD cl && !done p.2) then none
    else some (cl, t))

/-- Give a token once on every output end of a slot, in ascending order. -/
def Region.giveOuts (r : Region) (v k : Nat) (t : Token) : Region :=
  (r.outEnds v k).foldl (fun r e => r.give (.task v k e) t) r
def Region.outsRoom (r : Region) (v k : Nat) : Option Nat :=
  (r.outEnds v k).find? (fun e => !r.room (.task v k e) 1)

/-- The task ends (R214): EOS on its output ends, PC to the entry, IDLE. -/
def State.endTask (s : State) : State :=
  let v := s.actCell
  let k := s.actSlot
  let r := s.myRegion.giveOuts v k .eos
  let sl := r.slot v k
  let ms := (r.cell v).owedMarkers k (fun q => q.ended) .eos
  s.setMyRegion (r.setSlot v k
    { sl with pc := sl.entryPc, st := .idle, waiting := .nothing, ended := true, endedOnce := true, stopped := false,
              markers := sl.markers ++ ms, markersAt := s.cyc.toNat + 1 })

/-- A slot stops at a curtain (R378): CURTAIN once on every output end, and its CURTAIN markers (R418). -/
def State.stopTask (s : State) (c v k : Nat) : State :=
  let r := (s.region c).giveOuts v k .curtain
  let sl := r.slot v k
  let ms := (r.cell v).owedMarkers k (fun q => q.ended || q.stopped) .curtain
  s.setRegion c (r.setSlot v k { sl with stopped := true, markers := sl.markers ++ ms, markersAt := s.cyc.toNat + 1 })

/-- An end of the slot that is an input: its channel, or 0 for a slot bound to a class (R210). -/
def State.isInput (s : State) (e : Nat) : Bool :=
  match s.me.bindClass with
  | some _ => e == 0
  | none => (s.myRegion.chanTo (.task s.actCell s.actSlot e)).isSome

/-- RECV and RECVV (R210): `put` writes the lanes and the tag of a DATA token. -/
def State.recv (s : State) (e : BitVec 5) (put : Slot → List Lane → Nat → Slot) : State :=
  let en := e.toNat
  let c := s.actCue
  let v := s.actCell
  let k := s.actSlot
  if s.isInput en = false then s.trap .bounds (e.setWidth 64)
  else
    match s.inHead c v k en with
    | none => s.wait (.head en)
    | some (_, tag, .data ls) =>
      let s := s.takeIn c v k en
      let tag := if s.me.bindClass.isSome then tag else 0
      s.setMe { (put s.me ls tag) with ended := false }.next
    | some (_, _, .eos) =>
      match s.myRegion.outsRoom v k with
      | some o => s.wait (.space o)
      | none => (s.takeIn c v k en).endTask
    | some (_, _, .curtain) =>
      if s.me.stopped then s.wait (.head en)
      else
        match s.myRegion.outsRoom v k with
        | some o => s.wait (.space o)
        | none => (s.stopTask c v k).wait (.head en)
    | some (_, _, .cfg _ _ _) | some (_, _, .order _) =>
      let s := s.takeIn c v k en
      (s.setMe { s.me with ended := false }).wait (.head en)

/-- RECV: d := zext(lane 0), with a class packet's tag in d[47:32]. -/
def execRecv (d : Reg) (e : BitVec 5) (s : State) : Out :=
  .next (s.recv e (fun sl ls tag => sl.setReg d (BitVec.ofNat 64 ((ls.headD 0).toNat + tag % 65536 * 2 ^ 32))))

/-- RECVV: lanes 0 to w - 1 of v[d], other lanes 0. -/
def execRecvv (d : VReg) (e : BitVec 5) (s : State) : Out :=
  .next (s.recv e (fun sl ls _ => sl.setVec d (vecOfList ls)))

/-! ### SEND, SENDV (R211) -/

def State.sendLanes (s : State) (e : BitVec 5) (lanes : Nat → List Lane) : State :=
  let v := s.actCell
  let k := s.actSlot
  let p : End := .task v k e.toNat
  match s.myRegion.chans.find? (fun c => c.prod == p) with
  | none => s.trap .bounds (e.setWidth 64)
  | some ch =>
    if s.myRegion.room p 1 = false then s.wait (.space e.toNat)
    else (s.setMyRegion (s.myRegion.give p (.data (lanes ch.wid)))).advance

def execSend (a : Reg) (e : BitVec 5) (s : State) : Out :=
  .next (s.sendLanes e (fun w => (List.range w).map (fun i => if i = 0 then loLane (s.rg a) else 0)))
def execSendv (a : VReg) (e : BitVec 5) (s : State) : Out :=
  .next (s.sendLanes e (fun w => (s.rv a).toList.take w))

/-! ### SENDP, MASKC, UNMASKC (R212, R213, R418) -/

/-- The cell's port holds quota for a packet of n flits; one longer than FQ waits in the port for a boundary (R353). -/
def State.hasQuota (s : State) (die site n : Nat) : Bool :=
  let fq := (s.die die).fq
  decide ((s.pcell die site).used + n ≤ fq) || decide (fq < n)

/-- An exchange holds the cell's port, or a receiver of the class (R363, R365). -/
def State.classLeased (s : State) (c v cl : Nat) : Bool :=
  let r := s.region c
  s.leased r.die (r.cell v).site || (r.cls cl).recvs.any (fun q => s.leased r.die (r.cell (r.recvCell q)).site)

/-- The port of a cell may present the next packet of a send of n flits: its credits, and quota (R348, R350, R353). -/
def State.portReady (s : State) (c v cl n sent : Nat) : Bool :=
  let r := s.region c
  r.sendReady v cl n sent && s.hasQuota r.die (r.cell v).site n && !s.classLeased c v cl

/-- A slot that waits at its port for a class may look again: some receiver has a credit, and there is quota. -/
def State.portMoves (s : State) (c v cl : Nat) : Bool :=
  let r := s.region c
  (r.classDsts cl).any (fun d => (r.cls cl).pays v [d]) && s.hasQuota r.die (r.cell v).site 1 && !s.classLeased c v cl

/-- SENDP (R212, R350, R418). A send that waits for credit after some of its unicasts have gone reads its payload again when it issues
afresh, so that later receivers may get other lanes: the spec does not say if the lanes are read once (DESIGN CHOICE, log 17). -/
def execSendp (a b : Reg) (c : BitVec 4) (s : State) : Out :=
  let cl := c.toNat
  let sl := s.me
  let bv := (s.rg b).toNat
  let av := s.rg a
  let n := bv / 2 ^ 16 % 16 + 1
  let w := winOf av.toNat
  if s.myTenant.classMask.getLsbD cl = false then .next (s.violation cl 2)
  else if sl.sends.getLsbD cl = false then .next (s.trap .bounds (c.setWidth 64))
  else if bv / 2 ^ 20 ≠ 0 then .next (s.trap .bounds (s.rg b))
  else if w ≠ 0xF0 ∧ w ≠ 0xF3 then .next (s.trap .bounds av)
  else
    .next (s.withAccess av 4 (.read (4 * n)) (fun g s =>
      if s.portReady s.actCue s.actCell cl (dataFlits n) sl.sent then
        s.presentData s.actCue s.actCell cl (bv % 65536) (lanesOfBytes g.bytes) sl.sent
          (fun s => (s.setMe { s.me with sent := 0 }).advance) (fun k s => (s.setMe { s.me with sent := k }).wait (.port cl))
      else s.wait (.port cl)))

def State.setMask (s : State) (c : BitVec 4) (on : Bool) : State :=
  if s.myTenant.classMask.getLsbD c.toNat = false then s.violation c.toNat 2
  else
    let bit : BitVec 16 := 1#16 <<< c.toNat
    s.setMe { s.me with cmask := if on then s.me.cmask ||| bit else s.me.cmask &&& ~~~bit }.next

def execMaskc (c : BitVec 4) (s : State) : Out := .next (s.setMask c true)
def execUnmaskc (c : BitVec 4) (s : State) : Out := .next (s.setMask c false)

/-! ### The moves of a slot (R20, R215, R378) -/

/-- TASK_WAKE (R20): a word on its bound channel or class moves an IDLE slot to RUN. A CURTAIN there does not: the
slot stops instead (R378). -/
def execTaskWake (s : State) : Out :=
  let c := s.actCue
  let v := s.actCell
  let k := s.actSlot
  if s.me.st ≠ .idle ∨ s.slotRuns c v = false then .next s
  else
    match s.inHead c v k s.me.boundEnd with
    | none => .next s
    | some (_, _, .curtain) =>
      if s.me.stopped ∨ (s.myRegion.outsRoom v k).isSome then .next s else .next (s.stopTask c v k)
    | some _ => .next (s.setMe { s.me with st := .run })

/-- SLEEP_EXPIRY (R20, R215): CYC has reached the time. -/
def execSleepExpiry (s : State) : Out :=
  if s.me.st = .sleep ∧ s.slotRuns s.actCue s.actCell ∧ ltU s.cyc s.me.sleepTill = false then .next (s.setMe { s.me with st := s.me.issueState })
  else .next s

/-- A request of the slot that waits for a bucket or a leave has been granted, or was withdrawn (R290, R354). -/
def State.bucketReady (s : State) (ten : Nat) (who : Actor) : Bool :=
  !(s.tenant ten).bucketBusy who
def State.leaveReady (s : State) (die : Nat) (who : Actor) : Bool :=
  (s.die die).leaveGranted.contains who || !(s.die die).leaveQ.any (fun q => q.who == who)

/-- The own engine of a cell (R296). -/
def Region.ownEngine (r : Region) (v : Nat) : Nat := r.die * 16 + (r.cell v).site / 36

/-- The engine a kept command goes back to: its cell's own engine, or the one of that number on the region's die. -/
def Region.flyTarget (r : Region) (p : Nat × FlyCmd) : Nat := if p.2.own then r.ownEngine p.2.vcell else r.die * 16 + p.1 % 16

/-- Queue of a block: 0 the MVM queue, 1 the second (R308); and its number as a queue with room. -/
def blkQueue (b : List Word) : Nat := if bits (wordAt b 0) 7 0 = 1 then 0 else 1
def wingsQueue (stack q : Nat) : Nat := 64 + 2 * stack + q

/-- Commands in the queue of a Fly engine, or in one of a Wings unit, and those that wait behind it for room (R300, R308). -/
def State.queueLen (s : State) (unit : Nat) : Nat :=
  if unit < 64 then (s.fly unit).q.length
  else
    let w := s.wing ((unit - 64) / 2)
    if (unit - 64) % 2 = 0 then w.qm.length else w.qs.length

/-- The queue has room behind them (R300, R308). -/
def State.queueRoom (s : State) (unit : Nat) : Bool := decide (s.queueLen unit < 16)

/-- What a slot in WAIT waits for is ready (R20). -/
def State.waitReady (s : State) (c v k : Nat) : Bool :=
  let r := s.region c
  let sl := r.slot v k
  match sl.waiting with
  | .nothing => true
  | .head e =>
    match s.inHead c v k e with
    | none => false
    | some (_, _, .curtain) => !sl.stopped
    | some _ => true
  | .space e => r.room (.task v k e) 1
  | .tag t e => (r.cell v).tag t == BitVec.ofNat 3 e || (s.lateCmd c v k t).isSome
  | .tiles w ts => ts.all (fun t => fabricOwns ((r.cell w).tag t))
  | .barrier b p => decide (p < r.phaseOf b ((r.barRung b).getD 7) (.slot v k))
  | .walk va _ =>
    match walk s r.tenant va with
    | .migrating => false
    | _ => true
  | .bucket => s.bucketReady r.tenant (.slot c v k)
  | .leave => s.leaveReady r.die (.slot c v k)
  | .room u => s.queueRoom u
  | .copy t => !(r.cell v).tloads.any (fun x => x.slot == t)
  | .port cl => s.portMoves c v cl
  | .quota => (s.portHeld (.slot c v k) r.tenant r.die (r.cell v).site [(0, 1)]).isNone
  | .answer => !s.fetching (.slot c v k)
  | .own => (r.ownPend v k).isEmpty
  | .stores rs => !r.ownMeets v k rs
  | .queue => !s.taskPortFull c v

/-- TASK_WAIT_RESUME (R20, log 6): the slot issues its instruction afresh. -/
def execTaskWaitResume (s : State) : Out :=
  if s.me.st = .wait ∧ s.slotRuns s.actCue s.actCell ∧ s.waitReady s.actCue s.actCell s.actSlot then
    .next (s.setMe { s.me with st := s.me.issueState, waiting := .nothing })
  else .next s

/-- The slot's port presents its next markers, in ascending class number, each as its credit allows (R418). -/
def State.sendMarkers (s : State) (c v k : Nat) : List (Nat × Token) → State
  | [] => s.setSlotAt c v k { s.slotAt c v k with markers := [] }
  | (cl, t) :: rest =>
    if (s.region c).sendReady v cl 1 0 && !s.classLeased c v cl then
      (s.presentMarker c v cl (if t = .eos then 1 else 2)).sendMarkers c v k rest
    else s.setSlotAt c v k { s.slotAt c v k with markers := (cl, t) :: rest }

/-- MARKER_SEND (R418): from the tick after the slot ended or stopped. -/
def execMarkerSend (s : State) : Out :=
  if s.cyc.toNat < s.me.markersAt then .next s
  else .next (s.sendMarkers s.actCue s.actCell s.actSlot s.me.markers)

end Sys2Proof.Machine
end

