-- ==== Sys2Proof/Machine/Weights.lean ====
section
/-! DEFINITION. Weights and matrix products (R49 to R57, R161 to R163, R177): the place of a weight and of its
scale in a page, its value, and one output of a matrix-vector product. -/

namespace Sys2Proof.Machine

/-! ### Group-scaled pages (R49, R50) -/

def isGs (f : Fmt) : Bool := f == .gs4 || f == .gs3
/-- Group size G of a geometry. -/
def gsGroup (geom : Nat) : Nat := 32 * 2 ^ (geom % 4)
/-- The scale block leads (SPLACE = 0). -/
def gsLead (geom : Nat) : Bool := geom / 4 % 2 == 0
/-- Weight bytes and all bytes of a weight block. -/
def gsWeightBytes (f : Fmt) (geom : Nat) : Nat := 32 * gsGroup geom * fmtBits f / 8
def gsBlock (f : Fmt) (geom : Nat) : Nat := gsWeightBytes f geom + 64
/-- Byte offset of weight block k from the first granule. -/
def gsBlockOff (f : Fmt) (geom k : Nat) : Nat :=
  let per := 65536 / gsBlock f geom
  k / per * 65536 + k % per * gsBlock f geom

/-- Byte offset of the scale of group g. -/
def gsScaleOff (f : Fmt) (geom g : Nat) : Nat :=
  gsBlockOff f geom (g / 32) + (if gsLead geom then 0 else gsWeightBytes f geom) + 2 * (g % 32)
/-- Byte offset of the weights of the block that holds group g. -/
def gsBodyOff (f : Fmt) (geom g : Nat) : Nat := gsBlockOff f geom (g / 32) + (if gsLead geom then 64 else 0)

/-- Byte offset and byte count of the run of weights that starts at element e, n elements within one group. -/
def weightRun (f : Fmt) (geom e n : Nat) : Nat × Nat :=
  if isGs f then
    let i := e % (32 * gsGroup geom)
    (gsBodyOff f geom (e / gsGroup geom) + i * fmtBits f / 8, n * fmtBits f / 8)
  else (e * fmtSize f, n * fmtSize f)

/-- A weight of a packed list, numbered from the list's start (R49). -/
def packedInt (f : Fmt) (rd : Nat → Byte) (i : Nat) : Int :=
  match f with
  | .gs4 => gsInt .gs4 ((rd (i / 2)).toNat / 2 ^ (4 * (i % 2)))
  | _ =>
    let b := 3 * (i / 8)
    gsInt .gs3 (natOf [rd b, rd (b + 1), rd (b + 2)] / 2 ^ (3 * (i % 8)))

/-- The value of an element of a floating page at a byte offset. -/
def floatAt (f : Fmt) (rd : Nat → Byte) (off : Nat) : Ex :=
  decodeF f (natOf ((List.range (fmtSize f)).map (fun k => rd (off + k))))

def bf16At (rd : Nat → Byte) (off : Nat) : Ex := exOfBf16 (natOf [rd off, rd (off + 1)])

/-- A weight of a page and, for gs4 and gs3, its group's scale, read through the bytes of the page (R52, R177). -/
def weightAt (f : Fmt) (geom : Nat) (rd : Nat → Byte) (e : Nat) : Ex × Option Ex :=
  if isGs f then
    let g := e / gsGroup geom
    let body := gsBodyOff f geom g
    (ofIntEx (packedInt f (fun k => rd (body + k)) (e % (32 * gsGroup geom))), some (bf16At rd (gsScaleOff f geom g)))
  else (floatAt f rd (e * fmtSize f), none)

/-- A weight page is bf16, e4m3, e5m2, gs4 or gs3 (R53). -/
def isWeightFmt (f : Fmt) : Bool := f == .bf16 || f == .e4m3 || f == .e5m2 || isGs f

/-- WBASE and K against the page (R162): 0 good, 1 MISALIGN, 2 WFMT. -/
def weightCheck (f : Fmt) (geom wbase k : Nat) : Nat :=
  if !isWeightFmt f then 2
  else if isGs f then (if wbase % 65536 ≠ 0 then 1 else if k % gsGroup geom ≠ 0 then 2 else 0)
  else if wbase % fmtSize f ≠ 0 then 1 else 0

/-- Bytes from WBASE that hold W. -/
def weightExtent (f : Fmt) (geom n k : Nat) : Nat :=
  if isGs f then
    let blocks := (n * k + 32 * gsGroup geom - 1) / (32 * gsGroup geom)
    gsBlockOff f geom (blocks - 1) + gsBlock f geom
  else n * k * fmtSize f

/-- Bytes of W a call reads, WBYTES of R310. -/
def weightBytes (f : Fmt) (geom n k : Nat) : Nat :=
  if isGs f then n * k * gsBlock f geom / (32 * gsGroup geom) else n * k * fmtSize f

/-- One output of a matrix-vector product (R57, R177): `sr` is the scale register of the row. -/
def mvmAcc (f : Fmt) (geom : Nat) (rd : Nat → Byte) (k : Nat) (sr : Ex) (x : List Ex) (row : Nat) : Lane :=
  k32Sum 0 ((List.range k).map (fun c =>
    let (w, s) := weightAt f geom rd (row * k + c)
    some (mulProduct w (s.getD sr) (x.getD c (.fin false 0 0)))))

/-- The runs of bytes a call reads, in the order of R162. -/
def weightRuns (f : Fmt) (geom n k : Nat) : List (Nat × Nat) :=
  (List.range ((n + 31) / 32)).flatMap (fun p =>
    (List.range ((k + 31) / 32)).flatMap (fun b =>
      let rows := (List.range 32).filter (fun j => 32 * p + j < n)
      let scales := if isGs f && 32 * b % gsGroup geom == 0 then
          rows.map (fun j => (gsScaleOff f geom (((32 * p + j) * k + 32 * b) / gsGroup geom), 2))
        else []
      scales ++ rows.map (fun j => weightRun f geom ((32 * p + j) * k + 32 * b) (min 32 (k - 32 * b)))))

/-- Runs in order, those that follow on one another as one. -/
def mergeRuns (cur : Nat × Nat) : List (Nat × Nat) → List (Nat × Nat)
  | [] => [cur]
  | g :: rest => if cur.1 + cur.2 = g.1 then mergeRuns (cur.1, cur.2 + g.2) rest else cur :: mergeRuns g rest

/-! ### Activations -/

/-- Exact values of the lanes of a token in an activation format. -/
def actValues (f : Fmt) (ls : List Lane) : List Ex := ls.map (fun l => decodeF f (lowBits f l))

/-- Lanes in groups of 16. -/
def chunk16Aux : Nat → List Lane → List (List Lane)
  | 0, _ => []
  | k + 1, xs => if xs.isEmpty then [] else xs.take 16 :: chunk16Aux k (xs.drop 16)
def chunk16 (xs : List Lane) : List (List Lane) := chunk16Aux (xs.length / 16 + 1) xs

/-- The controls a MOD field names (R43). -/
def ctlOf (m : Nat) : Ctl :=
  { rm := (match m % 4 with
      | 0 => .rne
      | 1 => .rtz
      | 2 => .rdn
      | _ => .rup)
    ftz := m / 4 % 2 == 1, sat := m / 8 % 2 == 1 }

/-- Lanes of elements of format f from their bytes (R38), little-endian. -/
def laneOfBytes (f : Fmt) (bs : List Byte) : Lane := placeBits f (natOf bs)
def splitBytes : Nat → Nat → List Byte → List (List Byte)
  | 0, _, _ => []
  | k + 1, n, bs => if bs.isEmpty then [] else bs.take n :: splitBytes k n (bs.drop n)
def lanesFromBytes (f : Fmt) (bs : List Byte) : List Lane :=
  (splitBytes bs.length (fmtSize f) bs).map (laneOfBytes f)
def bytesFromLanes (f : Fmt) (ls : List Lane) : List Byte :=
  ls.flatMap (fun l => bytesOf (fmtSize f) (lowBits f l))

end Sys2Proof.Machine
end

