-- ==== Sys2Proof/Machine/Reach.lean ====
section
/-! DEFINITION. Incident posting (R388, R400), the reach of a node or an engine into memory (R146, R255, R387, R427),
and leave requests (R290, R309). -/

namespace Sys2Proof.Machine

/-! ### Incidents (R400) -/

def Rec.words (q : Rec) : List Word := [q.w0, q.w1, q.w2, q.w3, q.w4, q.w5, q.w6, q.w7]

/-- PROD and LOST of a ring, as its first word. -/
def ringHead (w : Win) : Nat := w.prod.toNat + w.dropped.toNat * 2 ^ 32

/-- The memory of a physical range is in reach: no part of it lies in a stack of a die at DARK or OFF (R402). -/
def State.inReach (s : State) (a n : Nat) : Bool := !(s.rangePower a n).dead

/-- Room in a window's ring, whose memory is in reach: CONS is the host's, in that memory. -/
def State.ringRoom (s : State) (w : Win) : Bool :=
  match w.ring with
  | none => false
  | some (base, lg) => s.inReach base (64 + 64 * 2 ^ lg) && decide ((w.prod - BitVec.ofNat 32 (s.load (base + 8) 4)).toNat < 2 ^ lg)

/-- Write one incident to slot PROD and advance PROD (R400). -/
def State.ringWrite (s : State) (wi : Nat) (q : Rec) : State :=
  let w := s.win wi
  match w.ring with
  | none => s
  | some (base, lg) =>
    let s := s.write (base + 64 + 64 * (w.prod.toNat % 2 ^ lg)) (bytesOfWords q.words)
    let w := { w with prod := w.prod + 1 }
    (s.store base 8 (ringHead w)).setWin wi w

/-- Post to one window: into its ring while there is room and nothing is held, else held up to 256, else LOST. -/
def State.postTo (s : State) (wi : Nat) (q : Rec) : State :=
  let w := s.win wi
  if w.held.isEmpty && s.ringRoom w then s.ringWrite wi q
  else if w.held.length < 256 then s.setWin wi { w with held := w.held ++ [q] }
  else
    let w := { w with dropped := w.dropped + 1 }
    let s := s.setWin wi w
    match w.ring with
    | none => s
    | some (base, _) => if s.inReach base 8 then s.store base 8 (ringHead w) else s

/-- Every incident goes to its tenant's window and to window 0 (R400). -/
def State.post (s : State) (ten : Nat) (q : Rec) : State :=
  let s := match (s.tenant ten).win with
    | some wi => if wi = 0 then s else s.postTo wi q
    | none => s
  s.postTo 0 q

/-- An incident of the package, with the tick of posting. -/
def State.postRec (s : State) (q : Rec) : State :=
  s.post (q.w0.toNat / 2 ^ 16 % 64) { q with w7 := s.cyc }

/-- Held incidents enter the ring while it has room. -/
def State.flushHeld (s : State) (wi : Nat) : List Rec → State
  | [] => s
  | q :: rest =>
    if s.ringRoom (s.win wi) then
      let s := s.ringWrite wi q
      (s.setWin wi { s.win wi with held := rest }).flushHeld wi rest
    else s

/-- INCIDENT_QUEUE_ROOM (R400). -/
def execIncidentQueueRoom (s : State) : Out :=
  match s.actor with
  | .window wi => .next (s.flushHeld wi (s.win wi).held)
  | _ => .next s

/-! ### Reach of nodes and engines -/

/-- A range reached, or why it is withheld (a cause of R389: 0 invalid, 1 malformed, 2 migrating, 3 dark target), or
the right it breaks. -/
inductive Reach where
  | ok (segs : List Seg)
  | miss (va cause : Nat)
  | viol (va right : Nat)
  deriving DecidableEq, Repr

/-- A global range cut at 64 KiB pages, by fuel. -/
def pageCut : Nat → Nat → Nat → List (Nat × Nat)
  | 0, _, _ => []
  | k + 1, va, n => if n = 0 then [] else
      let m := min n (65536 - va % 65536)
      (va, m) :: pageCut k (va + m) (n - m)

def reachParts (unit ten die : Nat) (rd wr : Bool) : List (Nat × Nat) → List Seg → State → Reach × State
  | [], acc, s => (.ok acc.reverse, s)
  | (va, n) :: rest, acc, s =>
    match translate s unit ten va wr with
    | (.invalid, s') => (.miss va 0, s')
    | (.malformed, s') => (.miss va 1, s')
    | (.migrating, s') => (.miss va 2, s')
    | (.dark _, s') => (.miss va 3, s')
    | (.ok e pa, s') =>
      match rights e ten rd wr with
      | some right => (.viol va right, s')
      | none =>
        match s'.powerAt pa with
        | .dark =>
          if dieOfStack (stackOf pa) = die then reachParts unit ten die rd wr rest (⟨pa, n, some e⟩ :: acc) s'
          else (.miss va 3, s')
        | .off => (.miss va 3, s')
        | _ => reachParts unit ten die rd wr rest (⟨pa, n, some e⟩ :: acc) s'

/-- A global range of a tenant, through a translating unit, from a die. -/
def State.reach (s : State) (unit ten die va n : Nat) (rd wr : Bool) : Reach × State :=
  reachParts unit ten die rd wr (pageCut (n / 65536 + 2) va n) [] s

/-- Bytes of segments from memory, as an engine or a node reads them. -/
def State.readSegs (s : State) (segs : List Seg) : List Byte := segs.flatMap (fun g => s.read g.key g.len)

/-- A scratchpad range an engine may touch: every tile names it (R29). -/
def Region.engineTiles (r : Region) (v off n owner : Nat) : Option Nat :=
  (tilesOf off n).find? (fun t => ((r.cell v).tag t).toNat / 2 != owner)

def State.tileReach (_s : State) (r : Region) (v off n owner : Nat) : Reach :=
  match r.engineTiles v off n owner with
  | some t => .viol t 2
  | none => .ok [⟨poolKey r.die (r.cell v).site (r.taskBytes + off), n, none⟩]

/-! ### Engine accesses that are withheld (R299, R377) -/

/-- When an access of given progress was presented: kept over its retries, else now. -/
def presentedAt (heldAt : Option (Nat × Nat)) (mark now : Nat) : Option (Nat × Nat) :=
  match heldAt with
  | some (t, m) => if m = mark then some (t, m) else some (now, mark)
  | none => some (now, mark)

/-- A command's access is withheld at an address, for a cause. -/
def FlyCmd.hold (f : FlyCmd) (now va cause : Nat) : FlyCmd :=
  { f with withheld := some (va, cause),
           heldAt := presentedAt f.heldAt (f.done * 4 + (if f.piece.isSome then 2 else 0) + (if f.flipped then 1 else 0)) now }

def WBlk.hold (w : WBlk) (now va cause : Nat) : WBlk :=
  { w with withheld := some (va, cause),
           heldAt := presentedAt w.heldAt (((w.pos * 2 ^ 20 + w.buf.length) * 2 + (if w.held.isSome then 1 else 0)) * 2
             + (if w.flipped then 1 else 0)) now }

/-! ### Leave (R290, R309) -/

/-- Units of an operation that moves n bytes, 0 when it asks for none. -/
def leaveUnits (n : Nat) : Nat := if 65536 < n then ceilDiv n 65536 else 0

/-- Rank of a requester. -/
def State.actorRank (s : State) (who : Actor) : Nat :=
  match who with
  | .slot c v k => agentRank c v true k
  | .node c e => agentRank c (((s.region c).cellOf.getD e (0, 0)).1) false e
  | _ => 0

/-- Ask a die's governor: true once the request has been granted, which uses it up. -/
def State.askLeave (s : State) (die : Nat) (who : Actor) (units : Nat) : Bool × State :=
  let d := s.die die
  if units = 0 then (true, s)
  else if d.leaveGranted.contains who then (true, s.setDie die { d with leaveGranted := d.leaveGranted.erase who })
  else if d.leaveQ.any (fun q => q.who == who) then (false, s)
  else
    let q : LeaveReq := { who := who, units := units, made := s.cyc.toNat, rank := s.actorRank who }
    (false, s.setDie die { d with leaveQ := joinTied (fun p => p.made == q.made && decide (q.rank < p.rank)) q d.leaveQ })

/-- A requester's request waits for its grant. -/
def State.leaveWaits (s : State) (die : Nat) (who : Actor) : Bool :=
  !(s.die die).leaveGranted.contains who && (s.die die).leaveQ.any (fun q => q.who == who)

/-- Withdraw a requester's waiting request or unused grant without charge (R290). -/
def State.withdrawLeave (s : State) (die : Nat) (mine : Actor → Bool) : State :=
  let d := s.die die
  s.setDie die { d with leaveQ := d.leaveQ.filter (fun q => !mine q.who), leaveGranted := d.leaveGranted.filter (fun a => !mine a) }

/-- Grant head requests while the units left cover them; at a frame boundary a head larger than LB takes the whole
budget (R290). -/
def grantLeave : Nat → Bool → Die → Die
  | 0, _, d => d
  | k + 1, boundary, d =>
    match d.leaveQ with
    | [] => d
    | q :: rest =>
      if q.units ≤ d.left then
        grantLeave k boundary { d with left := d.left - q.units, leaveQ := rest, leaveGranted := d.leaveGranted ++ [q.who] }
      else if boundary && d.lb < q.units && d.left == d.lb then
        { d with left := 0, leaveQ := rest, leaveGranted := d.leaveGranted ++ [q.who] }
      else d

/-- LEAVE_GRANT (R290): the governor grants the head request, then considers the next. -/
def execLeaveGrant (s : State) : Out :=
  match s.actor with
  | .die d => .next (s.setDie d (grantLeave (s.die d).leaveQ.length false (s.die d)))
  | _ => .next s

/-- The flag of R300: the range an engine's flag store reaches. -/
def State.flagReach (s : State) (unit ten die addr : Nat) : Reach × State := s.reach unit ten die addr 8 false true

end Sys2Proof.Machine
end

