-- ==== Sys2Proof/Machine/Fly.lean ====
section
/-! DEFINITION. The Fly engines (R296 to R302, R408, R426, R427): the checks of a command, its queue and promise,
its pieces and its completion, and FLYC (R216). -/

namespace Sys2Proof.Machine

/-! ### Checks at issue (R297, R298) -/

def allBelow : Nat → (Nat → Bool) → Bool
  | 0, _ => true
  | n + 1, f => f n && allBelow n f
def maxBelow : Nat → (Nat → Nat) → Nat
  | 0, _ => 0
  | n + 1, f => max (f n) (maxBelow n f)


/-- Start of row r of a range, as an integer (R297). -/
def rowStart (p : Word) (stride : Int) (r : Nat) : Int := (p.toNat : Int) + (r : Int) * stride

/-- A row stays in its pointer's window and within the bound of what it names (R298). -/
def rowOk (r : Region) (p : Word) (stride : Int) (len row : Nat) : Bool :=
  let a := rowStart p stride row
  let w := winOf p.toNat
  if a < 0 ∨ a.toNat / 2 ^ 56 ≠ w then false
  else
    let off := offOf a.toNat
    if w = 0 then decide (off + len ≤ 2 ^ 56)
    else if w = 0xF0 then decide (off + len ≤ r.spadBytes)
    else if w = 0xF1 then
      decide (off / 2 ^ 52 = 0) && decide (off / 2 ^ 40 % 4096 < r.ncells) && decide (off % 2 ^ 40 + len ≤ r.spadBytes)
    else false

/-- A pointer as one address space: the own scratchpad as its cell of window 0xF1. -/
def canonPtr (v : Nat) (p : Word) : Nat :=
  if winOf p.toNat = 0xF0 then 0xF1 * 2 ^ 56 + v * 2 ^ 40 + offOf p.toNat else p.toNat

/-- A byte that some row reads is also one that some row writes (R298). -/
def flyOverlap (v : Nat) (c : Cmd) : Bool :=
  let rows := flyRows c
  !allBelow rows (fun r =>
    let a : Int := (canonPtr v c.w1 : Int) + (r : Int) * flySs c
    !rowsHit (canonPtr v c.w2) (flyDs c) (flyLen c) rows a (a + flyLen c))

def flyWindowOk (tile : Bool) (p : Word) : Bool :=
  let w := winOf p.toNat
  if tile then w == 0xF0 else w == 0x00 || w == 0xF0 || w == 0xF1

/-- A malformed command (R298). -/
def flyMalformed (r : Region) (v : Nat) (c : Cmd) : Bool :=
  let op := flyOp c
  (op != 1 && op != 2) || bits c.w0 31 10 != 0 || flyLen c == 0 || bits c.w3 63 32 != 0
    || (op == 1 && (bits c.w3 31 0 != 0 || c.w4 != 0 || c.w5 != 0))
    || !flyWindowOk (flySrct c) c.w1 || !flyWindowOk (flyDstt c) c.w2
    || winOf c.w6.toNat != 0 || c.w6.toNat % 8 != 0
    || !allBelow (flyRows c) (fun k => rowOk r c.w1 (flySs c) (flyLen c) k)
    || !allBelow (flyRows c) (fun k => rowOk r c.w2 (flyDs c) (flyLen c) k)
    || flyOverlap v c

/-! ### Promises (R301, R302) -/

/-- Rank of a physical address from a die, slower upwards: scratchpad 0, own die 1, other die 2, memory tier 3,
host 4 (R301). A pod page counts as the slowest (log 12). -/
def endRank (die pa : Nat) : Nat :=
  if inHbm pa then (if dieOfStack (stackOf pa) = die then 1 else 2) else if inTier pa then 3 else 4
def rankLatency : Nat → Nat
  | 0 => 64 | 1 => 192 | 2 => 320 | 3 => 1200 | _ => 2000
def rankRate : Nat → Nat
  | 0 => 512 | 1 => 512 | 2 => 384 | 3 => 96 | _ => 48

/-- The slowest end a range touches; a page that does not translate counts as host memory. -/
def State.rangeRank (s : State) (ten die : Nat) (p : Word) (stride : Int) (len rows : Nat) : Nat :=
  if winOf p.toNat ≠ 0 then 0
  else maxBelow rows (fun r =>
    let a := (rowStart p stride r).toNat
    (pageCut (len / 65536 + 2) a len).foldl (fun m q => max m (match walk s ten q.1 with
      | .leaf _ e level => endRank die (leafPa e level q.1)
      | _ => 4)) 0)

/-- The promise of R301 behind the given commands, and its Reff. -/
def State.flyPromise (s : State) (ten e : Nat) (c : Cmd) (q : List FlyCmd) : Nat × Nat :=
  let die := e / 16
  let a := s.rangeRank ten die c.w1 (flySs c) (flyLen c) (flyRows c)
  let b := s.rangeRank ten die c.w2 (flyDs c) (flyLen c) (flyRows c)
  let reff := max 1 (min (min (rankRate a) (rankRate b)) ((s.tenant ten).share / 1024))
  let ahead := (q.getLast?.map (fun f => f.promise)).getD 0
  (max s.cyc.toNat ahead + max (rankLatency a) (rankLatency b) + ceilDiv (flyBytes c) reff, reff)

/-- A command that reached the engine in the same tick as `f`, has not begun, and ranks behind it (R300). -/
def FlyCmd.behind (f g : FlyCmd) : Bool :=
  g.made == f.made && !g.started && decide (agentRank f.cue f.vcell f.task f.agent < agentRank g.cue g.vcell g.task g.agent)

/-- A command joins behind those given, with its promise. -/
def State.joinFly (s : State) (e : Nat) (q : List FlyCmd) (f : FlyCmd) : List FlyCmd :=
  let (p, reff) := s.flyPromise (s.region f.cue).tenant e f.c q
  q ++ [{ f with promise := p, told := p, reff := reff }]

/-- Queue a command before those of the tick that rank behind it, whose promises follow it; its promise is told to its issuer
(R300, R301; log 12). -/
def State.enqueueFly (s : State) (e cue v : Nat) (task : Bool) (agent : Nat) (own : Bool) (c : Cmd) (fire : Nat := 0) :
    Nat × State :=
  let f : FlyCmd := { seq := s.nextFly, cue := cue, vcell := v, task := task, agent := agent, own := own, c := c,
                      promise := 0, made := s.cyc.toNat, fire := fire }
  let q := (s.fly e).q
  let ahead := q.take (q.length - (q.reverse.takeWhile f.behind).length)
  let joined := s.joinFly e ahead f
  ((joined.getLast?.map (fun g => g.promise)).getD 0,
    { s.setFly e { q := (q.drop ahead.length).foldl (s.joinFly e) joined } with nextFly := s.nextFly + 1 })

/-- FLYC (R216): alignment, window, the command's read, its limits (R298), the release of the slot's stores, a place in the
queue (R300), leave (R309), then its issue. -/
def execFlyc (d a : Reg) (s : State) : Out :=
  let ea := s.rg a
  let w := winOf ea.toNat
  if ea.toNat % 64 ≠ 0 then .next (s.trap .misalign ea)
  else if w ≠ 0x00 ∧ w ≠ 0xF0 ∧ w ≠ 0xF3 then .next (s.trap .bounds ea)
  else
    .next (s.withAccess ea 64 (.read 64) (fun g s =>
      let c := cmdOfWords (wordsOfBytes g.bytes)
      let r := s.myRegion
      let e := r.ownEngine s.actCell
      if flyMalformed r s.actCell c then s.trap .bounds ea
      else if s.myRegion.ownPend s.actCell s.actSlot ≠ [] then g.wait s .own
      else if s.queueRoom e = false then g.wait s (.room e)
      else
        match s.askLeave r.die s.actor (leaveUnits (flyBytes c)) with
        | (false, s) => g.wait s .leave
        | (true, s) =>
          let (p, s) := s.enqueueFly e s.actCue s.actCell true s.actSlot true c s.me.pc.toNat
          s.writeReg d (BitVec.ofNat 64 p)))

/-! ### The engine at work -/

def State.actFly (s : State) : Nat :=
  match s.actor with
  | .fly e => e
  | _ => 0

/-- Replace a command in a queue. -/
def State.putCmd (s : State) (e : Nat) (f : FlyCmd) : State :=
  s.setFly e { q := (s.fly e).q.map (fun g => if g.seq = f.seq then f else g) }

/-- An own-engine command waits for every earlier one of its agent at another engine (R426). -/
def State.flyHeldBack (s : State) (e : Nat) (f : FlyCmd) : Bool :=
  f.own && s.flys.any (fun p => p.1 != e && p.2.q.any (fun g =>
    g.own && g.cue == f.cue && g.vcell == f.vcell && g.task == f.task && g.agent == f.agent && decide (g.seq < f.seq)))

/-- FLY_COMMAND_START (R300): the head of the queue starts, in a tick after the one it queued in. -/
def execFlyCommandStart (s : State) : Out :=
  let e := s.actFly
  match (s.fly e).q with
  | [] => .next s
  | f :: _ =>
    if f.started || s.cyc.toNat ≤ f.made || s.flyHeldBack e f || (s.die (e / 16)).power.dead then .next s
    else .next (s.putCmd e { f with started := true })

/-- An engine command breaks a right (R375): it stops, and its issuing region freezes from its cell. -/
def State.engineViolation (s : State) (cue v slot entry val right op fire : Nat) : State :=
  let r := s.region cue
  s.startFreeze cue v 2 true (mkRec 0x02 0 r.tenant r.die cue v slot 0 entry op fire val right s.cyc.toNat)

def State.flyViolation (s : State) (e : Nat) (f : FlyCmd) (val right : Nat) : State :=
  (s.putCmd e { f with stopped := true }).engineViolation f.cue f.vcell (if f.task then f.agent else 0)
    (if f.task then noEntry else f.agent) val right (flyOp f.c) f.fire

/-- The range a command reaches at a pointer: global memory through the issuing cell's slice, or tiles Fly owns. -/
def State.flyReach (s : State) (f : FlyCmd) (ptr n : Nat) (wr : Bool) : Reach × State :=
  let r := s.region f.cue
  let off := offOf ptr
  if winOf ptr = 0 then s.reach (sliceOf r.die (r.cell f.vcell).site) r.tenant r.die off n (!wr) wr
  else if winOf ptr = 0xF0 then (s.tileReach r f.vcell off n 2, s)
  else (s.tileReach r (off / 2 ^ 40 % 4096) (off % 2 ^ 40) n 2, s)

/-- FLY_PIECE (R408): the read of a piece, then its write, each a bucket request. -/
def State.flyPiece (s : State) (e : Nat) (f : FlyCmd) : State :=
  let len := flyLen f.c
  let row := f.done / len
  let off := f.done % len
  let src := (rowStart f.c.w1 (flySs f.c) row).toNat + off
  let dst := (rowStart f.c.w2 (flyDs f.c) row).toNat + off
  let n := min (64 - src % 64) (len - off)
  let ten := (s.region f.cue).tenant
  match f.piece with
  | none =>
    match s.flyReach f src n false with
    | (.miss va cause, s) => s.putCmd e (f.hold s.cyc.toNat va cause)
    | (.viol x right, s) => s.flyViolation e f x right
    | (.ok segs, s) =>
      match s.draw ten (.fly e) [n] with
      | (false, s) => s
      | (true, s) => s.putCmd e { f with piece := some (s.readSegs segs) }
  | some bs =>
    match s.flyReach f dst n true with
    | (.miss va cause, s) => s.putCmd e (f.hold s.cyc.toNat va cause)
    | (.viol x right, s) => s.flyViolation e f x right
    | (.ok segs, s) =>
      match s.draw ten (.fly e) [n] with
      | (false, s) => s
      | (true, s) => (s.writeSegs (splitSegs segs bs)).putCmd e { f with piece := none, done := f.done + n }

def FlyCmd.moving (f : FlyCmd) : Bool := f.started && !f.stopped && f.withheld.isNone

def execFlyPiece (s : State) : Out :=
  let e := s.actFly
  match (s.fly e).q with
  | [] => .next s
  | f :: _ =>
    if f.moving && decide (f.done < flyBytes f.c) && !(s.die (e / 16)).power.dead then .next (s.flyPiece e f)
    else .next s

/-- Tiles of the issuing cell a command names flip to fabric/1 (R28, R300). -/
def Region.flipTiles (r : Region) (now v : Nat) (ts : List Nat) : Region :=
  ts.foldl (fun r t => r.setCell v ((r.cell v).flipTag now 0 t 1)) r

/-- A node or slot has flipped one of the tiles in this tick, before the engine's turn (R28). -/
def Region.flipsLate (r : Region) (now v : Nat) (ts : List Nat) : Bool := ts.any (fun t => (r.cell v).flipLate now 0 t)

def flyTiles (r : Region) (c : Cmd) : List Nat :=
  (List.range (r.spadg * 16)).filter (fun t =>
    (flySrct c && rowsTouch (offOf c.w1.toNat) (flySs c) (flyLen c) (flyRows c) t) || flyDestTile c t)

/-- FLY_COMMAND_COMPLETE (R300): every write performed, the tiles flip, the flag is stored. -/
def State.flyComplete (s : State) (e : Nat) (f : FlyCmd) : State :=
  let r := s.region f.cue
  let s := if f.flipped then s else s.setRegion f.cue (r.flipTiles s.cyc.toNat f.vcell (flyTiles r f.c))
  let f := { f with flipped := true }
  let drop (s : State) : State := s.setFly e { q := (s.fly e).q.filter (fun g => g.seq != f.seq) }
  if f.c.w6 = 0 then drop s
  else
    match s.flagReach (sliceOf r.die (r.cell f.vcell).site) r.tenant r.die f.c.w6.toNat with
    | (.miss va cause, s) => s.putCmd e (f.hold s.cyc.toNat va cause)
    | (.viol x right, s) => s.flyViolation e f x right
    | (.ok segs, s) => drop (s.writeSegs (splitSegs segs (bytesOf 8 f.c.w7.toNat)))

def execFlyCommandComplete (s : State) : Out :=
  let e := s.actFly
  match (s.fly e).q with
  | [] => .next s
  | f :: _ =>
    if f.moving && f.done == flyBytes f.c && f.piece.isNone
        && (f.flipped || !(s.region f.cue).flipsLate s.cyc.toNat f.vcell (flyTiles (s.region f.cue) f.c)) then
      .next (s.flyComplete e f)
    else .next s

/-- FLY_PROMISE_EXPIRY (R302): every promise that CYC has reached is renewed. -/
def execFlyPromiseExpiry (s : State) : Out :=
  let e := s.actFly
  .next (s.setFly e { q := (s.fly e).q.map (FlyCmd.renew s.cyc.toNat) })

end Sys2Proof.Machine
end

