-- ==== Sys2Proof/Machine/WingsEng.lean ====
section
/-! DEFINITION. The Wings units (R303 to R311, R415 to R417, R429): the checks of a parameter block, its queues, the
pieces of REDUCE, GATHER and MVM, their completion, and WNGC (R218); and TLOAD with its copy (R183, R219). -/

namespace Sys2Proof.Machine

/-! ### Blocks (R303 to R307) -/

def blkW (b : List Word) (k : Nat) : Word := wordAt b k
def blkOp (b : List Word) : Nat := bits (blkW b 0) 7 0
def blkStack (b : List Word) : Nat := bits (blkW b 0) 15 8
/-- All of a list of words from index k is zero. -/
def zeroFrom (b : List Word) (k : Nat) : Bool := (b.drop k).all (fun w => w == 0)
def blkXfmt (b : List Word) : Fmt := fmtOf (bits (blkW b 0) 19 16)
def blkOfmt (b : List Word) : Fmt := fmtOf (bits (blkW b 0) 23 20)
def blkMod (b : List Word) : Nat := bits (blkW b 0) 31 24
def blkBatch (b : List Word) : Nat := bits (blkW b 0) 37 32 + 1
def blkK (b : List Word) : Nat := bits (blkW b 4) 15 0 + 1
def blkN (b : List Word) : Nat := bits (blkW b 4) 31 16 + 1
def blkXtile (b : List Word) : Nat := bits (blkW b 4) 43 32
def blkYtile (b : List Word) : Nat := bits (blkW b 4) 55 44
def blkXbytes (b : List Word) : Nat := blkBatch b * blkK b * fmtSize (blkXfmt b)
def blkYbytes (b : List Word) : Nat := blkBatch b * blkN b * fmtSize (blkOfmt b)
/-- REDUCE and GATHER fields. -/
def redFmt (b : List Word) : Fmt := fmtOf (bits (blkW b 0) 19 16)
def redNbuf (b : List Word) : Nat := bits (blkW b 0) 24 20
def redLen (b : List Word) : Nat := (blkW b 3).toNat
def redBuf (b : List Word) (j : Nat) : Nat := (blkW b 5).toNat + j * (blkW b 6).toNat
def gatSize (b : List Word) : Nat := 2 ^ bits (blkW b 0) 18 16
def gatOob (b : List Word) : Nat := bits (blkW b 0) 19 19
def gatCount (b : List Word) : Nat := bits (blkW b 4) 31 0
def gatNidx (b : List Word) : Nat := bits (blkW b 7) 31 0

/-- Bytes an operation moves, for leave (R309): an MVM counts multiply-adds. -/
def blkLeave (b : List Word) : Nat :=
  match blkOp b with
  | 1 => ceilDiv (blkBatch b * blkN b * blkK b) 65536
  | 2 => leaveUnits (redNbuf b * redLen b)
  | _ => leaveUnits (gatCount b * gatSize b)

def inVirt (a n : Nat) : Bool := a + n ≤ 2 ^ 56

/-- W lies below 2^56 whatever the format of its pages: the fewest bytes it can take are those of gs3 (R427; log 13). -/
def mvmFieldsOk (b : List Word) : Bool :=
  let xf := bits (blkW b 0) 19 16
  let yf := bits (blkW b 0) 23 20
  (xf == 7 || xf == 9 || xf == 10) && decide (6 ≤ yf) && decide (yf ≤ 10) && blkMod b / 16 == 0
    && bits (blkW b 0) 63 38 == 0 && inVirt (blkW b 3).toNat (blkN b * blkK b * 3 / 8)
    && blkK b % 16 == 0 && blkN b % 16 == 0 && bits (blkW b 4) 63 56 == 0
    && blkW b 5 == 0 && blkW b 6 == 0 && blkW b 7 == 0

/-- X and Y share no byte (R306). -/
def mvmDisjoint (b : List Word) : Bool :=
  decide (blkXtile b * 4096 + blkXbytes b ≤ blkYtile b * 4096) || decide (blkYtile b * 4096 + blkYbytes b ≤ blkXtile b * 4096)

def reduceFieldsOk (b : List Word) : Bool :=
  let f := bits (blkW b 0) 19 16
  let n := redLen b
  (f == 0 || f == 6) && decide (1 ≤ redNbuf b) && decide (redNbuf b ≤ 16) && bits (blkW b 0) 63 25 == 0
    && n % 4 == 0 && decide (4 ≤ n) && decide (n ≤ 2 ^ 40)
    && (blkW b 4).toNat % 4 == 0 && inVirt (blkW b 4).toNat n
    && (blkW b 5).toNat % 4 == 0 && (blkW b 6).toNat % 4 == 0 && decide (n ≤ (blkW b 6).toNat)
    && inVirt (redBuf b (redNbuf b - 1)) n && zeroFrom b 7
    && (List.range (redNbuf b)).all (fun j =>
        let d := (blkW b 4).toNat
        d == redBuf b j || decide (d + n ≤ redBuf b j) || decide (redBuf b j + n ≤ d))

def gatherFieldsOk (b : List Word) : Bool :=
  let sz := gatSize b
  decide (bits (blkW b 0) 18 16 ≤ 6) && bits (blkW b 0) 63 20 == 0
    && (blkW b 3).toNat % 4 == 0 && inVirt (blkW b 3).toNat (4 * gatCount b)
    && decide (1 ≤ gatCount b) && bits (blkW b 4) 63 32 == 0
    && (blkW b 5).toNat % sz == 0 && (blkW b 6).toNat % sz == 0
    && decide (1 ≤ gatNidx b) && bits (blkW b 7) 63 32 == 0
    && inVirt ((blkW b 5).toNat + (gatNidx b - 1) * (blkW b 6).toNat) sz
    && (blkW b 8).toNat % sz == 0 && inVirt (blkW b 8).toNat (gatCount b * sz) && zeroFrom b 9

/-- Status of a block at issue (R307): 0 when it may queue. `stack` is the unit, `named` when a WNGP names it. -/
def blkStatus (r : Region) (b : List Word) (named : Bool) : Nat :=
  let op := blkOp b
  if op = 0 ∨ 3 < op then 1
  else if (blkW b 1).toNat / 2 ^ 56 ≠ 0 ∨ (blkW b 1).toNat % 8 ≠ 0 ∨ (named = false ∧ 11 < blkStack b) then 2
  else if op = 1 then
    if !mvmFieldsOk b || !mvmDisjoint b then 2
    else if r.spadBytes < blkXtile b * 4096 + blkXbytes b ∨ r.spadBytes < blkYtile b * 4096 + blkYbytes b then 3
    else 0
  else if op = 2 then (if reduceFieldsOk b then 0 else 2)
  else if gatherFieldsOk b then 0 else 2

/-- Tiles of X and Y of an MVM block (R306). -/
def blkTiles (b : List Word) : List Nat :=
  if blkOp b = 1 then tilesOf (blkXtile b * 4096) (blkXbytes b) ++ tilesOf (blkYtile b * 4096) (blkYbytes b) else []

/-- A block that reached the unit in the same tick as `w` and ranks behind it (R308). -/
def WBlk.behind (w x : WBlk) : Bool :=
  x.made == w.made && decide (agentRank w.cue w.vcell w.task w.agent < agentRank x.cue x.vcell x.task x.agent)

def State.enqueueWings (s : State) (stack : Nat) (w : WBlk) : State :=
  let u := s.wing stack
  let w : WBlk := { w with made := s.cyc.toNat }
  if blkQueue w.words = 0 then s.setWing stack { u with qm := joinTied w.behind w u.qm }
  else s.setWing stack { u with qs := joinTied w.behind w u.qs }

/-- A block that would queue finds its queue full (R308). -/
def State.blockFull (s : State) (r : Region) (stack : Nat) (named : Bool) (b : List Word) : Bool :=
  blkStatus r b named == 0 && (s.die (dieOfStack stack)).power != .off && !s.queueRoom (wingsQueue stack (blkQueue b))

/-- Outcome of presenting a block at issue. -/
inductive Issue where
  | status (n : Nat)
  | viol (val right : Nat)
  | full
  | leave (s : State)
  | queued (s : State)

/-- Present a block to a unit (R307, R308, R309, R218): its status, its rights, its tiles, the power of its die, a
place in the queue, then leave; last it is queued. -/
def State.issueBlock (s : State) (cue v : Nat) (task : Bool) (agent stack : Nat) (named : Bool) (b : List Word)
    (who : Actor) (seq : Nat) (fire : Nat := 0) : Issue :=
  let r := s.region cue
  let st := blkStatus r b named
  if st ≠ 0 then .status st
  else if (s.tenant r.tenant).stackMask.getLsbD stack = false then .viol stack 2
  else
    match (blkTiles b).find? (fun t => ((r.cell v).tag t).toNat / 2 != 3) with
    | some t => .viol t 2
    | none =>
      if (s.die (dieOfStack stack)).power = .off then .status 4
      else if s.queueRoom (wingsQueue stack (blkQueue b)) = false then .full
      else
        match s.askLeave r.die who (blkLeave b) with
        | (false, s) => .leave s
        | (true, s) => .queued (s.enqueueWings stack { cue := cue, vcell := v, task := task, agent := agent, words := b, seq := seq, fire := fire })

/-- WNGC (R218). -/
def execWngc (d a : Reg) (s : State) : Out :=
  let ea := s.rg a
  let w := winOf ea.toNat
  if ea.toNat % 128 ≠ 0 then .next (s.trap .misalign ea)
  else if w ≠ 0x00 ∧ w ≠ 0xF0 ∧ w ≠ 0xF3 then .next (s.trap .bounds ea)
  else
    .next (s.withAccess ea 128 (.read 128) (fun g s =>
      let b := wordsOfBytes g.bytes
      if s.myRegion.ownPend s.actCell s.actSlot ≠ [] then g.wait s .own
      else
        match s.issueBlock s.actCue s.actCell true s.actSlot (blkStack b) false b s.actor 0 s.me.pc.toNat with
        | .status n => s.writeReg d (BitVec.ofNat 64 n)
        | .viol x right => s.violation x right
        | .full => g.wait s (.room (wingsQueue (blkStack b) (blkQueue b)))
        | .leave s' => g.wait s' .leave
        | .queued s' => s'.writeReg d 0))

/-! ### Starting (R305, R308, R416) -/

def State.actWings (s : State) : Nat × Nat :=
  match s.actor with
  | .wings k e => (k, e)
  | _ => (0, 0)

/-- The unit's die is at OFF or DARK, where it stops (R308). -/
def State.wingsStopped (s : State) (stack : Nat) : Bool := (s.die (dieOfStack stack)).power.dead

/-- Take the first block of an operation out of a queue. -/
def takeFirst (op : Nat) : List WBlk → Option (WBlk × List WBlk)
  | [] => none
  | w :: rest => if blkOp w.words = op then some (w, rest) else (takeFirst op rest).map (fun p => (p.1, w :: p.2))

/-- WINGS_BLOCK_START: engine 0 takes the head of the MVM queue, engine 1 the first REDUCE once the previous has
completed (R416), engines 2 to 5 the first GATHER, the lowest free engine first (R305). A
block starts in a tick after the one it queued in, when the order of that tick's arrivals stands (R308); one that waits behind a
full queue is not in it yet. -/
def execWingsBlockStart (s : State) : Out :=
  let (k, e) := s.actWings
  let u := s.wing k
  if s.wingsStopped k || Tab.has u.running e then .next s
  else if e = 0 then
    match u.qm with
    | [] => .next s
    | w :: rest =>
      if w.made < s.cyc.toNat then .next (s.setWing k { u with qm := rest, running := Tab.set u.running 0 w }) else .next s
  else
    let free := e = 1 ∨ (e ≤ 5 ∧ (List.range (e - 2)).all (fun j => Tab.has u.running (j + 2)))
    match takeFirst (if e = 1 then 2 else 3) (u.qs.take 16) with
    | some (w, rest) =>
      if free ∧ w.made < s.cyc.toNat then .next (s.setWing k { u with qs := rest ++ u.qs.drop 16, running := Tab.set u.running e w }) else .next s
    | none => .next s

/-! ### Pieces (R429) -/

def State.putBlk (s : State) (k e : Nat) (w : WBlk) : State :=
  let u := s.wing k
  s.setWing k { u with running := Tab.set u.running e w }

def State.wingsViolation (s : State) (k e : Nat) (w : WBlk) (val right : Nat) : State :=
  (s.putBlk k e { w with stopped := true }).engineViolation w.cue w.vcell (if w.task then w.agent else 0)
    (if w.task then noEntry else w.agent) val right (blkOp w.words) w.fire

/-- One bucket request of a unit for a global range: it is reached, then drawn, then used. -/
def State.wingsAccess (s : State) (k e : Nat) (w : WBlk) (va n : Nat) (wr : Bool) (use : List Seg → State → State) : State :=
  let r := s.region w.cue
  match s.reach (wingsUnit k) r.tenant (dieOfStack k) va n (!wr) wr with
  | (.miss a cause, s) => s.putBlk k e (w.hold s.cyc.toNat a cause)
  | (.viol x right, s) => s.wingsViolation k e w x right
  | (.ok segs, s) =>
    match s.draw r.tenant (.wings k e) [n] with
    | (false, s) => s
    | (true, s) => use segs s

/-- A REDUCE element over its buffers (R304, R417). -/
def reduceElem (f : Fmt) (vals : List Lane) : Lane :=
  (pairTree (fun a b => if f = .f32 then pairAdd32 a b else a + b) 4 (vals.map some)).getD 0

/-- The bytes of one piece of DST from the pieces of the buffers, n bytes each. -/
def reducePiece (f : Fmt) (nbuf n : Nat) (buf : List Byte) : List Byte :=
  (List.range (n / 4)).flatMap (fun i =>
    bytesOf 4 (reduceElem f ((List.range nbuf).map (fun j =>
      BitVec.ofNat 32 (natOf ((buf.drop (j * n + 4 * i)).take 4))))).toNat)

def State.reduceStep (s : State) (k e : Nat) (w : WBlk) : State :=
  let b := w.words
  let n := min 64 (redLen b - w.pos)
  let j := w.buf.length / n
  if j < redNbuf b then
    s.wingsAccess k e w (redBuf b j + w.pos) n false (fun segs s =>
      s.putBlk k e { w with buf := w.buf ++ s.readSegs segs })
  else
    s.wingsAccess k e w ((blkW b 4).toNat + w.pos) n true (fun segs s =>
      (s.writeSegs (splitSegs segs (reducePiece (redFmt b) (redNbuf b) n w.buf))).putBlk k e
        { w with pos := w.pos + n, buf := [], finished := decide (redLen b ≤ w.pos + n) })

/-- GATHER: indices by sixteens, then the element's read and its write (R305, R429). -/
def State.gatherStep (s : State) (k e : Nat) (w : WBlk) : State :=
  let b := w.words
  let i := w.pos
  let sz := gatSize b
  if i % 16 = 0 ∧ w.buf.isEmpty then
    let n := 4 * min 16 (gatCount b - i)
    s.wingsAccess k e w ((blkW b 3).toNat + 4 * i) n false (fun segs s => s.putBlk k e { w with buf := s.readSegs segs })
  else
    let idx := natOf ((w.buf.drop (4 * (i % 16))).take 4)
    match w.held with
    | some bs =>
      s.wingsAccess k e w ((blkW b 8).toNat + i * sz) sz true (fun segs s =>
        (s.writeSegs (splitSegs segs bs)).putBlk k e
          { w with pos := i + 1, held := none, finished := decide (gatCount b ≤ i + 1),
                   buf := if (i + 1) % 16 = 0 then [] else w.buf })
    | none =>
      if gatNidx b ≤ idx then
        if gatOob b = 0 then s.putBlk k e { w with status := 5, finished := true }
        else s.putBlk k e { w with held := some (List.replicate sz 0) }
      else
        s.wingsAccess k e w ((blkW b 5).toNat + idx * (blkW b 6).toNat) sz false (fun segs s =>
          s.putBlk k e { w with held := some (s.readSegs segs) })

/-! #### MVM -/

/-- A piece of an MVM: X from tiles, W from global memory, Y to tiles. -/
inductive MvmPiece where
  | x (off n : Nat)
  | w (va n : Nat)
  | y (off n : Nat)
  deriving DecidableEq, Repr

def MvmPiece.reads : MvmPiece → Bool
  | .y _ _ => false
  | _ => true

/-- The page of WBASE, as a walk finds it: its format and geometry. -/
def State.weightPage (s : State) (ten va : Nat) : Option (Fmt × Nat) :=
  match walk s ten va with
  | .leaf _ e _ => some (fmtOf (leafFmt e), leafGeom e)
  | _ => none

/-- The first page of W whose FMT or GEOM differs from that of WBASE's page (R146, R177). -/
def State.mixedPage (s : State) (ten wb ext : Nat) (f : Fmt) (geom : Nat) : Option Nat :=
  ((List.range (ext / 65536 + 2)).map (fun k => (wb / 65536 + k) * 65536)).find? (fun va =>
    decide (wb < va) && decide (va < wb + ext) && (match s.weightPage ten va with
      | some p => !(p.1 == f && p.2 == geom)
      | none => false))

/-- The pieces of an MVM: W in the order of R162, cut at the 64-byte boundaries of its address (R429). -/
def mvmPieces (f : Fmt) (geom : Nat) (b : List Word) (call : Bool) : List MvmPiece :=
  let ws := (mergeRuns (0, 0) (weightRuns f geom (blkN b) (blkK b))).flatMap (fun p =>
    (pieces64 ((blkW b 3).toNat + p.1) p.2).map (fun q => MvmPiece.w q.1 q.2))
  if call then ws
  else (pieces64 (blkXtile b * 4096) (blkXbytes b)).map (fun q => .x q.1 q.2) ++ ws
    ++ (pieces64 (blkYtile b * 4096) (blkYbytes b)).map (fun q => .y q.1 q.2)

/-- A byte read through a list of segments that starts at a page offset. -/
def segsByte (m : Mem) : List Seg → Nat → Byte
  | [], _ => 0
  | g :: gs, i => if i < g.len then memGet m (g.key + i) else segsByte m gs (i - g.len)

/-- Rows of Y, vector by vector, as lanes of the output format (R177). -/
def mvmRows (f : Fmt) (geom : Nat) (rd : Nat → Byte) (n k : Nat) (sr : List (BitVec 16)) (xf yf : Fmt) (mod : Nat)
    (xs : List (List Lane)) : List (List Lane) :=
  xs.map (fun x =>
    let xv := actValues xf x
    (List.range n).map (fun row =>
      drainCvt yf (ctlOf mod) (mvmAcc f geom rd k (exOfBf16 (sr.getD (row % 32) 0x3F80).toNat) xv row)))

/-- Scale values of an MVM block, row j at byte 64 + 2j (R306). -/
def blkSr (b : List Word) : List (BitVec 16) :=
  (List.range 32).map (fun j => (blkW b (8 + j / 4)).extractLsb' (16 * (j % 4)) 16)

/-- The vectors of X: those a call brought, or those that stand in the tiles (R306). -/
def State.blkInputs (s : State) (w : WBlk) : List (List Lane) :=
  let b := w.words
  let r := s.region w.cue
  let n := blkK b * fmtSize (blkXfmt b)
  let bs := s.read (poolKey r.die (r.cell w.vcell).site (r.taskBytes + blkXtile b * 4096)) (blkXbytes b)
  if w.call then w.x else (List.range (blkBatch b)).map (fun i => lanesFromBytes (blkXfmt b) ((bs.drop (i * n)).take n))

/-- The row scale values of a call or a block. -/
def WBlk.scales (w : WBlk) : List (BitVec 16) := if w.call then w.sr else blkSr w.words

/-- Compute Y when every byte of W has been read (R177). -/
def State.mvmCompute (s : State) (k e : Nat) (w : WBlk) (f : Fmt) (geom : Nat) (segs : List Seg) : State :=
  let b := w.words
  let rows := mvmRows f geom (segsByte s.mem segs) (blkN b) (blkK b) w.scales (blkXfmt b) (blkOfmt b) (blkMod b) (s.blkInputs w)
  s.putBlk k e { w with rows := rows, res := rows.flatMap (bytesFromLanes (blkOfmt b)), pos := w.pos + 1,
                        finished := w.call }

/-- The page of WBASE is reached and W checked against its format: where the pages of W are not all of one weight format that
W suits, or W runs past 2^56, the block ends with status 2 (log 13). -/
def State.mvmGeo (s : State) (k e : Nat) (w : WBlk) : State :=
  let b := w.words
  let ten := (s.region w.cue).tenant
  let wb := (blkW b 3).toNat
  match s.reach (wingsUnit k) ten (dieOfStack k) wb 1 true false with
  | (.miss a cause, s) => s.putBlk k e (w.hold s.cyc.toNat a cause)
  | (.viol x right, s) => s.wingsViolation k e w x right
  | (.ok segs, s) =>
    let leaf := (segs.head?.bind (fun g => g.leaf)).getD 0
    let f := fmtOf (leafFmt leaf)
    let geom := leafGeom leaf
    let ext := weightExtent f geom (blkN b) (blkK b)
    if weightCheck f geom wb (blkK b) ≠ 0 ∨ 2 ^ 56 < wb + ext ∨ (s.mixedPage ten wb ext f geom).isSome then
      s.putBlk k e { w with status := 2, finished := true }
    else s.putBlk k e { w with geo := some (leafFmt leaf, geom) }

/-- One piece of X or Y: the bytes go between tiles and the unit. -/
def State.mvmTile (s : State) (k e : Nat) (w : WBlk) (off n : Nat) (use : List Seg → State → State) : State :=
  let r := s.region w.cue
  match s.tileReach r w.vcell off n 3 with
  | .ok segs =>
    match s.draw r.tenant (.wings k e) [n] with
    | (false, s) => s
    | (true, s) => use segs s
  | .viol t right => s.wingsViolation k e w t right
  | .miss _ _ => s

/-- An MVM piece: X, then W in the order of R162, then the computation, then Y. -/
def State.mvmStep (s : State) (k e : Nat) (w : WBlk) : State :=
  let b := w.words
  let r := s.region w.cue
  let wb := (blkW b 3).toNat
  match w.geo with
  | none => s.mvmGeo k e w
  | some (fmt, geom) =>
    let f := fmtOf fmt
    let ps := mvmPieces f geom b w.call
    let nr := (ps.filter MvmPiece.reads).length
    if w.pos = nr then
      match s.reach (wingsUnit k) r.tenant (dieOfStack k) wb (weightExtent f geom (blkN b) (blkK b)) true false with
      | (.miss a cause, s) => s.putBlk k e (w.hold s.cyc.toNat a cause)
      | (.viol x right, s) => s.wingsViolation k e w x right
      | (.ok segs, s) => s.mvmCompute k e w f geom segs
    else
      match ps[if w.pos < nr then w.pos else w.pos - 1]? with
      | none => s.putBlk k e { w with finished := true }
      | some (.w va n) => s.wingsAccess k e w va n false (fun _ s => s.putBlk k e { w with pos := w.pos + 1 })
      | some (.x off n) => s.mvmTile k e w off n (fun _ s => s.putBlk k e { w with pos := w.pos + 1 })
      | some (.y off n) => s.mvmTile k e w off n (fun segs s =>
          (s.writeSegs (splitSegs segs ((w.res.drop (off - blkYtile b * 4096)).take n))).putBlk k e
            { w with pos := w.pos + 1, finished := decide (ps.length ≤ w.pos) })

def WBlk.moving (w : WBlk) : Bool := !w.stopped && w.withheld.isNone

/-- WINGS_PIECE (R429). -/
def execWingsPiece (s : State) : Out :=
  let (k, e) := s.actWings
  match Tab.get ((s.wing k).running.map (fun p => (p.1, some p.2))) e none with
  | none => .next s
  | some w =>
    if s.wingsStopped k || !w.moving || w.finished then .next s
    else
      match blkOp w.words with
      | 1 => .next (s.mvmStep k e w)
      | 2 => .next (s.reduceStep k e w)
      | _ => .next (s.gatherStep k e w)

/-! ### Completion (R300, R308) -/

/-- The issuer learns of the end: a WNGP node gets its status token, an MVM node its rows (R157, R176). -/
def Region.blockDone (r : Region) (w : WBlk) : Region :=
  if w.task then r
  else
    let n := r.node w.agent
    if w.call then
      r.setNode w.agent { n with op := { n.op with out := w.rows.flatMap (fun row => (chunk16 row).map Token.data),
                                                   flag := false } }
    else r.setNode w.agent { n with results := Tab.set n.results w.seq [.data [BitVec.ofNat 32 w.status]] }

/-- WINGS_BLOCK_COMPLETE: the tiles flip, the flag is stored, the issuer learns of it. A GATHER that stopped writes
no flag (R305). -/
def State.wingsComplete (s : State) (k e : Nat) (w : WBlk) : State :=
  let b := w.words
  let r := s.region w.cue
  let s := if w.flipped || w.call then s else s.setRegion w.cue (r.flipTiles s.cyc.toNat w.vcell (blkTiles b))
  let w := { w with flipped := true }
  let drop (s : State) : State :=
    let u := s.wing k
    (s.setWing k { u with running := Tab.del u.running e }).setRegion w.cue ((s.region w.cue).blockDone w)
  if w.call || (blkW b 1) == 0 || w.status != 0 then drop s
  else
    match s.flagReach (wingsUnit k) r.tenant (dieOfStack k) (blkW b 1).toNat with
    | (.miss a cause, s) => s.putBlk k e (w.hold s.cyc.toNat a cause)
    | (.viol x right, s) => s.wingsViolation k e w x right
    | (.ok segs, s) => drop (s.writeSegs (splitSegs segs (bytesOf 8 (blkW b 2).toNat)))

def execWingsBlockComplete (s : State) : Out :=
  let (k, e) := s.actWings
  match Tab.get ((s.wing k).running.map (fun p => (p.1, some p.2))) e none with
  | none => .next s
  | some w => if w.finished && w.moving && !s.wingsStopped k
        && (w.flipped || w.call || !(s.region w.cue).flipsLate s.cyc.toNat w.vcell (blkTiles w.words)) then .next (s.wingsComplete k e w) else .next s

/-! ### TLOAD (R183, R219) -/

/-- Absolute Table Store slot of a slot relative to TSBASE. -/
def State.absSlot (s : State) (rel : Nat) : Nat := s.myTenant.tsbase + rel

/-- The TEVAL copies of a cell bound to a slot (R183). -/
def Region.boundCopies (r : Region) (v rel : Nat) : List (Nat × Nat) :=
  ((List.range 16).filterMap (r.elemOwner v)).filter (fun p =>
    r.opcode p.1 == 0x92 && ((r.node p.1).elem p.2).tbind.toNat == 16 + rel)

/-- BSEL of some copies. -/
def Region.bselsOf (r : Region) (ps : List (Nat × Nat)) : List Bool := ps.map (fun p => ((r.node p.1).elem p.2).bsel)

/-- Front banks of a slot: those its bound copies select, or the bank last front (R183). -/
def Region.frontBanks (r : Region) (v rel : Nat) : List Nat :=
  match r.bselsOf (r.boundCopies v rel) with
  | [] => [Tab.get (r.cell v).front rel 0]
  | bs => (if bs.contains false then [0] else []) ++ (if bs.contains true then [1] else [])

/-- TLOAD's slot, bank and earlier copy (R219); `k` goes on with the bank that is not the front. -/
def State.tloadSlot (s : State) (b : Reg) (g : Got) (k : Nat → State → State) : State :=
  let rel := (s.rg b).toNat
  let ten := s.myTenant
  if ten.tslim - ten.tsbase < rel then s.violation rel 2
  else
    match s.myRegion.frontBanks s.actCell rel with
    | [f] => if s.myCell.tloads.any (fun t => t.slot == rel) then g.wait s (.copy rel) else k (1 - f) s
    | _ => s.trap .bounds (s.rg b)

/-- The copy of an image begins (R219). -/
def State.beginCopy (s : State) (rel bank : Nat) (bs : List Byte) : State :=
  let c := s.myCell
  (s.setMyCell { c with tloads := c.tloads ++ [⟨rel, bank, bs, s.actSlot⟩] }).advance

/-- TLOAD (R219): the image's alignment and window, its reads (R198), the slot, the bank, then an earlier copy. -/
def execTload (a b : Reg) (s : State) : Out :=
  let ea := s.rg a
  let w := winOf ea.toNat
  let rel := (s.rg b).toNat
  let job : MemJob := .read 4096
  if ea.toNat % 64 ≠ 0 then .next (s.trap .misalign ea)
  else if w ≠ 0x00 ∧ w ≠ 0xF0 then .next (s.trap .bounds ea)
  else
    match s.fetchOf ea.toNat job with
    | some f =>
      if s.fetched f then
        .next (s.dropFetches.tloadSlot b { fetch := [f] } (fun bank s => s.beginCopy rel bank f.bytes))
      else .next (s.wait .answer)
    | none =>
      match checkAccess s ea 4096 64 true false with
      | (.trap c v, s) => .next (s.trap c v)
      | (.viol x right, s) => .next (s.violation x right)
      | (.wait w, s) => .next (s.wait w)
      | (.ok segs, s) =>
        .next (s.tloadSlot b {} (fun bank s => s.askAccess ea segs job (fun g s => s.beginCopy rel bank g.bytes)))

/-- TLOAD_COPY_COMPLETE (R219): the image stands in its bank. Which lines a read during the copy sees as copied the spec leaves
open line by line; here the whole image is written at the copy's end, so that such a read sees every line as it was (DESIGN
CHOICE, log 34). -/
def execTloadCopyComplete (s : State) : Out :=
  let r := s.myRegion
  let c := s.myCell
  match c.tloads.find? (fun t => t.slot == s.actSlot) with
  | none => .next s
  | some t =>
    let base := (s.tenant r.tenant).tsbase
    let s := s.write (tableKey r.die c.site ((base + t.slot) * 8192 + t.bank * 4096)) t.bytes
    .next (s.setMyCell { c with tloads := c.tloads.filter (fun q => q.slot != t.slot) })

end Sys2Proof.Machine
end

