-- ==== Sys2Proof/Machine/NodeOps.lean ====
section
/-! DEFINITION. What every node firing shares (R12 to R17, R32, R81 to R85, R374): the tokens in its operand slots,
the completion of a firing with its pipeline registers, what holds it, its faults and violations, and the
element-wise nodes as one operation. -/

namespace Sys2Proof.Machine

def State.actEntry (s : State) : Nat :=
  match s.actor with
  | .node _ e => e
  | _ => 0

/-! ### Operands -/

/-- An operand is named: a channel feeds it, from an entry or from a task's output end (R63, R239). -/
def Region.named (r : Region) (e k : Nat) : Bool := (r.chanTo (.entry e k)).isSome
def Region.namedOps (r : Region) (e : Nat) : List Nat := [0, 1, 2].filter (fun k => r.named e k)

/-- The token in an operand slot: a faulting token taken from it first (R382), else the head of its channel. -/
def Region.opHead (r : Region) (e k : Nat) : Option Token :=
  match (r.node e).faulting.find? (fun p => p.1 == k) with
  | some p => some p.2
  | none => r.head (.entry e k)

/-- Every access that precedes a firing on the tokens of operands ks is performed (R148); what precedes a faulting token
was performed before its region froze. -/
def Region.preceded (r : Region) (e : Nat) (ks : List Nat) : Bool :=
  ks.all (fun k => (r.node e).faulting.any (fun p => p.1 == k) ||
    ((r.chanTo (.entry e k)).map (fun c => !(c.pre.headD []).any r.pending)).getD true)

/-- What precedes a firing on the tokens of operands ks (R148). -/
def Region.headsPre (r : Region) (e : Nat) (ks : List Nat) : List Nat :=
  (ks.flatMap (fun k => ((r.chanTo (.entry e k)).map (fun c => c.pre.headD [])).getD [])).eraseDups.filter r.pending

/-- Take the token in an operand slot. -/
def Region.opTake (r : Region) (e k : Nat) : Region :=
  let n := r.node e
  match n.faulting.find? (fun p => p.1 == k) with
  | some p => r.setNode e { n with faulting := n.faulting.erase p }
  | none => r.take (.entry e k)

/-- A firing takes the tokens of operands ks. -/
def Region.opTakeAll (r : Region) (e : Nat) (ks : List Nat) : Region := ks.foldl (fun r k => r.opTake e k) (r.forget e)

def Token.isData : Token → Bool
  | .data _ => true
  | _ => false
def Token.dataLanes : Token → List Lane
  | .data ls => ls
  | _ => []

/-- The lanes of the DATA token in an operand slot. -/
def Region.opData (r : Region) (e k : Nat) : Option (List Lane) :=
  match r.opHead e k with
  | some (.data ls) => some ls
  | _ => none

/-- Every named operand of a list holds DATA (R12). -/
def Region.allData (r : Region) (e : Nat) (ks : List Nat) : Bool := ks.all (fun k => (r.opData e k).isSome)

/-! ### Outputs -/

/-- Room for n tokens on each of the node's ports, beside what its accesses still owe (R12, R144). -/
def Region.owedTokens (r : Region) (e : Nat) : Nat := (r.accs.filter (fun a => a.entry == e)).length
def Region.outRoom (r : Region) (e n : Nat) : Bool :=
  [0, 1].all (fun p => r.room (.entry e p) (n + r.owedTokens e))
def Region.portRoom (r : Region) (e p n : Nat) : Bool := r.room (.entry e p) n

/-- Give tokens on a port in order. -/
def Region.out (r : Region) (e p : Nat) (ts : List Token) : Region := r.giveAll (.entry e p) ts (r.preOf e)

/-- Not firing: the cause is a stall priority of R14 less one. -/
def State.hold (s : State) (cause : Nat) : State :=
  let r := s.myRegion
  let e := s.actEntry
  s.setMyRegion (r.setNode e { r.node e with cause := cause })

/-- The first of some holds, in the order of R14, that stands; else the firing goes on. -/
def State.held (s : State) (hs : List (Bool × Nat)) (k : State → State) : State :=
  match hs.find? (fun h => h.1) with
  | some h => s.hold h.2
  | none => k s

/-- Last of all a firing needs room for n tokens on each port (R12); a full channel has the lowest priority of the causes
that hold it (R14). -/
def State.roomed (s : State) (n : Nat) (k : State → State) : State :=
  if s.myRegion.outRoom s.actEntry n = false then s.hold 7 else k s

/-! ### Firing -/

/-- Width of a WID code in lanes (R61). -/
def lanesOfWid (w : BitVec 3) : Nat := 2 ^ w.toNat

/-- Lanes as a pipeline register, lanes beyond the token 0 (R16). -/
def pReg (ls : List Lane) : Vector Lane 16 := Vector.ofFn (fun i => ls.getD i.val 0)

/-- P1 to P6 hold the result of the firing's token (R16, R82). -/
def Node.setP (n : Node) (copy : Nat) (ps : List (List Lane)) : Node :=
  let el := n.elem copy
  n.setElem copy { el with p := Vector.ofFn (fun i => pReg (ps.getD i.val (ps.getLastD []))) }

/-- The copy a firing index is dealt to (R32). -/
def copyOf (n : NodeF) (i : Nat) : Nat := i % nodeRep n

/-- The node counts a firing (R17) and is not held in this tick. -/
def Node.count (n : Node) : Node := { n with fire := n.fire + 1, fired := true, cause := 6 }

/-- A firing takes its operands, gives its tokens and counts. -/
def State.fire (s : State) (n : NodeF) (ks : List Nat) (gives : List (Nat × Token)) (ps : List (List Lane)) : State :=
  let e := s.actEntry
  let r := s.myRegion.opTakeAll e ks
  let r := gives.foldl (fun r g => r.out e g.1 [g.2]) r
  let nd := r.node e
  let nd := if isSbox (r.opcode e) then nd else nd.setP (copyOf n nd.fire) ps
  s.setMyRegion (r.setNode e nd.count)

/-- The virtual cell of a copy (R32). -/
def Region.copyCell (r : Region) (e copy : Nat) : Nat :=
  (r.cellOf.getD e (0, 0)).1 + (if nodeRep (r.fields e) ≤ 16 then 0 else copy / 16)

/-- A fault or violation of a firing (R374, R375): its tokens are taken and kept, and the region freezes from its
cell. -/
def State.nodeStop (s : State) (n : NodeF) (code sub : Nat) (ks : List Nat) (aux v0 v1 : Nat) : State :=
  let c := s.actCue
  let e := s.actEntry
  let r := s.myRegion
  let nd := r.node e
  let copy := copyOf n nd.fire
  let kept := ks.filterMap (fun k => (r.opHead e k).map (fun t => (k, t)))
  let r' := r.opTakeAll e ks
  let r' := r'.setNode e { r'.node e with faulting := kept ++ (r'.node e).faulting }
  let cell := r.copyCell e copy
  (s.setMyRegion r').startFreeze c cell 2 true
    (mkRec code sub r.tenant r.die c cell 0 copy e aux nd.fire v0 v1 s.cyc.toNat)

/-- SUB codes of R373. -/
inductive NFault where
  | streamMismatch | bounds | misalign | pageFmt | wfmt | ringBroken | sinkFull | swapOrder | stepField
  | csumMismatch | tableHdr | tableUnbound | tableDomain | tableGap | flyCmd | recvWidth | memUe
  deriving DecidableEq, Repr

def nfaultCode : NFault → Nat
  | .streamMismatch => 1 | .bounds => 2 | .misalign => 3 | .pageFmt => 4 | .wfmt => 5 | .ringBroken => 6
  | .sinkFull => 7 | .swapOrder => 8 | .stepField => 9 | .csumMismatch => 10 | .tableHdr => 11
  | .tableUnbound => 12 | .tableDomain => 13 | .tableGap => 14 | .flyCmd => 15 | .recvWidth => 16 | .memUe => 17

def State.nodeFault (s : State) (n : NodeF) (f : NFault) (ks : List Nat) (aux v0 v1 : Nat) : State :=
  s.nodeStop n 0x01 (nfaultCode f) ks aux v0 v1
def State.nodeViolation (s : State) (n : NodeF) (ks : List Nat) (v0 right : Nat) : State :=
  s.nodeStop n 0x02 0 ks 0 v0 right

/-- A firing that needs DATA on every named operand (R12). -/
def State.onData (s : State) (k : Region → Nat → List Nat → State) : State :=
  let e := s.actEntry
  let r := s.myRegion
  let ks := r.namedOps e
  if r.allData e ks = false then s.hold 6 else k r e ks

/-- A firing that needs DATA on every named operand and free slots on every output, and nothing else (R12). -/
def State.dataFiring (s : State) (room : Nat) (k : Region → Nat → List Nat → State) : State :=
  s.onData (fun r e ks => s.roomed room (fun _ => k r e ks))

/-- Lanes of operand k, none where it is absent. -/
def Region.lanesAt (r : Region) (e k : Nat) : List Lane := (r.opData e k).getD []

/-- An element-wise node (R81): its output token is a function of the lanes of its operands. -/
def State.laneNode (s : State) (n : NodeF) (f : List Lane → List Lane → List Lane → List Lane) : State :=
  s.dataFiring 1 (fun r e ks =>
    let out := f (r.lanesAt e 0) (r.lanesAt e 1) (r.lanesAt e 2)
    s.fire n ks [(0, .data out)] [out])

def State.lane1 (s : State) (n : NodeF) (f : Lane → Lane) : State := s.laneNode n (fun a _ _ => a.map f)
def State.lane2 (s : State) (n : NodeF) (f : Lane → Lane → Lane) : State :=
  s.laneNode n (fun a b _ => List.zipWith f a b)
/-- Three operands, lane by lane. -/
def zip3 (f : Lane → Lane → Lane → Lane) : List Lane → List Lane → List Lane → List Lane
  | a :: as, b :: bs, c :: cs => f a b c :: zip3 f as bs cs
  | _, _, _ => []
def State.lane3 (s : State) (n : NodeF) (f : Lane → Lane → Lane → Lane) : State := s.laneNode n (zip3 f)

/-- The node's format and controls. -/
def nFmt (n : NodeF) : Fmt := fmtOf n.fmt.toNat
def nCtl (n : NodeF) : Ctl := ctlOf n.mod.toNat
/-- MOD[7:4]. -/
def nModHi (n : NodeF) : Nat := n.mod.toNat / 16
def nExt (n : NodeF) (j : Nat) : Word := wordAt n.ext j
def nXcnt (n : NodeF) : Nat := n.ext.length

/-! ### Loop counters (R17) -/

structure Loops where
  c0 : Nat
  c1 : Nat
  c2 : Nat
  c3 : Nat
  wrap : Bool
  deriving DecidableEq, Repr

def loopsAt (i l0 l1 l2 l3 : Nat) : Loops :=
  ⟨i % l0, i / l0 % l1, i / (l0 * l1) % l2, i / (l0 * l1 * l2) % l3, (i + 1) % (l0 * l1 * l2 * l3) == 0⟩

/-- A field read as two's complement. -/
def sbits (w : Word) (hi lo : Nat) : Int :=
  let v := bits w hi lo
  if 2 ^ (hi - lo) ≤ v then (v : Int) - (2 ^ (hi - lo + 1) : Nat) else v

/-! ### Ladder scopes -/

/-- The scope the ladder binds to a node's SCOPE rung (R30, R31). -/
def Region.scopeOf (r : Region) (n : NodeF) : Nat := r.ladder n.scope.toNat

end Sys2Proof.Machine
end

