-- ==== Sys2Proof/Machine/NodeAlu.lean ====
section
/-! DEFINITION. Element-wise nodes, conversion and scaling, lane reductions, lane operations and window reductions
(R80 to R111). -/

namespace Sys2Proof.Machine

/-! ### Arithmetic (R87 to R90) -/

def execAddN (n : NodeF) (s : State) : Out := .next (s.lane2 n (addLane (nFmt n) (nCtl n)))
def execSubN (n : NodeF) (s : State) : Out := .next (s.lane2 n (subLane (nFmt n) (nCtl n)))
def execMulN (n : NodeF) (s : State) : Out := .next (s.lane2 n (mulLane (nFmt n) (nCtl n)))
def execDivN (n : NodeF) (s : State) : Out := .next (s.lane2 n (divLane (nFmt n) (nCtl n)))
def execFmaN (n : NodeF) (s : State) : Out := .next (s.lane3 n (fmaLane (nFmt n) (nCtl n)))
def execFmsN (n : NodeF) (s : State) : Out := .next (s.lane3 n (fmsLane (nFmt n) (nCtl n)))
def execFnmaN (n : NodeF) (s : State) : Out := .next (s.lane3 n (fnmaLane (nFmt n) (nCtl n)))
def execSqrtN (n : NodeF) (s : State) : Out := .next (s.lane1 n (sqrtLane (nFmt n) (nCtl n)))
def execNegN (n : NodeF) (s : State) : Out := .next (s.lane1 n (negLane (nFmt n)))
def execAbsN (n : NodeF) (s : State) : Out := .next (s.lane1 n (absLane (nFmt n)))
def execMinN (n : NodeF) (s : State) : Out := .next (s.lane2 n (minLane (nFmt n)))
def execMaxN (n : NodeF) (s : State) : Out := .next (s.lane2 n (maxLane (nFmt n)))
def execMulhN (n : NodeF) (s : State) : Out := .next (s.lane2 n (mulhLane (nFmt n)))
def execRemN (n : NodeF) (s : State) : Out := .next (s.lane2 n (remLane (nFmt n)))
def execCopysignN (n : NodeF) (s : State) : Out := .next (s.lane2 n (copysignLane (nFmt n)))
def execAbsdiffN (n : NodeF) (s : State) : Out := .next (s.lane2 n (absdiffLane (nFmt n) (nCtl n)))
def execClampN (n : NodeF) (s : State) : Out := .next (s.lane3 n (clampLane (nFmt n)))

/-! ### Compare, select and bit operations (R91 to R95) -/

def execCmpeqN (n : NodeF) (s : State) : Out := .next (s.lane2 n (relEq (nFmt n)))
def execCmpneN (n : NodeF) (s : State) : Out := .next (s.lane2 n (relNe (nFmt n)))
def execCmpltN (n : NodeF) (s : State) : Out := .next (s.lane2 n (relLt (nFmt n)))
def execCmpleN (n : NodeF) (s : State) : Out := .next (s.lane2 n (relLe (nFmt n)))
def execCmpgtN (n : NodeF) (s : State) : Out := .next (s.lane2 n (relGt (nFmt n)))
def execCmpgeN (n : NodeF) (s : State) : Out := .next (s.lane2 n (relGe (nFmt n)))
def execCmpunN (n : NodeF) (s : State) : Out := .next (s.lane2 n (relUn (nFmt n)))
def execAndN (n : NodeF) (s : State) : Out := .next (s.lane2 n (andLane (nFmt n)))
def execOrN (n : NodeF) (s : State) : Out := .next (s.lane2 n (orLane (nFmt n)))
def execXorN (n : NodeF) (s : State) : Out := .next (s.lane2 n (xorLane (nFmt n)))
def execAndnN (n : NodeF) (s : State) : Out := .next (s.lane2 n (andnLane (nFmt n)))
def execShlN (n : NodeF) (s : State) : Out := .next (s.lane2 n (shlLane (nFmt n)))
def execShrN (n : NodeF) (s : State) : Out := .next (s.lane2 n (shrLane (nFmt n)))
def execShraN (n : NodeF) (s : State) : Out := .next (s.lane2 n (shraLane (nFmt n)))
def execRotlN (n : NodeF) (s : State) : Out := .next (s.lane2 n (rotlLane (nFmt n)))
def execClassN (n : NodeF) (s : State) : Out := .next (s.lane1 n (classLane (nFmt n)))
def execNotN (n : NodeF) (s : State) : Out := .next (s.lane1 n (notLane (nFmt n)))
def execPopcN (n : NodeF) (s : State) : Out := .next (s.lane1 n (popcLane (nFmt n)))
def execClzN (n : NodeF) (s : State) : Out := .next (s.lane1 n (clzLane (nFmt n)))
def execCtzN (n : NodeF) (s : State) : Out := .next (s.lane1 n (ctzLane (nFmt n)))
def execBrevN (n : NodeF) (s : State) : Out := .next (s.lane1 n (brevLane (nFmt n)))
/-- MOV copies lane bits (R93). -/
def execMovN (n : NodeF) (s : State) : Out := .next (s.lane1 n id)
/-- SEL tests all 32 bits of C (R93). -/
def execSelN (n : NodeF) (s : State) : Out := .next (s.lane3 n selLane)
/-- FLOOR, CEIL and TRUNC round in their own direction; RINT under RM with FTZ (R95). -/
def execFloorN (n : NodeF) (s : State) : Out := .next (s.lane1 n (integralLane (nFmt n) ⟨.rdn, false, false⟩))
def execCeilN (n : NodeF) (s : State) : Out := .next (s.lane1 n (integralLane (nFmt n) ⟨.rup, false, false⟩))
def execTruncN (n : NodeF) (s : State) : Out := .next (s.lane1 n (integralLane (nFmt n) ⟨.rtz, false, false⟩))
def execRintN (n : NodeF) (s : State) : Out := .next (s.lane1 n (integralLane (nFmt n) (nCtl n)))

/-! ### Conversion and scaling (R96 to R102) -/

def execCvtN (n : NodeF) (s : State) : Out :=
  .next (s.lane1 n (cvtLane (fmtOf (nModHi n)) (nFmt n) (nCtl n)))

/-- Source formats 0 f32, 1 bf16, 2 f16 of QUANT and TEVAL. -/
def srcFmt (k : Nat) : Fmt := match k with
  | 0 => .f32
  | 1 => .bf16
  | _ => .f16

/-- QMAX of a destination without an override (R97): its largest finite value, as an f32 lane. -/
def defaultQmax (f : Fmt) : Lane :=
  if fmtIsFloat f then widenF32 f (BitVec.ofNat 32 (maxFinite f)) else rne32 (ofIntEx (intMax f))

/-- The larger of two magnitudes; a NaN absorbs. -/
def exMax (a b : Ex) : Ex :=
  match a, b with
  | .nan, _ | _, .nan => .nan
  | _, _ => if Ex.cmp a b = .lt then b else a

/-- Round an exact value to a lane of a format (R44, R47). -/
def putEx (f : Fmt) (c : Ctl) (x : Ex) : Lane :=
  if fmtIsFloat f then roundLane f c x else placeInt f (exToInt (intMin f) (intMax f) c.rm x)

/-- QUANT of one row (R98): its lanes and the scale. The controls govern only the rounding of the products: the row is read as
it is, its subnormals too (R97, R411, R412). -/
def quantRow (sf df : Fmt) (c : Ctl) (qmax : Lane) (ls : List Lane) : List Lane × Lane :=
  let xs := ls.map (laneF sf .plain)
  let m := (xs.map Ex.abs).foldl exMax (.fin false 0 0)
  match m with
  | .nan => (ls.map (fun _ => putEx df c .nan), nanLane .f32)
  | .fin _ 0 _ => (ls.map (fun _ => placeBits df 0), 0)
  | _ =>
    let inv := exOf32 (rne32 (Ex.div (exOf32 qmax) m))
    (xs.map (fun x => putEx df c (Ex.mul x inv)), rne32 (Ex.div m (exOf32 qmax)))

/-- QUANT: with SOUT a second token carries the scale (R98). -/
def execQuantN (n : NodeF) (s : State) : Out :=
  let sout := nModHi n % 2 == 1
  let qmax := if nXcnt n = 0 then defaultQmax (nFmt n) else (nExt n 0).setWidth 32
  .next (s.dataFiring (if sout then 2 else 1) (fun r e ks =>
    let ls := r.lanesAt e 0
    let (out, sc) := quantRow (srcFmt (nModHi n / 2)) (nFmt n) (nCtl n) qmax ls
    let scale := (List.range ls.length).map (fun i => if i = 0 then sc else 0)
    s.fire n ks ((0, .data out) :: (if sout then [(0, .data scale)] else [])) [out]))

/-- The value of a lane of DEQ's source format (R99). -/
def deqValue (sf : Fmt) (c : Ctl) (l : Lane) : Ex :=
  if isGs sf then ofIntEx (gsInt sf l.toNat) else if fmtIsFloat sf then laneF sf c l else ofIntEx (readInt sf l)

/-- The scale registers of the copy that fires. -/
def State.sclOf (s : State) (n : NodeF) (j : Nat) : Lane :=
  let nd := s.myRegion.node s.actEntry
  ((nd.elem (copyOf n nd.fire)).scl.toList).getD (j % 4) 0

def execDeqN (n : NodeF) (s : State) : Out :=
  let sf := fmtOf (bits (nExt n 0) 3 0)
  let c := nCtl n
  .next (s.laneNode n (fun a b _ =>
    (List.range a.length).map (fun k =>
      let sc := match b with
        | [] => exOf32 (s.sclOf n 0)
        | [x] => laneF .f32 c x
        | _ => laneF .f32 c (b.getD k 0)
      roundLane (nFmt n) c (Ex.mul (deqValue sf c (a.getD k 0)) sc))))

/-- SCALE (R100). -/
def execScaleN (n : NodeF) (s : State) : Out :=
  let m := nModHi n % 4
  let aff := nModHi n / 4 % 2 == 1
  let c := nCtl n
  .next (s.lane1 n (fun a =>
    let p := Ex.mul (laneF (nFmt n) c a) (exOf32 (s.sclOf n m))
    roundLane (nFmt n) c (if aff then Ex.add c.rm p (exOf32 (s.sclOf n (m + 1))) else p)))

/-- Entry a generator's TOFF names (R102, R164). -/
def genTarget (n : NodeF) (e : Nat) : Nat := e + n.cfg.toNat % 65536
def genPeriod (n : NodeF) : Nat := n.cfg.toNat / 65536

/-- WSCALE and SCLW: DATA token i becomes a CFG token when i mod QPER = 0 (R102, R165). -/
def State.periodNode (s : State) (n : NodeF) (kind : Nat) : State :=
  s.dataFiring 1 (fun r e ks =>
    let ls := r.lanesAt e 0
    let i := (r.node e).fire
    let t : Token := if i % genPeriod n = 0 then .cfg kind (genTarget n e) ls else .data ls
    s.fire n ks [(0, t)] [ls])

def execSclwN (n : NodeF) (s : State) : Out := .next (s.periodNode n 3)

/-! ### Lane reductions and lane operations (R103 to R108) -/

/-- A reduced lane as a token of the node's WID (R103). -/
def State.reduceNode (s : State) (n : NodeF) (f : List Lane → List Lane → Lane) : State :=
  s.laneNode n (fun a b _ => List.replicate (lanesOfWid n.wid) (f a b))

def execRsumN (n : NodeF) (s : State) : Out := .next (s.reduceNode n (fun a _ => redLanes .sum (nFmt n) (nCtl n) a))
def execRmaxN (n : NodeF) (s : State) : Out := .next (s.reduceNode n (fun a _ => redLanes .max (nFmt n) (nCtl n) a))
def execRminN (n : NodeF) (s : State) : Out := .next (s.reduceNode n (fun a _ => redLanes .min (nFmt n) (nCtl n) a))
def execRmaxaN (n : NodeF) (s : State) : Out := .next (s.reduceNode n (fun a _ => redLanes .maxa (nFmt n) (nCtl n) a))
def execRdotN (n : NodeF) (s : State) : Out := .next (s.reduceNode n (fun a b => dotLanes (nFmt n) (nCtl n) a b))

/-- SHUF: output lane k takes input lane PERM[4k+3:4k] (R105). -/
def execShufN (n : NodeF) (s : State) : Out :=
  .next (s.laneNode n (fun a _ _ =>
    (List.range (lanesOfWid n.wid)).map (fun k => a.getD (bits (nExt n 0) (4 * k + 3) (4 * k)) 0)))
/-- BCAST: every output lane holds lane CFG[3:0] (R106). -/
def execBcastN (n : NodeF) (s : State) : Out :=
  .next (s.laneNode n (fun a _ _ => List.replicate (lanesOfWid n.wid) (a.getD (n.cfg.toNat % 16) 0)))

/-- Packed elements of format f in a lane, and their number in 32 bits. -/
def packPer (f : Fmt) : Nat := 32 / fmtBits f
/-- PACK (R107). -/
def packLane (f : Fmt) (a : List Lane) (j : Nat) : Lane :=
  BitVec.ofNat 32 ((List.range (packPer f)).foldl
    (fun acc p => acc + lowBits f (a.getD (packPer f * j + p) 0) * 2 ^ (fmtBits f * p)) 0)
def execPackN (n : NodeF) (s : State) : Out :=
  let f := fmtOf (nModHi n)
  .next (s.laneNode n (fun a _ _ => (List.range (a.length / packPer f)).map (packLane f a)))
/-- UNPACK (R108). -/
def unpackLane (f : Fmt) (a : List Lane) (j : Nat) : Lane :=
  placeBits f ((a.getD (j / packPer f) 0).toNat / 2 ^ (fmtBits f * (j % packPer f)))
def execUnpackN (n : NodeF) (s : State) : Out :=
  let f := fmtOf (nModHi n)
  let w := lanesOfWid n.wid
  .next (s.laneNode n (fun a _ _ => (List.range w).map (fun k => unpackLane f a (n.cfg.toNat % 4 * w + k))))

/-! ### Window reductions (R59, R109 to R111) -/

/-- Window length. -/
def winLen (n : NodeF) : Nat := bits (nExt n 0) 15 0 + 1

/-- One token enters the window; the last one closes it (R110). P1 to P6 take the result, or the token's own lanes where the
token does not close its window, which no rule says (DESIGN CHOICE, log 21). -/
def State.windowNode (s : State) (n : NodeF) (k : Red) : State :=
  let f := nFmt n
  let c := nCtl n
  s.dataFiring 1 (fun r e ks =>
    let nd := r.node e
    let ls := r.lanesAt e 0
    let t := pushTree (redPair k f c) nd.op.win (ls.map (redIn k f c))
    let last := nd.op.n + 1 == winLen n
    let out := if last then (closeTree (redPair k f c) t).map (redOut k f c) else ls
    let s := s.fire n ks (if last then [(0, .data out)] else []) [out]
    let r := s.myRegion
    let nd := r.node e
    s.setMyRegion (r.setNode e { nd with op := { nd.op with
      win := if last then [] else t, n := if last then 0 else nd.op.n + 1 } }))

def execWsumN (n : NodeF) (s : State) : Out := .next (s.windowNode n .sum)
def execWmaxN (n : NodeF) (s : State) : Out := .next (s.windowNode n .max)
def execWminN (n : NodeF) (s : State) : Out := .next (s.windowNode n .min)
def execWmaxaN (n : NodeF) (s : State) : Out := .next (s.windowNode n .maxa)

end Sys2Proof.Machine
end

