-- ==== Sys2Proof/Machine/NodeFlow.lean ====
section
/-! DEFINITION. Node firings of streams, control flow, barriers, order tokens, tile tags, engine ports and packets
(R127 to R138, R149 to R150, R155 to R159). -/

namespace Sys2Proof.Machine

/-! ### Nodes without operands (R125) -/

/-- A node with no operand fires only while neither its region nor the node itself is curtained, and not after its
EOS. -/
def State.source (s : State) (k : Region → Nat → Node → State) : State :=
  let e := s.actEntry
  let r := s.myRegion
  let nd := r.node e
  if nd.eos || nd.curt || r.curtain then s else k r e nd

/-- The node gives EOS on every output, where there is room, and has ended (R13, R127). -/
def State.endNode (s : State) : State :=
  s.roomed 1 (fun s =>
    let e := s.actEntry
    let r := ((s.myRegion.forget e).out e 0 [.eos]).out e 1 [.eos]
    s.setMyRegion (r.setNode e { r.node e with eos := true, cause := 6 }))

/-- CONST (R127). -/
def constLane (n : NodeF) (k : Nat) : Lane :=
  if nXcnt n = 0 then 0
  else
    let j := k % (2 * nXcnt n)
    (nExt n (j / 2)).extractLsb' (32 * (j % 2)) 32

def execConstN (n : NodeF) (s : State) : Out :=
  .next (s.source (fun _ _ nd =>
    if n.cfg ≠ 0 ∧ n.cfg.toNat ≤ nd.fire then s.endNode
    else
      let out := (List.range (lanesOfWid n.wid)).map (constLane n)
      s.roomed 1 (fun s => s.fire n [] [(0, .data out)] [out])))

/-- IOTA (R128). -/
def iotaLane (n : NodeF) (i k : Nat) : Lane :=
  if nXcnt n = 0 then BitVec.ofNat 32 (i * lanesOfWid n.wid + k)
  else
    BitVec.ofInt 32 ((bits (nExt n 0) 31 0 : Int) + i * sbits (nExt n 0) 47 32 + k * sbits (nExt n 0) 63 48)

def execIotaN (n : NodeF) (s : State) : Out :=
  .next (s.source (fun _ _ nd =>
    if n.cfg.toNat < nd.fire then s.endNode
    else
      let out := (List.range (lanesOfWid n.wid)).map (iotaLane n nd.fire)
      s.roomed 1 (fun s => s.fire n [] [(0, .data out)] [out])))

/-! ### Switch boxes (R126, R132 to R135) -/

/-- A predicate token is true when lane 0 is not 0. -/
def predTrue (ls : List Lane) : Bool := ls.headD 0 != 0

/-- Update the opcode state of the executing node. -/
def State.setOp (s : State) (f : OpSt → OpSt) : State :=
  let r := s.myRegion
  let e := s.actEntry
  s.setMyRegion (r.setNode e { r.node e with op := f (r.node e).op })

/-- STEER (R132): a free slot is needed only on the port it gives on. -/
def execSteerN (n : NodeF) (s : State) : Out :=
  let e := s.actEntry
  let r := s.myRegion
  match r.opData e 0, r.opData e 1 with
  | some a, some b =>
    let p := if predTrue b then 0 else 1
    if r.portRoom e p 1 then .next (s.fire n [0, 1] [(p, .data a)] []) else .next (s.hold 7)
  | _, _ => .next (s.hold 6)

/-- Which of A and B a nondeterministic MERGE takes (R133): the earlier arrival at its slot, of one tick A's. -/
def Region.mergePick (r : Region) (e : Nat) : Option Nat :=
  let at_ (k : Nat) : Nat := ((r.chanTo (.entry e k)).map (fun c => c.headAt)).getD 0
  match r.opData e 0, r.opData e 1 with
  | some _, some _ => some (if at_ 0 ≤ at_ 1 then 0 else 1)
  | some _, none => some 0
  | none, some _ => some 1
  | none, none => none

/-- Give the DATA token of operand k, taking the operands ks with it. -/
def State.mergeGive (s : State) (n : NodeF) (k : Nat) (ks : List Nat) : State :=
  let e := s.actEntry
  let r := s.myRegion
  if r.portRoom e 0 1 then s.fire n ks [(0, .data (r.lanesAt e k))] [] else s.hold 7

def execMergeN (n : NodeF) (s : State) : Out :=
  let e := s.actEntry
  let r := s.myRegion
  if n.ndt = 1 then
    match r.mergePick e with
    | none => .next (s.hold 6)
    | some k => .next (s.mergeGive n k [k])
  else
    match r.opData e 2 with
    | none => .next (s.hold 6)
    | some c =>
      let k := if predTrue c then 0 else 1
      match r.opHead e k with
      | some (.data _) => .next (s.mergeGive n k [k, 2])
      | some .eos => .next (s.nodeFault n .streamMismatch [k, 2] 0 0 0)
      | _ => .next (s.hold 6)

/-- CARRY (R134). PH is LOOP while op.flag is set; op.held is HELD. A held token is given first. While CURTAIN stands
on A in LOOP the iteration boundary belongs to CURTAIN_TOKEN_TAKE. -/
def execCarryN (n : NodeF) (s : State) : Out :=
  let e := s.actEntry
  let r := s.myRegion
  let nd := r.node e
  if nd.curt || nd.eos then .next s
  else
    match nd.op.held with
    | some t =>
      if r.portRoom e 0 1 then
        .next ((s.setMyRegion (r.out e 0 [t])).setOp (fun o => { o with held := none, flag := true }))
      else .next (s.hold 7)
    | none =>
      if nd.op.flag = false then
        match r.opHead e 0 with
        | some (.data v) =>
          if r.portRoom e 0 1 then .next ((s.fire n [0] [(0, .data v)] []).setOp (fun o => { o with flag := true }))
          else .next (s.hold 7)
        | _ => .next (s.hold 6)
      else if r.opHead e 0 = some .curtain then .next (s.hold 6)
      else
        match r.opHead e 2 with
        | some (.data p) =>
          if predTrue p then
            match r.opHead e 1 with
            | some (.data v) =>
              if r.portRoom e 0 1 then .next (s.fire n [1, 2] [(0, .data v)] []) else .next (s.hold 7)
            | some .eos => .next (s.nodeFault n .streamMismatch [1, 2] 0 0 0)
            | _ => .next (s.hold 6)
          else .next ((s.fire n [2] [] []).setOp (fun o => { o with flag := false }))
        | some .eos => .next (s.nodeFault n .streamMismatch [2] 0 0 0)
        | _ => .next (s.hold 6)

/-- INV (R135): op.held is HOLD. -/
def execInvN (n : NodeF) (s : State) : Out :=
  let e := s.actEntry
  let r := s.myRegion
  match r.opData e 1 with
  | none => .next (s.hold 6)
  | some b =>
    match (r.node e).op.held with
    | some t =>
      if predTrue b then
        if r.portRoom e 0 1 then .next (s.fire n [1] [(0, t)] []) else .next (s.hold 7)
      else .next ((s.fire n [1] [] []).setOp (fun o => { o with held := none }))
    | none =>
      match r.opHead e 0 with
      | some (.data a) =>
        if predTrue b then
          if r.portRoom e 0 1 then
            .next ((s.fire n [0, 1] [(0, .data a)] []).setOp (fun o => { o with held := some (.data a) }))
          else .next (s.hold 7)
        else .next (s.fire n [0, 1] [] [])
      | some .eos => .next (s.nodeFault n .streamMismatch [0, 1] 0 0 0)
      | _ => .next (s.hold 6)

/-- GATE (R136): A's token unchanged; B's lanes are not read. -/
def execGateN (n : NodeF) (s : State) : Out := .next (s.laneNode n (fun a _ _ => a))

/-! ### BAR and CURT (R137, R138) -/

/-- No access of the region is still to be performed (R149). -/
def Region.settled (r : Region) : Bool := r.accs.isEmpty

/-- BAR: a token taken is held until the phase it arrived at completes (R137, R293). -/
def execBarN (n : NodeF) (s : State) : Out :=
  let e := s.actEntry
  let r := s.myRegion
  let nd := r.node e
  let b := n.cfg.toNat % 2048
  match nd.op.held with
  | some t =>
    .next (s.held [(decide (r.phaseOf b ((r.barRung b).getD 7) (.node e) ≤ nd.op.phase), 3)] (fun s => s.roomed 1 (fun s =>
      (s.setMyRegion (r.out e 0 [t])).setOp (fun o => { o with held := none }))))
  | none =>
    match r.opData e 0 with
    | none => .next (s.hold 6)
    | some a =>
      .next (s.held [(!r.preceded e [0], 3)] (fun s => s.roomed 1 (fun s =>
        let k := r.arrivals b (.node e)
        let s := (s.fire n [0] [] [a]).setOp (fun o => { o with held := some (.data a), phase := k })
        s.arriveAs s.actCue b (.node e))))

/-- CURT (R138): PROBE puts the count of CURTAIN tokens in lane 0. -/
def execCurtN (n : NodeF) (s : State) : Out :=
  let cnt := (s.myRegion.node s.actEntry).op.n
  .next (s.laneNode n (fun a _ _ => if nModHi n % 2 = 1 then BitVec.ofNat 32 cnt :: a.drop 1 else a))

/-! ### Order tokens and fences (R149, R150) -/

/-- FENCEN (R149): any token passes on port 0; port 1 gives ORDER for DATA and ORDER, else the token itself. REL and
FULL wait until the region's accesses are performed. -/
def execFencenN (n : NodeF) (s : State) : Out :=
  let e := s.actEntry
  let r := s.myRegion
  match r.opHead e 0 with
  | none => .next (s.hold 6)
  | some t =>
    .next (s.held [((n.cfg.toNat % 4 != 1) && !r.settled, 3)] (fun s => s.roomed 1 (fun s =>
      let second : Token := match t with
        | .data _ | .order _ => .order (r.scopeOf n)
        | t => t
      let s := s.fire n [0] [(0, t), (1, second)] [t.dataLanes]
      let r := s.myRegion
      let nd := r.node e
      match t with
      | .eos => s.setMyRegion (r.setNode e { nd with eos := true })
      | .curtain => s.setMyRegion (r.setNode e { nd with curt := true })
      | _ => s)))

def tokenScope : Token → Option Nat
  | .order k => some k
  | _ => none
def Token.joins : Token → Bool
  | .data _ | .order _ => true
  | _ => false

/-- ORDJ (R150): the narrowest scope of the ORDER tokens taken, or the rung's where that is wider. -/
def execOrdjN (n : NodeF) (s : State) : Out :=
  let e := s.actEntry
  let r := s.myRegion
  let ks := r.namedOps e
  let ts := ks.filterMap (r.opHead e)
  if (decide (ts.length < ks.length)) || !ts.all Token.joins then .next (s.hold 6)
  else
    let sc := max ((ts.filterMap tokenScope).min?.getD 0) (r.scopeOf n)
    .next (s.roomed 1 (fun s => s.fire n ks [(0, .order sc)] []))

/-! ### Tile tags (R155) -/

/-- A Fly command of the cell that is past its promise writes a tile (R302). -/
def State.lateTile (s : State) (c v t : Nat) : Bool :=
  s.flys.any (fun p => p.2.q.any (fun f => f.late && f.cue == c && f.vcell == v && flyDestTile f.c t))

/-- The tile number on A, checked against the scratchpad: the firing waits for the tag X, then flips it to Y where it names
one; a flip to an engine waits for the accesses that precede it (R28, R29, R155). A wait for a late Fly command counts MEM
(R302; log 28). -/
def State.tileNode (s : State) (n : NodeF) (x : BitVec 3) (y : Option (BitVec 3)) : State :=
  s.onData (fun r e _ =>
    let a := r.lanesAt e 0
    let t := (a.headD 0).toNat
    let v := r.copyCell e (copyOf n (r.node e).fire)
    if r.spadg * 16 ≤ t then s.roomed 1 (fun s => s.nodeFault n .bounds [0] 0 t 0)
    else
      let unmet := (r.cell v).tag t != x
      let late := y.isSome && (r.cell v).flipLate s.cyc.toNat (nodeFlipRank e) t
      let flip (s : State) : State := match y with
        | some y => s.setMyRegion (r.setCell v ((r.cell v).flipTag s.cyc.toNat (nodeFlipRank e) t y))
        | none => s
      s.held [(unmet || late, if y.isNone && s.lateTile s.actCue v t then 5 else 4),
              (y.any (fun y => !fabricOwns y) && !r.preceded e [0], 4)]
        (fun s => s.roomed 1 (fun s => (flip s).fire n [0] [(0, .data a)] [a])))

/-- TTAG: the conditional flip of R28. -/
def execTtagN (n : NodeF) (s : State) : Out := .next (s.tileNode n (n.cfg.extractLsb' 0 3) (some (n.cfg.extractLsb' 3 3)))

def execTwaitnN (n : NodeF) (s : State) : Out := .next (s.tileNode n (n.cfg.extractLsb' 0 3) none)

/-! ### Engine ports (R156, R157) -/

/-- The 64 bytes of a 16-lane token, as eight words. -/
def wordsOfLanes : List Lane → List Word
  | a :: b :: rest => (b ++ a) :: wordsOfLanes rest
  | _ => []

/-- FLYP (R156). -/
def execFlypN (n : NodeF) (s : State) : Out :=
  .next (s.onData (fun r e ks =>
    let v := r.copyCell e (copyOf n (r.node e).fire)
    let c := cmdOfWords (wordsOfLanes (r.lanesAt e 0))
    let expl := bits (nExt n 0) 4 4 == 1
    let eng := if expl then r.die * 16 + bits (nExt n 0) 3 0 else r.ownEngine v
    if flyMalformed r v c then s.roomed 1 (fun s => s.nodeFault n .flyCmd ks (flyOp c) 0 0)
    else
      s.held [(s.leaveWaits r.die s.actor, 1), (!r.preceded e ks, 3), (!s.queueRoom eng, 5)] (fun s => s.roomed 1 (fun s =>
        match s.askLeave r.die s.actor (leaveUnits (flyBytes c)) with
        | (false, s) => s.hold 1
        | (true, s) =>
          let (p, s) := s.enqueueFly eng s.actCue v false e (!expl) c (r.node e).fire
          let out := [BitVec.ofNat 32 p, BitVec.ofNat 32 (p / 2 ^ 32)]
          s.fire n ks [(0, .data out)] [out]))))

/-- Give the next status token of WNGP in command order, when it is there. -/
def State.wngpGive (s : State) : Option State :=
  let e := s.actEntry
  let r := s.myRegion
  let nd := r.node e
  match Tab.get nd.results nd.op.m [] with
  | [] => none
  | ts =>
    if r.portRoom e 0 ts.length then
      let r := r.out e 0 ts
      let nd := r.node e
      some (s.setMyRegion (r.setNode e { nd with results := Tab.del nd.results nd.op.m,
                                                 op := { nd.op with m := nd.op.m + 1 } }))
    else none

/-- WNGP (R157): a status that is ready is given first; then the first half of a block is kept, and the second half
presents the block. -/
def execWngpN (n : NodeF) (s : State) : Out :=
  let e := s.actEntry
  let r := s.myRegion
  let nd := r.node e
  match s.wngpGive with
  | some s' => .next s'
  | none =>
    match r.opData e 0 with
    | none => .next (s.hold 6)
    | some a =>
      if nd.op.flag = false then
        .next (s.roomed 1 (fun s => (s.fire n [0] [] [a]).setOp (fun o => { o with flag := true, rows := [a] })))
      else
        let b := wordsOfLanes (nd.op.rows.headD []) ++ wordsOfLanes a
        let named := bits (nExt n 0) 4 4 == 1
        let stack := if named then bits (nExt n 0) 3 0 else blkStack b
        let v := r.copyCell e (copyOf n nd.fire)
        let seq := nd.op.n
        let done (s : State) : State :=
          (s.fire n [0] [] [a]).setOp (fun o => { o with flag := false, rows := [], n := o.n + 1 })
        .next (s.held [(s.leaveWaits r.die s.actor, 1), (!r.preceded e [0] || !(r.preOf e).isEmpty, 3),
            (s.blockFull r stack named b, 5)] (fun s => s.roomed 1 (fun s =>
          match s.issueBlock s.actCue v false e stack named b s.actor seq (r.node e).fire with
          | .status st =>
            let s := done s
            let r := s.myRegion
            let nd := r.node e
            s.setMyRegion (r.setNode e { nd with results := Tab.set nd.results seq [.data [BitVec.ofNat 32 st]] })
          | .viol x right => s.nodeViolation n [0] x right
          | .full => s.hold 5
          | .leave s => s.hold 1
          | .queued s => done s)))

/-! ### Packets (R158, R159) -/

def nodeClass (n : NodeF) : Nat := n.cfg.toNat % 16
/-- The cell whose port an entry's packets use. -/
def Region.entryCell (r : Region) (e : Nat) : Nat := (r.cellOf.getD e (0, 0)).1

/-- A class outside the tenant's classes (R158). -/
def State.classHeld (s : State) (cl : Nat) : Bool := s.myTenant.classMask.getLsbD cl

/-- SENDN (R158): the accesses that precede the firing are released, then each packet goes once the port holds its
credits and quota (R350). -/
def execSendnN (n : NodeF) (s : State) : Out :=
  let cl := nodeClass n
  .next (s.onData (fun r e ks =>
    let a := r.lanesAt e 0
    let v := r.entryCell e
    if s.classHeld cl = false then s.nodeViolation n ks cl 2
    else
      let sent := (r.node e).op.m
      s.held [(s.classLeased s.actCue v cl, 0), (!r.preceded e ks, 5), (!s.portReady s.actCue v cl (dataFlits a.length) sent, 5)]
        (fun s => s.presentData s.actCue v cl (bits (nExt n 0) 15 0) a sent
          (fun s => (s.setOp (fun o => { o with m := 0 })).fire n ks [] [a]) (fun k s => (s.setOp (fun o => { o with m := k })).hold 5))))

/-- A queued packet a RECVN may take (R159): a marker, or a packet whose tag it admits. -/
def recvAdmits (n : NodeF) (q : Nat × Nat × Token) : Bool :=
  match q.2.2 with
  | .data _ => bits (nExt n 0) 16 16 == 0 || q.2.1 % 65536 == bits (nExt n 0) 15 0
  | _ => true

def ClassEnt.queue (c : ClassEnt) (i : Nat) : List (Nat × Nat × Token) := Tab.get c.queues i []
def ClassEnt.setQueue (c : ClassEnt) (i : Nat) (q : List (Nat × Nat × Token)) : ClassEnt :=
  { c with queues := Tab.set c.queues i q }

/-- The packet a RECVN takes next, and its receiver index. -/
def Region.recvNext (r : Region) (n : NodeF) (e : Nat) : Nat × Option (Nat × Nat × Token) :=
  let c := r.cls (nodeClass n)
  let i := c.recvIdx (.node e)
  (i, (c.queue i).find? (recvAdmits n))

/-- Take a packet out of a RECVN's queue, returning its credit (R348). -/
def State.recvTake (s : State) (n : NodeF) (i : Nat) (q : Nat × Nat × Token) : State :=
  let cl := nodeClass n
  let r := s.myRegion
  let c := r.cls cl
  (s.setMyRegion (r.setCls cl (c.setQueue i ((c.queue i).erase q)))).creditFor s.actCue cl i q.1 q.2.2

/-- RECVN (R159): a payload of another width faults and stays held. -/
def execRecvnN (n : NodeF) (s : State) : Out :=
  let e := s.actEntry
  let r := s.myRegion
  match r.recvNext n e with
  | (i, some (src, tag, .data ls)) =>
    if (r.node e).curt || (r.node e).eos then .next s
    else if ls.length ≠ lanesOfWid n.wid then .next (s.nodeFault n .recvWidth [] 0 0 0)
    else .next (s.roomed 1 (fun s => (s.recvTake n i (src, tag, .data ls)).fire n [] [(0, .data ls)] [ls]))
  | _ => .next (s.hold 6)

end Sys2Proof.Machine
end

