-- ==== Sys2Proof/Machine/NodeAcc.lean ====
section
/-! DEFINITION. The accesses of nodes (R139 to R147, R247, R248, R258): address patterns, presenting an access,
performing it, and the events of the memory: MEMORY_RESPONSE, SCRATCHPAD_BANK_SERVE, REMOTE_ACCESS_SERVE and
PAGE_WALK. -/

namespace Sys2Proof.Machine

/-! ### Address patterns (R139, R140) -/

structure Pat where
  base : Int := 0
  l0 : Nat := 1
  l1 : Nat := 1
  l2 : Nat := 1
  l3 : Nat := 1
  s0 : Int := 0
  s1 : Int := 0
  s2 : Int := 0
  s3 : Int := 0
  deriving DecidableEq, Repr

def Pat.total (p : Pat) : Nat := p.l0 * p.l1 * p.l2 * p.l3
def Pat.addr (p : Pat) (i : Nat) (off : Int) : Int :=
  let c := loopsAt i p.l0 p.l1 p.l2 p.l3
  p.base + c.c0 * p.s0 + c.c1 * p.s1 + c.c2 * p.s2 + c.c3 * p.s3 + off
/-- Every counter is 0 at firing i. -/
def Pat.starts (p : Pat) (i : Nat) : Bool := i % p.total == 0

/-- The own-scratchpad pattern of LDS and STS. -/
def ownPat (n : NodeF) : Pat :=
  { base := bits (nExt n 0) 23 0, l0 := bits (nExt n 0) 43 28 + 1, s0 := sbits (nExt n 0) 63 44
    l1 := bits (nExt n 1) 15 0 + 1, s1 := sbits (nExt n 1) 35 16
    l2 := bits (nExt n 2) 15 0 + 1, s2 := sbits (nExt n 2) 35 16
    l3 := bits (nExt n 2) 43 36 + 1, s3 := sbits (nExt n 2) 63 44 }
def ownSw (n : NodeF) : Nat := bits (nExt n 0) 26 24

/-- The pattern of LDG and STG; in window 0xF1 the base is the offset in the named cell. -/
def patWin (n : NodeF) : Nat := bits (nExt n 0) 63 56
def globPat (n : NodeF) : Pat :=
  { base := if patWin n = 0xF1 then bits (nExt n 0) 39 0 else bits (nExt n 0) 55 0
    l0 := bits (nExt n 1) 15 0 + 1, s0 := sbits (nExt n 1) 47 16
    l1 := bits (nExt n 1) 63 48 + 1, s1 := sbits (nExt n 2) 31 0
    l2 := bits (nExt n 2) 47 32 + 1, s2 := sbits (nExt n 2) 63 48 * 4096 }
/-- The virtual cell a base in window 0xF1 names. -/
def patCell (n : NodeF) : Nat := bits (nExt n 0) 51 40

/-- Bits [55:52] of a pointer into window 0xF1, which names no cell with them (R245). -/
def patFar (n : NodeF) : Bool := patWin n == 0xF1 && bits (nExt n 0) 55 52 != 0

/-- The pattern of ATM. -/
def atmPat (n : NodeF) : Pat :=
  { base := if patWin n = 0xF1 then bits (nExt n 0) 39 0 else bits (nExt n 0) 55 0
    l0 := bits (nExt n 1) 15 0 + 1, s0 := sbits (nExt n 1) 47 16 }

/-! ### The swizzle (R142) -/

def swz (sw a : Nat) : Nat := if sw = 0 then a else a ^^^ (a / 2 ^ (10 + sw) % 32 * 64)

/-- Ranges of memory that hold n bytes at scratchpad address a of a virtual cell. -/
def Region.spadSegs (r : Region) (v sw a n : Nat) : List Seg :=
  (pieces64 a n).map (fun p => ⟨poolKey r.die (r.cell v).site (r.taskBytes + swz sw p.1), p.2, none⟩)
def banksOf (sw a n : Nat) : List Nat := ((pieces64 a n).map (fun p => swz sw p.1 / 64 % 32)).eraseDups

/-! ### Reach of an access (R146, R153) -/

inductive RunOut where
  | ok (segs : List (List Seg))
  | miss (va cause : Nat)
  | viol (va right : Nat)
  | badFmt (va : Nat)
  deriving DecidableEq, Repr

/-- What an access asks of its pages' FMT. -/
def pagesOk (pages fmt : Nat) (segs : List Seg) : Bool :=
  let fs := segs.filterMap (fun g => g.leaf.map leafFmt)
  let f0 := fs.headD fmt
  let same := fs.all (fun f => f == f0)
  match pages with
  | 0 => true
  | 1 => same && (fmt == 13 || f0 == fmt)
  | 2 => same && (f0 == 0 || f0 == 1 || f0 == 6 || f0 == 13) && (fmt == 13 || f0 == fmt)
  | _ => fs.all (fun f => f == 6 || f == 13)

/-- The Wings unit of the stack of an address's page translates every lane of an LDI whose PTR names that page (R256). A page
outside HBM has no home stack, and one that does not translate shows none: no rule says who translates then, and the cell's
slice does (DESIGN CHOICE, log 34). -/
def State.homeUnit (s : State) (ten va slice : Nat) : Nat :=
  match walk s ten va with
  | .leaf _ e level => if inHbm (leafPa e level va) then wingsUnit (stackOf (leafPa e level va)) else slice
  | _ => slice

def reachRuns (unit ten die : Nat) (rd wr : Bool) (pages fmt : Nat) :
    List (Nat × Nat) → List (List Seg) → State → RunOut × State
  | [], acc, s => (.ok acc.reverse, s)
  | (a, n) :: rest, acc, s =>
    if n = 0 then reachRuns unit ten die rd wr pages fmt rest ([] :: acc) s
    else
      match s.reach unit ten die a n rd wr with
      | (.miss va cause, s) => (.miss va cause, s)
      | (.viol va right, s) => (.viol va right, s)
      | (.ok segs, s) =>
        if pagesOk pages fmt segs then reachRuns unit ten die rd wr pages fmt rest (segs :: acc) s
        else (.badFmt a, s)

/-- The unit that translates an access of a region's node: its slice, or for an LDI the home stack's (R256). -/
def State.accUnit (s : State) (c : Nat) (a : Acc) : Nat :=
  let r := s.region c
  let slice := sliceOf r.die (r.cell a.cell).site
  if r.opcode a.entry = 0x6A then s.homeUnit r.tenant (bits (nExt (r.fields a.entry) 0) 55 0) slice else slice

/-- Translate a global access of a region's node. -/
def State.accReach (s : State) (c : Nat) (a : Acc) : RunOut × State :=
  let r := s.region c
  let wr := a.kind == .store || a.kind == .atomic
  let rd := a.kind != .store
  reachRuns (s.accUnit c a) r.tenant r.die rd wr a.pages a.fmt a.ptrs [] s

/-- Where the MREQs of an access go: the cell it names, its slice, or an LDI's Wings unit (R248, R256, R340). -/
def State.accDst (s : State) (c : Nat) (a : Acc) : Dst :=
  let r := s.region c
  if a.space = 2 then r.cellDst a.target
  else
    let unit := s.accUnit c a
    if unit < 1000 then r.sliceDst a.cell else { recv := a.cell, die := dieOfStack (unit - 1000), site := 576 + (unit - 1000) }

/-- The runs an access asks for, and whether it writes. -/
def Acc.reqs (a : Acc) : List (Nat × Nat) × Bool := (a.ptrs, a.kind != .load)

/-- The physical address that a walk ends at: of the frame, or of a table entry out of reach. -/
def Walk.endsAt (va : Nat) : Walk → Option Nat
  | .leaf _ e level => some (leafPa e level va)
  | .dark pa => some pa
  | _ => none

/-- TARGET_DARK or TARGET_OFF of a withheld access, once per region, code and die (R387). -/
def State.postDark (s : State) (c va cause : Nat) : State :=
  let r := s.region c
  if cause ≠ 3 then s
  else
    match (walk s r.tenant va).endsAt va with
    | some pa =>
      let d := dieOfStack (stackOf pa)
      let code := if (s.die d).power = .off then 0x0B else 0x0A
      if r.darkPosted.contains (code, d) then s
      else
        (s.setRegion c { r with darkPosted := r.darkPosted ++ [(code, d)] }).postRec
          (mkRec code 0 r.tenant r.die c 0 0 0 noEntry 0 0 va d s.cyc.toNat)
    | none => s

/-! ### Presenting -/

def Region.accsOf (r : Region) (e : Nat) : List Acc := r.accs.filter (fun a => a.entry == e)
/-- The node's port withholds an access (R146). -/
def Region.withheldAt (r : Region) (e : Nat) : Bool := (r.accsOf e).any (fun a => a.withheld.isSome)

/-- An access is presented: it takes the next age, and the tick it reaches its port in. -/
def State.pushAcc (s : State) (a : Acc) : State :=
  let r := s.myRegion
  s.setMyRegion { r with accs := r.accs ++ [{ a with id := r.nextAcc, made := s.cyc.toNat }], nextAcc := r.nextAcc + 1 }

/-- Tokens in operand slots ks. -/
def Region.heldTokens (r : Region) (e : Nat) (ks : List Nat) : List (Nat × Token) :=
  ks.filterMap (fun k => (r.opHead e k).map (fun t => (k, t)))

/-- A firing takes its operands and counts; its access gives its tokens later. -/
def State.takeCount (s : State) (ks : List Nat) : State :=
  let e := s.actEntry
  let r := s.myRegion.opTakeAll e ks
  s.setMyRegion (r.setNode e (r.node e).count)

/-- Held at the cell's port: an exchange counts as CROSS, quota and bandwidth as MEM (R353, R363). -/
def State.holdPort (s : State) (site : Nat) : State := s.hold (if s.leased s.myRegion.die site then 0 else 5)

/-- What holds the MREQs of accesses before they are made, with its stall cause. -/
def State.portHolds (s : State) (a : Acc) (runs : List (Nat × Nat)) : List (Bool × Nat) :=
  let r := s.myRegion
  match s.portHeld s.actor r.tenant r.die (r.cell a.cell).site runs with
  | some cause => [(true, cause)]
  | none => []

/-- The MREQs of a node's access, and of one that goes with it, at its cell's port (R353, R354). -/
def State.askPort (s : State) (a : Acc) (after : List Acc) (k : State → State) : State :=
  match s.portRequest a.cell (s.accDst s.actCue a) ((a :: after).map Acc.reqs) (a.space == 0) with
  | (false, s) => s.holdPort (s.myRegion.cell a.cell).site
  | (true, s) => k s

/-- A node's read of n bytes, which its firing goes on with once the answer has come: `ask` leads to the ranges it reads and the
runs it asks for. -/
def State.nodeFetch (s : State) (v key n : Nat) (ask : State → (List (Nat × Nat) → List (Nat × Nat) → State → State) → State)
    (k : List Byte → State → State) : State :=
  match s.fetchOf key (.read n) with
  | some f => if s.fetched f then k f.bytes s.dropFetches else s.holdPort (s.myRegion.cell v).site
  | none =>
    ask s (fun ranges runs s =>
      (s.askFor { who := s.actor, cue := s.actCue, id := 0, key := key, space := 0, cell := v, target := v, ranges := ranges,
                  parts := [], job := .read n } runs).holdPort (s.myRegion.cell v).site)

/-- The access as it is presented: with its translation, or withheld where that misses. -/
def State.reachAcc (s : State) (n : NodeF) (ks : List Nat) (a : Acc) (k : Acc → State → State) : State :=
  match s.accReach s.actCue a with
  | (.viol va right, s) => s.nodeViolation n ks va right
  | (.badFmt va, s) => s.nodeFault n .pageFmt ks 0 va 0
  | (.miss va cause, s) => k { a with withheld := some (va, cause) } (s.postDark s.actCue va cause)
  | (.ok segs, s) => k { a with segs := segs } s

/-- A firing's access to global memory (R146): what holds it at the port, room, its reach, then its requests (R353, R354);
then it is presented and `next` completes the firing. A translation miss presents it withheld. A descriptor store that
goes with it is reached first and presented after it (R130, R131). -/
def State.presentGlobal (s : State) (n : NodeF) (ks : List Nat) (a : Acc) (after : Option Acc) (next : State → State) :
    State :=
  let a := { a with took := s.myRegion.heldTokens a.entry ks, pre := s.myRegion.headsPre a.entry ks }
  s.held (s.portHolds a (a.ptrs ++ (after.map (fun b => b.ptrs)).getD [])) (fun s => s.roomed 1 (fun s =>
    s.reachAcc n ks a (fun a s =>
      match after with
      | none => s.askPort a [] (fun s => next (s.pushAcc a))
      | some b => s.reachAcc n ks b (fun b s => s.askPort a [b] (fun s => next ((s.pushAcc a).pushAcc b))))))

/-- Tiles of a scratchpad range that the fabric does not own (R29). -/
def Region.busyTiles (r : Region) (v off n : Nat) : List Nat :=
  (tilesOf off n).filter (fun t => !fabricOwns ((r.cell v).tag t))

/-- The scratchpad port of a copy's element (R247). -/
def Region.portOf (r : Region) (e copy : Nat) : Nat := ((r.cellOf.getD e (0, 0)).2 + copy) % 16

/-- An access stands in an element's queue at its cell's scratchpad, or in its reorder buffer. -/
def Region.atPort (r : Region) (v port : Nat) (a : Acc) : Bool :=
  a.space == 1 && a.target == v && r.portOf a.entry a.copy == port

/-- The port's queue of 8 requests or its 32 reorder entries are full (R247). -/
def Region.portFull (r : Region) (v port : Nat) : Bool :=
  decide (8 ≤ (r.accs.filter (fun a => r.atPort v port a && !a.banks.isEmpty)).length)
    || decide (32 ≤ (r.accs.filter (r.atPort v port)).length)

/-- A firing's access to its own scratchpad (R139, R142, R247): it waits for its tiles and for its port, then queues at its
banks. -/
def State.presentOwn (s : State) (ks : List Nat) (a : Acc) (sw off len : Nat) (segs : List (List Seg))
    (next : State → State) : State :=
  let r := s.myRegion
  s.held [(!(r.busyTiles a.cell off len).isEmpty, 4), (r.portFull a.cell (r.portOf a.entry a.copy), 5)] (fun s => s.roomed 1 (fun s =>
    next (s.pushAcc { a with space := 1, target := a.cell, segs := segs, banks := banksOf sw off len,
                             took := r.heldTokens a.entry ks, pre := r.headsPre a.entry ks })))

/-- A firing's access to another cell's scratchpad (R248): it travels as MREQs. -/
def State.presentRemote (s : State) (ks : List Nat) (a : Acc) (off len : Nat) (segs : List (List Seg)) (next : State → State) :
    State :=
  let r := s.myRegion
  let a := { a with space := 2, ptrs := [(off, len)], segs := segs, took := r.heldTokens a.entry ks, pre := r.headsPre a.entry ks }
  s.held ((s.leased r.die (r.cell a.target).site, 0) :: s.portHolds a a.ptrs) (fun s => s.roomed 1 (fun s =>
    s.askPort a [] (fun s => next (s.pushAcc a))))

/-! ### Performing -/

/-- Two accesses touch a common byte. -/
def segsMeet (x y : List Seg) : Bool :=
  x.any (fun g => y.any (fun h => decide (g.key < h.key + h.len) && decide (h.key < g.key + g.len)))

/-- A must follow the earlier access B of its node (R145, R152, R268; the descriptor writes of R130 and R131
release). -/
def accAfter (b a : Acc) : Bool :=
  a.kind == .atomic || a.pages == 0 || b.withheld.isSome || segsMeet b.segs.flatten a.segs.flatten
    || (strongest b.segs.flatten == 0 && strongest a.segs.flatten == 0 && a.space == 0)

/-- An access may be performed now: every earlier one of its node that it must follow has been (R145). -/
def Region.accReady (r : Region) (a : Acc) : Bool :=
  a.withheld.isNone && !a.done && a.kind != .poll
    && (r.accsOf a.entry).all (fun b => b.done || decide (a.id ≤ b.id) || !accAfter b a)

/-- The new value of an atomic lane (R152). -/
def atomLane (aop : Nat) (f : Fmt) (m a b : Lane) : Lane :=
  match aop with
  | 0 => m + a
  | 1 => maxLane f m a
  | 2 => minLane f m a
  | 3 => m &&& a
  | 4 => m ||| a
  | 5 => a
  | 6 => if m = b then a else m
  | 7 => addLane .f32 .plain m a
  | _ => amaxaLane m a

/-- The lanes of an atomic, in lane order: each reads, then writes its 4 bytes. -/
def State.atomLanes (s : State) (a : Acc) : List (List Seg) → Nat → List Lane → State × List Lane
  | [], _, acc => (s, acc.reverse)
  | g :: rest, k, acc =>
    let m : Lane := BitVec.ofNat 32 (natOf (s.readSegs g))
    let v := atomLane a.op (fmtOf a.fmt) m (a.lanes.getD k 0) (a.cmp.getD k 0)
    (s.writeSegs (splitSegs g (bytesOf 4 v.toNat))).atomLanes a rest (k + 1) (m :: acc)

/-- What an access does to memory, and the lanes it returns. -/
def State.accEffect (s : State) (a : Acc) : State × List Lane :=
  match a.kind with
  | .load =>
    let ls := a.segs.flatMap (fun g => if g.isEmpty then [0] else lanesFromBytes (fmtOf a.fmt) (s.readSegs g))
    (s, if a.xfmt = 15 then ls else ls.map (cvtLane (fmtOf a.fmt) (fmtOf a.xfmt) .plain))
  | .store => (s.writeSegs (splitSegs a.segs.flatten a.bytes), [])
  | .atomic => s.atomLanes a a.segs 0 []
  | .poll => (s, [])

/-- The flip that comes with a performed access does not succeed: it waits (R28). -/
def Region.flipBlocked (r : Region) (a : Acc) : Bool :=
  match a.flip with
  | some t => (r.cell a.cell).tag t != 0 || (r.cell a.cell).flipLate r.now (nodeFlipRank a.entry) t
  | none => false

/-- An access whose token would enter a cell that an exchange holds, from a cell that none holds, keeps it (R363). -/
def Region.giveHeld (r : Region) (a : Acc) : Bool := !r.cellHeld a.cell && r.feedsHeld a.entry

/-- Give what the node's performed accesses owe, in firing order (R144, R145, R258), where its channels have room, which R144 and
R176 keep for it. What precedes the tokens is what
preceded the firing and its accesses still to be performed (R148). -/
def Region.deliver : Nat → Nat → Region → Region
  | 0, _, r => r
  | k + 1, e, r =>
    match r.accsOf e with
    | [] => r
    | a :: _ =>
      if !a.done || a.answers != 0 || r.flipBlocked a || r.giveHeld a || !([0, 1].all (fun p => r.room (.entry e p) 1)) then r
      else
        let r := { r with accs := r.accs.filter (fun b => b.id != a.id) }
        let pre := (a.pre ++ ((r.accsOf e).filter (fun b => b.fire == a.fire)).map (fun b => b.id)).filter r.pending
        let r := match a.flip with
          | some t => r.setCell a.cell ((r.cell a.cell).flipTag r.now (nodeFlipRank e) t 1)
          | none => r
        let r := match a.gives, a.res with
          | true, some t => r.give (.entry e 0) t pre
          | _, _ => r
        let r := match a.owed with
          | some sc => r.give (.entry e 1) (.order sc) pre
          | none => r
        let r := if a.closes then r.setNode e { r.node e with eos := true } else r
        r.deliver k e

/-- Give what performed accesses still owe once nothing holds it (R363). -/
def Region.deliverLate (r : Region) : Region :=
  ((r.accs.filter (fun a => a.done && a.flip.isNone)).map (fun a => a.entry)).foldl (fun r e => r.deliver r.accs.length e) r

/-- Perform an access; what it gives waits for its MRSPs where it travelled. -/
def State.performAcc (s : State) (c : Nat) (a : Acc) : State :=
  let (s, lanes) := s.accEffect a
  let r := s.region c
  let tok := a.pass.getD (.data lanes)
  let r := { r with accs := r.accs.map (fun (b : Acc) => if b.id = a.id then
    { b with done := true, res := some tok, answers := if a.space = 1 then 0 else (mreqParts a.ptrs).length } else b) }
  let r := if a.gives then
      let nd := r.node a.entry
      r.setNode a.entry (nd.setP a.copy [tok.dataLanes])
    else r
  s.setRegion c (r.deliver r.accs.length a.entry)

/-- Perform a task store. -/
def State.performPend (s : State) (c : Nat) (p : PStore) : State :=
  let s := s.writeSegs p.segs
  let r := s.region c
  s.setRegion c { r with pend := r.pend.filter (fun q => q.id != p.id) }

/-- A task store must follow an earlier one of its slot that touches a common byte (R268). -/
def pendMeet (x y : List (Nat × List Byte)) : Bool :=
  x.any (fun g => y.any (fun h => decide (g.1 < h.1 + h.2.length) && decide (h.1 < g.1 + g.2.length)))
def Region.pendReady (r : Region) (p : PStore) : Bool :=
  r.pend.all (fun q => decide (p.id ≤ q.id) || q.vcell != p.vcell || q.slot != p.slot || !pendMeet q.segs p.segs)

def State.actAccess (s : State) : Nat × Nat :=
  match s.actor with
  | .access c id => (c, id)
  | _ => (0, 0)

/-- An access is performed where its MREQs have gone, and answered from there (R340). -/
def State.respondAcc (s : State) (c : Nat) (a : Acc) : State :=
  (s.performAcc c a).answer c a.cell a.id (s.accDst c a) (mreqParts a.ptrs) (a.kind != .store)

/-- Where the MREQs of a task store went. -/
def Region.pendDst (r : Region) (p : PStore) : Dst := if p.space = 2 then r.cellDst p.target else r.sliceDst p.vcell

/-- A task store is performed where its MREQs have gone, and acknowledged from there. -/
def State.respondPend (s : State) (c : Nat) (p : PStore) : State :=
  (s.performPend c p).answer c p.vcell p.id ((s.region c).pendDst p) (mreqParts p.ranges) false

/-- Change the fetch of an age. -/
def State.mapFetch (s : State) (c id : Nat) (h : Fetch → Fetch) : State :=
  { s with fetches := s.fetches.map (fun (g : Fetch) => if g.cue = c ∧ g.id = id then h g else g) }

/-- A fetch is performed where its MREQs have gone, and its MRSPs bring back what it read (R340). -/
def State.serveFetch (s : State) (f : Fetch) : State :=
  let (bs, s) := s.doJob f.ranges f.job
  (s.mapFetch f.cue f.id (fun g => { g with served := true, bytes := bs })).answer f.cue f.cell f.id
    ((s.region f.cue).fetchDst f.space f.cell f.target) f.parts f.job.reads

/-- A fetch of a region that has not been served. -/
def State.openFetch (s : State) (c id space : Nat) : Option Fetch :=
  s.fetches.find? (fun f => f.cue == c && f.id == id && f.space == space && !f.served)

/-- MEMORY_RESPONSE: a global access whose MREQs have reached the slice is performed, or a slot's global store, and answered
(R144, R146, R266, R340); or the answer to a fetch is sent. -/
def execMemoryResponse (s : State) : Out :=
  let (c, id) := s.actAccess
  let r := s.region c
  if s.landed c 3 id = false then .next s
  else
    match r.accs.find? (fun a => a.id == id && a.space == 0) with
    | some a => if r.accReady a then .next (s.respondAcc c a) else .next s
    | none =>
      match r.pend.find? (fun p => p.id == id && p.space == 0) with
      | some p => if r.pendReady p then .next (s.respondPend c p) else .next s
      | none =>
        match s.openFetch c id 0 with
        | some f => .next (s.serveFetch f)
        | none => .next s

/-! ### The scratchpad (R247) -/

/-- The port a request came in at: a remote one at port 20, a task's at port 16. -/
def bankPort (space own : Nat) : Nat := if space = 2 then 20 else own

/-- The requests queued at a bank: the tick each reached its port in, its port, and its age. -/
def State.bankQueue (s : State) (c v b : Nat) : List (Nat × Nat × Nat) :=
  let r := s.region c
  (r.accs.filter (fun a => a.target == v && a.banks.contains b)).map (fun a => (a.made, bankPort a.space (r.portOf a.entry a.copy), a.id))
    ++ (r.pend.filter (fun p => p.target == v && p.banks.contains b)).map (fun p => (p.made, bankPort p.space 16, p.id))
    ++ (s.fetches.filter (fun f => f.cue == c && f.target == v && f.banks.contains b)).map (fun f => (f.made, bankPort f.space 16, f.id))

/-- The request a bank serves: the oldest, of one tick the one of the lowest port, and of one port the one that came first. -/
def State.bankFirst (s : State) (c v b : Nat) : Option Nat :=
  ((sortBy (fun q => q.1 * 32 + q.2.1) (sortBy (fun q => q.2.2) (s.bankQueue c v b))).head?).map (fun q => q.2.2)

/-- The bank has served its part of a request. -/
def State.bankServed (s : State) (c id b : Nat) : State :=
  let r := s.region c
  (s.setRegion c { r with
    accs := r.accs.map (fun a => if a.id = id then { a with banks := a.banks.erase b } else a)
    pend := r.pend.map (fun p => if p.id = id then { p with banks := p.banks.erase b } else p) }).mapFetch c id (fun f =>
      { f with banks := f.banks.erase b })

/-- Perform the own-scratchpad accesses of nodes and stores of tasks that all their banks have served, in their order. -/
def State.settleOwn : Nat → Nat → State → State
  | 0, _, s => s
  | k + 1, c, s =>
    let r := s.region c
    match r.accs.find? (fun a => a.space == 1 && a.banks.isEmpty && r.accReady a) with
    | some a => State.settleOwn k c (s.performAcc c a)
    | none =>
      match r.pend.find? (fun p => p.space == 1 && p.banks.isEmpty && r.pendReady p) with
      | some p => State.settleOwn k c (s.performPend c p)
      | none => s

/-- Perform the request of an age that the last of its banks has just served, where it came from another cell or its slot waits
for it. -/
def State.settleQueued (s : State) (c id : Nat) : State :=
  let r := s.region c
  match r.accs.find? (fun a => a.id == id && a.space == 2 && a.banks.isEmpty) with
  | some a => s.respondAcc c a
  | none =>
    match r.pend.find? (fun p => p.id == id && p.space == 2 && p.banks.isEmpty) with
    | some p => s.respondPend c p
    | none =>
      match s.fetches.find? (fun f => f.cue == c && f.id == id && f.space != 0 && f.banks.isEmpty && !f.served) with
      | some f => s.serveFetch f
      | none => s

/-- SCRATCHPAD_BANK_SERVE: the oldest request at the bank is served; an access is performed once all its parts are. -/
def execScratchpadBankServe (s : State) : Out :=
  match s.actor with
  | .bank c v b =>
    match s.bankFirst c v b with
    | none => .next s
    | some id =>
      let r := s.region c
      .next ((State.settleOwn (r.accs.length + r.pend.length) c (s.bankServed c id b)).settleQueued c id)
  | _ => .next s

/-! ### Remote accesses (R248) -/

/-- The fabric owns the tiles of ranges of a target's scratchpad. -/
def Region.remoteFree (r : Region) (dst : Nat) (ranges : List (Nat × Nat)) : Bool :=
  let base := poolKey r.die (r.cell dst).site r.taskBytes
  ranges.all (fun p => (r.busyTiles dst (p.1 - base) p.2).isEmpty)

/-- The first of a cell's accesses to another cell that are still to be performed, fetches among them (R248). -/
def State.firstRemote (s : State) (c src dst : Nat) : Option Nat :=
  (((s.region c).firstRemote src dst).toList ++
    (s.fetches.filter (fun f => f.cue == c && f.space == 2 && !f.served && f.cell == src && f.target == dst)).map (fun f => f.id)).min?

/-- The turn of an access of a source cell at its target: it has arrived and is the first of them, and the fabric owns its
tiles (R248). -/
def State.remoteReady (s : State) (c src dst id : Nat) (ranges : List (Nat × Nat)) : Bool :=
  s.landed c 3 id && s.firstRemote c src dst == some id && (s.region c).remoteFree dst ranges

/-- An access of the remote port at its turn: where requests are queued at its banks it queues behind them; else `now` performs
it (R247). -/
def State.remoteTurn (s : State) (c dst id : Nat) (ranges : List (Nat × Nat)) (now : State → State) : State :=
  let bs := keyBanks ranges
  if s.bankQueued c dst bs then
    let r := s.region c
    (s.setRegion c { r with
      accs := r.accs.map (fun a => if a.id = id then { a with banks := bs, made := s.cyc.toNat } else a)
      pend := r.pend.map (fun p => if p.id = id then { p with banks := bs, made := s.cyc.toNat } else p) }).mapFetch c id (fun f =>
        { f with banks := bs, made := s.cyc.toNat })
  else now s

/-- REMOTE_ACCESS_SERVE: accesses from one source cell in the order they arrive, once the fabric owns their tiles. -/
def execRemoteAccessServe (s : State) : Out :=
  let (c, id) := s.actAccess
  let r := s.region c
  match r.accs.find? (fun a => a.id == id && a.space == 2 && a.banks.isEmpty) with
  | some a =>
    let rs := segRanges a.segs.flatten
    if r.accReady a && s.remoteReady c a.cell a.target id rs then .next (s.remoteTurn c a.target id rs (fun s => s.respondAcc c a))
    else .next s
  | none =>
    match r.pend.find? (fun p => p.id == id && p.space == 2 && p.banks.isEmpty) with
    | some p =>
      if r.pendReady p && s.remoteReady c p.vcell p.target id p.ranges then
        .next (s.remoteTurn c p.target id p.ranges (fun s => s.respondPend c p))
      else .next s
    | none =>
      match s.openFetch c id 2 with
      | some f =>
        if f.banks.isEmpty && s.remoteReady c f.cell f.target id f.ranges then
          .next (s.remoteTurn c f.target id f.ranges (fun s => s.serveFetch f))
        else .next s
      | none => .next s

/-- An MRSP has reached the cell: the access gives what it owes once all have (R346). -/
def Region.answered (r : Region) (id : Nat) : Region :=
  let r := { r with accs := r.accs.map (fun (a : Acc) => if a.id = id then { a with answers := a.answers - 1 } else a) }
  match r.accs.find? (fun a => a.id == id) with
  | some a => r.deliver r.accs.length a.entry
  | none => r

/-! ### Walks (R254 to R256) -/

/-- PAGE_WALK: a unit walks a tenant's table for an address, for a read or a write. -/
def execPageWalk (s : State) : Out :=
  match s.actor with
  | .walk u t va wr => .next (translate s u t va wr).2
  | _ => .next s

/-! ### Accesses to a cell that moves (R365, R382) -/

/-- Accesses and stores to the scratchpads of virtual cells follow each cell from its old place, a die and a site, to its new
one: every window names the virtual cell (R140, R333). -/
def Region.followCells (r : Region) (old new : Nat → Nat × Nat) : Region :=
  let key (v k : Nat) : Nat := movedKey (old v) (new v) k
  { r with
    accs := r.accs.map (fun a => if a.space = 0 then a else { a with segs := a.segs.map (fun gs => gs.map (fun g =>
      { g with key := key a.target g.key })) })
    pend := r.pend.map (fun p => if p.space = 0 then p else { p with segs := p.segs.map (fun g => (key p.target g.1, g.2)) }) }

/-- The same of the fetches of a region. -/
def State.followFetches (s : State) (c : Nat) (old new : Nat → Nat × Nat) : State :=
  { s with fetches := s.fetches.map (fun f =>
      if f.cue = c ∧ f.space ≠ 0 then { f with ranges := f.ranges.map (fun g => (movedKey (old f.target) (new f.target) g.1, g.2)) } else f) }

/-- The die and the site of a region's virtual cell. -/
def Region.placeOf (r : Region) (v : Nat) : Nat × Nat := (r.die, (r.cell v).site)

/-! ### Re-walking withheld accesses (R258, R377) -/

/-- A withheld access that turns out to break a right or a format: its firing faults with its tokens (R374). A descriptor
store, whose firing is over, stays withheld and is presented again after resume. -/
def State.accStop (s : State) (c : Nat) (a : Acc) (code sub v0 v1 : Nat) : State :=
  let r := s.region c
  let nd := r.node a.entry
  let ring := (r.opcode a.entry == 0x02 || r.opcode a.entry == 0x03) && (r.fields a.entry).cfg == 0
  let r :=
    if a.extra then r
    else
      let op := if ring then { nd.op with n := nd.op.n - 1 } else nd.op
      let r := { r with accs := r.accs.filter (fun b => b.id != a.id && !(b.entry == a.entry && b.extra && b.fire == a.fire)) }
      r.setNode a.entry { nd with fire := a.fire, faulting := a.took ++ nd.faulting, op := op }
  (s.setRegion c r).startFreeze c a.cell 2 true
    (mkRec code sub r.tenant r.die c a.cell 0 a.copy a.entry 0 a.fire v0 v1 s.cyc.toNat)

/-- Walk a withheld access again. -/
def State.retryAcc (s : State) (c : Nat) (a : Acc) : State :=
  let put (s : State) (f : Acc → Acc) : State :=
    let r := s.region c
    s.setRegion c { r with accs := r.accs.map (fun b => if b.id = a.id then f b else b) }
  match s.accReach c a with
  | (.ok segs, s) =>
    if a.kind = .poll then
      let r := s.region c
      s.setRegion c { r with accs := r.accs.filter (fun b => b.id != a.id) }
    else put s (fun b => { b with segs := segs, withheld := none })
  | (.miss va cause, s) => put (s.postDark c va cause) (fun b => { b with withheld := some (va, cause) })
  | (.viol va right, s) => s.accStop c a 0x02 0 va right
  | (.badFmt va, s) => s.accStop c a 0x01 (nfaultCode .pageFmt) va 0

def State.retryAccs (s : State) (c : Nat) : State :=
  ((s.region c).accs.filter (fun a => a.withheld.isSome)).foldl (fun s a => s.retryAcc c a) s

end Sys2Proof.Machine
end

