-- ==== Sys2Proof/Machine/NodeMem.lean ====
section
/-! DEFINITION. Node firings that access memory (R129 to R131, R143 to R145, R152 to R154, R180). -/

namespace Sys2Proof.Machine

/-- Bytes of a token in the node's format. -/
def tokBytes (n : NodeF) : Nat := lanesOfWid n.wid * fmtSize (nFmt n)

/-- An access of the node's present firing. -/
def Region.newAcc (r : Region) (n : NodeF) (e : Nat) (k : AccKind) : Acc :=
  let nd := r.node e
  { entry := e, copy := copyOf n nd.fire, fire := nd.fire, cell := r.copyCell e (copyOf n nd.fire),
    kind := k, fmt := n.fmt.toNat, pages := 1 }

/-! ### The order input (R144) -/

/-- CPER: an ORDER token at each firing, or where a pattern starts (R144). -/
def orderNeed (n : NodeF) (p : Pat) (fire : Nat) : Bool := n.cfg.getLsbD 0 == false || p.starts fire

/-- A firing that needs an ORDER token of operand C waits for it. -/
def Region.orderWaits (r : Region) (e : Nat) (need : Bool) : Bool :=
  r.named e 2 && need && (match r.opHead e 2 with
    | some (.order _) => false
    | _ => true)

/-- A memory node's firing on DATA of the operands ks, with its order input. A node that holds no token waits for an
operand (R14); off the start of a pattern C is not looked at (R144; log 27). -/
def State.memFiring (s : State) (ks : List Nat) (need : Bool) (k : Region → Nat → List Nat → State) : State :=
  let e := s.actEntry
  let r := s.myRegion
  s.held [((ks.isEmpty || ks.any (fun k => (r.opData e k).isSome)) && r.orderWaits e need, 3), (r.withheldAt e, 5),
      (!r.allData e ks, 6)] (fun _ => k r e (if r.named e 2 && need then ks ++ [2] else ks))

/-- A fault of a firing, which begins only where there is room (R12). -/
def State.memFault (s : State) (n : NodeF) (f : NFault) (ks : List Nat) (aux v0 v1 : Nat) : State :=
  s.roomed 1 (fun s => s.nodeFault n f ks aux v0 v1)

/-- Lane 0 of an offset operand as bytes (R139). -/
def offsetOf (ls : List Lane) : Int := (ls.headD 0).toInt

/-- XFMT. -/
def xfmtOf (n : NodeF) : Nat := nModHi n

/-- Bytes a store writes: its lanes converted from XFMT, placed by R37. -/
def storeBytes (n : NodeF) (ls : List Lane) : List Byte :=
  bytesFromLanes (nFmt n) (if xfmtOf n = 15 then ls else ls.map (cvtLane (fmtOf (xfmtOf n)) (nFmt n) .plain))

/-- A load or store node's access, completed with what it gives. -/
def Region.moveAcc (r : Region) (n : NodeF) (e : Nat) (store : Bool) (data : List Lane) : Acc :=
  { r.newAcc n e (if store then .store else .load) with
    xfmt := xfmtOf n, gives := !store, bytes := if store then storeBytes n data else []
    owed := if n.ord = 1 then some (r.scopeOf n) else none }

/-- An own-scratchpad access at an address (R141). -/
def State.ownAccess (s : State) (n : NodeF) (ks : List Nat) (a : Acc) (sw : Nat) (addr : Int) (len : Nat)
    (next : State → State) : State :=
  let r := s.myRegion
  if addr % fmtSize (nFmt n) ≠ 0 then s.memFault n .misalign ks 0 (BitVec.ofInt 64 addr).toNat 0
  else if addr < 0 ∨ (r.spadBytes : Int) < addr + len then s.memFault n .bounds ks 0 (BitVec.ofInt 64 addr).toNat 0
  else s.presentOwn ks a sw addr.toNat len [r.spadSegs a.cell sw addr.toNat len] next

/-- A global or remote access at an address (R140, R141). -/
def State.farAccess (s : State) (n : NodeF) (ks : List Nat) (a : Acc) (win cell : Nat) (addr : Int) (len : Nat)
    (next : State → State) : State :=
  let r := s.myRegion
  if addr % fmtSize (nFmt n) ≠ 0 then s.memFault n .misalign ks 0 (BitVec.ofInt 64 addr).toNat 0
  else if win = 0xF1 then
    if patFar n ∨ r.ncells ≤ cell ∨ addr < 0 ∨ (r.spadBytes : Int) < addr + len then
      s.memFault n .bounds ks 0 (BitVec.ofInt 64 addr).toNat 0
    else s.presentRemote ks { a with target := cell } addr.toNat len [r.spadSegs cell 0 addr.toNat len] next
  else if addr < 0 ∨ (2 ^ 56 : Int) < addr + len then s.memFault n .bounds ks 0 (BitVec.ofInt 64 addr).toNat 0
  else s.presentGlobal n ks { a with ptrs := [(addr.toNat, len)] } none next

/-! ### LDS, STS, LDG, STG -/

/-- A source-mode load (R144): its pattern once, then EOS; after its last firing everything on C up to EOS is discarded. -/
def State.sourceLoad (s : State) (n : NodeF) (p : Pat) (k : Region → Nat → List Nat → State) : State :=
  let e := s.actEntry
  let r := s.myRegion
  let nd := r.node e
  let c := r.named e 2
  let past := nd.eos || decide (p.total ≤ nd.fire)
  if let (true, some t) := (past && c && !nd.op.flag, r.opHead e 2) then
    (s.setMyRegion (r.opTake e 2)).setOp (fun o => { o with flag := t == .eos })
  else if nd.eos || nd.curt || (r.curtain && !c) then s
  else if past then
    if !(r.accsOf e).isEmpty then s.hold 5 else s.endNode
  else s.memFiring [] (orderNeed n p nd.fire) k

/-- A load: in source mode, or once per DATA token of A. -/
def State.loadNode (s : State) (n : NodeF) (p : Pat) (k : Region → Nat → List Nat → State) : State :=
  let e := s.actEntry
  let r := s.myRegion
  if r.named e 0 then s.memFiring [0] (orderNeed n p (r.node e).fire) k else s.sourceLoad n p k

/-- A store: once per DATA token of A, with B's offset where it is named. -/
def State.storeNode (s : State) (n : NodeF) (p : Pat) (k : Region → Nat → List Nat → State) : State :=
  let e := s.actEntry
  let r := s.myRegion
  s.memFiring (if r.named e 1 then [0, 1] else [0]) (orderNeed n p (r.node e).fire) k

def execLdsN (n : NodeF) (s : State) : Out :=
  let p := ownPat n
  .next (s.loadNode n p (fun r e ks =>
    s.ownAccess n ks (r.moveAcc n e false []) (ownSw n) (p.addr (r.node e).fire (offsetOf (r.lanesAt e 0))) (tokBytes n)
      (fun s => s.takeCount ks)))

def execStsN (n : NodeF) (s : State) : Out :=
  let p := ownPat n
  .next (s.storeNode n p (fun r e ks =>
    s.ownAccess n ks (r.moveAcc n e true (r.lanesAt e 0)) (ownSw n) (p.addr (r.node e).fire (offsetOf (r.lanesAt e 1)))
      (tokBytes n) (fun s => s.takeCount ks)))

def execLdgN (n : NodeF) (s : State) : Out :=
  let p := globPat n
  .next (s.loadNode n p (fun r e ks =>
    s.farAccess n ks (r.moveAcc n e false []) (patWin n) (patCell n) (p.addr (r.node e).fire (offsetOf (r.lanesAt e 0)))
      (tokBytes n) (fun s => s.takeCount ks)))

def execStgN (n : NodeF) (s : State) : Out :=
  let p := globPat n
  .next (s.storeNode n p (fun r e ks =>
    s.farAccess n ks (r.moveAcc n e true (r.lanesAt e 0)) (patWin n) (patCell n)
      (p.addr (r.node e).fire (offsetOf (r.lanesAt e 1))) (tokBytes n) (fun s => s.takeCount ks)))

/-! ### ATM (R152) -/

/-- Lane k acts on PTR + C0 × S0 + 4k. -/
def execAtmN (n : NodeF) (s : State) : Out :=
  let e := s.actEntry
  let r := s.myRegion
  let p := atmPat n
  let ks := if r.named e 1 then [0, 1] else [0]
  .next (s.memFiring ks true (fun r e ks =>
    let w := lanesOfWid n.wid
    let a := { r.newAcc n e .atomic with
      lanes := r.lanesAt e 0, cmp := r.lanesAt e 1, op := nModHi n, gives := true, pages := 2
      owed := if n.ord = 1 then some (r.scopeOf n) else none }
    let addr := p.addr (r.node e).fire 0
    let next := fun (s : State) => s.takeCount ks
    if addr % 4 ≠ 0 then s.memFault n .misalign ks 0 (BitVec.ofInt 64 addr).toNat 0
    else if patWin n = 0 then
      if addr < 0 ∨ (2 ^ 56 : Int) < addr + 4 * w then s.memFault n .bounds ks 0 (BitVec.ofInt 64 addr).toNat 0
      else s.presentGlobal n ks { a with ptrs := (List.range w).map (fun k => (addr.toNat + 4 * k, 4)) } none next
    else
      let v := if patWin n = 0xF1 then patCell n else a.cell
      if patFar n ∨ r.ncells ≤ v ∨ addr < 0 ∨ (r.spadBytes : Int) < addr + 4 * w then
        s.memFault n .bounds ks 0 (BitVec.ofInt 64 addr).toNat 0
      else
        let segs := (List.range w).map (fun k => r.spadSegs v 0 (addr.toNat + 4 * k) 4)
        if patWin n = 0xF1 then
          s.presentRemote ks { a with target := v } addr.toNat (4 * w) segs next
        else s.presentOwn ks a 0 addr.toNat (4 * w) segs next))

/-! ### LDI (R153) -/

def execLdiN (n : NodeF) (s : State) : Out :=
  let sz := fmtSize (nFmt n)
  let base := bits (nExt n 0) 55 0
  let stride := bits (nExt n 1) 31 0
  let lim := bits (nExt n 1) 63 32
  let oob := nModHi n % 2 == 1
  .next (s.memFiring [0] true (fun r e ks =>
    let idx := (r.lanesAt e 0).map (fun l => l.toNat)
    let bad (i : Nat) : Bool := decide (lim ≤ i) && !oob
    let far (i : Nat) : Bool := decide (i < lim) && decide (2 ^ 56 < base + i * stride + sz)
    match idx.findIdx? (fun i => bad i || far i) with
    | some k => s.memFault n .bounds ks k (base + idx.getD k 0 * stride) 0
    | none =>
      let ptrs := idx.map (fun i => if lim ≤ i then (0, 0) else (base + i * stride, sz))
      s.presentGlobal n ks { r.newAcc n e .load with ptrs := ptrs, gives := true
                                                     owed := if n.ord = 1 then some (r.scopeOf n) else none }
        none (fun s => s.takeCount ks)))

/-! ### TFILL (R154) -/

/-- A TFILL whose tile is full and whose flip has not succeeded tries it again (R28). -/
def State.tfillFlip (s : State) (k : State → State) : State :=
  let e := s.actEntry
  let r := s.myRegion
  match r.accsOf e with
  | a :: _ =>
    if a.done then (if r.flipBlocked a then s.hold 4 else s.setMyRegion (r.deliver r.accs.length e)) else k s
  | [] => k s

/-- TFILL: op.n is the offset in the tile being filled, op.m the tile's place in the rotation. -/
def execTfillN (n : NodeF) (s : State) : Out :=
  let t0 := bits (nExt n 0) 11 0
  let nt := bits (nExt n 0) 23 12 + 1
  .next (s.tfillFlip (fun s => s.memFiring [0] false (fun r e ks =>
    let nd := r.node e
    let v := r.copyCell e (copyOf n nd.fire)
    let t := t0 + nd.op.m
    let len := (r.lanesAt e 0).length * fmtSize (nFmt n)
    let last := decide (4096 ≤ nd.op.n + len)
    let a := { r.newAcc n e .store with
      bytes := bytesFromLanes (nFmt n) (r.lanesAt e 0), gives := last
      pass := if last then some (.data [BitVec.ofNat 32 t]) else none, flip := if last then some t else none }
    s.held [(nd.op.n == 0 && (!(r.accsOf e).isEmpty || (r.cell v).tag t != 0), 4)] (fun s =>
      s.presentOwn ks a (ownSw n) (t * 4096 + nd.op.n) len [r.spadSegs v (ownSw n) (t * 4096 + nd.op.n) len] (fun s =>
        (s.takeCount ks).setOp (fun o =>
          if last then { o with n := 0, m := (o.m + 1) % nt } else { o with n := o.n + len }))))))

/-! ### MXMAX (R180) -/

def execMxmaxN (n : NodeF) (s : State) : Out :=
  let win := patWin n
  .next (s.memFiring [0] false (fun r e ks =>
    let ls := r.lanesAt e 0
    let v := if win = 0xF1 then patCell n else r.copyCell e (copyOf n (r.node e).fire)
    let off := if win = 0xF1 then bits (nExt n 0) 39 0 else bits (nExt n 0) 55 0
    let a := { r.newAcc n e .atomic with
      lanes := [widenF32 (nFmt n) (ls.headD 0)], op := 8, fmt := 6, gives := true, pages := 3, pass := some (.data ls) }
    let next := fun (s : State) => s.takeCount ks
    if win = 0 then s.presentGlobal n ks { a with ptrs := [(off, 4)] } none next
    else if patFar n ∨ r.ncells ≤ v ∨ r.spadBytes < off + 4 then s.memFault n .bounds ks 0 off 0
    else if win = 0xF1 then s.presentRemote ks { a with target := v } off 4 [r.spadSegs v 0 off 4] next
    else s.presentOwn ks a 0 off 4 [r.spadSegs v 0 off 4] next))

/-! ### SRC and SNK (R129 to R131) -/

/-- Base, capacity and token stride of an edge port. -/
def edgeBase (n : NodeF) : Nat := bits (nExt n 0) 55 0
def edgeCap (n : NodeF) : Nat := bits (nExt n 1) 31 0
def srcStride (n : NodeF) : Nat := if bits (nExt n 2) 31 0 = 0 then tokBytes n else bits (nExt n 2) 31 0

/-- A load follows earlier accesses of its node that are still to be performed (R268). -/
def Region.loadFollows (r : Region) (a : Acc) : Bool :=
  (r.accsOf a.entry).any (fun b => !b.done && accAfter b { a with kind := .load, pages := 1 })

/-- Read a descriptor word (R130), beside what holds it at the port, after the accesses of its node that it must follow (R268);
a miss presents a poll that waits for its page. -/
def State.readDesc (s : State) (n : NodeF) (ks : List Nat) (addr : Nat) (k : Word → State → State) : State :=
  let a := { s.myRegion.newAcc n s.actEntry .poll with ptrs := [(addr, 8)], pages := 0, extra := true }
  s.nodeFetch a.cell addr 8 (fun s ask =>
    s.held (s.portHolds a a.ptrs) (fun s => s.roomed 1 (fun s =>
      s.reachAcc n ks a (fun a s =>
        if a.withheld.isSome then (s.pushAcc a).hold 5
        else if s.myRegion.loadFollows a then s.hold 5
        else ask (segRanges a.segs.flatten) a.ptrs s))))
    (fun bs s => k (BitVec.ofNat 64 (natOf bs)) s)

/-- The store of a descriptor word, which follows the accesses of the node before it (R130, R131). -/
def Region.descStore (r : Region) (n : NodeF) (e addr v : Nat) (closes : Bool) : Acc :=
  { r.newAcc n e .store with
    ptrs := [(addr, 8)], bytes := bytesOf 8 v, pages := 0, extra := true, closes := closes }

def closedBit (w : Word) : Bool := bits w 63 63 == 1
def countOf (w : Word) : Nat := bits w 62 0

/-- A SRC reads the token at an index and counts the firing; in a ring it stores the new RCOUNT after it. -/
def State.srcToken (s : State) (n : NodeF) (i : Nat) (after : Option Acc) (next : State → State) : State :=
  let e := s.actEntry
  let addr := edgeBase n + i * srcStride n
  if 2 ^ 56 < addr + tokBytes n then s.memFault n .bounds [] 0 addr 0
  else s.presentGlobal n [] { s.myRegion.newAcc n e .load with ptrs := [(addr, tokBytes n)], gives := true } after
    (fun s => next (s.takeCount []))

/-- SRC: buffer mode while NTOK is not 0, else ring mode with op.n the RCOUNT, op.m the last WCOUNT, op.flag set once
RCOUNT has been read, op.asked while a token that WCOUNT shows is still to be read. With BASE below 16 there is no place for
the descriptor, and it stands at address 0 (DESIGN CHOICE, log 16). -/
def execSrcN (n : NodeF) (s : State) : Out :=
  .next (s.source (fun r e nd =>
    let done (s : State) : State := if (r.accsOf e).isEmpty then s.endNode else s.hold 5
    if r.withheldAt e then s.hold 5
    else if n.cfg ≠ 0 then (if n.cfg.toNat ≤ nd.fire then done s else s.srcToken n nd.fire none id)
    else
      let d := edgeBase n - 16
      let rc := nd.op.n
      let token (s : State) : State :=
        s.srcToken n (rc % edgeCap n) (some (r.descStore n e (d + 8) (rc + 1) false)) (fun s =>
          s.setOp (fun o => { o with n := rc + 1, asked := false }))
      if nd.op.flag = false then
        s.readDesc n [] (d + 8) (fun w s => s.setOp (fun o => { o with flag := true, n := countOf w }))
      else if nd.op.asked then token s
      else
        s.readDesc n [] d (fun w s =>
          let wc := countOf w
          if wc < nd.op.m ∨ rc + edgeCap n < wc ∨ wc < rc then s.nodeFault n .ringBroken [] 0 d wc
          else if rc < wc then token (s.setOp (fun o => { o with m := wc, asked := true }))
          else if closedBit w then done (s.setOp (fun o => { o with m := wc }))
          else (s.setOp (fun o => { o with m := wc })).hold 5)))

/-- The WCOUNT a ring-mode SNK starts from (R131): op.n, once op.flag is set. -/
def State.snkStart (s : State) (n : NodeF) (ks : List Nat) (k : State → State) : State :=
  let nd := s.myRegion.node s.actEntry
  let d := edgeBase n - 16
  if n.cfg ≠ 0 ∨ nd.op.flag then k s
  else
    s.readDesc n ks d (fun w s =>
      if closedBit w then s.nodeFault n .ringBroken ks 0 d w.toNat
      else s.setOp (fun o => { o with flag := true, n := countOf w }))

/-- A SNK stores the token of A at an index; in a ring it stores the new WCOUNT after it. -/
def State.snkToken (s : State) (n : NodeF) (ks : List Nat) (i : Nat) (after : Option Acc) (next : State → State) : State :=
  let e := s.actEntry
  let r := s.myRegion
  let addr := edgeBase n + i * tokBytes n
  if 2 ^ 56 < addr + tokBytes n then s.memFault n .bounds ks 0 addr 0
  else s.presentGlobal n ks { r.newAcc n e .store with
      ptrs := [(addr, tokBytes n)], bytes := bytesFromLanes (nFmt n) (r.lanesAt e 0) } after (fun s => next (s.takeCount ks))

/-- SNK: op.n is the WCOUNT and op.m the last RCOUNT of a ring, op.asked while a place that RCOUNT shows is still to be
filled. -/
def execSnkN (n : NodeF) (s : State) : Out :=
  .next (s.memFiring [0] false (fun r e ks =>
    let nd := r.node e
    if n.cfg ≠ 0 then
      if n.cfg.toNat ≤ nd.fire then s.memFault n .sinkFull ks 0 0 0 else s.snkToken n ks nd.fire none id
    else
      s.snkStart n ks (fun s =>
        let d := edgeBase n - 16
        let wc := nd.op.n
        let token (s : State) : State :=
          s.snkToken n ks (wc % edgeCap n) (some (r.descStore n e d (wc + 1) false)) (fun s =>
            s.setOp (fun o => { o with n := wc + 1, asked := false }))
        if nd.op.asked then token s
        else
          s.readDesc n ks (d + 8) (fun w s =>
            let rc := countOf w
            if rc < nd.op.m ∨ wc < rc then s.nodeFault n .ringBroken ks 0 (d + 8) rc
            else if edgeCap n ≤ wc - rc then (s.setOp (fun o => { o with m := rc })).hold 5
            else token (s.setOp (fun o => { o with m := rc, asked := true }))))))

/-- The end of a SNK: after what it stored it stores CLOSED and the count, and takes the EOS (R131). -/
def State.snkClose (s : State) (n : NodeF) (ks : List Nat) : State :=
  s.snkStart n ks (fun s =>
    let e := s.actEntry
    let r := s.myRegion
    let cnt := if n.cfg ≠ 0 then (r.node e).fire else (r.node e).op.n
    let a := r.descStore n e (edgeBase n - 16) (2 ^ 63 + cnt) true
    s.held (s.portHolds a a.ptrs) (fun s =>
      s.reachAcc n ks a (fun a s => s.askPort a [] (fun s => (s.setMyRegion (s.myRegion.opTakeAll e ks)).pushAcc a))))

end Sys2Proof.Machine
end

