-- ==== Sys2Proof/Machine/NodeMat.lean ====
section
/-! DEFINITION. Matrix nodes, configuration-token generators and segment tables (R160 to R179, R181 to R188, R310,
R311). -/

namespace Sys2Proof.Machine

/-! ### Scale registers and outputs that wait -/

/-- SR(j) of a matrix node: the value WSCALE last wrote, or 1.0 (R18, R163). -/
def Node.sr (nd : Node) (j : Nat) : BitVec 16 := nd.wsc.getD (j % 32) 0x3F80

/-- Give the next output of a drain or call that is still to be given. -/
def State.drainNext (s : State) (t : Token) (rest : List Token) : State :=
  s.roomed 1 (fun s =>
    let e := s.actEntry
    let r := s.myRegion.out e 0 [t]
    (s.setMyRegion (r.setNode e { r.node e with fired := true, cause := 6 })).setOp (fun o => { o with out := rest }))

/-- A firing takes more tokens beside those it has, and counts. -/
def State.takeMore (s : State) (ks : List Nat) : State :=
  let e := s.actEntry
  let r := ks.foldl (fun r k => r.opTake e k) s.myRegion
  s.setMyRegion (r.setNode e (r.node e).count)

/-! ### Tiles of a matrix step (R167, R168) -/

def matXfmt (n : NodeF) : Fmt := fmtOf (bits (nExt n 0) 3 0)
def matWfmt (n : NodeF) : Fmt := fmtOf (bits (nExt n 0) 7 4)
def matAcct (n : NodeF) : Nat := bits (nExt n 0) 19 8
def matDmode (n : NodeF) : Bool := bits (nExt n 0) 20 20 == 1

/-- Byte of a scratchpad under a swizzle. -/
def State.spadByte (s : State) (r : Region) (v sw a : Nat) : Byte :=
  memGet s.mem (poolKey r.die (r.cell v).site (r.taskBytes + swz sw a))

/-- Key of an accumulator word (R25, R170). -/
def Region.accKey (r : Region) (v tile m n : Nat) : Nat :=
  poolKey r.die (r.cell v).site (r.taskBytes + r.spadBytes + tile * 4096 + (32 * m + n) * 4)

/-- A weight of a tile, without scale (R168). -/
def State.tileWeight (s : State) (r : Region) (v : Nat) (f : Fmt) (sw tile e : Nat) : Ex :=
  if isGs f then ofIntEx (packedInt f (fun i => s.spadByte r v sw (tile * 4096 + i)) e)
  else floatAt f (fun i => s.spadByte r v sw (tile * 4096 + i)) (e * fmtSize f)

/-- The fields of a step token. -/
structure Step where
  xt : Nat
  wt : Nat
  flags : Nat
  dt : Nat
  deriving DecidableEq, Repr

def stepOf (ls : List Lane) : Step :=
  ⟨(ls.getD 0 0).toNat, (ls.getD 1 0).toNat, (ls.getD 2 0).toNat, (ls.getD 3 0).toNat⟩
def Step.first (t : Step) : Bool := t.flags % 2 == 1
def Step.last (t : Step) : Bool := t.flags / 2 % 2 == 1
def Step.keepX (t : Step) : Bool := t.flags / 4 % 2 == 1
def Step.keepW (t : Step) : Bool := t.flags / 8 % 2 == 1

/-- The faults of R168 in its order; `useX` when XT is read. -/
def stepFault (r : Region) (n : NodeF) (t : Step) (useX : Bool) : Option NFault :=
  let lim := r.spadg * 16
  let rd := t.last && matDmode n
  if (useX && decide (lim ≤ t.xt)) || decide (lim ≤ t.wt) || (rd && decide (lim ≤ t.dt)) then some .bounds
  else if 16 ≤ t.flags then some .stepField
  else if rd && ((useX && t.dt == t.xt) || t.dt == t.wt) then some .stepField
  else none

def gmBase (n : NodeF) : Nat := bits (nExt n 0) 44 24
def gmStride (n : NodeF) : Nat := bits (nExt n 0) 60 45
def gmRows (n : NodeF) : Nat := bits (nExt n 1) 31 0
def gmOob (n : NodeF) : Bool := bits (nExt n 2) 0 0 == 1
/-- The tiles of GMMA's table (R174). -/
def gmTiles (n : NodeF) : List Nat := tilesOf (gmBase n) (gmRows n * gmStride n)

/-- The tags a step waits for (R169), beside its activation tiles: matrix/1, and matrix/0 for a drain tile. -/
def stepTags (r : Region) (n : NodeF) (v : Nat) (t : Step) (xtiles : List Nat) : Bool :=
  (t.wt :: xtiles).all (fun k => (r.cell v).tag k == 3) && (!(t.last && matDmode n) || (r.cell v).tag t.dt == 2)

/-- One K32 block into the accumulator (R170): rows m of X against rows n of W. -/
def stepAcc (x : Nat → Nat → Ex) (w : Nat → Nat → Ex) (sr : Nat → Ex) (acc : Nat → Nat → Lane) (m n : Nat) : Lane :=
  k32Sum (acc m n) ((List.range 32).map (fun k => some (mulProduct (w n k) (sr n) (x m k))))

def State.writeAcc (s : State) (r : Region) (v tile : Nat) (f : Nat → Nat → Lane) : State :=
  (List.range 32).foldl (fun s m =>
    s.write (r.accKey v tile m 0) ((List.range 32).flatMap (fun n => bytesOf 4 (f m n).toNat))) s

/-- Rows drained less one. -/
def matMM1 (n : NodeF) (gather : Bool) : Nat :=
  if gather then bits (nExt n 1) 36 32 else if nXcnt n = 1 then 31 else bits (nExt n 1) 4 0

/-- The drain of a LAST step (R171): tokens, or rows of the drain tile, which flips to fabric/1. -/
def State.matDrain (s : State) (n : NodeF) (r : Region) (v : Nat) (t : Step) (gather : Bool) (f : Nat → Nat → Lane) : State :=
  let rows := List.range (matMM1 n gather + 1)
  let row (m : Nat) : List Lane := (List.range 32).map (fun k => drainCvt (nFmt n) (nCtl n) (f m k))
  if matDmode n = false then
    s.setOp (fun o => { o with out := rows.flatMap (fun m => [.data ((row m).take 16), .data ((row m).drop 16)]) })
  else
    let sw := if gather then 0 else bits (nExt n 0) 29 27
    let sz := fmtSize (nFmt n)
    let s := rows.foldl (fun s m =>
      (r.spadSegs v sw (t.dt * 4096 + 32 * m * sz) (32 * sz)).foldl (fun (p : State × List Byte) g =>
        (p.1.write g.key (p.2.take g.len), p.2.drop g.len)) (s, bytesFromLanes (nFmt n) (row m)) |>.1) s
    let r := s.myRegion
    (s.setMyRegion (r.setCell v ((r.cell v).flipTag s.cyc.toNat (nodeFlipRank s.actEntry) t.dt 1))).setOp (fun o =>
      { o with out := [.data [BitVec.ofNat 32 t.dt]] })

/-- Tiles a step gives back to the fabric (R170, R174): a resident weight tile, one that is also the activation tile, and
one of GMMA's table stay. -/
def stepFrees (n : NodeF) (t : Step) (gather : Bool) : List Nat :=
  let stays := t.keepW || n.res == 1 || (if gather then (gmTiles n).contains t.wt else t.wt == t.xt)
  (if !gather && !t.keepX then [t.xt] else []) ++ (if stays then [] else [t.wt])

/-- A tile the step flips has been flipped in this tick by what comes after the node (R28). -/
def stepFlipLate (r : Region) (n : NodeF) (e v : Nat) (t : Step) (gather : Bool) : Bool :=
  (stepFrees n t gather ++ (if t.last && matDmode n then [t.dt] else [])).any (fun k =>
    (r.cell v).flipLate r.now (nodeFlipRank e) k)

/-- A step whose operands, tags and leave stand: products, sums, flips and drain (R170, R171). -/
def State.matStep (s : State) (n : NodeF) (v : Nat) (t : Step) (ks : List Nat) (gather : Bool) (x : Nat → Nat → Ex)
    : State :=
  let e := s.actEntry
  let r := s.myRegion
  let nd := r.node e
  let wsw := if gather then bits (nExt n 0) 23 21 else bits (nExt n 0) 26 24
  let w (j k : Nat) : Ex := s.tileWeight r v (matWfmt n) wsw t.wt (32 * j + k)
  let old (m j : Nat) : Lane := if t.first then 0 else BitVec.ofNat 32 (s.load (r.accKey v (matAcct n) m j) 4)
  let f := stepAcc x w (fun j => exOfBf16 (nd.sr j).toNat) old
  let s := s.writeAcc r v (matAcct n) f
  let r' := s.myRegion
  let r' := r'.setCell v ((stepFrees n t gather).foldl (fun c k => c.flipTag s.cyc.toNat (nodeFlipRank e) k 0) (r'.cell v))
  let s := if gather then (s.setMyRegion r').takeMore ks else (s.setMyRegion r').takeCount ks
  if t.last then s.matDrain n r v t gather f else s

/-- A step fires (R169): its tags stand, there is room, and a FIRST step has its leave (R309). -/
def State.stepFires (s : State) (t : Step) (tags : Bool) (k : State → State) : State :=
  let die := s.myRegion.die
  s.held [(t.first && s.leaveWaits die s.actor, 1), (!tags, 4)] (fun s => s.roomed 1 (fun s =>
    if t.first then
      match s.askLeave die s.actor 4 with
      | (false, s) => s.hold 1
      | (true, s) => k s
    else k s))

/-- MMA (R167 to R172). -/
def execMmaN (n : NodeF) (s : State) : Out :=
  let e := s.actEntry
  let r := s.myRegion
  let ks := r.namedOps e
  match (r.node e).op.out with
  | t :: rest => .next (s.drainNext t rest)
  | [] =>
    if r.allData e ks = false then .next (s.hold 6)
    else
      let v := r.entryCell e
      let t := stepOf (r.lanesAt e 0)
      match stepFault r n t true with
      | some f => .next (s.memFault n f ks 0 t.xt t.wt)
      | none =>
        .next (s.stepFires t (stepTags r n v t [t.xt] && !stepFlipLate r n e v t false) (fun s =>
          let xsw := bits (nExt n 0) 23 21
          let x (m k : Nat) : Ex :=
            floatAt (matXfmt n) (fun i => s.spadByte r v xsw (t.xt * 4096 + i)) ((32 * m + k) * fmtSize (matXfmt n))
          s.matStep n v t ks false x))

/-! ### GMMA (R173, R174) -/

/-- A fault of a GMMA step keeps the first index token too. -/
def State.gmmaFault (s : State) (n : NodeF) (f : NFault) (held : Token) (aux v0 v1 : Nat) : State :=
  let e := s.actEntry
  let s := s.nodeFault n f [0, 1] aux v0 v1
  let r := s.myRegion
  let nd := r.node e
  s.setMyRegion (r.setNode e { nd with faulting := (1, held) :: nd.faulting, op := { nd.op with held := none } })

/-- GMMA: the first index token waits in op.held, beside A's token, for the second. -/
def execGmmaN (n : NodeF) (s : State) : Out :=
  let e := s.actEntry
  let r := s.myRegion
  match (r.node e).op.out with
  | t :: rest => .next (s.drainNext t rest)
  | [] =>
    if r.allData e [0, 1] = false then .next (s.hold 6)
    else
      match (r.node e).op.held with
      | none =>
        .next ((s.setMyRegion ((r.forget e).opTake e 1)).setOp (fun o => { o with held := some (.data (r.lanesAt e 1)) }))
      | some h =>
        let v := r.entryCell e
        let t := stepOf (r.lanesAt e 0)
        let idx := (h.dataLanes ++ r.lanesAt e 1).map (fun l => l.toNat)
        let xsz := fmtSize (matXfmt n)
        match stepFault r n t false, idx.findIdx? (fun i => decide (gmRows n ≤ i) && !gmOob n) with
        | some f, _ => .next (s.roomed 1 (fun s => s.gmmaFault n f h 0 0 t.wt))
        | none, some m => .next (s.roomed 1 (fun s => s.gmmaFault n .bounds h m (idx.getD m 0) 0))
        | none, none =>
          .next (s.stepFires t (stepTags r n v t (gmTiles n) && !stepFlipLate r n (s.actEntry) v t true) (fun s =>
            let x (m k : Nat) : Ex :=
              if gmRows n ≤ idx.getD m 0 then .fin false 0 0
              else floatAt (matXfmt n) (fun i => s.spadByte r v 0 i) (gmBase n + idx.getD m 0 * gmStride n + k * xsz)
            (s.matStep n v t [0, 1] true x).setOp (fun o => { o with held := none })))

/-! ### MVM (R175 to R179, R310, R311) -/

def mvmBatch (n : NodeF) : Nat := n.cfg.toNat % 64 + 1
def mvmBase (n : NodeF) : Nat := bits (nExt n 0) 55 0
def mvmK (n : NodeF) : Nat := bits (nExt n 1) 15 0 + 1
def mvmN (n : NodeF) : Nat := bits (nExt n 1) 31 16 + 1
def mvmTiles (n : NodeF) : List Nat := (List.range (bits (nExt n 2) 23 12 + 1)).map (fun k => bits (nExt n 2) 11 0 + k)
/-- Input tokens of a call. -/
def mvmNeed (n : NodeF) : Nat := mvmBatch n * mvmK n / 16
/-- Rows of X: K/16 tokens each. -/
def mvmRowsX : Nat → Nat → List (List Lane) → List (List Lane)
  | 0, _, _ => []
  | b + 1, k, ts => (ts.take k).flatten :: mvmRowsX b k (ts.drop k)

/-- The parameter block that stands for a wings-path call (R311). -/
def mvmCallWords (n : NodeF) (stack : Nat) : List Word :=
  [BitVec.ofNat 64 (1 + field stack 8 + field (nModHi n) 16 + field n.fmt.toNat 20 + field (n.mod.toNat % 16) 24
      + field (mvmBatch n - 1) 32), 0, 0, BitVec.ofNat 64 (mvmBase n),
    BitVec.ofNat 64 (mvmK n - 1 + field (mvmN n - 1) 16)]

/-- A call counts for its path, unless the count was cleared in this tick (R22, R202). -/
def Node.countPath (nd : Node) (k : Nat) : Node :=
  if nd.cleared.contains (0, 16 + k) then nd
  else
    let bump (n : Nat) : Nat := min (n + 1) (2 ^ 32 - 1)
    { nd with op := if k = 0 then { nd.op with prm := bump nd.op.prm } else { nd.op with prmw := bump nd.op.prmw } }

def State.countPath (s : State) (k : Nat) : State :=
  let r := s.myRegion
  s.setMyRegion (r.setNode s.actEntry ((r.node s.actEntry).countPath k))

/-- Every resident tile has a tag. -/
def residentAll (r : Region) (n : NodeF) (v : Nat) (tag : BitVec 3) : Bool :=
  n.res == 1 && (mvmTiles n).all (fun t => (r.cell v).tag t == tag)

/-- PORT of R310: the requests presented to the slice that serves a site and not yet performed there; those of an LDI go to a
Wings unit (R256). -/
def State.slicePort (s : State) (slice : Nat) : Nat :=
  min 255 (s.regions.foldl (fun k p =>
    let r := p.2
    let at_ (v : Nat) : Bool := sliceOf r.die (r.cell v).site == slice
    let here (a : Acc) : Bool :=
      a.space == 0 && !a.done && a.withheld.isNone && at_ a.cell && decide (s.accUnit p.1 a < 1000)
    k + (mreqParts (((r.accs.filter here).flatMap (fun a => a.ptrs))
        ++ ((r.pend.filter (fun q => q.space == 0 && at_ q.vcell)).flatMap (fun q => q.ranges)))).length
      + ((s.fetches.filter (fun f => f.cue == p.1 && f.space == 0 && !f.served && at_ f.cell)).flatMap (fun f => f.parts)).length) 0)

/-- The path of R310: true for the wings path. -/
def State.prompterWings (s : State) (n : NodeF) (v stack wbytes : Nat) : Bool :=
  let r := s.myRegion
  if (s.die (dieOfStack stack)).power.dead then false
  else if r.prmBatch ≤ mvmBatch n then false
  else if residentAll r n v 3 then false
  else if r.prmQmax ≤ min 16 (s.wing stack).qm.length then false
  else decide (r.prmPort ≤ s.slicePort (sliceOf r.die (r.cell v).site)) || decide (r.prmBytes ≤ wbytes)

/-- A call whose translation misses is withheld, with the index of the firing that gathered its last token (R178). -/
def State.callWithheld (s : State) (n : NodeF) (va cause : Nat) : State :=
  let e := s.actEntry
  let a := { s.myRegion.newAcc n e .poll with ptrs := [(va, 1)], pages := 0, extra := true }
  ((s.postDark s.actCue va cause).pushAcc { a with fire := a.fire - 1, withheld := some (va, cause) }).hold 5

/-- A call that stops: the firing that gathered its last token faults with that token (R374; log 21). `stop` is the fault or the
violation. -/
def State.callStop (s : State) (stop : State → State) : State :=
  let e := s.actEntry
  let r := s.myRegion
  let nd := r.node e
  let back : Node := { nd with fire := nd.fire - 1, op := { nd.op with rows := nd.op.rows.dropLast, granted := false, phase := 0 } }
  let s := stop (s.setMyRegion (r.setNode e back))
  let r := s.myRegion
  let nd' := r.node e
  s.setMyRegion (r.setNode e { nd' with faulting := nd'.faulting ++ (nd.op.rows.getLast?.map (fun a => (0, Token.data a))).toList })

/-- Outputs of a call as tokens, vector by vector (R176). -/
def callTokens (rows : List (List Lane)) : List Token := rows.flatMap (fun row => (chunk16 row).map Token.data)

/-- The stage path (R177, R178): W from memory, or from resident tiles once they hold it. The page bytes that must fit in the
resident tiles, and are copied there, run from WBASE to the end of W, the unused ends of granules among them (DESIGN CHOICE,
log 21). -/
def State.mvmStage (s : State) (n : NodeF) (v : Nat) (f : Fmt) (geom : Nat) : State :=
  let e := s.actEntry
  let r := s.myRegion
  let nd := r.node e
  let x := mvmRowsX (mvmBatch n) (mvmK n / 16) nd.op.rows
  let sr := (List.range 32).map nd.sr
  let rowsOf (rd : Nat → Byte) : List (List Lane) :=
    mvmRows f geom rd (mvmN n) (mvmK n) sr (fmtOf (nModHi n)) (nFmt n) (n.mod.toNat % 16) x
  let give (s : State) (rows : List (List Lane)) : State :=
    (s.setOp (fun o => { o with out := callTokens rows })).countPath 0
  let base := ((mvmTiles n).headD 0) * 4096
  if residentAll r n v 2 && (mvmTiles n).any (fun t => (r.cell v).flipLate s.cyc.toNat (nodeFlipRank e) t) then s.hold 5
  else if residentAll r n v 3 then give s (rowsOf (fun i => s.spadByte r v 0 (base + i)))
  else
    let ext := weightExtent f geom (mvmN n) (mvmK n)
    s.nodeFetch v (mvmBase n) ext (fun s ask =>
      match s.reach (sliceOf r.die (r.cell v).site) r.tenant r.die (mvmBase n) ext true false with
      | (.miss va cause, s) => s.callWithheld n va cause
      | (.viol va right, s) => s.callStop (fun s => s.nodeViolation n [] va right)
      | (.ok segs, s) => ask (segRanges segs) [(mvmBase n, weightBytes f geom (mvmN n) (mvmK n))] s)
      (fun bs s =>
        let s := give s (rowsOf (fun i => bs.getD i 0))
        if residentAll r n v 2 && decide (ext ≤ (mvmTiles n).length * 4096) then
          let s := s.write (poolKey r.die (r.cell v).site (r.taskBytes + base)) bs
          let r := s.myRegion
          s.setMyRegion (r.setCell v ((mvmTiles n).foldl (fun c t => c.flipTag s.cyc.toNat (nodeFlipRank e) t 3) (r.cell v)))
        else s)

/-- A call with its inputs and its leave: the page of WBASE through the slice (R310), the checks of R162, then its path, kept
in op.phase (1 stage, 2 wings). The power of the home stack does not matter before the path is chosen. A WBASE outside HBM has
no home stack; R310 names no path then, and the stage path is taken (DESIGN CHOICE, log 34). W past 2^56 is BOUNDS (log 21). -/
def State.mvmCall (s : State) (n : NodeF) : State :=
  let e := s.actEntry
  let r := s.myRegion
  let nd := r.node e
  let v := r.entryCell e
  let wb := mvmBase n
  match translate s (sliceOf r.die (r.cell v).site) r.tenant wb false with
  | (.invalid, s) => s.callWithheld n wb 0
  | (.malformed, s) => s.callWithheld n wb 1
  | (.migrating, s) => s.callWithheld n wb 2
  | (.dark _, s) => s.callWithheld n wb 3
  | (.ok leaf pa, s) =>
    let f := fmtOf (leafFmt leaf)
    let geom := leafGeom leaf
    let wbytes := weightBytes f geom (mvmN n) (mvmK n)
    match rights leaf r.tenant true false with
    | some right => s.callStop (fun s => s.nodeViolation n [] wb right)
    | none =>
      let ext := weightExtent f geom (mvmN n) (mvmK n)
      match weightCheck f geom wb (mvmK n), s.mixedPage r.tenant wb ext f geom with
      | 1, _ => s.callStop (fun s => s.nodeFault n .misalign [] 0 wb 0)
      | 2, _ => s.callStop (fun s => s.nodeFault n .wfmt [] 0 wb (leafFmt leaf))
      | _, some va =>
        let g := ((s.weightPage r.tenant va).map (fun p => p.1)).getD f
        s.callStop (fun s => s.nodeFault n (if isWeightFmt g then .pageFmt else .wfmt) [] 0 va 0)
      | _, none =>
        if 2 ^ 56 < wb + ext then s.callStop (fun s => s.nodeFault n .bounds [] 0 wb 0)
        else
        let stack := stackOf pa
        let wings := inHbm pa && s.prompterWings n v stack wbytes
        if nd.op.phase = 2 ∨ (nd.op.phase = 0 ∧ wings) then
          if s.queueRoom (wingsQueue stack 0) = false then (s.setOp (fun o => { o with phase := 2 })).hold 5
          else
            let blk : WBlk := { cue := s.actCue, vcell := v, task := false, agent := e, call := true, fire := nd.fire - 1,
                                words := mvmCallWords n stack, x := mvmRowsX (mvmBatch n) (mvmK n / 16) nd.op.rows,
                                sr := (List.range 32).map nd.sr }
            ((s.enqueueWings stack blk).setOp (fun o => { o with phase := 2, flag := true })).countPath 1
        else (s.setOp (fun o => { o with phase := 1 })).mvmStage n v f geom

/-- A firing gathers a token of a call's input, where there is room (R12, R15, R17, R176). -/
def State.gather (s : State) (n : NodeF) (a : List Lane) : State :=
  s.roomed 1 (fun s =>
    let e := s.actEntry
    let r := s.myRegion.opTake e 0
    let nd := (r.node e).setP (copyOf n (r.node e).fire) [a]
    (s.setMyRegion (r.setNode e nd.count)).setOp (fun o => { o with rows := o.rows ++ [a] }))

/-- The last output of a call has been given. -/
def State.endCall (s : State) : State :=
  (s.setMyRegion (s.myRegion.forget s.actEntry)).setOp (fun o => { o with rows := [], granted := false, phase := 0 })

/-- MVM: op.rows gathers the inputs, op.out holds outputs not yet given, op.flag stands while a unit runs the call. R178 takes an
ORDER token between calls; one amid a call's input, of which it says nothing, is taken and discarded at once (DESIGN CHOICE,
log 21). -/
def execMvmN (n : NodeF) (s : State) : Out :=
  let e := s.actEntry
  let r := s.myRegion
  let nd := r.node e
  match nd.op.out with
  | t :: rest =>
    let s' := s.drainNext t rest
    if rest.isEmpty ∧ (s'.myRegion.node e).op.out.isEmpty then
      .next s'.endCall
    else .next s'
  | [] =>
    if nd.op.flag ∨ r.withheldAt e then .next (s.hold 5)
    else if mvmNeed n ≤ nd.op.rows.length then
      if nd.op.granted then .next (s.mvmCall n)
      else
        match s.askLeave r.die s.actor (ceilDiv (mvmBatch n * mvmN n * mvmK n) 65536) with
        | (false, s) => .next (s.hold 1)
        | (true, s) => .next ((s.setOp (fun o => { o with granted := true })).mvmCall n)
    else
      match r.opHead e 0 with
      | some (.data a) => .next (s.gather n a)
      | some (.order _) => .next (s.setMyRegion (r.opTake e 0))
      | _ => .next (s.hold 6)

/-! ### WSCALE, TSEL, TSWAP (R164, R165) -/

def execWscaleN (n : NodeF) (s : State) : Out := .next (s.periodNode n 0)

/-- TSEL: op.flag stands once the token for this stream has been given. -/
def execTselN (n : NodeF) (s : State) : Out :=
  .next (s.dataFiring 1 (fun r e ks =>
    let a := r.lanesAt e 0
    if (r.node e).op.flag then s.fire n ks [(0, .data a)] [a]
    else
      let t : Token := .cfg 1 (genTarget n e) [BitVec.ofNat 32 (genPeriod n % 16)]
      (s.setMyRegion (r.out e 0 [t])).setOp (fun o => { o with flag := true })))

/-- Give one TSWAP token for the position on B, and take it. -/
def State.giveSwap (s : State) (n : NodeF) : State :=
  s.roomed 1 (fun s =>
    let e := s.actEntry
    s.setMyRegion ((s.myRegion.opTakeAll e [1]).out e 0 [.cfg 2 (genTarget n e) []]))

/-- TSWAP: the firing index is the number of A's next DATA token. -/
def execTswapN (n : NodeF) (s : State) : Out :=
  let e := s.actEntry
  let r := s.myRegion
  let i := (r.node e).fire
  match r.opHead e 0, r.opHead e 1 with
  | some (.data a), some (.data b) =>
    let p := (b.headD 0).toNat
    if p < i then .next (s.nodeFault n .swapOrder [0, 1] 0 p i)
    else if p = i then .next (s.giveSwap n)
    else .next (s.roomed 1 (fun s => s.fire n [0] [(0, .data a)] [a]))
  | some (.data a), some .eos => .next (s.roomed 1 (fun s => s.fire n [0] [(0, .data a)] [a]))
  | some .eos, some (.data _) => .next (s.giveSwap n)
  | some .curtain, some (.data b) =>
    let p := (b.headD 0).toNat
    if p < i then .next (s.nodeFault n .swapOrder [1] 0 p i)
    else if p = i then .next (s.giveSwap n)
    else .next (s.hold 6)
  | _, _ => .next (s.hold 6)

/-! ### Segment tables (R181 to R188) -/

/-- A bank's header (R182). -/
structure TabHdr where
  m : Nat
  sym : Nat
  rr : Nat
  dom : Nat
  count : Nat
  key0 : Nat
  present : Nat → Bool
  invp : Lane
  phi : Lane
  pmid : Lane
  plo : Lane

def tabHdr (ws : List Word) : TabHdr :=
  let w0 := wordAt ws 0
  { m := bits w0 4 0, sym := bits w0 9 8, rr := bits w0 11 10, dom := bits w0 13 12, count := bits w0 23 16
    key0 := bits w0 63 32
    present := fun j => (wordAt ws (1 + j / 64)).getLsbD (j % 64)
    invp := (wordAt ws 5).setWidth 32, phi := BitVec.ofNat 32 (bits (wordAt ws 5) 63 32)
    pmid := (wordAt ws 6).setWidth 32, plo := BitVec.ofNat 32 (bits (wordAt ws 6) 63 32) }

def f32Finite (l : Lane) : Bool :=
  match exOf32 l with
  | .fin _ _ _ => true
  | _ => false
/-- Positive, finite and normal. -/
def f32PosNormal (l : Lane) : Bool := decide (0x00800000 ≤ l.toNat) && decide (l.toNat < 0x7F800000)

/-- A header within the limits of R182. -/
def tabHdrOk (ws : List Word) : Bool :=
  let w0 := wordAt ws 0
  let h := tabHdr ws
  decide (h.m ≤ 23) && bits w0 7 5 == 0 && decide (h.sym ≤ 2) && decide (h.rr ≤ 2) && bits w0 15 14 == 0
    && decide (1 ≤ h.count) && decide (h.count ≤ 252) && bits w0 31 24 == 0
    && decide (h.key0 + h.count ≤ 2 ^ (9 + h.m)) && bits (wordAt ws 4) 63 60 == 0
    && wordAt ws 7 == 0 && f32Finite h.invp && (h.rr != 1 || (f32PosNormal h.phi && f32Finite h.pmid && f32Finite h.plo))

/-- What a lane of TEVAL comes to: a value, or a fault with its index where one was formed. -/
inductive TabOut where
  | val (x : Ex)
  | lane (l : Lane)
  | fault (f : NFault) (idx : Int)

def fma32 (a b c : Ex) : Ex := exOf32 (rne32 (Ex.add .rne (Ex.mul a b) c))

/-- Floor of an exact finite value. -/
def floorEx (neg : Bool) (m : Nat) (e : Int) : Int := roundInt .rdn neg m e

def exNeg? : Ex → Bool
  | .fin s m _ => s && m != 0
  | .inf s => s
  | .nan => false

/-- The reduction loop of PERIOD: v for q, lowering q while v is negative, at most twice. -/
def periodLoop (h : TabHdr) (a : Ex) : Nat → Int → Option Ex
  | 0, _ => none
  | k + 1, q =>
    let nq := ofIntEx (-q)
    let v := fma32 nq (exOf32 h.plo) (fma32 nq (exOf32 h.pmid) (fma32 nq (exOf32 h.phi) a))
    match v with
    | .nan | .inf _ => none
    | .fin _ _ _ => if exNeg? v then periodLoop h a k (q - 1) else some v

/-- PERIOD: the reduced argument, none where the policy applies (R186, R187). -/
def periodReduce (h : TabHdr) (a : Ex) : Option Ex :=
  match exOf32 (rne32 (Ex.mul a (exOf32 h.invp))) with
  | .fin s m e =>
    let q := floorEx s m e
    if 2 ^ 16 ≤ q.natAbs then none else periodLoop h a 3 q
  | _ => none

/-- The policy out of reduction (R187). -/
def outOfReduction (h : TabHdr) (f : Fmt) : TabOut :=
  match h.dom with
  | 0 => .fault .tableDomain 0
  | 3 => .lane (placeBits f 0)
  | _ => .lane (nanLane f)

/-- The code of a float as a 32-bit number, its exact value known to be an f32. -/
def codeOf (x : Ex) : Nat := (rne32 x).toNat

/-- The polynomial of segment idx at a, times 2^n and signed (R186). -/
def segValue (rd : Nat → Byte) (h : TabHdr) (idx : Nat) (a : Ex) (n : Int) (flip : Bool) : Ex :=
  let c (j : Nat) : Ex := exOf32 (BitVec.ofNat 32 (natOf ((List.range 4).map (fun b => rd (64 + 16 * idx + 4 * j + b)))))
  let start := exOf32 (BitVec.ofNat 32 ((h.key0 + idx) * 2 ^ (23 - h.m)))
  let t := exOf32 (rne32 (Ex.add .rne a start.neg))
  let r := fma32 (fma32 (fma32 (c 3) t (c 2)) t (c 1)) t (c 0)
  let r := if flip then r.neg else r
  match r with
  | .fin s m e => .fin s m (e + n)
  | r => r

/-- The key of a, its policy, and the segment (R186, R187). -/
def tabLookup (rd : Nat → Byte) (h : TabHdr) (f : Fmt) (a : Ex) (n : Int) (flip : Bool) : TabOut :=
  let idx : Int := (codeOf a / 2 ^ (23 - h.m) : Nat) - (h.key0 : Int)
  let go (i : Nat) : TabOut :=
    if h.present i = false then .fault .tableGap i else .val (segValue rd h i a n flip)
  if 0 ≤ idx ∧ idx < h.count then go idx.toNat
  else
    match h.dom with
    | 0 => .fault .tableDomain idx
    | 1 => go (if idx < 0 then 0 else h.count - 1)
    | 2 => .lane (nanLane f)
    | _ => .lane (placeBits f 0)

/-- The value of a lane before its linear term and final rounding. -/
def tabBase (rd : Nat → Byte) (h : TabHdr) (f : Fmt) (x : Ex) : TabOut :=
  let a := if h.sym = 0 then x else x.abs
  let flip := h.sym == 1 && x.negSign
  match h.rr with
  | 1 =>
    match periodReduce h a with
    | none => outOfReduction h f
    | some v => tabLookup rd h f v 0 flip
  | 2 =>
    match exOf32 (rne32 (Ex.mul a (exOf32 h.invp))) with
    | .nan => tabLookup rd h f .nan 0 flip
    | .inf s => .val (if s then .fin false 0 0 else .inf false)
    | .fin s m e =>
      let n := floorEx s m e
      tabLookup rd h f (exOf32 (rne32 (Ex.add .rne (.fin s m e) (ofIntEx (-n))))) n flip
  | _ => tabLookup rd h f a 0 flip

/-- One lane of TEVAL (R186). -/
def tevalLane (rd : Nat → Byte) (h : TabHdr) (n : NodeF) (l : Lane) : TabOut :=
  let f := nFmt n
  let c := nCtl n
  match laneF (srcFmt (nModHi n % 4)) { c with rm := .rne, sat := false } l with
  | .nan => .lane (nanLane f)
  | x =>
    match tabBase rd h f x with
    | .val base =>
      let v := if nXcnt n = 0 then base else Ex.add c.rm base (Ex.mul x (exOf32 ((nExt n 0).setWidth 32)))
      .lane (roundLane f c v)
    | o => o

/-- The first lane that faults, with its fault and index, else the lanes. -/
def tevalLanes (rd : Nat → Byte) (h : TabHdr) (n : NodeF) : Nat → List Lane → List Lane → (Nat × NFault × Int) ⊕ List Lane
  | _, [], acc => .inr acc.reverse
  | k, l :: ls, acc =>
    match tevalLane rd h n l with
    | .lane y => tevalLanes rd h n (k + 1) ls (y :: acc)
    | .val _ => tevalLanes rd h n (k + 1) ls (0 :: acc)
    | .fault f i => .inl (k, f, i)

/-- The bits of x of R186, VAL0 of a table fault. -/
def tevalBits (n : NodeF) (l : Lane) : Nat :=
  let f := srcFmt (nModHi n % 4)
  match laneF f { nCtl n with rm := .rne, sat := false } l with
  | .nan => (widenF32 f l).toNat
  | x => codeOf x

/-- VAL1 of a table fault: the absolute slot, BSEL in bit 8, the index in bits 63:32 (R188; log 14). -/
def tabVal1 (slot : Nat) (bsel : Bool) (idx : Int) : Nat :=
  slot + (if bsel then 256 else 0) + field (idx % 2 ^ 32).toNat 32

/-! #### Service of the Table Store (R189) -/

/-- A node's next copy waits for a TLOAD that writes the bank it selects (R184). -/
def Region.tabLoading (r : Region) (e : Nat) : Bool :=
  let copy := copyOf (r.fields e) (r.node e).fire
  let el := (r.node e).elem copy
  decide (16 ≤ el.tbind.toNat) && (r.cell (r.copyCell e copy)).tloads.any (fun t =>
    t.slot == el.tbind.toNat % 16 && t.bank == (if el.bsel then 1 else 0))

/-- The cell and element of a node's next copy. -/
def Region.nextElem (r : Region) (e : Nat) : Nat × Nat :=
  let copy := copyOf (r.fields e) (r.node e).fire
  (r.copyCell e copy, ((r.cellOf.getD e (0, 0)).2 + copy) % 16)

/-- A TEVAL that could fire in this tick. -/
def Region.tevalReady (r : Region) (e : Nat) : Bool :=
  r.opcode e == 0x92 && !(r.node e).fired && r.allData e [0] && r.room (.entry e 0) 1 && !r.tabLoading e

/-- The element a cell's service began with in this tick, and the blocks given in it. -/
def VCell.tabTurn (c : VCell) (now : Nat) : Nat × Nat :=
  if c.tabAt = now then (c.tabStart, c.tabUsed) else ((c.tabLast + 1) % 16, 0)

/-- Place of an element in an order that begins with another. -/
def tabPlace (start x : Nat) : Nat := (x + 16 - start) % 16

/-- A node's next copy is served in this tick: its blocks fit beside those given and those of the ready copies before it. -/
def Region.tabServes (r : Region) (now e : Nat) : Bool :=
  let (v, x) := r.nextElem e
  let (start, used) := (r.cell v).tabTurn now
  let ahead := (List.range r.entries.length).filter (fun i => i != e && r.tevalReady i && (r.nextElem i).1 == v
    && decide (tabPlace start (r.nextElem i).2 < tabPlace start x))
  decide (used + (((ahead ++ [e]).map (fun i => (r.lanesAt i 0).length)).foldl (· + ·) 0) ≤ 64)

/-- The Store has served a node's next copy. -/
def Region.tabServed (r : Region) (now e : Nat) : Region :=
  let (v, x) := r.nextElem e
  let c := r.cell v
  let (start, used) := c.tabTurn now
  let last := if c.tabAt = now ∧ tabPlace start x < tabPlace start c.tabLast then c.tabLast else x
  r.setCell v { c with tabAt := now, tabStart := start, tabUsed := used + (r.lanesAt e 0).length, tabLast := last }

/-- TEVAL (R185 to R189): a bound copy reads the bank it selects; it waits while a TLOAD writes that bank (R184). -/
def execTevalN (n : NodeF) (s : State) : Out :=
  .next (s.onData (fun r e ks =>
    let nd := r.node e
    let copy := copyOf n nd.fire
    let el := nd.elem copy
    let v := r.copyCell e copy
    let a := r.lanesAt e 0
    let bank := if el.bsel then 1 else 0
    let slot := s.absSlot (el.tbind.toNat % 16)
    let bound := decide (16 ≤ el.tbind.toNat)
    let now := s.cyc.toNat
    s.held [(r.tabLoading e || (bound && !r.tabServes now e), 2)] (fun s => s.roomed 1 (fun s =>
      if bound = false then s.nodeFault n .tableUnbound ks 0 (tevalBits n (a.headD 0)) (tabVal1 0 el.bsel 0)
      else
        let key := tableKey r.die (r.cell v).site (slot * 8192 + bank * 4096)
        let rd (i : Nat) : Byte := memGet s.mem (key + i)
        let ws := wordsOfBytes (s.read key 64)
        if tabHdrOk ws = false then s.nodeFault n .tableHdr ks 0 (tevalBits n (a.headD 0)) (tabVal1 slot el.bsel 0)
        else
          match tevalLanes rd (tabHdr ws) n 0 a [] with
          | .inl (k, f, idx) => s.nodeFault n f ks k (tevalBits n (a.getD k 0)) (tabVal1 slot el.bsel idx)
          | .inr out => (s.setMyRegion (r.tabServed now e)).fire n ks [(0, .data out)] [out]))))

end Sys2Proof.Machine
end

