-- ==== Sys2Proof/Machine/NodePass.lean ====
section
/-! DEFINITION. CHAIN and CSUM (R112 to R121). -/

namespace Sys2Proof.Machine

/-! ### CHAIN -/

def chainW (n : NodeF) : Nat := 2 ^ (n.cfg.toNat % 8)
def chainN (n : NodeF) : Nat := bits (nExt n 0) 63 48 + 1
def chainSfmt (n : NodeF) : Fmt := fmtOf (bits (nExt n 1) 51 48)
def chainDfmt (n : NodeF) : Fmt := fmtOf (bits (nExt n 1) 55 52)
def chainS2fmt (n : NodeF) : Fmt := fmtOf (bits (nExt n 2) 27 24)
def chainSrc (n : NodeF) (i : Nat) : Nat := bits (nExt n 0) 23 0 + i * chainW n * fmtSize (chainSfmt n)
def chainSrc2 (n : NodeF) (i : Nat) : Nat := bits (nExt n 2) 23 0 + i * chainW n * fmtSize (chainS2fmt n)
def chainDst (n : NodeF) (i : Nat) : Nat := bits (nExt n 0) 47 24 + i * chainW n * fmtSize (chainDfmt n)
/-- Stage byte k, from 0. -/
def chainStage (n : NodeF) (k : Nat) : Nat := bits (nExt n 1) (8 * k + 7) (8 * k)

/-- A scale register as a stage reads it (R113). -/
def sclLane (f : Fmt) (l : Lane) : Lane := if fmtIsFloat f then cvtLane .f32 f .plain l else placeBits f l.toNat

/-- One lane of one stage (R113). MOD's FTZ acts where a stage rounds; whether it flushes the operands of MIN, MAX, ABS, NEG and
RELU, which round nothing, the spec leaves open, and it does not (DESIGN CHOICE, log 21). -/
def stageLane (f : Fmt) (c : Ctl) (op : Nat) (x b b2 : Lane) : Lane :=
  match op with
  | 1 => addLane f c x b
  | 2 => subLane f c x b
  | 3 => mulLane f c x b
  | 4 => minLane f x b
  | 5 => maxLane f x b
  | 6 => absLane f x
  | 7 => negLane f x
  | 8 => fmaLane f c x b b2
  | 9 => maxLane f x 0
  | 10 => mulLane f c x x
  | _ => x

/-- A stage over the lanes of a pass token: `scl` the scale registers, `ys` the second stream. -/
def stageLanes (f : Fmt) (c : Ctl) (byte : Nat) (scl : Nat → Lane) (xs ys : List Lane) : List Lane :=
  let op := byte % 32
  let m := byte / 32 % 4
  let b2 := sclLane f (scl ((m + 1) % 4))
  (List.range xs.length).map (fun k =>
    let b := if byte / 128 % 2 = 1 then ys.getD k 0 else sclLane f (scl m)
    stageLane f c op (xs.getD k 0) b b2)

/-- P1 to P6 of a pass token, given the stage bytes. -/
def chainStages (n : NodeF) (scl : Nat → Lane) (ys : List Lane) : Nat → List Lane → List (List Lane)
  | 0, _ => []
  | k + 1, xs =>
    let p := stageLanes (nFmt n) (nCtl n) (chainStage n (5 - k)) scl xs ys
    p :: chainStages n scl ys k p

/-- Lanes loaded for a pass token, converted to the computing format. -/
def State.chainLoad (s : State) (r : Region) (v : Nat) (n : NodeF) (f : Fmt) (off : Nat) : List Lane :=
  (lanesFromBytes f (s.readSegs (r.spadSegs v 0 off (chainW n * fmtSize f)))).map (cvtLane f (nFmt n) (nCtl n))

/-- The requests of a pass token stand at its element's port until its banks have served them (R247). -/
def chainRequest (e copy v : Nat) (banks : List Nat) : Acc :=
  { entry := e, copy := copy, cell := v, target := v, kind := .poll, space := 1, banks := banks, extra := true }

/-- One pass token: its loads, its six stages and its store (R114), once the fabric owns the tiles (R116). Where requests are
queued at its banks its own queue behind them, and the token goes on once they have been served (R247). -/
def State.chainToken (s : State) (n : NodeF) (i : Nat) : State :=
  let e := s.actEntry
  let r := s.myRegion
  let copy := copyOf n i
  let v := r.copyCell e copy
  let two := nXcnt n == 3
  let len (f : Fmt) : Nat := chainW n * fmtSize f
  let ranges := [(chainSrc n i, len (chainSfmt n)), (chainDst n i, len (chainDfmt n))]
    ++ (if two then [(chainSrc2 n i, len (chainS2fmt n))] else [])
  let banks := keyBanks (ranges.flatMap (fun p => segRanges (r.spadSegs v 0 p.1 p.2)))
  let asked := (r.accsOf e).find? (fun a => a.kind == .poll)
  s.held [(ranges.any (fun p => !(r.busyTiles v p.1 p.2).isEmpty), 4), ((asked.map (fun a => !a.banks.isEmpty)).getD false, 5),
      (asked.isNone && s.bankQueued s.actCue v banks && r.portFull v (r.portOf e copy), 5)] (fun s =>
    if asked.isNone && s.bankQueued s.actCue v banks then (s.pushAcc (chainRequest e copy v banks)).hold 5
    else
    let s := s.setMyRegion { r with accs := r.accs.filter (fun a => a.entry != e) }
    let xs := s.chainLoad r v n (chainSfmt n) (chainSrc n i)
    let ys := if two then s.chainLoad r v n (chainS2fmt n) (chainSrc2 n i) else []
    let nd := r.node e
    let ps := chainStages n (fun j => ((nd.elem copy).scl.toList).getD j 0) ys 6 xs
    let out := (ps.getLastD []).map (cvtLane (nFmt n) (chainDfmt n) (nCtl n))
    let s := s.writeSegs (splitSegs (r.spadSegs v 0 (chainDst n i) (len (chainDfmt n))) (bytesFromLanes (chainDfmt n) out))
    let r := s.myRegion
    s.setMyRegion (r.setNode e { nd.setP copy ps with op := { nd.op with n := i + 1 }, fired := true, cause := 6 }))

/-- Leave of a pass (R309). -/
def chainLeave (n : NodeF) : Nat := leaveUnits (chainN n * chainW n * fmtSize (chainSfmt n))

/-- Start a pass: its leave, then its trigger is taken (R82, R116). -/
def State.chainStart (s : State) (n : NodeF) (ks : List Nat) : State :=
  s.held [(s.leaveWaits s.myRegion.die s.actor, 1)] (fun s => s.roomed 1 (fun s =>
    match s.askLeave s.myRegion.die s.actor (chainLeave n) with
    | (false, s) => s.hold 1
    | (true, s) => (s.takeCount ks).setOp (fun o => { o with flag := true, n := 0 })))

/-- CHAIN: op.flag stands during a pass, op.n is the next pass token, op.m counts passes. -/
def execChainN (n : NodeF) (s : State) : Out :=
  let e := s.actEntry
  let r := s.myRegion
  let nd := r.node e
  if nd.op.flag then
    if nd.op.n < chainN n then .next (s.chainToken n nd.op.n)
    else
      .next (s.roomed 1 (fun s => (s.setMyRegion (r.out e 0 [.data [BitVec.ofNat 32 (chainN n)]])).setOp (fun o =>
        { o with flag := false, n := 0, m := o.m + 1 })))
  else if r.named e 0 then
    match r.opData e 0 with
    | some _ => .next (s.chainStart n [0])
    | none => .next (s.hold 6)
  else
    .next (s.source (fun _ _ nd => if nd.op.m = 0 then s.chainStart n [] else s.endNode))

/-! ### CSUM -/

def csumLen (n : NodeF) : Nat := bits (nExt n 0) 15 0 + 1
/-- MODE: 0 GEN, 1 CMPS, 2 CMPC. -/
def csumMode (n : NodeF) : Nat := nModHi n % 4
/-- The running CRC of A and of B, in op.rows. -/
def csumState (o : OpSt) : Lane × Lane :=
  match o.rows with
  | [[a, b]] => (a, b)
  | _ => (0xFFFFFFFF, 0xFFFFFFFF)
def csumAdd (c : Lane) (ls : List Lane) : Lane := BitVec.ofNat 32 (crcLanes c.toNat ls)
/-- The final exclusive-or (R119). -/
def csumEnd (c : Lane) : Lane := c ^^^ 0xFFFFFFFF

/-- Close the open block with its CRC c and reference: give c, or fault (R120). It counts as a firing, at EOS too, where it takes
no token of A (DESIGN CHOICE, log 21). -/
def State.csumClose (s : State) (n : NodeF) (ks : List Nat) (c ref : Lane) : State :=
  let m := (s.myRegion.node s.actEntry).op.m
  if csumMode n ≠ 0 ∧ c ≠ ref then s.nodeFault n .csumMismatch ks m c.toNat ref.toNat
  else (s.fire n ks [(0, .data [c])] [[c]]).setOp (fun o => { o with rows := [], n := 0, m := o.m + 1 })

/-- CSUM: op.n counts the tokens of the open block, op.m the blocks. -/
def execCsumN (n : NodeF) (s : State) : Out :=
  let e := s.actEntry
  let r := s.myRegion
  let o := (r.node e).op
  let mode := csumMode n
  let closing := o.n + 1 == csumLen n
  let ks := if mode = 1 ∨ (mode = 2 ∧ closing) then [0, 1] else [0]
  if r.allData e ks = false then .next (s.hold 6)
  else .next (s.roomed 1 (fun s =>
    let (a, b) := csumState o
    let a := csumAdd a (r.lanesAt e 0)
    let b := if mode = 1 then csumAdd b (r.lanesAt e 1) else b
    if closing then s.csumClose n ks (csumEnd a) (if mode = 1 then csumEnd b else (r.lanesAt e 1).headD 0)
    else (s.fire n ks [] [r.lanesAt e 0]).setOp (fun o => { o with rows := [[a, b]], n := o.n + 1 })))

end Sys2Proof.Machine
end

