-- ==== Sys2Proof/Machine/Control.lean ====
section
/-! DEFINITION. Control tokens at a node (R13, R33, R101, R125, R166, R184, R378): CFG_TOKEN_TAKE, EOS_TOKEN_TAKE and
CURTAIN_TOKEN_TAKE. -/

namespace Sys2Proof.Machine

/-! ### Configuration tokens -/

/-- Update every copy of a node. -/
def Region.eachCopy (r : Region) (e : Nat) (f : Elem → Elem) : Region :=
  (List.range (nodeRep (r.fields e))).foldl (fun r k =>
    let nd := r.node e
    r.setNode e (nd.setElem k (f (nd.elem k)))) r

/-- A scale-register load (R101). -/
def loadScl (ls : List Lane) (el : Elem) : Elem :=
  { el with scl := Vector.ofFn (fun j => if (ls.getD 4 0).getLsbD j.val then ls.getD j.val 0 else el.scl.get j) }

/-- WSCALE: the scales of the 32 array rows (R165, R166). -/
def loadWsc (ls : List Lane) : List (BitVec 16) :=
  (List.range 32).map (fun j => (ls.getD (j / 2) 0).extractLsb' (16 * (j % 2)) 16)

/-- A copy leaves the slot it is bound to: the bank it selected is the last front, until another copy leaves (R183). -/
def Region.leaveSlot (r : Region) (e copy : Nat) : Region :=
  let el := (r.node e).elem copy
  if el.tbind.toNat < 16 then r
  else
    let v := r.copyCell e copy
    let c := r.cell v
    r.setCell v { c with front := Tab.set c.front (el.tbind.toNat % 16) (if el.bsel then 1 else 0) }

/-- The bank a TSEL selects at a copy: the one other copies bound to the slot select, else the bank last front, which is its
own where it is bound already (R184; of two front banks bank 0, log 14). -/
def Region.selectBank (r : Region) (e slot copy : Nat) : Bool :=
  let v := r.copyCell e copy
  let el := (r.node e).elem copy
  match r.bselsOf ((r.boundCopies v slot).filter (fun p => p != (e, copy))) with
  | [] => if el.tbind.toNat = 16 + slot then el.bsel else Tab.get (r.cell v).front slot 0 == 1
  | bs => !bs.contains false

/-- TSEL at one copy: bind the slot, select its front bank (R184). -/
def Region.applyTsel (r : Region) (e slot copy : Nat) : Region :=
  let bank := r.selectBank e slot copy
  let r := r.leaveSlot e copy
  let nd := r.node e
  r.setNode e (nd.setElem copy { nd.elem copy with tbind := BitVec.ofNat 5 (16 + slot), bsel := bank })

/-- TSWAP at one copy. -/
def Region.applyTswap (r : Region) (e copy : Nat) : Region :=
  let nd := r.node e
  r.setNode e (nd.setElem copy { nd.elem copy with bsel := !(nd.elem copy).bsel })

/-- A CFG token addressed to the node is applied in every copy. -/
def Region.applyCfg (r : Region) (e kind : Nat) (ls : List Lane) : Region :=
  let copies := List.range (nodeRep (r.fields e))
  match kind with
  | 0 => r.setNode e { r.node e with wsc := loadWsc ls }
  | 1 => copies.foldl (fun r k => r.applyTsel e ((ls.headD 0).toNat % 16) k) r
  | 2 => copies.foldl (fun r k => r.applyTswap e k) r
  | _ => r.eachCopy e (loadScl ls)

/-- Forward a token unchanged on each output (R13). -/
def Region.forward (r : Region) (e : Nat) (t : Token) : Region := (r.out e 0 [t]).out e 1 [t]

/-- Apply a CFG token taken on A that names the node, else forward the token. -/
def Region.cfgAct (r : Region) (e : Nat) (onA : Bool) (t : Token) : Region :=
  match t with
  | .cfg kind target ls => if onA && target == e then r.applyCfg e kind ls else r.forward e t
  | t => r.forward e t

/-- The node consumes ORDER tokens on this operand (R13): ORDJ, FENCEN and MVM on A, the memory nodes on C. -/
def takesOrder (opc k : Nat) : Bool :=
  opc == 0x66 || (opc == 0x65 && k == 0) || (opc == 0x81 && k == 0)
    || (k == 2 && (opc == 0x60 || opc == 0x61 || opc == 0x62 || opc == 0x63 || opc == 0x64 || opc == 0x6A))

/-- A token that CFG_TOKEN_TAKE takes. -/
def passToken (opc k : Nat) : Token → Bool
  | .cfg _ _ _ => true
  | .order _ => !takesOrder opc k
  | _ => false

/-- The firings of a source-mode load (R144). -/
def sourceTotal (opc : Nat) (n : NodeF) : Nat := (if opc = 0x60 then ownPat n else globPat n).total

/-- A source-mode load after its last firing takes and discards everything on C up to EOS itself (R144). -/
def Region.drains (r : Region) (e : Nat) : Bool :=
  (r.opcode e == 0x60 || r.opcode e == 0x62) && r.named e 2 && !r.named e 0 && !(r.node e).op.flag
    && ((r.node e).eos || decide (sourceTotal (r.opcode e) (r.fields e) ≤ (r.node e).fire))

/-- The first operand that holds such a token. -/
def Region.cfgAt (r : Region) (e : Nat) : Option Nat :=
  (r.namedOps e).find? (fun k => ((r.opHead e k).map (passToken (r.opcode e) k)).getD false)

/-- MVM with part of a call's input gathered. -/
def Region.mvmPartial (r : Region) (e : Nat) : Bool :=
  let nd := r.node e
  r.opcode e == 0x81 && !nd.op.rows.isEmpty && decide (nd.op.rows.length < mvmNeed (r.fields e))
def Region.mvmFull (r : Region) (e : Nat) : Bool :=
  let nd := r.node e
  r.opcode e == 0x81 && decide (mvmNeed (r.fields e) ≤ nd.op.rows.length)

/-- Everything the node's earlier firings owe has been given: its accesses, its drain, the pass and the results in
progress. A BAR's held token may stay behind a CURTAIN only (R295). -/
def Region.quiet (r : Region) (e : Nat) (curtain : Bool) : Bool :=
  let nd := r.node e
  let opc := r.opcode e
  (r.accsOf e).isEmpty && nd.op.out.isEmpty
    && !(opc == 0xA0 && nd.op.flag) && !(opc == 0x81 && nd.op.flag) && !r.mvmFull e
    && !(opc == 0x09 && nd.op.held.isSome && !curtain)
    && !(opc == 0xA3 && nd.op.m != nd.op.n)

/-- CFG tokens an MVM took within a call that has ended (R179). -/
def Region.cfgLate (r : Region) (e : Nat) : Bool :=
  let nd := r.node e
  r.opcode e == 0x81 && !nd.op.later.isEmpty && nd.op.rows.isEmpty && nd.op.out.isEmpty

/-- CFG_TOKEN_TAKE has a token to take. FENCEN passes any token itself, but for one that names it (R101, R149). -/
def Region.cfgReady (r : Region) (e : Nat) : Bool :=
  r.cfgLate e || ((r.cfgAt e).isSome && !r.drains e && (r.opcode e != 0x65 || (match r.opHead e 0 with
    | some (.cfg _ target _) => target == e
    | _ => false)))

/-- CFG_TOKEN_TAKE (R13): the token is taken alone; the node it names applies it, any other forwards it. -/
def execCfgTokenTake (s : State) : Out :=
  let e := s.actEntry
  let r := s.myRegion
  let nd := r.node e
  if r.cfgReady e = false then .next s
  else if r.cfgLate e then
    match nd.op.later with
    | [] => .next s
    | t :: rest =>
      .next (s.roomed 1 (fun s =>
        let r := r.cfgAct e true t
        s.setMyRegion (r.setNode e { r.node e with op := { (r.node e).op with later := rest } })))
  else
    match r.cfgAt e with
    | none => .next s
    | some k =>
      match r.opHead e k with
      | none => .next s
      | some t =>
        if r.mvmPartial e ∧ k = 0 then
          let r := r.opTake e k
          .next (s.setMyRegion (r.setNode e { r.node e with op := { (r.node e).op with later := (r.node e).op.later ++ [t] } }))
        else if r.mvmFull e || !r.quiet e false then .next (s.hold 5)
        else .next (s.roomed 1 (fun s => s.setMyRegion ((r.opTakeAll e [k]).cfgAct e (k == 0) t)))

/-! ### End of stream -/

def Region.heads (r : Region) (e : Nat) : List (Nat × Token) := r.heldTokens e (r.namedOps e)
def Region.headIs (r : Region) (e k : Nat) (t : Token) : Bool := r.opHead e k == some t
def Region.allHeads (r : Region) (e : Nat) (t : Token) : Bool :=
  !(r.namedOps e).isEmpty && (r.namedOps e).all (fun k => r.headIs e k t)
/-- Operand k holds DATA. -/
def Region.hasData (r : Region) (e k : Nat) : Bool := (r.opData e k).isSome

/-- What EOS_TOKEN_TAKE does at a node now: nothing; EOS against DATA on the listed operands; the whole end; or a
step of its own toward it. -/
inductive EosAct where
  | none
  | mismatch (ks : List Nat)
  | finish
  | own
  deriving DecidableEq, Repr

/-- The rule of R13: all EOS ends; EOS against DATA faults. -/
def Region.eosPlain (r : Region) (e : Nat) (ks : List Nat) : EosAct :=
  if r.allHeads e .eos then .finish
  else if ks.any (fun k => r.headIs e k .eos) && ks.any (r.hasData e) then
    .mismatch (ks.filter (fun k => r.headIs e k .eos || r.hasData e k))
  else .none

/-- The node's next firing needs an ORDER token of C (R144, R152, R153). -/
def orderNeeded (opc : Nat) (n : NodeF) (fire : Nat) : Bool :=
  match opc with
  | 0x60 | 0x61 => orderNeed n (ownPat n) fire
  | 0x62 | 0x63 => orderNeed n (globPat n) fire
  | _ => true

/-- EOS at a node, by its page. An EOS on C is looked at where the next firing needs an ORDER token: against DATA it is a
mismatch; of a source-mode load it is the end (R13; log 27). -/
def Region.eosAct (r : Region) (e : Nat) : EosAct :=
  let nd := r.node e
  let ks := r.namedOps e
  match r.opcode e with
  | 0x05 =>
    if (r.fields e).ndt = 1 then (if r.headIs e 0 .eos && r.headIs e 1 .eos then .finish else .none)
    else if r.headIs e 2 .eos then
      if r.hasData e 0 || r.hasData e 1 then .mismatch (2 :: [0, 1].filter (r.hasData e))
      else if r.allHeads e .eos then .finish else .none
    else .none
  | 0x06 =>
    if nd.eos then
      if [1, 2].any (fun k => r.headIs e k .eos && nd.op.n / 2 ^ k % 2 == 0) then .own
      else
        match [1, 2].find? (r.hasData e) with
        | some k => .mismatch [k]
        | none => .none
    else if nd.op.flag = false ∧ nd.op.held.isNone ∧ r.headIs e 0 .eos then .finish
    else .none
  | 0x07 =>
    if r.headIs e 1 .eos = false then .none
    else if nd.op.held.isSome then .own
    else if r.headIs e 0 .eos then .finish
    else if r.hasData e 0 then .mismatch [0, 1]
    else .none
  | 0x91 => if r.allHeads e .eos then .finish else .none
  | 0xA1 =>
    if r.headIs e 0 .eos = false then
      if csumMode (r.fields e) = 1 then r.eosPlain e ks
      else if r.hasData e 0 && r.headIs e 1 .eos then .mismatch [0, 1] else .none
    else if nd.op.n = 0 then r.eosPlain e ks
    else
      match csumMode (r.fields e) with
      | 0 => .own
      | 1 => if r.headIs e 1 .eos then .own else if r.hasData e 1 then .mismatch [0, 1] else .none
      | _ => if r.hasData e 1 then .own else if r.headIs e 1 .eos then .mismatch [0, 1] else .none
  | 0x81 =>
    if r.headIs e 0 .eos = false then .none
    else if r.mvmPartial e then .mismatch [0] else if r.mvmFull e then .none else .finish
  | 0x82 =>
    if nd.op.held.isSome && r.headIs e 0 .eos then .mismatch [0] else r.eosPlain e ks
  | 0xA3 => if r.headIs e 0 .eos then (if nd.op.flag then .mismatch [0] else .finish) else .none
  | 0x65 => if r.headIs e 0 .eos then .own else .none
  | 0xA5 =>
    match r.recvNext (r.fields e) e with
    | (_, some (_, _, .eos)) => if nd.eos || nd.curt then .none else .own
    | _ => .none
  | opc =>
    if 0x60 ≤ opc ∧ opc ≤ 0x6A ∧ opc ≠ 0x66 then
      let ds := ks.filter (fun k => k != 2)
      let c := r.named e 2 && r.headIs e 2 .eos && orderNeeded opc (r.fields e) nd.fire
      if ds.isEmpty then (if c && !nd.eos then .finish else .none)
      else if r.allHeads e .eos then .finish
      else if c && ds.any (r.hasData e) then .mismatch (ds.filter (r.hasData e) ++ [2])
      else (match r.eosPlain e ds with
        | .mismatch l => .mismatch l
        | _ => .none)
    else r.eosPlain e ks

def Region.eosReady (r : Region) (e : Nat) : Bool := r.eosAct e != .none

/-- Give EOS on every output after the given tokens on port 0; the node has ended. -/
def State.giveEnd (s : State) (ks : List Nat) (before : List Token) : State :=
  let e := s.actEntry
  let r := ((s.myRegion.opTakeAll e ks).out e 0 (before ++ [.eos])).out e 1 [.eos]
  s.setMyRegion (r.setNode e { r.node e with eos := true, cause := 6 })

/-- A SENDN sends EOS or CURTAIN as a marker on its class, as it sends a packet (R158). -/
def State.sendMarker (s : State) (n : NodeF) (ks : List Nat) (k : State → State) : State :=
  let v := s.myRegion.entryCell s.actEntry
  let cl := nodeClass n
  if s.classHeld cl = false then s.nodeViolation n ks cl 2
  else s.held [(s.classLeased s.actCue v cl, 0), (!s.portReady s.actCue v cl 1 0, 5)] k

/-- The end of stream of a node that holds EOS on every operand, by its page. -/
def State.eosFinish (s : State) (n : NodeF) : State :=
  let e := s.actEntry
  let r := s.myRegion
  let nd := r.node e
  let ks := r.namedOps e
  if r.quiet e false = false then s.hold 5
  else
    match r.opcode e with
    | 0x03 => s.snkClose n ks
    | 0x06 => s.giveEnd [0] []
    | 0x55 | 0x56 | 0x57 | 0x58 =>
      let k : Red := match r.opcode e with
        | 0x55 => .sum
        | 0x56 => .max
        | 0x57 => .min
        | _ => .maxa
      if nd.op.n = 0 then s.giveEnd ks []
      else s.roomed 2 (fun s =>
        let out := (closeTree (redPair k (nFmt n) (nCtl n)) nd.op.win).map (redOut k (nFmt n) (nCtl n))
        (s.giveEnd ks [.data out]).setOp (fun o => { o with win := [], n := 0 }))
    | 0x60 | 0x62 => (s.giveEnd ks []).setOp (fun o => { o with flag := true })
    | 0x67 =>
      if nd.op.n = 0 then s.giveEnd ks []
      else
        let t := bits (nExt n 0) 11 0 + nd.op.m
        let v := r.copyCell e 0
        let now := s.cyc.toNat
        s.held [((r.cell v).tag t != 0 || (r.cell v).flipLate now (nodeFlipRank e) t, 4)] (fun s => s.roomed 2 (fun s =>
          ((s.setMyRegion (r.setCell v ((r.cell v).flipTag now (nodeFlipRank e) t 1))).giveEnd ks [.data [BitVec.ofNat 32 t]]).setOp (fun o =>
            { o with n := 0, m := (o.m + 1) % (bits (nExt n 0) 23 12 + 1) })))
    | 0x90 => (s.giveEnd ks []).setOp (fun o => { o with flag := false })
    | 0xA4 =>
      s.sendMarker n ks (fun s => (s.giveEnd ks []).presentMarker s.actCue (r.entryCell e) (nodeClass n) 1)
    | _ => s.giveEnd ks []

/-- The steps of their own that CARRY, INV, CSUM, FENCEN and RECVN take at EOS. -/
def State.eosOwn (s : State) (n : NodeF) : State :=
  let e := s.actEntry
  let r := s.myRegion
  let nd := r.node e
  match r.opcode e with
  | 0x06 =>
    match [1, 2].find? (fun k => r.headIs e k .eos && nd.op.n / 2 ^ k % 2 == 0) with
    | some k => (s.setMyRegion (r.opTake e k)).setOp (fun o => { o with n := o.n + 2 ^ k })
    | none => s
  | 0x07 => s.setOp (fun o => { o with held := none })
  | 0x65 =>
    match execFencenN n s with
    | .next s' => s'
    | _ => s
  | 0xA1 =>
    s.roomed 1 (fun s =>
      let (a, b) := csumState nd.op
      match csumMode n with
      | 2 => s.csumClose n [1] (csumEnd a) ((r.lanesAt e 1).headD 0)
      | _ => s.csumClose n [] (csumEnd a) (csumEnd b))
  | _ =>
    match r.recvNext n e with
    | (i, some q) => s.roomed 1 (fun s => (s.recvTake n i q).giveEnd [] [])
    | _ => s

/-- EOS_TOKEN_TAKE (R13). -/
def execEosTokenTake (s : State) : Out :=
  let e := s.actEntry
  let r := s.myRegion
  let n := r.fields e
  match r.eosAct e with
  | .none => .next s
  | .mismatch ks => .next (s.nodeFault n .streamMismatch ks 0 0 0)
  | .own => .next (s.eosOwn n)
  | .finish => .next (s.roomed 1 (fun s => s.eosFinish n))

/-! ### The curtain -/

/-- A class has a SENDN in the region (R125, R159). -/
def Region.hasSendn (r : Region) (cl : Nat) : Bool :=
  (List.range r.entries.length).any (fun i => r.opcode i == 0xA4 && nodeClass (r.fields i) == cl)

/-- A node without operands under R125. -/
def Region.operandless (r : Region) (e : Nat) : Bool :=
  (r.namedOps e).isEmpty && !(r.opcode e == 0xA5 && r.hasSendn (nodeClass (r.fields e)))

/-- A RECVN whose next queued word is the CURTAIN of its class. -/
def Region.recvCurtain (r : Region) (e : Nat) : Bool :=
  r.opcode e == 0xA5 && (match r.recvNext (r.fields e) e with
    | (_, some (_, _, .curtain)) => true
    | _ => false)

/-- What CURTAIN_TOKEN_TAKE finds at a node: a CURTAIN it takes on every operand; CARRY's on A, in INIT or in its loop; one
of its own that enters; one CARRY discards; a marker. A RECVN without operands that has given its CURTAIN keeps a marker that
comes after it (R159). -/
inductive CurtAct where
  | none
  | all
  | first
  | enter
  | loop
  | discard (k : Nat)
  | marker
  deriving DecidableEq, Repr

def Region.curtAct (r : Region) (e : Nat) : CurtAct :=
  let nd := r.node e
  if r.drains e then .none
  else if r.operandless e then
    if r.recvCurtain e then (if nd.curt then .none else .marker)
    else if r.curtain && !nd.curt && !nd.eos then .enter else .none
  else
    match r.opcode e with
    | 0x06 =>
      if r.headIs e 1 .curtain then .discard 1
      else if r.headIs e 2 .curtain then .discard 2
      else if nd.curt || nd.op.held.isSome || !r.headIs e 0 .curtain then .none
      else if nd.op.flag then .loop
      else .first
    | 0xA5 => if r.recvCurtain e then .marker else .none
    | _ => if r.allHeads e .curtain then .all else .none

def Region.curtReady (r : Region) (e : Nat) : Bool := r.curtAct e != .none

/-- Give CURTAIN on every output; the node has passed its curtain. CURT counts it (R138). -/
def State.giveCurtain (s : State) (ks : List Nat) : State :=
  let e := s.actEntry
  let r := (s.myRegion.opTakeAll e ks).forward e .curtain
  let nd := r.node e
  let op := if r.opcode e = 0x0A then { nd.op with n := (nd.op.n + 1) % 2 ^ 32 } else nd.op
  s.setMyRegion (r.setNode e { nd with curt := true, cause := 6, op := op })

/-- CARRY in LOOP with CURTAIN on A and no held token: at the iteration boundary it takes C, and B into HELD, then the CURTAIN (R134). -/
def State.carryCurtain (s : State) (n : NodeF) : State :=
  let e := s.actEntry
  let r := s.myRegion
  match r.opHead e 2 with
  | some (.data p) =>
    if predTrue p then
      match r.opHead e 1 with
      | some (.data v) => (s.giveCurtain [2, 1, 0]).setOp (fun o => { o with held := some (.data v) })
      | some .eos => s.nodeFault n .streamMismatch [1, 2] 0 0 0
      | _ => s.hold 6
    else (s.giveCurtain [2, 0]).setOp (fun o => { o with flag := false })
  | some .eos => s.nodeFault n .streamMismatch [2] 0 0 0
  | _ => s.hold 6

/-- CURTAIN_TOKEN_TAKE (R13, R125, R378). -/
def execCurtainTokenTake (s : State) : Out :=
  let e := s.actEntry
  let r := s.myRegion
  let n := r.fields e
  match r.curtAct e with
  | .none => .next s
  | .discard k => .next (s.setMyRegion (r.opTake e k))
  | .marker =>
    match r.recvNext n e with
    | (i, some q) =>
      if r.operandless e then .next (s.recvTake n i q)
      else .next (s.roomed 1 (fun s => (s.recvTake n i q).giveCurtain []))
    | _ => .next s
  | .enter =>
    if r.quiet e true = false then .next (s.hold 5) else .next (s.roomed 1 (fun s => s.giveCurtain []))
  | .loop => .next (s.roomed 1 (fun s => s.carryCurtain n))
  | .first => .next (s.roomed 1 (fun s => s.giveCurtain [0]))
  | .all =>
    if r.opcode e = 0x65 then execFencenN n s
    else if r.quiet e true = false then .next (s.hold 5)
    else if r.opcode e = 0xA4 then
      .next (s.roomed 1 (fun s => s.sendMarker n (r.namedOps e) (fun s =>
        (s.giveCurtain (r.namedOps e)).presentMarker s.actCue (r.entryCell e) (nodeClass n) 2)))
    else .next (s.roomed 1 (fun s => s.giveCurtain (r.namedOps e)))

end Sys2Proof.Machine
end

