-- ==== Sys2Proof/Machine/Validate.lean ====
section
/-! DEFINITION. Validation of a launch (R60 to R70, R225 to R243, R291, R335): the fields of the launch record, of the
script's entries in the order of R70, and of the list records. The first breach, as a placement failure (R334). -/

namespace Sys2Proof.Machine

/-! ### Placement failures (R334, R335) -/

/-- A validation or fit failure: the fields of the placement record. -/
structure PlaceFail where
  code : Nat
  step : Nat := 0
  entry : Nat := noEntry
  chan : Nat := noEntry
  needed : Nat := 0
  avail : Nat := 0
  /-- Box and direction of a fit failure. -/
  box : Option (Nat × Nat × Nat) := none
  word : Nat := 0
  bit : Nat := 0
  recidx : Nat := 0
  deriving DecidableEq, Repr

def invalidOpcode : Nat := 1
def invalidField : Nat := 2
def invalidDist : Nat := 3
def invalidPort : Nat := 4
def invalidXcnt : Nat := 5
def invalidLimit : Nat := 6
def fitCells : Nat := 0x10
def fitSpan : Nat := 0x11
def fitTracks : Nat := 0x12
def fitRate : Nat := 0x13
def fitSram : Nat := 0x14
def fitTables : Nat := 0x15
def fitBarriers : Nat := 0x16
def fitLeave : Nat := 0x17

/-- The record of R334. -/
def PlaceFail.words (p : PlaceFail) (die : Nat) : List Word :=
  [BitVec.ofNat 64 (p.code + field die 8 + field p.step 10 + field p.entry 32), BitVec.ofNat 64 p.chan,
   BitVec.ofNat 64 p.needed, BitVec.ofNat 64 p.avail,
   (match p.box with
    | none => 0
    | some (x, y, d) => BitVec.ofNat 64 (x + field y 5 + field d 10 + field 1 12)),
   BitVec.ofNat 64 (p.word + field p.bit 8 + field p.recidx 16), 0, 0]

/-- The first failure of checks made in order. -/
def firstFail : List (Option PlaceFail) → Option PlaceFail
  | [] => none
  | none :: rest => firstFail rest
  | some p :: _ => some p

/-- A limit of a place: breached unless it holds. -/
def need (ok : Bool) (p : PlaceFail) : Option PlaceFail := if ok then none else some p

/-! ### Fields of a word -/

/-- A field of a word: its bits, and the failure code of a value, 0 when it is allowed. -/
structure Fld where
  hi : Nat
  lo : Nat
  bad : Nat → Nat := fun _ => 0

/-- A field whose breach is INVALID_FIELD. -/
def fld (hi lo : Nat) (ok : Nat → Bool) : Fld := ⟨hi, lo, fun v => if ok v then 0 else invalidField⟩
def anyFld (hi lo : Nat) : Fld := ⟨hi, lo, fun _ => 0⟩

/-- Check the bits of w below `top` and from `bottom` up against fields listed from the highest down; bits that no field
names must be 0. A breach is reported at the lowest bit of its field (R334). -/
def checkFlds (w : Word) (bottom : Nat) (at_ : Nat → PlaceFail) : Nat → List Fld → Option PlaceFail
  | top, [] => if bottom < top ∧ bits w (top - 1) bottom ≠ 0 then some { at_ bottom with code := invalidField } else none
  | top, f :: rest =>
    if f.hi + 1 < top ∧ bits w (top - 1) (f.hi + 1) ≠ 0 then some { at_ (f.hi + 1) with code := invalidField }
    else if f.bad (bits w f.hi f.lo) ≠ 0 then some { at_ f.lo with code := f.bad (bits w f.hi f.lo) }
    else checkFlds w bottom at_ f.lo rest

def entryAt (e word bit : Nat) : PlaceFail := { code := invalidField, entry := e, word := word, bit := bit }

/-! ### Reading a launch through the tenant's page table (R422) -/

/-- The translating unit of a die's Blocking Engine. -/
def placerUnit (die : Nat) : Nat := 3000 + die

/-- What keeps a launch from being read: an address, or none where a page is migrating and the walk waits (R254, R263). -/
abbrev ReadFail := Option Nat

/-- Read n bytes at a virtual address. No die's stacks are reached at DARK or OFF (R422). An address of 2^56 or more is that
of no page: the spec does not name it among what fails a read, and here it does (DESIGN CHOICE, log 34). -/
def State.readVa (s : State) (ten die va n : Nat) : Except ReadFail (List Byte) × State :=
  if n = 0 then (.ok [], s)
  else
    match s.reach (placerUnit die) ten 4 va n true false with
    | (.ok segs, s') => (.ok (s'.readSegs segs), s')
    | (.miss bad cause, s') => (.error (if cause = 2 then none else some bad), s')
    | (.viol bad _, s') => (.error (some bad), s')

def State.readWords (s : State) (ten die va n : Nat) : Except ReadFail (List Word) × State :=
  match s.readVa ten die va (8 * n) with
  | (.ok bs, s') => (.ok (wordsOfBytes bs), s')
  | (.error a, s') => (.error a, s')

/-- A failure to read: the record of R422, or none while the read waits. -/
def unread (entry word recidx : Nat) (a : ReadFail) : Option PlaceFail :=
  a.map (fun addr => { code := invalidField, entry := entry, word := word, recidx := recidx, needed := addr })

/-- Read the entries of a script, each word once, in list order (R60), or say what fails. Extension words that run past the
end of the address space run past the image's end (R69; log 16): that entry, without them, is the last that is read. -/
def State.readEntries (s : State) (ten die : Nat) : Nat → Nat → Nat → List (List Word) →
    Except (Option PlaceFail) (List (List Word)) × State
  | 0, _, _, acc => (.ok acc.reverse, s)
  | k + 1, i, va, acc =>
    match s.readWords ten die va 2 with
    | (.error a, s') => (.error (unread i 0x11 0 a), s')
    | (.ok ws, s') =>
      let x := bits (wordAt ws 1) 1 0
      if 2 ^ 56 < va + 16 + 8 * x then (.ok (ws :: acc).reverse, s')
      else
        match s'.readWords ten die (va + 16) x with
        | (.error a, s'') => (.error (unread i 0x11 0 a), s'')
        | (.ok es, s'') => s''.readEntries ten die k (i + 1) (va + 16 + 8 * x) ((ws ++ es) :: acc)

/-! ### The launch record (R241) -/

def defaultLadder (j : Nat) : Nat := [6, 4, 2, 2, 1, 0, 0, 0].getD j 0

/-- A rung's code keeps or widens its default, and no rung is wider than the one before it (R31). -/
def ladderOk (w2 : Word) (j v : Nat) : Bool :=
  v != 7 && decide (defaultLadder j ≤ v) && (j == 0 || decide (v ≤ bits w2 (3 * j - 1) (3 * j - 3)))

def recAt (k bit : Nat) : PlaceFail := { code := invalidField, word := 0x10 + k, bit := bit }

def mult (m v : Nat) : Bool := v % m == 0
def cellColumn (x : Nat) : Bool := decide (x ≤ 25) && x != 8 && x != 17

/-- The fields of a launch record, from w0 up, each word from bit 63 down (R243). -/
def checkLaunch (ws : List Word) : Option PlaceFail :=
  let w (k : Nat) : Word := wordAt ws k
  let word (k : Nat) (fs : List Fld) : Option PlaceFail := checkFlds (w k) 0 (recAt k) 64 fs
  let nent := bits (w 0) 16 0
  let part := bits (w 2) 37 32 + bits (w 2) 45 40 + bits (w 2) 53 48
  firstFail [
    word 0 [anyFld 29 29, fld 28 24 (fun v => decide (v ≤ 23)), fld 23 19 cellColumn, anyFld 18 17, anyFld 16 0],
    need (decide (1 ≤ nent) && decide (nent ≤ 65536)) { code := invalidLimit, word := 0x30 },
    word 1 [fld 63 0 (mult 8)],
    checkFlds (w 2) 32 (recAt 2) 64 [fld 53 48 (fun v => decide (v ≤ 32)), fld 45 40 (fun v => decide (v ≤ 32)),
      fld 37 32 (fun v => decide (v ≤ 32))],
    need (part == 32) (recAt 2 32),
    checkFlds (w 2) 0 (recAt 2) 32
      ([7, 6, 5, 4, 3, 2, 1, 0].map (fun j => fld (3 * j + 2) (3 * j) (ladderOk (w 2) j))),
    word 3 [fld 63 32 (fun v => v != 0), fld 31 0 (fun v => v != 0)],
    word 4 [fld 11 0 (fun v => decide (v ≤ 2048))],
    word 5 [anyFld 56 41, anyFld 40 17, fld 16 0 (fun v => decide (64 ≤ v) && decide (v ≤ 65536))],
    word 6 [anyFld 23 16, fld 15 8 (fun v => v != 0), fld 7 0 (fun v => v != 0)],
    word 8 [fld 63 0 (mult 8)],
    word 9 [fld 63 48 (fun v => decide (v ≤ 18432)), fld 47 32 (fun v => decide (v ≤ 255)),
      fld 31 16 (fun v => decide (v ≤ 16)), fld 15 0 (fun v => decide (v ≤ 9216))],
    word 10 [fld 63 0 (mult 8)], word 11 [fld 63 0 (mult 8)], word 12 [fld 63 0 (mult 8)],
    word 13 [], word 14 [], word 15 []]

def Region.nslot (r : Region) : Nat := bits (r.lw 9) 15 0
def Region.ntab (r : Region) : Nat := bits (r.lw 9) 31 16
def Region.ncode (r : Region) : Nat := bits (r.lw 9) 47 32
def Region.nend (r : Region) : Nat := bits (r.lw 9) 63 48

/-! ### List records (R242) -/

/-- Word k of record i of a list of records of n words. -/
def recWord (ws : List Word) (n i k : Nat) : Word := wordAt ws (n * i + k)

structure SlotRec where
  host : Nat
  slot : Nat
  code : Nat
  entryPc : Nat
  stack : Nat
  bind : Nat
  sends : Nat
  deriving DecidableEq, Repr

structure EndRec where
  host : Nat
  end_ : Nat
  output : Bool
  slot : Nat
  wid : Nat
  peer : Nat
  pp : Nat
  deriving DecidableEq, Repr

def slotRecOf (w0 w1 : Word) : SlotRec :=
  ⟨bits w0 15 0, bits w0 19 16, bits w0 31 24, bits w0 47 32, bits w1 31 0, bits w1 37 32, bits w1 53 38⟩
def endRecOf (w : Word) : EndRec :=
  ⟨bits w 15 0, bits w 20 16, bits w 21 21 == 1, bits w 25 22, bits w 28 26, bits w 47 32, bits w 49 48⟩

def Region.slotList (r : Region) : List SlotRec :=
  (List.range r.nslot).map (fun i => slotRecOf (recWord r.slotRecs 4 i 0) (recWord r.slotRecs 4 i 1))
def Region.endList (r : Region) : List EndRec := (List.range r.nend).map (fun i => endRecOf (recWord r.endRecs 1 i 0))
def Region.tableSlot (r : Region) (i : Nat) : Nat := bits (recWord r.tableRecs 2 i 1) 3 0
def Region.tableAddr (r : Region) (i : Nat) : Nat := (recWord r.tableRecs 2 i 0).toNat
def Region.codeAddr (r : Region) (i : Nat) : Nat := (recWord r.codeRecs 4 i 0).toNat
def Region.poolAddr (r : Region) (i : Nat) : Nat := (recWord r.codeRecs 4 i 1).toNat
def Region.codeOrg (r : Region) (i : Nat) : Nat := bits (recWord r.codeRecs 4 i 2) 15 0
def Region.codeLen (r : Region) (i : Nat) : Nat := bits (recWord r.codeRecs 4 i 2) 31 16
def Region.codePools (r : Region) (i : Nat) : Nat := bits (recWord r.codeRecs 4 i 2) 47 32

/-- The task output end that feeds operand k of entry e (R239). -/
def Region.taskEnds (r : Region) (e k : Nat) : List EndRec :=
  r.endList.filter (fun x => x.output && x.peer == e && x.pp == k)

/-! ### Producers and widths -/

def opndOf (n : NodeF) (k : Nat) : Opnd := if k = 0 then n.sa else if k = 1 then n.sb else n.sc

/-- CARRY's operand B points forward (R64). -/
def pointsAhead (opc k : Nat) : Bool := opc == 0x06 && k == 1

/-- The entry an operand names. -/
def producerOf (opc e k : Nat) (o : Opnd) : Nat := if pointsAhead opc k then e + o.dist.toNat else e - o.dist.toNat

/-- The output ports an entry has (R65). -/
def portsOf (opc : Nat) (n : NodeF) : List Nat :=
  if opc = 0x03 ∨ opc = 0xA4 then []
  else if opc = 0x61 ∨ opc = 0x63 then (if n.ord = 1 then [1] else [])
  else if opc = 0x04 then [0, 1]
  else if [0x60, 0x62, 0x64, 0x65, 0x6A].contains opc then (if n.ord = 1 then [0, 1] else [0])
  else [0]

/-- Width code of operand k of entry e, from its producer or its task end; none when it is absent. -/
def Region.opWid (r : Region) (e k : Nat) : Option Nat :=
  match r.taskEnds e k with
  | x :: _ => some x.wid
  | [] =>
    let o := opndOf (r.fields e) k
    if o.dist = 0 then none else some (r.fields (producerOf (r.opcode e) e k o)).wid.toNat

/-! ### Opcode classes of R67 and R68 -/

def roundsOp (opc : Nat) : Bool :=
  (0x11 ≤ opc && opc ≤ 0x18) || [0x39, 0x3B, 0x40, 0x41, 0x42, 0x43, 0x50, 0x54, 0x55, 0x80, 0x81, 0x82, 0x92, 0xA0].contains opc
/-- Rounding opcodes whose pages do not list SAT (R87, R95). -/
def noSat (opc : Nat) : Bool := opc == 0x18 || opc == 0x39
def ordOp (opc : Nat) : Bool := (0x60 ≤ opc && opc ≤ 0x65) || opc == 0x6A
def resOp (opc : Nat) : Bool := 0x80 ≤ opc && opc ≤ 0x82
def matrixOp (opc : Nat) : Bool := resOp opc
def scopeOp (opc : Nat) : Bool :=
  [0x02, 0x03, 0x09, 0x60, 0x61, 0x62, 0x63, 0x64, 0x65, 0x66, 0x6A, 0xA2, 0xA3, 0xA4].contains opc

def memFmt (v : Nat) : Bool := v ≤ 10 || v == 13
def floatFmt (v : Nat) : Bool := 6 ≤ v && v ≤ 10
def packFmt (v : Nat) : Bool := [2, 3, 4, 5, 7, 8, 9, 10].contains v
def actFmt (v : Nat) : Bool := v == 7 || v == 9 || v == 10
def wgtFmt (v : Nat) : Bool := v == 7 || (9 ≤ v && v ≤ 12)

/-- The formats an opcode accepts. -/
def fmtAllowed (opc v : Nat) : Bool :=
  if [0x00, 0x02, 0x03, 0x10, 0x28, 0x40, 0x59, 0x5A, 0x60, 0x61, 0x62, 0x63, 0x67, 0x6A].contains opc then memFmt v
  else if opc = 0x01 then v ≤ 1
  else if [0x18, 0x27, 0x36, 0x37, 0x38, 0x39, 0x3A, 0x43, 0x81, 0x92].contains opc then floatFmt v
  else if opc = 0x1D ∨ opc = 0x1E then v ≤ 5
  else if 0x29 ≤ opc ∧ opc ≤ 0x35 then v ≤ 5 || v == 13
  else if [0x44, 0x5B, 0x5C, 0x83].contains opc then v == 13
  else if opc = 0x41 then [2, 4, 8, 9, 10].contains v
  else if opc = 0x42 ∨ opc = 0x84 then 6 ≤ v && v ≤ 8
  else if opc = 0x64 then v ≤ 1 || v == 6 || v == 13
  else if opc = 0x80 ∨ opc = 0x82 then v == 0 || floatFmt v
  else if (0x11 ≤ opc ∧ opc ≤ 0x3B) ∨ (0x50 ≤ opc ∧ opc ≤ 0x58) ∨ opc = 0xA0 then v ≤ 10
  else v == 0

/-- The output widths an opcode's page allows, by its own fields. No page limits WID of a node whose tokens have a fixed width
(FLYP, WNGP, TFILL, TTAG, TWAITN): any is taken (DESIGN CHOICE, log 16). -/
def widAllowed (opc : Nat) (n : NodeF) (v : Nat) : Bool :=
  if opc = 0x81 ∨ opc = 0x83 then v == 4
  else if opc = 0x44 then v == 3 || v == 4
  else if [0x66, 0x84, 0xA0, 0xA1].contains opc then v == 0
  else if opc = 0x80 ∨ opc = 0x82 then v == (if bits (nExt n 0) 20 20 = 1 then 0 else 4)
  else v ≤ 4

/-! ### MOD, CFG and extension fields of each opcode -/

def sizeOf (f : Nat) : Nat := if memFmt f then fmtSize (fmtOf f) else 1

/-- A target offset (R102, R164). -/
def toffBad (r : Region) (e opc v : Nat) : Nat :=
  let t := e + v
  if v = 0 then invalidField
  else if r.entries.length ≤ t then invalidDist
  else if opc = 0x83 then (if matrixOp (r.opcode t) then 0 else invalidField)
  else if opc = 0x90 ∨ opc = 0x91 then (if r.opcode t = 0x92 then 0 else invalidField)
  else 0

def atomFmtOk (aop f : Nat) : Bool :=
  if aop ≤ 2 then f ≤ 1 else if aop ≤ 6 then f ≤ 1 || f == 13 else decide (aop ≤ 8) && f == 6

/-- MOD[7:4], bits 31 to 28 of word 0. -/
def modHiFlds (opc : Nat) (n : NodeF) : List Fld :=
  let fmt := n.fmt.toNat
  match opc with
  | 0x0A => [anyFld 28 28]
  | 0x40 => [fld 31 28 memFmt]
  | 0x41 => [fld 31 29 (fun v => v ≤ 2), anyFld 28 28]
  | 0x43 => [anyFld 30 30, anyFld 29 28]
  | 0x5B | 0x5C => [fld 31 28 packFmt]
  | 0x60 | 0x61 | 0x62 | 0x63 => [fld 31 28 (fun v => v == 15 || (v ≤ 10 && fmt != 13))]
  | 0x64 => [fld 31 28 (fun v => atomFmtOk v fmt)]
  | 0x6A => [anyFld 28 28]
  | 0x81 => [fld 31 28 actFmt]
  | 0x92 => [fld 29 28 (fun v => v ≤ 2)]
  | 0xA1 => [fld 29 28 (fun v => v ≤ 2)]
  | _ => []

/-- MOD[3:0], bits 27 to 24 (R43). -/
def modLoFlds (opc : Nat) : List Fld :=
  if roundsOp opc then [fld 27 27 (fun v => v == 0 || !noSat opc), anyFld 26 26, anyFld 25 24] else []

def cfgFlds (r : Region) (e opc : Nat) : List Fld :=
  let toff : Fld := ⟨15, 0, toffBad r e opc⟩
  match opc with
  | 0x00 | 0x01 | 0x02 | 0x03 => [anyFld 23 0]
  | 0x09 => [anyFld 10 0]
  | 0x44 | 0x83 => [fld 23 16 (fun v => v != 0), toff]
  | 0x5A => [anyFld 3 0]
  | 0x5C => [anyFld 1 0]
  | 0x60 | 0x61 | 0x62 | 0x63 => [anyFld 0 0]
  | 0x65 => [fld 1 0 (fun v => v != 0)]
  | 0x68 => [anyFld 5 3, anyFld 2 0]
  | 0x69 => [fld 5 3 (fun v => v == 0), anyFld 2 0]
  | 0x81 => [anyFld 5 0]
  | 0x90 => [anyFld 19 16, toff]
  | 0x91 => [toff]
  | 0x92 => [anyFld 4 4, anyFld 3 0]
  | 0xA0 => [fld 2 0 (fun v => v ≤ 4)]
  | 0xA4 | 0xA5 => [anyFld 3 0]
  | _ => []

/-- A positive normal f32 no greater than the largest finite value of QUANT's destination (R97). -/
def qmaxOk (fmt v : Nat) : Bool :=
  let top := if fmt = 2 then 0x46FFFE00 else if fmt = 4 then 0x42FE0000 else if fmt = 8 then 0x477FE000
    else if fmt = 9 then 0x43E00000 else 0x47600000
  decide (0x00800000 ≤ v) && decide (v ≤ top)

def ptrOk (v : Nat) : Bool := [0, 0xF0, 0xF1].contains (winOf v) && mult 4 v

/-- The fields of extension word j. -/
def extFlds (opc : Nat) (n : NodeF) (j : Nat) : List Fld :=
  let fmt := n.fmt.toNat
  let sz := sizeOf fmt
  let tok := sz * lanesOfWid n.wid
  let ring := n.cfg == 0
  let srcE0 : List Fld := [fld 63 56 (fun v => v == 0), fld 55 0 (mult tok)]
  let srcE1 : List Fld := [fld 31 0 (fun v => (v != 0) == ring)]
  let strides : List Fld := [anyFld 63 44, anyFld 43 28, anyFld 26 24, anyFld 23 0]
  let gLoop1 : List Fld := [anyFld 63 48, anyFld 47 16, anyFld 15 0]
  let gLoop2 : List Fld := [anyFld 63 48, anyFld 47 32, anyFld 31 0]
  let mats : List Fld := [anyFld 20 20, anyFld 19 8, fld 7 4 wgtFmt, fld 3 0 actFmt]
  match opc, j with
  | 0x00, _ => [anyFld 63 0]
  | 0x01, _ => [anyFld 63 0]
  | 0x02, 0 => srcE0
  | 0x02, 1 => srcE1
  | 0x02, _ => [fld 31 0 (fun v => v == 0 || (decide (tok ≤ v) && mult sz v))]
  | 0x03, 0 => srcE0
  | 0x03, _ => srcE1
  | 0x06, _ => [anyFld 63 32, anyFld 0 0]
  | 0x41, _ => [fld 31 0 (qmaxOk fmt)]
  | 0x42, _ => [anyFld 63 32, fld 3 0 (fun v => v ≤ 12)]
  | 0x43, _ => [anyFld 63 0]
  | 0x55, _ | 0x56, _ | 0x57, _ | 0x58, _ => [anyFld 15 0]
  | 0x59, _ =>
    [fld 63 0 (fun v => (List.range 16).all (fun k => decide (k < lanesOfWid n.wid) || v / 16 ^ k % 16 == 0))]
  | 0x60, 0 | 0x61, 0 => strides
  | 0x60, 1 | 0x61, 1 => [anyFld 35 16, anyFld 15 0]
  | 0x60, _ | 0x61, _ => [anyFld 63 44, anyFld 43 36, anyFld 35 16, anyFld 15 0]
  | 0x62, 0 | 0x63, 0 =>
    [fld 63 56 (fun v => v == 0 || v == 0xF1),
     fld 55 0 (fun v => mult sz v && (bits (nExt n 0) 63 56 != 0xF1 || v / 2 ^ 52 == 0))]
  | 0x62, 1 | 0x63, 1 => gLoop1
  | 0x62, _ | 0x63, _ => gLoop2
  | 0x64, 0 => [fld 63 0 ptrOk]
  | 0x64, _ => [anyFld 47 16, anyFld 15 0]
  | 0x67, _ => [anyFld 26 24, anyFld 23 12, anyFld 11 0]
  | 0x6A, 0 => [fld 63 0 (fun v => winOf v == 0 && mult sz v)]
  | 0x6A, _ => [fld 63 32 (fun v => v != 0), fld 31 0 (fun v => v != 0 && mult sz v)]
  | 0x80, 0 => [anyFld 29 27, anyFld 26 24, anyFld 23 21] ++ mats
  | 0x80, _ => [anyFld 4 0]
  | 0x81, 0 => [fld 63 56 (fun v => v == 0), anyFld 55 0]
  | 0x81, 1 => [fld 31 16 (fun v => v % 16 == 15), fld 15 0 (fun v => v % 16 == 15)]
  | 0x81, _ => [anyFld 23 12, anyFld 11 0]
  | 0x82, 0 =>
    let xs := sizeOf (bits (nExt n 0) 3 0)
    [fld 60 45 (fun v => decide (32 * xs ≤ v) && mult xs v), fld 44 24 (mult xs), anyFld 23 21] ++ mats
  | 0x82, 1 => [anyFld 36 32, fld 31 0 (fun v => v != 0)]
  | 0x82, _ => [anyFld 0 0]
  | 0x84, _ => [fld 63 0 ptrOk]
  | 0x92, _ => [anyFld 31 0]
  | 0xA0, 0 =>
    [anyFld 63 48, fld 47 24 (mult (sizeOf (bits (nExt n 1) 55 52))), fld 23 0 (mult (sizeOf (bits (nExt n 1) 51 48)))]
  | 0xA0, 1 =>
    [fld 55 52 memFmt, fld 51 48 memFmt] ++
    [5, 4, 3, 2, 1, 0].map (fun k =>
      fld (8 * k + 7) (8 * k) (fun v => v % 32 ≤ 10 && (v / 128 == 0 || n.ext.length == 3)))
  | 0xA0, _ => [fld 27 24 memFmt, fld 23 0 (mult (sizeOf (bits (nExt n 2) 27 24)))]
  | 0xA1, _ => [anyFld 15 0]
  | 0xA2, _ => [anyFld 4 4, anyFld 3 0]
  | 0xA3, _ => [anyFld 4 4, fld 3 0 (fun v => v ≤ 11)]
  | 0xA4, _ => [anyFld 15 0]
  | 0xA5, _ => [anyFld 16 16, anyFld 15 0]
  | _, _ => []

/-- Two byte ranges meet. -/
def rangesMeet (a m b n : Nat) : Bool := decide (a < b + n) && decide (b < a + m)

/-- A CHAIN whose destination overlaps a source other than in place (R115). -/
def chainOverlap (n : NodeF) : Bool :=
  let cnt := (bits (nExt n 0) 63 48 + 1) * 2 ^ (n.cfg.toNat % 8)
  let db := bits (nExt n 0) 47 24
  let ds := sizeOf (bits (nExt n 1) 55 52)
  let meets (b f : Nat) : Bool := rangesMeet db (cnt * ds) b (cnt * sizeOf f) && !(b == db && sizeOf f == ds)
  meets (bits (nExt n 0) 23 0) (bits (nExt n 1) 51 48) ||
    (n.ext.length == 3 && meets (bits (nExt n 2) 23 0) (bits (nExt n 2) 27 24))

/-! ### Widths (R63, R80 and the opcode pages) -/

/-- What a page asks of the width of an operand. -/
inductive WidReq where
  | any | node | one | sixteen | reduce | sameA | oneOrA | csum | order
  deriving DecidableEq, Repr

def widReq (opc k : Nat) : WidReq :=
  match k with
  | 0 =>
    if [0x59, 0x5A, 0x5B, 0x5C, 0x66, 0x67, 0xA0, 0xA1, 0xA4].contains opc then .any
    else if [0x60, 0x62, 0x68, 0x69, 0x84].contains opc then .one
    else if [0x80, 0x81, 0x82, 0xA2, 0xA3].contains opc then .sixteen
    else if 0x50 ≤ opc ∧ opc ≤ 0x54 then .reduce
    else .node
  | 1 =>
    if [0x04, 0x07, 0x61, 0x63, 0x91].contains opc then .one
    else if [0x08, 0x66, 0x80].contains opc then .any
    else if opc = 0x42 then .oneOrA
    else if opc = 0x54 then .sameA
    else if opc = 0x82 then .sixteen
    else if opc = 0xA1 then .csum
    else .node
  | _ =>
    if opc = 0x05 ∨ opc = 0x06 then .one
    else if opc = 0x66 then .any
    else if [0x60, 0x61, 0x62, 0x63, 0x64, 0x6A].contains opc then .order
    else .node

/-- C of a memory node names port 1 of a node with ORD = 1 or port 0 of ORDJ (R144). -/
def Region.orderOk (r : Region) (e : Nat) : Bool :=
  let o := (r.fields e).sc
  if !(r.taskEnds e 2).isEmpty ∨ o.dist = 0 then false
  else
    let p := e - o.dist.toNat
    (ordOp (r.opcode p) && (r.fields p).ord == 1 && o.port == 1) || (r.opcode p == 0x66 && o.port == 0)

/-- The limits that tie a field of the entry to the width of A (R105 to R108). -/
def laneOk (opc : Nat) (n : NodeF) (wa : Nat) : Bool :=
  let inl := 2 ^ wa
  let w := lanesOfWid n.wid
  let per := 32 / fmtBits (fmtOf (n.mod.toNat / 16))
  match opc with
  | 0x59 => (List.range w).all (fun k => decide (bits (nExt n 0) (4 * k + 3) (4 * k) < inl))
  | 0x5A => decide (n.cfg.toNat % 16 < inl)
  | 0x5B => decide (w * per = inl)
  | 0x5C => decide ((n.cfg.toNat % 4 + 1) * w ≤ inl * per)
  | _ => true

def Region.widOk (r : Region) (e k : Nat) : Bool :=
  let opc := r.opcode e
  let n := r.fields e
  match r.opWid e k with
  | none => true
  | some wk =>
    let wa := (r.opWid e 0).getD 0
    let base := match widReq opc k with
      | .any => true
      | .node => wk == n.wid.toNat
      | .one => wk == 0
      | .sixteen => wk == 4
      | .reduce => n.wid == 0 || n.wid.toNat == wk
      | .sameA => wk == wa
      | .oneOrA => wk == 0 || wk == wa
      | .csum => wk == (if n.mod.toNat / 16 % 4 = 1 then wa else 0)
      | .order => r.orderOk e
    base && (k != 0 || laneOk opc n wk)

/-! ### An entry (R70) -/

/-- Lowest bit of an operand field of word 1. -/
def opndBit (k : Nat) : Nat := if k = 0 then 42 else if k = 1 then 22 else 2

/-- Whether an operand is required, by R68 and the fields that decide it (R67, R118, R152). -/
def opUse (opc : Nat) (n : NodeF) (k : Nat) : OpUse :=
  if opc = 0x05 ∧ k = 2 then (if n.ndt = 1 then .absent else .required)
  else if opc = 0xA1 ∧ k = 1 then (if n.mod.toNat / 16 % 4 = 0 then .absent else .required)
  else if opc = 0x64 ∧ k = 1 then (if n.mod.toNat / 16 = 6 then .required else .absent)
  else match nodeRow opc with
    | none => .absent
    | some row => if k = 0 then row.a else if k = 1 then row.b else row.c

/-- An operand field (R63, R64): distance, port, presence. Operand B of a CARRY that a task output end feeds is present with
distance 0 (R239), which R64 alone would reject; and two output ends that feed one operand, for which no rule names an
outcome, are INVALID_FIELD at that operand (DESIGN CHOICE, log 16). -/
def Region.checkOpnd (r : Region) (e k : Nat) : Option PlaceFail :=
  let opc := r.opcode e
  let n := r.fields e
  let o := opndOf n k
  let b := opndBit k
  let d := o.dist.toNat
  let ends := r.taskEnds e k
  let use := opUse opc n k
  let present := d != 0 || !ends.isEmpty
  let p := producerOf opc e k o
  firstFail [
    need (d == 0 || (if pointsAhead opc k then decide (d + 1 + e ≤ r.nent) else decide (d ≤ e)))
      { entryAt e 1 (b + 2) with code := invalidDist },
    need (d == 0 || decide (r.entries.length ≤ p) || (portsOf (r.opcode p) (r.fields p)).contains o.port.toNat) { entryAt e 1 b with code := invalidPort },
    need (d != 0 || o.port == 0) (entryAt e 1 b),
    need ((use != .required || present) && (use != .absent || !present) && decide (ends.length ≤ 1) &&
      (d == 0 || ends.isEmpty)) (entryAt e 1 b)]

/-- A BAR entry whose rung differs from that of an earlier one with the same number (R291). -/
def Region.barMixed (r : Region) (e : Nat) : Bool :=
  r.opcode e == 0x09 && (r.barEntries ((r.fields e).cfg.toNat % 2048)).any (fun i =>
    decide (i < e) && (r.fields i).scope != (r.fields e).scope)

/-- XCNT in range, and the combinations its page sets (R129, R175). -/
def xcntOk (opc : Nat) (n : NodeF) : Bool :=
  if opc = 0x81 then (n.ext.length == 3) == (n.res == 1)
  else if opc = 0x02 ∨ opc = 0x03 then n.cfg != 0 || n.ext.length != 1
  else true

/-- Word 0, word 1, the extension words and the widths of an entry whose words are given, in the order of R70. -/
def Region.checkEntry (r : Region) (e : Nat) (ws : List Word) : Option PlaceFail :=
  let w0 := wordAt ws 0
  let w1 := wordAt ws 1
  let opc := bits w0 63 56
  match nodeRow opc with
  | none => some { entryAt e 0 56 with code := invalidOpcode }
  | some row =>
    let n := entryFields w0 w1 (ws.drop 2)
    firstFail ([
      need (row.rep || n.repm1 == 0) (entryAt e 0 50),
      need (fmtAllowed opc n.fmt.toNat) (entryAt e 0 46),
      need (widAllowed opc n n.wid.toNat && decide (n.wid.toNat ≤ 4)) (entryAt e 0 43),
      need (decide (1 ≤ n.rate.toNat) && decide (n.rate.toNat ≤ 16)) (entryAt e 0 38),
      need (n.ndt == 0 || opc == 0x05) (entryAt e 0 37),
      need (n.ord == 0 || ordOp opc) (entryAt e 0 36),
      need (n.res == 0 || resOp opc) (entryAt e 0 35),
      need ((n.scope == 0 || scopeOp opc) && !r.barMixed e) (entryAt e 0 32),
      checkFlds w0 28 (entryAt e 0) 32 (modHiFlds opc n),
      checkFlds w0 24 (entryAt e 0) 28 (modLoFlds opc),
      checkFlds w0 0 (entryAt e 0) 24 (cfgFlds r e opc),
      need (bits w1 63 62 == 0) (entryAt e 1 62),
      r.checkOpnd e 0, r.checkOpnd e 1, r.checkOpnd e 2,
      need (decide (row.xmin ≤ n.ext.length) && decide (n.ext.length ≤ row.xmax) && n.ext.length == bits w1 1 0)
        { entryAt e 1 0 with code := invalidXcnt },
      need (xcntOk opc n) (entryAt e 1 0)] ++
      (List.range n.ext.length).map (fun j => checkFlds (nExt n j) 0 (entryAt e (2 + j)) 64 (extFlds opc n j)) ++
      [need (opc != 0xA0 || !chainOverlap n) (entryAt e 2 24)] ++
      [0, 1, 2].map (fun k => need (r.widOk e k) (entryAt e 1 (opndBit k))))

/-- The firing instruction of an entry's words; reserved bits and ranges are checked apart. -/
def entryInstr (ws : List Word) : Option Instr :=
  nodeOf (bits (wordAt ws 0) 63 56) (entryFields (wordAt ws 0) (wordAt ws 1) (ws.drop 2))

/-- The script's entries as instructions; an entry with an unassigned opcode stands as MOV until it is rejected. -/
def entriesOf (ws : List (List Word)) : List Instr :=
  ws.map (fun w => (entryInstr w).getD (.movN (entryFields (wordAt w 0) (wordAt w 1) (w.drop 2))))

/-- Validate the script, entries in ascending index. -/
def Region.checkScript (r : Region) (ws : List (List Word)) : Option PlaceFail :=
  firstFail (ws.zipIdx.map (fun p => r.checkEntry p.2 p.1))

/-! ### The list records (R243) -/

def listAt (word host i bit : Nat) : PlaceFail :=
  { code := invalidField, entry := host, word := word, bit := bit, recidx := i }

def Region.checkSlotRec (r : Region) (i : Nat) : Option PlaceFail :=
  let w (k : Nat) : Word := recWord r.slotRecs 4 i k
  let q := slotRecOf (w 0) (w 1)
  let at_ := listAt 0x20 q.host i
  let bindOk (v : Nat) : Bool :=
    if v / 32 = 1 then decide (v % 32 < 16)
    else r.endList.any (fun x => !x.output && x.host == q.host && x.slot == q.slot && x.end_ == v)
  firstFail [
    checkFlds (w 0) 0 at_ 64 [fld 47 32 (mult 4), fld 31 24 (fun v => decide (v < r.ncode)), anyFld 19 16,
      fld 15 0 (fun v => decide (v < r.nent))],
    checkFlds (w 1) 0 at_ 64 [anyFld 53 38, fld 37 32 bindOk, fld 31 0 (mult 8)],
    checkFlds (w 2) 0 at_ 64 [], checkFlds (w 3) 0 at_ 64 []]

def Region.checkEndRec (r : Region) (i : Nat) : Option PlaceFail :=
  let w := recWord r.endRecs 1 i 0
  let q := endRecOf w
  let pp : Fld := ⟨49, 48, fun v =>
    if q.output then (if v ≤ 2 then 0 else invalidField)
    else if r.nent ≤ q.peer ∨ (portsOf (r.opcode q.peer) (r.fields q.peer)).contains v then 0 else invalidPort⟩
  checkFlds w 0 (listAt 0x21 q.host i) 64 [pp, fld 47 32 (fun v => decide (v < r.nent)),
    fld 28 26 (fun v => decide (v ≤ 4) && (q.output || v == 0)),
    fld 25 22 (fun v => r.slotList.any (fun x => x.host == q.host && x.slot == v)), anyFld 21 21, anyFld 20 16,
    fld 15 0 (fun v => decide (v < r.nent))]

/-- A table record; `slots` is TSLIM - TSBASE + 1 of the tenant. -/
def Region.checkTableRec (r : Region) (slots i : Nat) : Option PlaceFail :=
  firstFail [checkFlds (recWord r.tableRecs 2 i 0) 0 (listAt 0x22 0 i) 64 [fld 63 0 (mult 64)],
    checkFlds (recWord r.tableRecs 2 i 1) 0 (listAt 0x22 0 i) 64 [anyFld 3 0],
    need (decide (r.tableSlot i < slots))
      { code := fitTables, entry := 0, needed := r.tableSlot i + 1, avail := slots, recidx := i }]

def Region.checkCodeRec (r : Region) (i : Nat) : Option PlaceFail :=
  let w (k : Nat) : Word := recWord r.codeRecs 4 i k
  let at_ := listAt 0x23 0 i
  let org := bits (w 2) 15 0
  firstFail [checkFlds (w 0) 0 at_ 64 [fld 63 0 (mult 4)], checkFlds (w 1) 0 at_ 64 [fld 63 0 (mult 4)],
    checkFlds (w 2) 0 at_ 64 [fld 47 32 (fun v => decide (v ≤ 1024)),
      fld 31 16 (fun v => decide (1 ≤ v) && decide (v ≤ 16384) && decide (org + 4 * v ≤ 65536)), fld 15 0 (mult 64)],
    checkFlds (w 3) 0 at_ 64 []]

def Region.checkRecords (r : Region) (slots : Nat) : Option PlaceFail :=
  firstFail ((List.range r.nslot).map r.checkSlotRec ++ (List.range r.nend).map r.checkEndRec ++
    (List.range r.ntab).map (r.checkTableRec slots) ++ (List.range r.ncode).map r.checkCodeRec)

/-! ### Pools (R226) -/

/-- First line and number of lines of each pool entry. -/
def poolsOf : List Byte → List (Nat × Nat)
  | a :: b :: c :: d :: rest => (natOf [a, b], natOf [c, d]) :: poolsOf rest
  | _ => []

def poolOk (p : Nat × Nat) : Bool := decide (1 ≤ p.2) && decide (p.1 + p.2 ≤ 1024)

end Sys2Proof.Machine
end

