-- ==== Sys2Proof/Machine/Pack.lean ====
section
/-! DEFINITION. Packing a script into virtual cells (R319, R322 to R324, R238, R240, R159, R347, R348) and the region
that results, with its channels in route order (R328). -/

namespace Sys2Proof.Machine

/-- Slots of a tenant's table range (R324, R428). -/
def Tenant.tableSlots (t : Tenant) : Nat := t.tslim + 1 - t.tsbase

def packFail (code e needed avail : Nat) : PlaceFail :=
  { code := code, step := 1, entry := e, needed := needed, avail := avail }

/-! ### fitcheck (R324) -/

/-- Ends of the pool ranges an entry names, each with its partition's bytes. An MVM names no accumulator range: where ACCG is 0
it needs the smallest partition (log 11). -/
def Region.rangeEnds (r : Region) (e : Nat) : List (Nat × Nat) :=
  let n := r.fields e
  let spad := r.spadBytes
  let acc := r.accg * 65536
  let b0 (hi lo : Nat) : Nat := bits (nExt n 0) hi lo
  let opc := r.opcode e
  (if opc == 0x81 && r.accg == 0 then [(65536, 0)] else []) ++
  match opc with
  | 0x60 | 0x61 => [(b0 23 0 + 1, spad)]
  | 0x67 => [((b0 11 0 + b0 23 12 + 1) * 4096, spad)]
  | 0x80 => [((b0 19 8 + 1) * 4096, acc)]
  | 0x81 => if n.res = 1 then [((bits (nExt n 2) 11 0 + bits (nExt n 2) 23 12 + 1) * 4096, spad)] else []
  | 0x82 => [((b0 19 8 + 1) * 4096, acc), (b0 44 24 + bits (nExt n 1) 31 0 * b0 60 45, spad)]
  | 0xA0 =>
    let cnt := (b0 63 48 + 1) * 2 ^ (n.cfg.toNat % 8)
    [(b0 23 0 + cnt * sizeOf (bits (nExt n 1) 51 48), spad), (b0 47 24 + cnt * sizeOf (bits (nExt n 1) 55 52), spad)] ++
      (if n.ext.length = 3 then [(bits (nExt n 2) 23 0 + cnt * sizeOf (bits (nExt n 2) 27 24), spad)] else [])
  | _ => []

/-- The table slot an entry names (R183, R185). -/
def entrySlot (opc : Nat) (n : NodeF) : Option Nat :=
  if opc = 0x92 then some (n.cfg.toNat % 16) else if opc = 0x90 then some (bits (n.cfg.zeroExtend 64) 19 16) else none

/-- The fixed leave request of an entry (R309). -/
def fixedLeave (opc : Nat) (n : NodeF) : Nat :=
  match opc with
  | 0x80 | 0x82 => 4
  | 0x81 => ceilDiv (mvmBatch n * mvmN n * mvmK n) 65536
  | 0xA0 => leaveUnits ((bits (nExt n 0) 63 48 + 1) * 2 ^ (n.cfg.toNat % 8) * sizeOf (bits (nExt n 1) 51 48))
  | _ => 0

/-- fitcheck of one entry, in the order of R324. -/
def Region.fitCheck (r : Region) (slots lb e : Nat) : Option PlaceFail :=
  let opc := r.opcode e
  let n := r.fields e
  firstFail ((r.rangeEnds e).map (fun p => need (decide (p.1 ≤ p.2)) (packFail fitSram e p.1 p.2)) ++
    [match entrySlot opc n with
      | some k => need (decide (k < slots)) (packFail fitTables e (k + 1) slots)
      | none => none,
     need (opc != 0x09 || decide (n.cfg.toNat % 2048 < r.nbar)) (packFail fitBarriers e (n.cfg.toNat % 2048 + 1) r.nbar),
     need (decide (fixedLeave opc n ≤ lb)) (packFail fitLeave e (fixedLeave opc n) lb)])

/-! ### The loop of R322 -/

/-- The packer: current virtual cell, elements used in it, whether it holds a matrix node. -/
structure Packer where
  v : Nat := 0
  used : Nat := 0
  mx : Bool := false
  /-- Cell and first element of each entry so far, the latest first. -/
  at_ : List (Nat × Nat) := []
  deriving DecidableEq, Repr

def Region.packEntry (r : Region) (p : Packer) (e : Nat) : Packer :=
  let opc := r.opcode e
  let n := nodeRep (r.fields e)
  let mat := matrixOp opc
  if isSbox opc then { p with at_ := (p.v, 0) :: p.at_ }
  else if n ≤ 16 then
    let fresh := decide (16 < p.used + n) || (mat && p.mx)
    let v := if fresh then p.v + 1 else p.v
    let used := if fresh then 0 else p.used
    { v := v, used := used + n, mx := (!fresh && p.mx) || mat, at_ := (v, used) :: p.at_ }
  else
    let k := (n + 15) / 16
    let v := if p.used = 0 then p.v else p.v + 1
    { v := v + k - 1, used := n - 16 * (k - 1), mx := false, at_ := (v, 0) :: p.at_ }

def Region.packLoop (r : Region) : Packer := (List.range r.entries.length).foldl r.packEntry {}

/-! ### Home cells of switch-box nodes (R319) -/

/-- Entries that name a port of e: with operand B of CARRY pointing ahead. -/
def Region.consumersOf (r : Region) (e : Nat) : List Nat :=
  (List.range r.entries.length).filter (fun i => [0, 1, 2].any (fun k =>
    let o := opndOf (r.fields i) k
    o.dist != 0 && producerOf (r.opcode i) i k o == e))

/-- The host of the lowest-index task input end a node feeds. -/
def Region.endHost (r : Region) (e : Nat) : Option Nat :=
  (r.endList.find? (fun x => !x.output && x.peer == e)).map (fun x => x.host)

/-- The consumer of step 1: the lowest entry that names the node, or the lowest input end it feeds, whichever has the lower
host index; an end is (true, its host). -/
def Region.firstConsumer (r : Region) (e : Nat) : Option (Bool × Nat) :=
  match (r.consumersOf e).min?, r.endHost e with
  | some c, some h => some (if h < c then (true, h) else (false, c))
  | some c, none => some (false, c)
  | none, some h => some (true, h)
  | none, none => none

/-- Walk from a switch-box node to the cell of its first consumer, by fuel. A task end lies in the virtual cell of its HOST,
which is HOST's own home cell where HOST is a switch-box node. -/
def Region.homeWalk (r : Region) (cur : Nat → Nat) (first : Nat) : Nat → List Nat → Nat → Nat
  | 0, _, _ => cur first
  | k + 1, seen, e =>
    match r.firstConsumer e with
    | none => cur first
    | some (end_, c) =>
      if isSbox (r.opcode c) = false then cur c
      else if end_ then r.homeWalk cur c k [c] c
      else if seen.contains c then cur first
      else r.homeWalk cur first k (c :: seen) c

/-- Cell and first element of each entry, home cells included, and the number of virtual cells. -/
def Region.packed (r : Region) : List (Nat × Nat) × Nat :=
  let p := r.packLoop
  let at_ := p.at_.reverse
  let cur (i : Nat) : Nat := (at_.getD i (0, 0)).1
  (at_.zipIdx.map (fun q =>
    if isSbox (r.opcode q.2) then (r.homeWalk cur q.2 ((r.entries.length + 1) ^ 2) [q.2] q.2, 0) else q.1), p.v + 1)

/-! ### Checks of the packed script -/

/-- The virtual cell of an entry, and the virtual cells its copies lie in (R32). -/
def Region.vcellOf (r : Region) (e : Nat) : Nat := (r.cellOf.getD e (0, 0)).1
def Region.entryCells (r : Region) (e : Nat) : List Nat :=
  (List.range ((nodeRep (r.fields e) + 15) / 16)).map (fun k => r.vcellOf e + k)

/-- Byte ranges of the store that a code object fills or marks (R226). -/
def Region.codeExtents (r : Region) (k : Nat) (pools : List (Nat × Nat)) : List (Nat × Nat) :=
  (r.codeOrg k, 4 * r.codeLen k) :: pools.map (fun p => (64 * p.1, 64 * p.2))

/-- Pool entries of each code object, as read. -/
abbrev PoolsOf := Nat → List (Nat × Nat)

def Region.codesClash (r : Region) (pools : PoolsOf) (a b : Nat) : Bool :=
  a != b && (r.codeExtents a (pools a)).any (fun p => (r.codeExtents b (pools b)).any (fun q => rangesMeet p.1 p.2 q.1 q.2))

def clashAt (word bit host i : Nat) : PlaceFail := { listAt word host i bit with step := 1 }

/-- Clashes of slot numbers and code objects, then of end numbers, within one virtual cell (R238). -/
def Region.slotClash (r : Region) (pools : PoolsOf) (i : Nat) : Option PlaceFail :=
  match r.slotList[i]? with
  | none => none
  | some q =>
    let before := (r.slotList.take i).filter (fun p => r.vcellOf p.host == r.vcellOf q.host)
    firstFail [need (!before.any (fun p => p.slot == q.slot)) (clashAt 0x20 16 q.host i),
      need (!before.any (fun p => r.codesClash pools p.code q.code)) (clashAt 0x20 24 q.host i)]

def Region.endClash (r : Region) (i : Nat) : Option PlaceFail :=
  match r.endList[i]? with
  | none => none
  | some q => need (!(r.endList.take i).any (fun p => r.vcellOf p.host == r.vcellOf q.host && p.end_ == q.end_))
      (clashAt 0x21 16 q.host i)

/-- Slot records of a virtual cell in ascending slot number, with their indices. -/
def Region.cellSlots (r : Region) (v : Nat) : List (SlotRec × Nat) :=
  sortBy (fun p => p.1.slot) (r.slotList.zipIdx.filter (fun p => r.vcellOf p.1.host == v))

/-- SSBASE of a slot: its cell's stacks in ascending slot number (R240). -/
def Region.stackBase (r : Region) (v k : Nat) : Nat :=
  ((r.cellSlots v).filter (fun p => p.1.slot < k)).foldl (fun a p => a + p.1.stack) 32768

def Region.stackFail (r : Region) (v : Nat) : Option PlaceFail :=
  firstFail ((r.cellSlots v).map (fun p =>
    let last := r.stackBase v p.1.slot + p.1.stack
    need (decide (last ≤ r.taskBytes)) { packFail fitSram p.1.host last r.taskBytes with recidx := p.2 }))

/-! ### Route classes (R159, R347, R348) -/

/-- The class a BIND field names (R19). -/
def bindClassOf (b : Nat) : Option Nat := if b / 32 = 1 then some (b % 16) else none

def Region.entriesOn (r : Region) (opc cl : Nat) : List Nat :=
  (List.range r.entries.length).filter (fun i => r.opcode i == opc && nodeClass (r.fields i) == cl)
def Region.bound (r : Region) (cl : Nat) : List (SlotRec × Nat) :=
  r.slotList.zipIdx.filter (fun p => bindClassOf p.1.bind == some cl)
def Region.sendSlots (r : Region) (cl : Nat) : List (SlotRec × Nat) :=
  r.slotList.zipIdx.filter (fun p => p.1.sends / 2 ^ cl % 2 == 1)

/-- A RECVN in a cell one of whose slots is bound to its class (R159). -/
def Region.recvnClash (r : Region) (v : Nat) : Option PlaceFail :=
  firstFail ((List.range r.entries.length).map (fun e =>
    need (!(r.opcode e == 0xA5 && r.vcellOf e == v &&
      (r.bound (nodeClass (r.fields e))).any (fun p => r.vcellOf p.1.host == v)))
      { entryAt e 0 0 with step := 1 }))

/-- Receivers and sending cells of a class (R348). -/
def Region.receivers (r : Region) (cl : Nat) : List Recv :=
  (r.entriesOn 0xA5 cl).map Recv.node ++ (r.bound cl).map (fun p => Recv.slot (r.vcellOf p.1.host) p.1.slot)
def Region.sendingCells (r : Region) (cl : Nat) : List Nat :=
  sortBy id ((r.entriesOn 0xA4 cl).map r.vcellOf ++ (r.sendSlots cl).map (fun p => r.vcellOf p.1.host)).eraseDups

def Region.usesClass (r : Region) (cl : Nat) : Bool := !(r.receivers cl).isEmpty || !(r.sendingCells cl).isEmpty

/-- A class with sending cells and no receiver (R348). -/
def Region.noReceiver (r : Region) (cl : Nat) : Option PlaceFail :=
  if !(r.receivers cl).isEmpty ∨ (r.sendingCells cl).isEmpty then none
  else
    match r.entriesOn 0xA4 cl, r.sendSlots cl with
    | e :: _, _ => some { entryAt e 0 0 with step := 1 }
    | [], (q, i) :: _ => some (clashAt 0x20 38 q.host i)
    | [], [] => none

/-- Receive-store buffers a virtual cell reserves (R348). -/
def Region.buffersAt (r : Region) (v : Nat) : Nat :=
  (List.range 16).foldl (fun a cl =>
    a + 2 * (r.sendingCells cl).length * ((r.receivers cl).filter (fun q => (match q with
      | .slot w _ => w
      | .node e => r.vcellOf e) == v)).length) 0

/-- The first entry that names a class, or the host of the first slot that does. -/
def Region.namesClass (r : Region) (cl : Nat) : Nat :=
  (((r.entriesOn 0xA4 cl ++ r.entriesOn 0xA5 cl).min?.orElse (fun _ =>
    ((r.bound cl ++ r.sendSlots cl).map (fun p => p.1.host)).min?))).getD noEntry

/-- A class that another region of the die holds (R347). -/
def Region.classTaken (r : Region) (held : Nat → Bool) (cl : Nat) : Option PlaceFail :=
  need (!(r.usesClass cl && held cl)) (packFail fitTracks (r.namesClass cl) 1 0)

def Region.classEnt (r : Region) (cl : Nat) : ClassEnt :=
  let rs := r.receivers cl
  let ss := r.sendingCells cl
  { recvs := rs, senders := ss,
    credits := ss.foldl (fun t v => (List.range rs.length).foldl (fun t i => Tab.set t (creditKey v i) 2) t) [] }

/-! ### Channels in route order (R315, R328) -/

/-- The producer of operand k of entry e. -/
def Region.producerEnd (r : Region) (e k : Nat) : Option (End × Nat × Nat) :=
  match r.taskEnds e k with
  | x :: _ => some (.task (r.vcellOf x.host) x.slot x.end_, 2 ^ x.wid, 16)
  | [] =>
    let o := opndOf (r.fields e) k
    if o.dist = 0 then none
    else
      let p := producerOf (r.opcode e) e k o
      some (.entry p o.port.toNat, lanesOfWid (r.fields p).wid, (r.fields p).rate.toNat)

def Region.chansAt (r : Region) (e : Nat) : List Chan :=
  [0, 1, 2].filterMap (fun k => (r.producerEnd e k).map (fun p =>
      { prod := p.1, cons := .entry e k, wid := p.2.1, rate := p.2.2 : Chan })) ++
  (sortBy (fun x => x.end_) (r.endList.filter (fun x => !x.output && x.host == e))).map (fun x =>
      { prod := .entry x.peer x.pp, cons := .task (r.vcellOf e) x.slot x.end_,
        wid := lanesOfWid (r.fields x.peer).wid, rate := (r.fields x.peer).rate.toNat : Chan })

def Region.channels (r : Region) : List Chan := (List.range r.entries.length).flatMap r.chansAt

/-! ### Packing whole -/

/-- A region's launch lists with its entries packed, and the first failure of packing. `held` says which classes other
regions of the die hold. -/
def Region.pack (r : Region) (t : Tenant) (lb : Nat) (held : Nat → Bool) : Except PlaceFail Region :=
  let pools : PoolsOf := fun k => poolsOf ((r.codeImages.getD k []).drop (4 * r.codeLen k))
  let cells := r.packed
  let r := { r with cellOf := cells.1, ncells := cells.2 }
  let vs := List.range r.ncells
  let classes := List.range 16
  match firstFail ((List.range r.entries.length).map (r.fitCheck t.tableSlots lb) ++
      [need (decide (r.ncells ≤ 576)) (packFail fitCells noEntry r.ncells 576)] ++
      (List.range r.nslot).map (r.slotClash pools) ++ (List.range r.nend).map r.endClash ++ vs.map r.stackFail ++
      vs.map r.recvnClash ++ classes.map r.noReceiver ++
      vs.map (fun v => need (decide (r.buffersAt v ≤ 512)) (packFail fitSram noEntry (r.buffersAt v * 128) 65536)) ++
      classes.map (r.classTaken held)) with
  | some p => .error p
  | none =>
    .ok { r with
      chans := r.channels
      classes := (classes.filter r.usesClass).map (fun cl => (cl, r.classEnt cl)) }

end Sys2Proof.Machine
end

