-- ==== Sys2Proof/Machine/Route.lean ====
section
/-! DEFINITION. The fabric: tracks and their capacity (R314, R327), mapping virtual cells to sites (R325, R326), and
routing channels (R328 to R330). -/

namespace Sys2Proof.Machine

/-! ### Tracks (R314) -/

/-- The box one track's length away in a direction; none past the edge of the die. -/
def boxStep (x y dir len : Nat) : Option (Nat × Nat) :=
  match dir with
  | 0 => if x + len ≤ 27 then some (x + len, y) else none
  | 1 => if len ≤ x then some (x - len, y) else none
  | 2 => if y + len ≤ 24 then some (x, y + len) else none
  | _ => if len ≤ y then some (x, y - len) else none

/-- Tracks of a length that start at a box in a direction. -/
def tracksAt (x y dir len : Nat) : Nat :=
  if (boxStep x y dir len).isNone then 0
  else
    match len with
    | 1 => 16
    | 4 => 2
    | 16 => if (if dir < 2 then x else y) % 4 = 0 then 1 else 0
    | _ => 0

/-- Capacity of a box for channels that leave it, and the same for channels that enter it (R327). -/
def boxCapacity (x y : Nat) : Nat :=
  [0, 1, 2, 3].foldl (fun a d => [1, 4, 16].foldl (fun a l => a + tracksAt x y d l) a) 0

/-! ### Map (R325) -/

/-- The k cells from index s are available, in ascending serpentine order, each adjacent to the next. -/
def runOk (av : Nat → Bool) (s k : Nat) : Bool :=
  decide (s + k ≤ 576) && (List.range k).all (fun j => av (s + j) && (j == 0 || adjacent (s + j - 1) (s + j)))

/-- The first scan position from `off` where k cells fit, and whether available cells were passed over. -/
def findRun (av : Nat → Bool) (sa k : Nat) : Nat → Nat → Bool → Option Nat × Bool
  | 0, _, skipped => (none, skipped)
  | fuel + 1, off, skipped =>
    if 576 < off + k then (none, skipped || (List.range (576 - off)).any (fun j => av ((sa + off + j) % 576)))
    else if runOk av ((sa + off) % 576) k then (some off, skipped)
    else findRun av sa k fuel (off + 1) (skipped || av ((sa + off) % 576))

/-- The longest run of adjacent available cells that a scan from `sa` meets: it ends before `sa`. -/
def longestRun (av : Nat → Bool) (sa : Nat) : Nat :=
  ((List.range 576).foldl (fun (p : Nat × Nat) s =>
    let run := if av s then (if p.1 ≠ 0 ∧ s ≠ sa ∧ adjacent (s - 1) s then p.1 + 1 else 1) else 0
    (run, max p.2 run)) (0, 0)).2

/-- Virtual cells in ascending order, cells of one multi-cell node together: size, and the node. -/
def Region.groups (r : Region) : List (Nat × Nat) :=
  let multi := (List.range r.entries.length).filter (fun e => !isSbox (r.opcode e) && decide (16 < nodeRep (r.fields e)))
  ((List.range r.ncells).foldl (fun (p : List (Nat × Nat) × Nat) v =>
    if 0 < p.2 then (p.1, p.2 - 1)
    else
      match multi.find? (fun e => r.vcellOf e == v) with
      | some e =>
        let k := min (r.entryCells e).length (r.ncells - v)
        (p.1 ++ [(k, e)], k - 1)
      | none => (p.1 ++ [(1, 0)], 0)) ([], 0)).1

/-- The lowest entry that lies in a virtual cell. -/
def Region.firstEntry (r : Region) (v : Nat) : Nat :=
  ((List.range r.entries.length).find? (fun e => (r.entryCells e).contains v)).getD 0

/-- Scan the groups: sites of the virtual cells in order, or the first multi-cell node cells were skipped for. -/
def scanGroups (av : Nat → Bool) (sa : Nat) : List (Nat × Nat) → Nat → Option (Nat × Nat) → List Nat →
    Except (Nat × Nat) (List Nat)
  | [], _, _, acc => .ok acc
  | (k, e) :: rest, off, skip, acc =>
    match findRun av sa k 577 off false with
    | (some o, passed) =>
      let skip := if k > 1 && passed then skip.orElse (fun _ => some (k, e)) else skip
      scanGroups av sa rest (o + k) skip (acc ++ (List.range k).map (fun j => (sa + o) % 576 + j))
    | (none, _) => .error ((skip.orElse (fun _ => some (k, e))).getD (k, e))

/-- The map step: sites by virtual cell. -/
def Region.mapSites (r : Region) (av : Nat → Bool) (sa : Nat) : Except PlaceFail (List Nat) :=
  let count := ((List.range 576).filter av).length
  if count < r.ncells then
    .error { code := fitCells, step := 2, entry := r.firstEntry (r.ncells - 1), needed := r.ncells, avail := count }
  else
    match scanGroups av sa r.groups 0 none [] with
    | .ok sites => .ok sites
    | .error (k, e) => .error { code := fitSpan, step := 2, entry := e, needed := k, avail := longestRun av sa }

/-- Put each virtual cell on its site, keeping what the cell holds. -/
def Region.putSites (r : Region) (sites : List Nat) : Region :=
  sites.zipIdx.foldl (fun r p => r.setCell p.2 { r.cell p.2 with site := p.1 }) r

/-! ### Boxes and tracks needed -/

/-- The terminal box of the cell a channel's end lies at (R312, R318, R319). -/
def Region.endBox (r : Region) (x : End) : Nat × Nat :=
  let s := (r.cell (match x with
    | .task v _ _ => v
    | .entry e _ => r.vcellOf e)).site
  (siteX s, siteY s)

/-- Tracks a channel needs (R315). -/
def Region.tracksOf (r : Region) (ch : Chan) : Nat :=
  if r.endBox ch.prod = r.endBox ch.cons then 0 else ceilDiv (ch.wid * ch.rate) 32

/-- The first switch-box node that would be the 17th in its box (R326). -/
def Region.boxFail (r : Region) : Option PlaceFail :=
  firstFail ((List.range r.entries.length).map (fun e =>
    let v := r.vcellOf e
    need (!isSbox (r.opcode e) ||
        decide (((List.range e).filter (fun i => isSbox (r.opcode i) && r.vcellOf i == v)).length < 16))
      { code := fitTracks, step := 2, entry := e, needed := 17, avail := 16,
        box := some (siteX (r.cell v).site, siteY (r.cell v).site, 0) }))

/-- The rate check of a virtual cell (R327). -/
def Region.rateFail (r : Region) (v : Nat) : Option PlaceFail :=
  let s := (r.cell v).site
  let box := (siteX s, siteY s)
  let out := (r.chans.filter (fun ch => r.endBox ch.prod == box)).foldl (fun a ch => a + r.tracksOf ch) 0
  let inn := (r.chans.filter (fun ch => r.endBox ch.cons == box)).foldl (fun a ch => a + r.tracksOf ch) 0
  let cap := boxCapacity box.1 box.2
  let fail (sum : Nat) : PlaceFail :=
    { code := fitRate, step := 2, entry := r.firstEntry v, needed := sum, avail := cap, box := some (box.1, box.2, 0) }
  firstFail [need (decide (out ≤ cap)) (fail out), need (decide (inn ≤ cap)) (fail inn)]

/-! ### Occupancy (R316, R329) -/

/-- A hop runs over the edge that leaves box (x, y) in its direction. -/
def Hop.spans (h : Hop) (x y : Nat) : Bool :=
  match h.dir with
  | 0 => h.y == y && decide (h.x ≤ x) && decide (x < h.x + h.len)
  | 1 => h.y == y && decide (x ≤ h.x) && decide (h.x < x + h.len)
  | 2 => h.x == x && decide (h.y ≤ y) && decide (y < h.y + h.len)
  | _ => h.x == x && decide (y ≤ h.y) && decide (h.y < y + h.len)

/-- U of R329: tracks allocated across an edge in a direction. -/
def edgeUse (hops : List Hop) (x y dir : Nat) : Nat :=
  (hops.filter (fun h => h.dir == dir && h.spans x y)).foldl (fun a h => a + h.n) 0

/-- Free tracks of a length that start at a box. -/
def freeTracks (hops : List Hop) (x y dir len : Nat) : Nat :=
  tracksAt x y dir len -
    (hops.filter (fun h => h.x == x && h.y == y && h.dir == dir && h.len == len)).foldl (fun a h => a + h.n) 0

/-- Cost of a hop (R329). -/
def hopCost (hops : List Hop) (x y dir len : Nat) : Nat :=
  (List.range len).foldl (fun a j =>
    match boxStep x y dir j with
    | some (bx, by_) => a + 8 * edgeUse hops bx by_ dir / 28
    | none => a) 1

/-! ### Least-cost paths (R329) -/

/-- Hops in the order of their keys: X before Y, the longer first, + before -. -/
def hopKeys : List (Nat × Nat) :=
  [(0, 16), (1, 16), (0, 4), (1, 4), (0, 1), (1, 1), (2, 16), (3, 16), (2, 4), (3, 4), (2, 1), (3, 1)]

/-- A hop that may be taken: start, direction, length, end and cost. -/
structure Move where
  dir : Nat
  len : Nat
  to_ : Nat
  cost : Nat
  deriving DecidableEq, Repr

def boxNo (x y : Nat) : Nat := x + 28 * y

/-- The moves of every box for hops of n tracks among the given lengths. -/
def allMoves (hops : List Hop) (n : Nat) (keys : List (Nat × Nat)) : Array (List Move) :=
  (Array.range 700).map (fun b =>
    keys.filterMap (fun k =>
      match boxStep (b % 28) (b / 28) k.1 k.2 with
      | none => none
      | some (tx, ty) =>
        if n ≤ freeTracks hops (b % 28) (b / 28) k.1 k.2 then
          some ⟨k.1, k.2, boxNo tx ty, hopCost hops (b % 28) (b / 28) k.1 k.2⟩
        else none))

/-- One round of relaxation of the costs to the target; 0 stands for unreached, c + 1 for cost c. -/
def relax (mv : Array (List Move)) (d : Array Nat) : Array Nat :=
  (Array.range 700).map (fun b =>
    (mv.getD b []).foldl (fun best m =>
      let t := d.getD m.to_ 0
      if t = 0 then best else if best = 0 then t + m.cost else min best (t + m.cost)) (d.getD b 0))

/-- Relax until nothing changes, by fuel. -/
def relaxAll (mv : Array (List Move)) : Nat → Array Nat → Array Nat
  | 0, d => d
  | k + 1, d => if relax mv d = d then d else relaxAll mv k (relax mv d)

/-- Costs of every box to a target box. -/
def costsTo (mv : Array (List Move)) (target : Nat) : Array Nat :=
  relaxAll mv 700 ((Array.range 700).map (fun b => if b = target then 1 else 0))

/-- Walk from a box along least-cost moves, the first by key at each box, by fuel. -/
def walkPath (mv : Array (List Move)) (d : Array Nat) (n target : Nat) : Nat → Nat → List Hop
  | 0, _ => []
  | k + 1, b =>
    if b = target then []
    else
      match (mv.getD b []).find? (fun m => d.getD m.to_ 0 != 0 && d.getD m.to_ 0 + m.cost == d.getD b 0) with
      | none => []
      | some m => ⟨b % 28, b / 28, m.dir, m.len, n⟩ :: walkPath mv d n target k m.to_

/-- The route of n tracks between two boxes over the given occupancy. -/
def findRoute (hops : List Hop) (n src dst : Nat) : Option (List Hop) :=
  let mv := allMoves hops n hopKeys
  let d := costsTo mv dst
  if d.getD src 0 = 0 then none else some (walkPath mv d n dst 700 src)

/-! ### Route (R328 to R330) -/

def Region.routeFrom (r : Region) (hops : List Hop) (ch : Chan) : Option (List Hop) :=
  let n := r.tracksOf ch
  let a := r.endBox ch.prod
  let b := r.endBox ch.cons
  if n = 0 then some [] else findRoute hops n (boxNo a.1 a.2) (boxNo b.1 b.2)

/-- Route channels in the order given, each with its number: all the routes, or the first channel that has none with
the occupancy it met. -/
def Region.routeAll (r : Region) : List Hop → List (Chan × Nat) → List (Nat × List Hop) →
    Except (Nat × List Hop) (List (Nat × List Hop))
  | _, [], acc => .ok acc
  | hops, (ch, c) :: rest, acc =>
    match r.routeFrom hops ch with
    | none => .error (c, hops)
    | some p => r.routeAll (hops ++ p) rest ((c, p) :: acc)

/-- The largest m for which a path of length-1 hops of m free tracks exists. -/
def widestPath (hops : List Hop) (src dst : Nat) : Nat → Nat
  | 0 => 0
  | m + 1 =>
    if (costsTo (allMoves hops (m + 1) [(0, 1), (1, 1), (2, 1), (3, 1)]) dst).getD src 0 = 0 then widestPath hops src dst m
    else m + 1

/-- The edge with the greatest use, the lowest by y, then x, then direction. -/
def worstEdge (hops : List Hop) : Nat × Nat × Nat :=
  ((List.range 2800).foldl (fun (best : Nat × Nat × Nat × Nat) i =>
    let b := i / 4
    let u := if (boxStep (b % 28) (b / 28) (i % 4) 1).isSome then edgeUse hops (b % 28) (b / 28) (i % 4) else 0
    if best.1 < u then (u, b % 28, b / 28, i % 4) else best) (0, 0, 0, 0)).2

def Region.putRoutes (r : Region) (ps : List (Nat × List Hop)) : Region :=
  { r with chans := r.chans.zipIdx.map (fun p => { p.1 with route := ((ps.find? (fun q => q.1 == p.2)).map (fun q => q.2)).getD [] }) }

/-- Route every channel of a region among the tracks that other regions' channels use: in route order, then, when one
has no path, all of them once more from the last to the first. -/
def Region.route (r : Region) (others : List Hop) : Except PlaceFail Region :=
  match r.routeAll others r.chans.zipIdx [] with
  | .ok ps => .ok (r.putRoutes ps)
  | .error _ =>
    match r.routeAll others r.chans.zipIdx.reverse [] with
    | .ok ps => .ok (r.putRoutes ps)
    | .error (c, hops) =>
      let ch := r.chans.getD c { prod := .entry 0 0, cons := .entry 0 0 }
      let a := r.endBox ch.prod
      let b := r.endBox ch.cons
      .error { code := fitTracks, step := 3, chan := c, needed := r.tracksOf ch,
               avail := widestPath hops (boxNo a.1 a.2) (boxNo b.1 b.2) 16, box := some (worstEdge hops) }

/-! ### A placement (R320, R321) -/

/-- Regions of a die other than the given cue's. -/
def State.othersOn (s : State) (die cue : Nat) : List Region :=
  (s.regions.filter (fun p => p.1 != cue && p.2.die == die)).map (fun p => p.2)

/-- A cell held by another region, or one of the pair of another region's exchange (R363). -/
def State.siteHeld (s : State) (die cue site : Nat) : Bool :=
  (s.othersOn die cue).any (fun r => (List.range r.ncells).any (fun v => (r.cell v).site == site) ||
    r.exchanges.any (fun x => x.a == site || x.b == site))

/-- Availability of a site: sound, not held, and set in the mask (R320, R332). -/
def State.available (s : State) (die cue : Nat) (mask : Nat → Bool) (site : Nat) : Bool :=
  (s.die die).sound.getLsbD site && !s.siteHeld die cue site && mask site

/-- Tracks that the routed channels of a die's regions hold (R320). -/
def State.tracksOn (s : State) (die : Nat) : List Hop :=
  (s.regions.filter (fun p => p.2.die == die)).flatMap (fun p => p.2.chans.flatMap (fun ch => ch.route))

/-- Map, check and route a packed region on a die from a snapshot of it. -/
def State.mapAndRoute (s : State) (cue die anchor : Nat) (mask : Nat → Bool) (r : Region) : Except PlaceFail Region :=
  let av := (List.range 576).map (s.available die cue mask)
  match r.mapSites (fun i => av.getD i false) anchor with
  | .error p => .error p
  | .ok sites =>
    let r := { r with die := die }.putSites sites
    match firstFail (r.boxFail :: (List.range r.ncells).map r.rateFail) with
    | some p => .error p
    | none => r.route (s.tracksOn die)

end Sys2Proof.Machine
end

