-- ==== Sys2Proof/Machine/Callboard.lean ====
section
/-! DEFINITION. The callboard (R395 to R397, R434): how a window takes a command and reports it, whose cues a window
may name, and a cue's status entry (R399). -/

namespace Sys2Proof.Machine

/-! ### Results (R396) -/

def resOk : Nat := 0
def resUnknown : Nat := 1
def resDenied : Nat := 2
def resField : Nat := 3
def resRange : Nat := 4
def resBusy : Nat := 5
def resState : Nat := 6
def resPinned : Nat := 7
def resGone : Nat := 8
def resOff : Nat := 9
def resSig : Nat := 10

/-- What a command comes to: it is done, done with a report (a deferred UNLOAD, R385), it stays BUSY, or it is refused
and changes nothing (R397). -/
inductive CmdOut where
  | done (s : State)
  | report (code : Nat) (s : State)
  | busy (s : State)
  | refuse (code : Nat)
  deriving DecidableEq, Repr

/-- The first refusal of conditions checked in order, else what the command does. -/
def refusals (cs : List (Bool × Nat)) (k : Unit → CmdOut) : CmdOut :=
  match cs.find? (fun p => p.1) with
  | some p => .refuse p.2
  | none => k ()

/-- A command on buffers goes on once all of them are in reach; the window stays BUSY until then (R402). -/
def State.withBufs (s : State) (bufs : List (Nat × Nat)) (k : State → CmdOut) : CmdOut :=
  if bufs.all (fun b => s.inReach b.1 b.2) then k s else .busy s

/-- The status word (R396). -/
def Win.status (w : Win) : Nat :=
  w.state + field (if w.lost then 1 else 0) 4 + field w.result 8 + field w.seq.toNat 32

/-- What a read of the BAR finds at an offset (R392, R395, R405): a window's status word at +0x40 and its result record at
+0x80, and the identity chain from 0x1_0000; none where the spec places nothing to read. -/
def State.barByte (s : State) (off : Nat) : Option Byte :=
  if off < 0x10000 then
    let w := s.win (off / 4096)
    let i := off % 4096
    if 0x40 ≤ i ∧ i < 0x48 then some (BitVec.ofNat 8 (w.status / 2 ^ (8 * (i - 0x40))))
    else if 0x80 ≤ i ∧ i < 0xC0 then some ((wordAt w.record ((i - 0x80) / 8)).extractLsb' (8 * (i % 8)) 8)
    else none
  else if off < 0x10000 + min Config.chainLen 8192 then some (Config.chainByte (off - 0x10000))
  else none

/-- The window whose command part a write at a BAR offset reaches (R395). -/
def barWindow (off : Nat) : Option Nat := if off % 4096 = 0 ∧ off < 0x10000 then some (off / 4096) else none

/-- A window reports a command as DONE. -/
def State.finish (s : State) (win code : Nat) : State :=
  s.setWin win { s.win win with state := 2, result := code, busy := none }

/-- A window's waiting command tried again: it is finished once it does not wait any more. -/
def State.retryCmd (s : State) (win : Nat) : CmdOut → State
  | .done s => s.finish win resOk
  | .report code s => s.finish win code
  | .refuse code => s.finish win code
  | .busy _ => s

/-- A write to a window that is BUSY is discarded and sets LOST (R397). -/
def State.lose (s : State) (win : Nat) : State := s.setWin win { s.win win with lost := true }

/-- A command that only window 0 may issue (R398). -/
def windowZeroOnly (code : Nat) : Bool := decide (0x10 ≤ code)

/-- Every bit outside the command's fields is 0 (R397). -/
def bitsClear (c : Cmd) (fields : List Nat) : Bool :=
  (c.words.zipIdx).all (fun p => p.1 &&& ~~~(BitVec.ofNat 64 (fields.getD p.2 0)) == 0)

/-- The bits hi:lo of a word. -/
def span (hi lo : Nat) : Nat := 2 ^ (hi + 1) - 2 ^ lo
def allBits : Nat := 2 ^ 64 - 1

/-- A window accepts a command: it counts it and clears LOST (R396). -/
def Win.accept (w : Win) : Win := { w with seq := w.seq + 1, lost := false }

/-- A window that holds a command it has accepted is BUSY (R397). -/
def Win.isBusy (w : Win) : Bool := w.busy.isSome || w.taken.isSome

/-- A window takes a command: it counts it, clears LOST, and does what the command says (R396, R397). After a failed
FWLOAD only FWLOAD is accepted (R405); the result of another command is then free (log 7). -/
def State.command (s : State) (win : Nat) (i : Instr) (c : Cmd) (fields : List Nat) (body : State → CmdOut) : State :=
  let w := s.win win
  if 15 < win then s
  else if w.isBusy then s.lose win
  else
    let s := s.setWin win { (if w.counted then w else w.accept) with counted := false }
    let code := bits c.w0 7 0
    if s.fwOnly && code != 0x19 then (s.finish win (1 + Config.freeNat s.free % 10)).tickFree
    else if windowZeroOnly code && win != 0 then s.finish win resDenied
    else if !bitsClear c fields then s.finish win resField
    else
      match body s with
      | .done s => s.finish win resOk
      | .report code s => s.finish win code
      | .refuse code => s.finish win code
      | .busy s => s.setWin win { s.win win with state := 1, busy := some i }

/-! ### Whose cues (R397, R434) -/

/-- The tenant bound to a window. -/
def State.winTenant (s : State) (win : Nat) : Option Nat := (s.win win).tenant

def Tenant.hasCue (t : Tenant) (c : Nat) : Bool := decide (t.cueBase ≤ c) && decide (c < t.cueBase + t.ncue)

/-- A window may name a cue: window 0 any cue, another window those of its tenant. -/
def State.cueInRange (s : State) (win c : Nat) : Bool :=
  win == 0 || (match s.winTenant win with
    | some t => (s.tenant t).hasCue c
    | none => false)

/-- A window's tenant holds a stack of a die. -/
def State.dieInRange (s : State) (win d : Nat) : Bool :=
  win == 0 || (match s.winTenant win with
    | some t => (s.tenant t).stackMask.extractLsb' (3 * d) 3 != 0
    | none => false)

/-- The tenant whose cue range holds a cue. -/
def State.cueOwner (s : State) (c : Nat) : Nat :=
  ((s.tenants.find? (fun p => p.2.bound && p.2.hasCue c)).map (fun p => p.1)).getD 0

/-! ### Cue states and the status entry (R280, R399) -/

def cueCode : CueSt → Nat
  | .free => 0 | .waiting => 1 | .ready => 2 | .placing => 3 | .running => 4 | .frozen => 5 | .failed => 6

/-- Which other words of the entry an update writes. -/
inductive Entry where
  | word0 | start | done | failure
  deriving DecidableEq, Repr

/-- Write a cue's status entry, word 0 last. -/
def State.writeEntry (s : State) (c : Nat) (e : Entry) : State :=
  let q := s.cue c
  let t := s.tenant q.tenant
  let at_ := t.cstat + 128 * (c - t.cueBase)
  let s := match e with
    | .word0 => s
    | .start => s.store (at_ + 8) 8 q.startTick
    | .done => s.store (at_ + 16) 8 q.doneTick
    | .failure => s.write (at_ + 64) (bytesOfWords q.failure)
  s.store at_ 8 (cueCode q.st + field q.updates 32)

/-- Move a cue to a state: its update count rises and its entry is written. -/
def State.moveCue (s : State) (c : Nat) (st : CueSt) (e : Entry) : State :=
  let q := s.cue c
  (s.setCue c { q with st := st, updates := (q.updates + 1) % 2 ^ 32 }).writeEntry c e

/-! ### Releases (R281, R282) -/

/-- Insert a cue among those that became READY in this tick, in ascending number, else behind all. -/
def readyInsert (cues : Tab Cue) (now c : Nat) : List Nat → List Nat
  | [] => [c]
  | x :: xs => if (Tab.get cues x {}).readyAt = now ∧ c < x then c :: x :: xs else x :: readyInsert cues now c xs

/-- A WAITING cue whose count is 0 becomes READY. -/
def State.makeReady (s : State) (behind : Bool) (c : Nat) : State :=
  let now := s.cyc.toNat
  let s := s.setCue c { s.cue c with readyAt := now }
  let s := s.moveCue c .ready .word0
  { s with readyQ := if behind then s.readyQ ++ [c] else readyInsert s.cues now c s.readyQ }

/-- An incident of a cue (R389). -/
def State.cueIncident (s : State) (code c die v1 : Nat) (ten : Nat) : State :=
  s.postRec (mkRec code 0 ten die c 0 0 0 noEntry 0 0 c v1 0)

/-- Release one cue; a count that reaches 0 is noted. -/
def State.releaseOne (s : State) (zeroed : List Nat) (c : Nat) : State × List Nat :=
  let q := s.cue c
  if q.st = .free then (s.cueIncident 0x0D c 0 0 (s.cueOwner c), zeroed)
  else if q.count = 0 then (s.cueIncident 0x0E c 0 0 q.tenant, zeroed)
  else (s.setCue c { q with count := q.count - 1 }, if q.count = 1 then zeroed ++ [c] else zeroed)

/-- Release cues in list order, then make READY those whose count reached 0, in ascending number. `behind` is for a
control cue's releases, which join behind every cue already READY. -/
def State.releaseAll (s : State) (behind : Bool) (cs : List Nat) : State :=
  let (s, zeroed) := cs.foldl (fun p c => p.1.releaseOne p.2 c) (s, [])
  (sortBy id zeroed).foldl (fun s c => s.makeReady behind c) s

/-- A cue goes to WAITING with a count; at 0 it is READY in the same tick (R280), behind every READY cue where `behind` says
so. -/
def State.toWaiting (s : State) (c n : Nat) (e : Entry) (behind : Bool := false) : State :=
  let s := s.setCue c { s.cue c with count := n }
  let s := s.moveCue c .waiting e
  if n = 0 then s.makeReady behind c else s

/-- A cue ends: with REARM it waits again, else it is FREE (R283, R287). -/
def State.endCue (s : State) (c : Nat) (e : Entry) : State :=
  let q := s.cue c
  if q.rearm then s.toWaiting c q.preds e else s.moveCue c .free e

end Sys2Proof.Machine
end

