-- ==== Sys2Proof/Machine/Issue.lean ====
section
/-! DEFINITION. What an agent does next: the word a task slot issues (R20, R71, R79), the step a node takes with what
its operands hold (R12, R13), the command a callboard write carries (R395, R397), and who may move. -/

namespace Sys2Proof.Machine

/-! ### Holds (R363, R366, R381) -/

/-- A node is held when one of its copies, or a consumer of one of its channels, lies in a held cell (R363). -/
def Region.nodeHeld (r : Region) (e : Nat) : Bool :=
  (List.range (nodeRep (r.fields e))).any (fun k => r.cellHeld (r.copyCell e k)) || r.feedsHeld e

/-- A firing in progress that has only tokens left to give: it makes no access (R363; log 32). -/
def Region.giving (r : Region) (e : Nat) : Bool :=
  let nd := r.node e
  (!nd.op.out.isEmpty || (r.opcode e == 0xA0 && nd.op.flag && decide (chainN (r.fields e) ≤ nd.op.n))) && r.room (.entry e 0) 1

/-- A node of a cell whose exchange has not yet stopped it finishes such a firing (R363). -/
def Region.finishing (r : Region) (e : Nat) : Bool :=
  let site := (r.cell (r.cellOf.getD e (0, 0)).1).site
  r.giving e && r.exchanges.any (fun x => x.stage == 0 && (x.a == site || x.b == site))

/-! ### Task slots -/

/-- A slot in RUN or SUPV issues (R20). -/
def State.slotIssues (s : State) (c v k : Nat) : Bool :=
  let sl := (s.region c).slot v k
  (sl.st == .run || sl.st == .supv) && s.slotRuns c v

/-- Arithmetic-clock cycles of a power state before tick t: one per tick at FULL, 16 in 21 at EVEN, 10 in 21 at LOW and one
in 5 at DIM (log 29). -/
def Power.cycles (p : Power) (t : Nat) : Nat :=
  match p with
  | .full => t
  | .even => t * 16 / 21
  | .low => t * 10 / 21
  | .dim => t / 5
  | .dark | .off => 0

/-- Tick t is an arithmetic-clock cycle of the die (R401). -/
def State.clocked (s : State) (die t : Nat) : Bool :=
  let p := (s.die die).clock
  p.cycles (t + 1) != p.cycles t

/-- A slot's turn: its cell's task element issues in this cycle and has not yet, and no slot before it in the rotation could
issue (R20). -/
def State.slotTurn (s : State) (c v k : Nat) : Bool :=
  let r := s.region c
  let cell := r.cell v
  s.slotIssues c v k && s.clocked r.die s.cyc.toNat && cell.issuedAt != some s.cyc.toNat &&
    (List.range 16).all (fun j => decide (tabPlace cell.turn k ≤ tabPlace cell.turn j) || !s.slotIssues c v j)

/-- The element issues for a slot: the next in the rotation follows it. -/
def State.takeTurn (s : State) (c v k : Nat) : State :=
  let r := s.region c
  s.setRegion c (r.setCell v { r.cell v with turn := (k + 1) % 16, issuedAt := some s.cyc.toNat })

/-- The word at the slot's PC in its cell's instruction store (R71). -/
def State.fetchWord (s : State) : BitVec 32 :=
  let r := s.myRegion
  BitVec.ofNat 32 (s.load (storeKey r.die s.myCell.site s.me.pc.toNat) 4)

/-- A word on a data-marked line, or one that decodes to nothing, issues as ILLEGAL_WORD (R79). -/
def State.fetchInstr (s : State) : Instr :=
  let w := s.fetchWord
  if lineMarked s.myCell s.me.pc.toNat then .illegalWord w
  else
    match decodeTask w with
    | .ok i => i
    | .error _ => .illegalWord w

/-! ### Nodes -/

/-- A node may step: the cell of the copy whose turn it is runs, and no exchange holds the node. -/
def State.nodeRuns (s : State) (c e : Nat) : Bool :=
  let r := s.region c
  s.cellRuns c (r.copyCell e (copyOf (r.fields e) (r.node e).fire)) && (!r.nodeHeld e || r.finishing e)

/-- What a node does with the tokens it holds: what its earlier firings owe comes first; then a CFG token alone, EOS,
CURTAIN (R13), else its own firing. A BAR passes a CURTAIN over the token it holds (R295). -/
def Region.nodeInstr (r : Region) (e : Nat) : Option Instr :=
  if r.drains e then r.entries[e]?
  else if r.quiet e false then
    if r.cfgReady e then some .cfgTokenTake
    else if r.eosReady e then some .eosTokenTake
    else if r.curtReady e then some .curtainTokenTake
    else r.entries[e]?
  else if r.quiet e true && r.curtReady e then some .curtainTokenTake
  else r.entries[e]?

/-! ### Host writes and events -/

/-- The step a callboard write makes: to a window that is BUSY it is discarded (R397). -/
def State.writeInstr (s : State) (w : Nat) (bs : List Byte) : Instr :=
  if (s.win w).isBusy then .callboardOtherWrite w bs else decodeCommand w bs

/-- A higher window has taken a command in this tick: those of one tick are taken in ascending window number (R397). -/
def State.outOfTurn (s : State) (w : Nat) : Bool :=
  match s.accepted with
  | some (t, v) => t == s.cyc.toNat && decide (w < v)
  | none => false

def State.takeWrite (s : State) (w : Nat) : State := { s with accepted := some (s.cyc.toNat, w) }

/-- An event is a step that no word, entry or command encodes. -/
def isEvent (i : Instr) : Bool := (encodeTask i).isNone && (opcOf i).isNone && (commandBytes i).isNone

/-- Who moves next: what is picked, else what is due in this tick, else what the schedule says (log 1). -/
def State.nextPick (s : State) : Pick × State :=
  match s.pick with
  | some p => (p, { s with pick := none })
  | none =>
    match s.due with
    | (i, a) :: rest => (.event i a, { s with due := rest })
    | [] => (Config.schedule s.free, s.tickFree)

/-- A write reaches a window's command part. -/
def State.enterWrite (s : State) (w : Nat) (bs : List Byte) : Option Instr × State :=
  if s.outOfTurn w then (none, s) else (some (s.writeInstr w bs), { s.takeWrite w with actor := .window w })

/-- The instruction a pick runs, and the state with its unit acting; none when that unit may not move. -/
def State.enter (s : State) : Pick → Option Instr × State
  | .slot c v k =>
    let s := { s with actor := .slot c v k }
    if s.slotTurn c v k then (some s.fetchInstr, s.takeTurn c v k) else (none, s)
  | .node c e =>
    let s := { s with actor := .node c e }
    (if s.nodeRuns c e then (s.region c).nodeInstr e else none, s)
  | .write w bs => s.enterWrite w bs
  | .accept w bs =>
    if w ≤ 15 ∧ bs.length = 64 ∧ (s.win w).isBusy = false ∧ s.outOfTurn w = false then
      let s := { s.takeWrite w with actor := .window w }
      (none, s.setWin w { (s.win w).accept with state := 1, taken := some bs })
    else s.enterWrite w bs
  | .process w =>
    let s := { s with actor := .window w }
    match (s.win w).taken with
    | some bs => (some (decodeCommand w bs), s.setWin w { s.win w with taken := none, counted := true })
    | none => (none, s)
  | .bar off bs =>
    match barWindow off with
    | some w => s.enterWrite w bs
    | none => (none, s)
  | .event i a => (if isEvent i then some i else none, { s with actor := a })

/-! ### The word the next step runs -/

/-- Place a word at a slot's PC and let the slot issue next: the region started and unfrozen, its die at FULL, the slot
in RUN, its turn come and its line not marked. -/
def State.placeWord (s : State) (c v k : Nat) (bs : List Byte) : State :=
  let r := s.region c
  let cell := r.cell v
  let sl := cell.slot k
  let sl := { sl with st := if sl.st = .supv then .supv else .run }
  let cell := { cell.setSlot k sl with frozen := false, marked := [], turn := k, issuedAt := none }
  let r := { r.setCell v cell with started := true, exchanges := [], ncells := max r.ncells (v + 1) }
  let s := s.setDie r.die { s.die r.die with power := .full }
  (s.setRegion c r).write (storeKey r.die cell.site sl.pc.toNat) bs

/-- The slot that is picked, else slot 0 of virtual cell 0 of cue 0. -/
def State.pickedSlot (s : State) : Nat × Nat × Nat :=
  match s.pick with
  | some (.slot c v k) => (c, v, k)
  | _ => (0, 0, 0)

end Sys2Proof.Machine
end

