-- ==== Sys2Proof/Machine/Cues.lean ====
section
/-! DEFINITION. Cues: LAUNCH, CUE and CUEREL (R277 to R279, R425) and the evaluation of control cues (R283). -/

namespace Sys2Proof.Machine

/-! ### Fields of the cue commands -/

def cmdCue (c : Cmd) : Nat := bits c.w0 19 8
def nsucc (c : Cmd) : Nat := bits c.w2 3 0

/-- Successor j: bits 11:0 or 43:32 of word 3 + j / 2. -/
def succAt (c : Cmd) (j : Nat) : Nat :=
  let w := wordAt c.words (3 + j / 2)
  if j % 2 = 0 then bits w 11 0 else bits w 43 32
def succs (c : Cmd) : List Nat := (List.range (min (nsucc c) 10)).map (succAt c)

/-- Unused successors are 0. -/
def succsClear (c : Cmd) : Bool := (List.range 10).all (fun j => decide (j < nsucc c) || succAt c j == 0)

def succBits : List Nat := List.replicate 5 (span 11 0 + span 43 32)
def launchBits : List Nat :=
  [span 19 0 + span 51 32 + span 60 60, allBits, span 3 0 + span 23 8] ++ succBits
def cueBits : List Nat := [span 19 0 + span 46 32, allBits, span 19 0] ++ succBits

/-! ### Acceptance -/

/-- The window may create the cue: its tenant's range holds the cue and its successors; window 0 creates none
(R279, R434). -/
def State.mayCreate (s : State) (win : Nat) (c : Cmd) : Bool :=
  win != 0 && (cmdCue c :: succs c).all (s.cueInRange win)

/-- A cue accepted (R280). ITER is 0; the count of updates goes on. -/
def State.acceptCue (s : State) (n : Nat) (q : Cue) : State :=
  let s := s.setCue n { q with updates := (s.cue n).updates }
  s.toWaiting n q.preds .word0

/-- A job of a tenant is going on: some cue of it is not FREE (R425). -/
def State.jobLive (s : State) (ten job : Nat) : Bool :=
  s.cues.any (fun p => p.2.st != .free && p.2.kind == 0 && p.2.tenant == ten && p.2.job == job)

/-- The job a LAUNCH joins, or a fresh one. -/
def State.jobFor (s : State) (ten job njreg : Nat) : Job :=
  if s.jobLive ten job then s.job ten job else { njreg := njreg }

def launchJob (c : Cmd) : Nat := bits c.w0 51 44
def launchNjreg (c : Cmd) : Nat := bits c.w2 15 8
def launchNsreg (c : Cmd) : Nat := bits c.w2 23 16

/-- LAUNCH (R277, R279, R425). -/
def State.launch (s : State) (win : Nat) (c : Cmd) : CmdOut :=
  let ten := (s.winTenant win).getD 0
  let n := cmdCue c
  let j := s.jobFor ten (launchJob c) (launchNjreg c)
  refusals [
    (decide (10 < nsucc c) || !succsClear c || launchNjreg c == 0 || launchNsreg c == 0 ||
      decide (launchNjreg c < launchNsreg c) || c.w1.toNat % 64 != 0, resField),
    (!s.mayCreate win c, resRange),
    ((s.cue n).st != .free, resBusy),
    (j.njreg != launchNjreg c || decide (j.njreg ≤ j.launched), resField)] (fun _ =>
    let s := s.setJob ten (launchJob c) { j with launched := j.launched + 1, cues := j.cues ++ [n] }
    .done (s.acceptCue n
      { tenant := ten, preds := bits c.w0 43 32, rearm := bits c.w0 60 60 == 1, job := launchJob c,
        lrec := c.w1.toNat, succ := succs c, njreg := launchNjreg c, nsreg := launchNsreg c }))

def execLaunchCmd (win : Nat) (c : Cmd) (s : State) : Out :=
  .next (s.command win (.launchCmd win c) c launchBits (fun s => s.launch win c))

def cueKind (c : Cmd) : Nat := bits c.w0 46 44
def cueSplit (c : Cmd) : Nat := bits c.w2 7 4
def cueRecount (c : Cmd) : Nat := bits c.w2 19 8

/-- CUE (R278, R279). -/
def State.cueCreate (s : State) (win : Nat) (c : Cmd) : CmdOut :=
  let n := cmdCue c
  let k := cueKind c
  refusals [
    (k == 0 || decide (3 < k) || nsucc c == 0 || decide (10 < nsucc c) || !succsClear c ||
      winOf c.w1.toNat != 0 || c.w1.toNat % 8 != 0 ||
      (if k = 3 then cueSplit c != 0 else decide (nsucc c < cueSplit c)) ||
      (k != 2 && cueRecount c != 0), resField),
    (!s.mayCreate win c, resRange),
    ((s.cue n).st != .free, resBusy)] (fun _ =>
    .done (s.acceptCue n
      { kind := k, tenant := (s.winTenant win).getD 0, preds := bits c.w0 43 32, addr := c.w1.toNat,
        succ := succs c, split := cueSplit c, recount := cueRecount c }))

def execCueCmd (win : Nat) (c : Cmd) (s : State) : Out :=
  .next (s.command win (.cueCmd win c) c cueBits (fun s => s.cueCreate win c))

/-- CUEREL (R279): the host's stores before it are performed, so it only releases. -/
def execCuerelCmd (win : Nat) (c : Cmd) (s : State) : Out :=
  .next (s.command win (.cuerelCmd win c) c [span 19 0] (fun s =>
    refusals [(!s.cueInRange win (cmdCue c), resRange), ((s.cue (cmdCue c)).st == .free, resBusy)] (fun _ =>
      .done (s.releaseAll false [cmdCue c]))))

/-! ### Control cues (R283) -/

/-- The translating unit of the cue scheduler. -/
def schedulerUnit : Nat := 2000

/-- The first READY control cue, which the scheduler evaluates next (R282). -/
def State.nextControl (s : State) : Option Nat := s.readyQ.find? (fun c => (s.cue c).kind != 0)

/-- Evaluate the acting cue when it is the next control cue and of the given kind. Its control word is one strong load at
SYSTEM scope: a page fault, a malformed entry or a violation fails the cue; on a migrating page, or a stack that is not reachable
(log 30), the cue stays READY and the walk restarts (R254, R263). -/
def State.evaluate (s : State) (kind : Nat) (k : Nat → Cue → Nat → State → State) : State :=
  let c := s.actCue
  let q := s.cue c
  if s.nextControl ≠ some c ∨ q.kind ≠ kind ∨ q.st ≠ .ready then s
  else
    let dropped (s : State) : State := { s with readyQ := s.readyQ.erase c }
    let fails (s : State) : State := ((dropped s).moveCue c .failed .word0).cueIncident 0x0F c 0 q.addr q.tenant
    match s.reach schedulerUnit q.tenant 0 q.addr 8 true false with
    | (.ok segs, s) => k c q (natOf (s.readSegs segs)) (dropped s)
    | (.viol _ _, s) => fails s
    | (.miss _ cause, s) => if cause ≤ 1 then fails s else s

/-- CONTROL_CUE_COND. -/
def execControlCueCond (s : State) : Out :=
  .next (s.evaluate 1 (fun c q v s =>
    (s.releaseAll true (if v ≠ 0 then q.succ.take q.split else q.succ.drop q.split)).endCue c .word0))

/-- The cues that joined the READY queue behind its first n stand in ascending number (R282). -/
def State.sortReady (s : State) (n : Nat) : State := { s with readyQ := s.readyQ.take n ++ sortBy id (s.readyQ.drop n) }

/-- CONTROL_CUE_LOOP: ITER counts to 2^32 - 1 and stays there. A RECOUNT of 0 makes the cue READY again, behind every cue
already READY (R282). -/
def execControlCueLoop (s : State) : Out :=
  .next (s.evaluate 2 (fun c q v s =>
    if q.iter < v then
      let n := s.readyQ.length
      let s := s.releaseAll true (q.succ.take q.split)
      let s := s.setCue c { s.cue c with iter := min (q.iter + 1) (2 ^ 32 - 1) }
      (s.toWaiting c q.recount .word0 true).sortReady n
    else
      let s := s.releaseAll true (q.succ.drop q.split)
      (s.setCue c { s.cue c with iter := 0 }).endCue c .word0))

/-- CONTROL_CUE_SWITCH. -/
def execControlCueSwitch (s : State) : Out :=
  .next (s.evaluate 3 (fun c q v s =>
    (s.releaseAll true [q.succ.getD (min v (q.succ.length - 1)) 0]).endCue c .word0))

end Sys2Proof.Machine
end

