-- ==== Sys2Proof/Machine/Tableau.lean ====
section
/-! DEFINITION. The tableau (R383, R384): its bytes from a region's state, and a region's state from its bytes. The
places that R384 leaves open (the opcode state words, the register images, the barrier words) are log 17's. -/

namespace Sys2Proof.Machine

/-! ### Words of tokens and records -/

def wd (n : Nat) : Word := BitVec.ofNat 64 n

/-- A record padded to 64 bytes. -/
def pad64 (bs : List Byte) : List Byte := bs ++ List.replicate ((64 - bs.length % 64) % 64) 0

/-- Two lanes in each word, k words. -/
def lanePairs (ls : List Lane) (k : Nat) : List Word :=
  (List.range k).map (fun j => wd ((ls.getD (2 * j) 0).toNat + field (ls.getD (2 * j + 1) 0).toNat 32))

def lanesOfPairs (ws : List Word) : List Lane :=
  ws.flatMap (fun w => [BitVec.ofNat 32 (bits w 31 0), BitVec.ofNat 32 (bits w 63 32)])

def tokKind : Token → Nat
  | .data _ => 0 | .eos => 1 | .curtain => 2 | .cfg _ _ _ => 3 | .order _ => 4

def Token.lanes : Token → List Lane
  | .data ls | .cfg _ _ ls => ls
  | _ => []

/-- The nine words of a token (R384): kind, lanes, CFG target, ORDER scope, and for a faulting token its operand; the
kind of a CFG token at bits 33:32 (log 17). -/
def tokWords (t : Token) (opnd : Nat) : List Word :=
  let extra := match t with
    | .cfg k target _ => field target 8 + field k 32
    | .order sc => field sc 25
    | _ => 0
  wd (tokKind t + field t.lanes.length 3 + extra + field opnd 28) :: lanePairs t.lanes 8

def tokOfWords (ws : List Word) : Token :=
  let w := wordAt ws 0
  let ls := (lanesOfPairs ((ws.drop 1).take 8)).take (bits w 7 3)
  match bits w 2 0 with
  | 0 => .data ls
  | 1 => .eos
  | 2 => .curtain
  | 3 => .cfg (bits w 33 32) (bits w 24 8) ls
  | _ => .order (bits w 27 25)

/-! ### ENTRY -/

/-- A counted list of tokens, of lanes, of values. -/
def encToks (ts : List Token) : List Word := wd ts.length :: ts.flatMap (fun t => tokWords t 0)
def encLanes (ls : List Lane) : List Word := wd ls.length :: ls.map (fun l => wd l.toNat)
def encRows (rs : List (List Lane)) : List Word := wd rs.length :: rs.flatMap encLanes

/-- The opcode state words of a node; the Prompter counts are not kept (R421). -/
def Node.opWords (nd : Node) : List Word :=
  let o := nd.op
  let flags := (if o.flag then 1 else 0) + (if o.asked then 2 else 0) + (if o.granted then 4 else 0) +
    (if nd.eos then 8 else 0) + (if nd.curt then 16 else 0) + (if o.held.isSome then 32 else 0)
  [wd flags, wd o.n, wd o.m, wd o.phase] ++ (match o.held with
    | some t => tokWords t 0
    | none => []) ++
  (wd o.win.length :: o.win.flatMap (fun p => wd p.1 :: encLanes p.2)) ++ encRows o.rows ++ encToks o.out ++
  encToks o.later ++ (wd nd.wsc.length :: nd.wsc.map (fun x => wd x.toNat)) ++
  (wd nd.results.length :: nd.results.flatMap (fun p => wd p.1 :: encToks p.2)) ++
  (wd nd.faulting.length :: nd.faulting.flatMap (fun p => tokWords p.2 p.1))

def stallWord (e : Elem) (k : Nat) : Word :=
  wd ((List.range 4).foldl (fun a j => a + field (stallOf e (4 * k + j)).toNat (16 * j)) 0)

/-- The fixed part of an ENTRY record: 55 words. -/
def entryFixed (e copy nw fire : Nat) (el : Elem) : List Word :=
  [wd (e + field copy 17 + field nw 32), wd fire, stallWord el 0, stallWord el 1,
   wd (el.tbind.toNat + field (if el.bsel then 1 else 0) 5)] ++
  el.p.toList.flatMap (fun p => lanePairs p.toList 8) ++ lanePairs el.scl.toList 2

/-- Copies of an entry; a switch-box node has one record. -/
def Region.copies (r : Region) (e : Nat) : List Nat := List.range (nodeRep (r.fields e))

def Region.entryRec (r : Region) (e copy : Nat) : List Byte :=
  let nd := r.node e
  let ops := if copy = 0 then nd.opWords else []
  pad64 (bytesOfWords (entryFixed e copy ops.length nd.fire (nd.elem copy) ++ ops))

def Region.entryRecs (r : Region) : List (List Byte) :=
  (List.range r.entries.length).flatMap (fun e => (r.copies e).map (r.entryRec e))

/-! ### CHAN -/

def chanRec (p : Chan × Nat) : List Byte :=
  pad64 (bytesOfWords (wd (p.2 + field p.1.q.length 32) :: p.1.q.flatMap (fun t => tokWords t 0)))
def Region.chanRecs (r : Region) : List (List Byte) := r.chans.zipIdx.map chanRec

/-! ### CELL and the register images (R19) -/

/-- Bytes of the granules a region uses in each pool. -/
def Region.usedBytes (r : Region) : Nat := (r.taskg + r.spadg + r.accg) * 65536

/-- Byte o of a cell's pool: in the register image of a configured slot, the slot's registers (R19). -/
def State.poolByte (s : State) (r : Region) (v o : Nat) : Byte :=
  let c := r.cell v
  if o < 32768 ∧ o % 2048 < 1280 ∧ Tab.has c.slots (o / 2048) then (c.slot (o / 2048)).regByte (o % 2048)
  else memGet s.mem (poolKey r.die c.site o)

/-- The used granules of a cell's pool in address order (R384). -/
def State.poolBytes (s : State) (r : Region) (v : Nat) : List Byte :=
  (List.range (min 32768 r.usedBytes)).map (s.poolByte r v) ++ s.read (poolKey r.die (r.cell v).site 32768) (r.usedBytes - 32768)

/-- Phase and arrivals of a barrier. -/
def Barrier.words (b : Barrier) : List Word :=
  [wd b.phase, wd b.arrivals.length] ++ b.arrivals.flatMap (fun p => [wd p.1, wd p.2])

def State.cellRec (s : State) (r : Region) (v : Nat) : List Byte :=
  pad64 (bytesOfWords [wd (v + field r.partw 32)] ++ s.poolBytes r v ++
    bytesOfWords ((List.range r.nbar).flatMap (fun b => ((r.cell v).bar b).words)))
def State.cellRecs (s : State) (r : Region) : List (List Byte) := (List.range r.ncells).map (s.cellRec r)

/-! ### SLOT -/

/-- SLOTST is the state the slot held before it froze (R382). -/
def Slot.heldState (sl : Slot) : SlotSt := if sl.st = .frozen then sl.before else sl.st

def slotRecord (v k : Nat) (sl : Slot) : List Byte :=
  pad64 (bytesOfWords [wd (v + field k 10), wd (slotCode sl.heldState), wd sl.pc.toNat, wd sl.ssp.toNat,
    wd sl.ssbase.toNat, wd sl.sslim.toNat, wd sl.tvec.toNat, wd sl.tepc.toNat, sl.tcause, sl.trapval,
    wd sl.tstat.toNat, wd sl.cmask.toNat, wd sl.bind.toNat])

/-- Configured slots in ascending virtual cell and slot. -/
def Region.slotKeys (r : Region) : List (Nat × Nat) :=
  (List.range r.ncells).flatMap (fun v => (r.cell v).slots.map (fun p => (v, p.1)))
def Region.slotRecords (r : Region) : List (List Byte) := r.slotKeys.map (fun p => slotRecord p.1 p.2 (r.slot p.1 p.2))

/-! ### TABLE and TILE -/

def Region.tableKeys (r : Region) (t : Tenant) : List (Nat × Nat) :=
  (List.range r.ncells).flatMap (fun v => (List.range t.tableSlots).map (fun k => (v, k)))
def State.tableRecord (s : State) (r : Region) (t : Tenant) (p : Nat × Nat) : List Byte :=
  pad64 (bytesOfWords [wd (p.1 + field p.2 10)] ++
    s.read (tableKey r.die (r.cell p.1).site ((t.tsbase + p.2) * 8192)) 8192)

def Region.tileCount (r : Region) : Nat := r.spadg * 16
def Region.tileRec (r : Region) (v : Nat) : List Byte :=
  pad64 (bytesOfWords [wd v] ++ (List.range r.tileCount).map (fun t => BitVec.ofNat 8 ((r.cell v).tag t).toNat))

/-! ### ENGINE, WITHHELD, PACKET, FAULT -/

def flyRec (f : FlyCmd) : List Byte := pad64 (bytesOfWords ([wd f.vcell, wd f.done] ++ f.c.words))

/-- Bytes of DST or Y written, or elements gathered, of a block: its DONE (R384; log 17). A call has written none. -/
def WBlk.doneCount (w : WBlk) : Nat :=
  if blkOp w.words ≠ 1 then w.pos
  else
    match w.geo with
    | none => 0
    | some (f, geom) =>
      let ps := mvmPieces (fmtOf f) geom w.words w.call
      (ps.take (w.pos - 1)).foldl (fun k p => match p with
        | .y _ n => k + n
        | _ => k) 0

def wingsRec (w : WBlk) : List Byte := pad64 (bytesOfWords ([wd (w.vcell + field 1 10), wd w.doneCount] ++ w.words))

/-- The kept commands in the order of their records, Fly commands and blocks by ascending virtual cell, each with its place in
the order they are kept in. -/
def Region.engineCmds (r : Region) : List (((Nat × FlyCmd) ⊕ (Nat × WBlk)) × Nat) :=
  sortBy (fun p => match p.1 with
    | .inl f => f.2.vcell
    | .inr w => w.2.vcell) (r.parkedFly.map Sum.inl ++ r.parkedWings.map Sum.inr).zipIdx

def engineRec : (Nat × FlyCmd) ⊕ (Nat × WBlk) → List Byte
  | .inl f => flyRec f.2
  | .inr w => wingsRec w.2
def Region.engineRecs (r : Region) : List (List Byte) := r.engineCmds.map (fun p => engineRec p.1)

/-- A store or an atomic holds the tokens it writes. -/
def Acc.writes (a : Acc) : Bool := a.kind == .store || a.kind == .atomic
/-- The lanes a store writes, or those an atomic combines. -/
def Acc.tokLanes (a : Acc) : List Lane := if a.kind == .store then lanesFromBytes (fmtOf a.fmt) a.bytes else a.lanes

def accRec (a : Acc) : List Byte :=
  let va := (a.withheld.map (fun p => p.1)).getD 0
  pad64 (bytesOfWords ([wd (a.entry + field a.copy 17), wd a.fire, wd va,
    wd ((if a.owed.isSome then 1 else 0) + (if a.writes then 2 else 0))] ++
    (if a.writes then tokWords (.data a.tokLanes) 0 ++ (if a.cmp.isEmpty then [] else tokWords (.data a.cmp) 0) else [])))
/-- The withheld accesses in the order of their records. -/
def Region.withheldAccs (r : Region) : List Acc :=
  sortBy (fun a => a.entry * 64 + a.copy) (r.accs.filter (fun a => a.withheld.isSome))
def Region.withheldRecs (r : Region) : List (List Byte) := r.withheldAccs.map accRec

/-- Flits of a packet (R338, R339). SRC and DST hold virtual cells, since nothing in a tableau names a physical cell (log 17), DST 0
when MC = 1; VC and FRAME stand above the 16 bits of a queued packet's tag. -/
def flits (kind len ten cls tag src dst : Nat) (mc : Bool) (ls : List Lane) : List Word :=
  let h0 := kind + field (len - 1) 3 + field (tag / 65536 % 64) 6 + field ten 12 + field cls 18 + field (tag % 65536) 22 +
    field (ls.length - 1) 38 + (if mc then field 1 42 else field (dst % 1024) 55) + field (src % 1024) 43
  let h := [BitVec.ofNat 64 h0, wd ((if mc then 0 else dst % 1024 / 512) + (if len = 1 then field (ls.headD 0).toNat 32 else 0))]
  h ++ (if len = 1 then [] else lanePairs ls (2 * (len - 1)))

/-- Flits of a packet queued at virtual cell v, in words. -/
def packetLen (q : Nat × Nat × Token) : Nat := if tokKind q.2.2 = 0 then dataFlits q.2.2.lanes.length else 1

def queuedFlits (ten cls recvs v : Nat) (q : Nat × Nat × Token) : List Word :=
  flits (tokKind q.2.2) (packetLen q) ten cls q.2.1 q.1 v (packetLen q == 1 && decide (1 < recvs)) q.2.2.lanes

/-- The packet its flits stand for. -/
def packetOfWords (ws : List Word) : Nat × Nat × Token :=
  let w := wordAt ws 0
  let tag := bits w 37 22 + 65536 * bits w 11 6
  let t : Token := match bits w 2 0 with
    | 1 => .eos
    | 2 => .curtain
    | _ => .data (if bits w 5 3 = 0 then [BitVec.ofNat 32 (bits (wordAt ws 1) 63 32)]
        else (lanesOfPairs (ws.drop 2)).take (bits w 41 38 + 1))
  (bits w 52 43, tag, t)

/-- The markers a receiver holds from some of its sending cells, as packets (R349). -/
def ClassEnt.heldMarkers (e : ClassEnt) (i : Nat) : List (Nat × Nat × Token) :=
  (e.marks.filter (fun m => m.1 == i)).map (fun m => (m.2.1, 0, markerToken m.2.2))

/-- Packets held at the receivers of a class in a virtual cell: of each its queue, then the markers it holds (log 17). -/
def Region.heldPackets (r : Region) (v cls : Nat) : List (Nat × Nat × Token) :=
  let e := r.cls cls
  (List.range e.recvs.length).flatMap (fun i =>
    match (e.recvs[i]? : Option Recv) with
    | some (.slot w k) => if w = v then (r.slot v k).queue ++ e.heldMarkers i else []
    | some (.node x) => if r.vcellOf x = v then e.queue i ++ e.heldMarkers i else []
    | none => [])
def Region.packetRecs (r : Region) : List (List Byte) :=
  (List.range r.ncells).flatMap (fun v => (r.classes.filter (fun p => !(r.heldPackets v p.1).isEmpty)).map (fun p =>
    pad64 (bytesOfWords (wd (v + field p.1 10) :: (r.heldPackets v p.1).flatMap (queuedFlits r.tenant p.1 p.2.recvs.length v)))))

def Region.faultRecs (r : Region) : List (List Byte) := r.faults.map (fun q => bytesOfWords q.words)

/-! ### The whole (R383) -/

/-- The launch record and its lists as validated: 128 bytes, then slot, end, table and code records (R244). -/
def Region.launchBytes (r : Region) : List Byte :=
  bytesOfWords (r.launch ++ r.slotRecs ++ r.endRecs ++ r.tableRecs ++ r.codeRecs)

/-- The records of each section, in the order of OFF0 to OFF11. -/
def State.sections (s : State) (r : Region) : List (List (List Byte)) :=
  let t := s.tenant r.tenant
  [[pad64 (bytesOfWords r.image)], [pad64 r.launchBytes], r.entryRecs, r.chanRecs, s.cellRecs r, r.slotRecords,
   (r.tableKeys t).map (s.tableRecord r t), (List.range r.ncells).map r.tileRec, r.engineRecs, r.withheldRecs,
   r.packetRecs, r.faultRecs]

def sizeOfRecs (rs : List (List Byte)) : Nat := rs.foldl (fun a b => a + b.length) 0

/-- Byte offsets of the sections, and the total. -/
def sectionOffsets (secs : List (List (List Byte))) : List Nat :=
  secs.foldl (fun acc rs => acc ++ [acc.getLastD 128 + sizeOfRecs rs]) [128]

def Region.headerWords (r : Region) (c kind : Nat) (curt stale : Bool) (offs : List Nat) : List Word :=
  [wd (0x58424C54 + field 1 32 + field kind 40 + (if curt then field 1 42 else 0) + (if stale then field 1 43 else 0) +
     field r.tenant 44 + field c 50),
   wd (r.ncells + field r.entries.length 10 + field r.faults.length 27 + field r.xfaults 32), wd r.chans.length] ++
  (List.range 13).map (fun k => wd (offs.getD k 0))

/-- The tableau's bytes. -/
def State.tableauBytes (s : State) (c kind : Nat) (curt stale : Bool) : List Byte :=
  let r := s.region c
  let secs := s.sections r
  bytesOfWords (r.headerWords c kind curt stale (sectionOffsets secs)) ++ (secs.flatMap (fun rs => rs.flatMap id))

/-! ### Restoring from the bytes (R333, R382) -/

/-- A tableau as it stands in memory: its address, and its sections' offsets. -/
structure TabView where
  at_ : Nat
  offs : List Nat
  deriving DecidableEq, Repr

def State.tabView (s : State) (at_ : Nat) : TabView :=
  ⟨at_, (List.range 13).map (fun k => s.load (at_ + 8 * (3 + k)) 8)⟩

def State.tabWords (s : State) (at_ n : Nat) : List Word := wordsOfBytes (s.read at_ (8 * n))

/-- Addresses of a section's records, from their sizes. -/
def TabView.places (t : TabView) (k : Nat) (recs : List (List Byte)) : List Nat :=
  (recs.foldl (fun (p : List Nat × Nat) b => (p.1 ++ [p.2], p.2 + b.length)) ([], t.at_ + t.offs.getD k 0)).1

def vecOf {α : Type} (n : Nat) (ls : List α) (d : α) : Vector α n := Vector.ofFn (fun i => ls.getD i.val d)

def elemOfWords (ws : List Word) : Elem :=
  let st : List (BitVec 16) := [2, 3].flatMap (fun k => (List.range 4).map (fun j =>
    BitVec.ofNat 16 (bits (wordAt ws k) (16 * j + 15) (16 * j))))
  { p := vecOf 6 ((List.range 6).map (fun j => vecOf 16 (lanesOfPairs ((ws.drop (5 + 8 * j)).take 8)) 0))
      (Vector.replicate 16 0)
    stall := vecOf 8 st 0
    scl := vecOf 4 (lanesOfPairs ((ws.drop 53).take 2)) 0
    tbind := BitVec.ofNat 5 (bits (wordAt ws 4) 4 0)
    bsel := bits (wordAt ws 4) 5 5 == 1 }

/-- The state a SLOTST code names; FROZEN and reserved codes leave the slot as it was. -/
def slotOfCode (n : Nat) (d : SlotSt) : SlotSt :=
  match n with
  | 0 => .free | 1 => .idle | 2 => .run | 3 => .sleep | 4 => .wait | 5 => .supv | 7 => .done
  | _ => d

/-- SSP, SSBASE and SSLIM as R19 allows them: multiples of 8, SSBASE ≤ SSP ≤ SSLIM. -/
def stackOk (ssp base lim : Nat) : Bool :=
  ssp % 8 == 0 && base % 8 == 0 && lim % 8 == 0 && decide (base ≤ ssp) && decide (ssp ≤ lim) && decide (lim < 2 ^ 32)

/-- The registers of a slot from its SLOT record; the slot is frozen in the state the record holds. A record whose SSP, SSBASE and
SSLIM are not such as R19 allows, which no rule gives a meaning, leaves the three as they were (DESIGN CHOICE, log 34). -/
def Slot.ofWords (sl : Slot) (ws : List Word) : Slot :=
  let w (k : Nat) : Nat := (wordAt ws k).toNat
  let sl := if stackOk (w 3) (w 4) (w 5) then
      { sl with ssp := BitVec.ofNat 32 (w 3), ssbase := BitVec.ofNat 32 (w 4), sslim := BitVec.ofNat 32 (w 5) }
    else sl
  { sl with
    st := .frozen
    before := slotOfCode (w 1 % 8) sl.heldState
    pc := BitVec.ofNat 16 (w 2), tvec := BitVec.ofNat 16 (w 6), tepc := BitVec.ofNat 16 (w 7)
    tcause := wordAt ws 8, trapval := wordAt ws 9, tstat := BitVec.ofNat 2 (w 10), cmask := BitVec.ofNat 16 (w 11)
    bind := BitVec.ofNat 6 (w 12) }

/-- The general and vector registers of a slot from its image; g0 reads 0 whatever stands there (R19). -/
def Slot.ofImage (sl : Slot) (bs : List Byte) : Slot :=
  let ws := wordsOfBytes bs
  { sl with
    g := (vecOf 32 ws 0).set 0 0
    v := vecOf 16 ((List.range 16).map (fun j => vecOf 16 (lanesOfPairs ((ws.drop (32 + 8 * j)).take 8)) 0))
      (Vector.replicate 16 0) }

/-! #### Counted lists of words -/

/-- A reader takes what it reads off the front of a list of words. -/
abbrev Reader (α : Type) := List Word → α × List Word

def readWord : Reader Nat := fun ws => ((wordAt ws 0).toNat, ws.drop 1)
def readTok : Reader Token := fun ws => (tokOfWords (ws.take 9), ws.drop 9)

def readTimes {α : Type} (p : Reader α) : Nat → Reader (List α)
  | 0, ws => ([], ws)
  | k + 1, ws =>
    let (a, ws) := p ws
    let (as, ws) := readTimes p k ws
    (a :: as, ws)

/-- A count, then that many, no more than words are left. -/
def readMany {α : Type} (p : Reader α) : Reader (List α) := fun ws =>
  readTimes p (min (wordAt ws 0).toNat ws.length) (ws.drop 1)

def readLanes : Reader (List Lane) := readMany (fun ws => (BitVec.ofNat 32 (wordAt ws 0).toNat, ws.drop 1))
def readKeyed {α : Type} (p : Reader α) : Reader (Nat × α) := fun ws =>
  let (k, ws) := readWord ws
  let (a, ws) := p ws
  ((k, a), ws)

/-- A node's opcode state from its words, as `Node.opWords` lays them out; the Prompter counts stay (R421). -/
def Node.ofOpWords (nd : Node) (ws : List Word) : Node :=
  let flags := (wordAt ws 0).toNat
  let bit (k : Nat) : Bool := flags / 2 ^ k % 2 == 1
  let (held, ws') := if bit 5 then (some (readTok (ws.drop 4)).1, (readTok (ws.drop 4)).2) else (none, ws.drop 4)
  let (win, ws') := readMany (readKeyed readLanes) ws'
  let (rows, ws') := readMany readLanes ws'
  let (out, ws') := readMany readTok ws'
  let (later, ws') := readMany readTok ws'
  let (wsc, ws') := readMany (fun ws => (BitVec.ofNat 16 (wordAt ws 0).toNat, ws.drop 1)) ws'
  let (results, ws') := readMany (readKeyed (readMany readTok)) ws'
  let (faulting, _) := readMany (fun ws => ((bits (wordAt ws 0) 29 28, tokOfWords (ws.take 9)), ws.drop 9)) ws'
  { nd with
    eos := bit 3, curt := bit 4, wsc := wsc, results := results, faulting := faulting
    op := { nd.op with flag := bit 0, asked := bit 1, granted := bit 2, n := (wordAt ws 1).toNat, m := (wordAt ws 2).toNat + nd.op.m / 2 ^ 64 * 2 ^ 64,
                       phase := (wordAt ws 3).toNat, held := held, win := win, rows := rows, out := out, later := later } }

/-- The phase and the arrivals of a barrier from its words. -/
def readBarrier : Reader Barrier := fun ws =>
  let (phase, ws) := readWord ws
  let (as, ws) := readMany (readKeyed readWord) ws
  ({ phase := phase, arrivals := as }, ws)

/-! #### The sections -/

/-- Entries' state from the tableau: the fixed words of each copy, and the opcode state words with copy 0. -/
def State.restoreEntries (s : State) (t : TabView) (r : Region) : Region :=
  let keys := (List.range r.entries.length).flatMap (fun e => (r.copies e).map (fun k => (e, k)))
  ((t.places 2 r.entryRecs).zip keys).foldl (fun r p =>
    let ws := s.tabWords p.1 55
    let nd := r.node p.2.1
    let nd := { nd.setElem p.2.2 (elemOfWords ws) with fire := (wordAt ws 1).toNat }
    r.setNode p.2.1 (if p.2.2 = 0 then nd.ofOpWords (s.tabWords (p.1 + 440) nd.opWords.length) else nd)) r

/-- Barriers of each cell from the tableau. -/
def State.restoreBarriers (s : State) (r : Region) (cellAt : List Nat) : Region :=
  (List.range r.ncells).foldl (fun r v =>
    let n := ((List.range r.nbar).map (fun b => (((r.cell v).bar b).words).length)).foldl (· + ·) 0
    let bs := (readTimes readBarrier r.nbar (s.tabWords (cellAt.getD v 0 + 8 + r.usedBytes) n)).1
    r.setCell v (bs.zipIdx.foldl (fun c p => if p.1 = c.bar p.2 then c else c.setBar p.2 p.1) (r.cell v))) r

/-- A kept command from its record. An MVM block whose DONE the host has changed begins again. -/
def cmdFromWords (ws : List Word) : (Nat × FlyCmd) ⊕ (Nat × WBlk) → (Nat × FlyCmd) ⊕ (Nat × WBlk)
  | .inl f =>
    let done := (wordAt ws 1).toNat
    .inl (f.1, { f.2 with vcell := bits (wordAt ws 0) 9 0, done := done, c := cmdOfWords (ws.drop 2)
                          piece := if done = f.2.done then f.2.piece else none })
  | .inr w =>
    let done := (wordAt ws 1).toNat
    let b : WBlk := { w.2 with vcell := bits (wordAt ws 0) 9 0, words := ws.drop 2 }
    .inr (w.1, if done = w.2.doneCount then b
      else { b with pos := if blkOp b.words = 1 then 0 else done, buf := [], held := none, res := [], finished := false })

/-- The words of a kept command's record. -/
def cmdWords : (Nat × FlyCmd) ⊕ (Nat × WBlk) → Nat
  | .inl _ => 10
  | .inr w => 2 + w.2.words.length

/-- Engine commands from the tableau, kept in the order they had (R416). -/
def State.restoreEngines (s : State) (t : TabView) (r : Region) : Region :=
  let new := ((t.places 8 r.engineRecs).zip r.engineCmds).map (fun p =>
    (cmdFromWords (s.tabWords p.1 (cmdWords p.2.1)) p.2.1, p.2.2))
  let cs := (sortBy (fun p => p.2) new).map (fun p => p.1)
  { r with
    parkedFly := cs.filterMap (fun c => match c with
      | .inl f => some f
      | .inr _ => none)
    parkedWings := cs.filterMap (fun c => match c with
      | .inl _ => none
      | .inr w => some w) }

/-- A withheld access from its record: another address moves its runs by the same distance (log 17). -/
def Acc.ofWords (a : Acc) (ws : List Word) : Acc :=
  let va := (wordAt ws 2).toNat
  let old := (a.withheld.map (fun p => p.1)).getD 0
  let owed := bits (wordAt ws 3) 0 0 == 1
  let toks := ws.drop 4
  let ls := (tokOfWords (toks.take 9)).lanes
  { a with
    fire := (wordAt ws 1).toNat
    withheld := a.withheld.map (fun p => (va, p.2))
    ptrs := if va = old then a.ptrs else a.ptrs.map (fun p => ((p.1 + va + 2 ^ 56 - old) % 2 ^ 56, p.2))
    owed := if owed then some (a.owed.getD 0) else none
    lanes := if a.kind == .atomic then ls else a.lanes
    cmp := if a.writes && !a.cmp.isEmpty then (tokOfWords ((toks.drop 9).take 9)).lanes else a.cmp
    bytes := if a.kind == .store && ls != a.tokLanes then bytesFromLanes (fmtOf a.fmt) ls else a.bytes }

def State.restoreAccs (s : State) (t : TabView) (r : Region) : Region :=
  let new := ((t.places 9 r.withheldRecs).zip r.withheldAccs).map (fun p =>
    p.2.ofWords (s.tabWords p.1 (4 + (if p.2.writes then 9 + (if p.2.cmp.isEmpty then 0 else 9) else 0))))
  { r with accs := r.accs.map (fun a => (new.find? (fun b => b.id == a.id)).getD a) }

/-- Held packets from words, one by one, as long as those they replace. -/
def readPackets : List (Nat × Nat × Token) → List Word → List (Nat × Nat × Token)
  | [], _ => []
  | q :: qs, ws => packetOfWords (ws.take (2 * packetLen q)) :: readPackets qs (ws.drop (2 * packetLen q))

/-- A receiver's held markers from packets, as many as it held. -/
def ClassEnt.putMarkers (e : ClassEnt) (i : Nat) (qs : List (Nat × Nat × Token)) : ClassEnt :=
  let n := (e.heldMarkers i).length
  { e with marks := e.marks.filter (fun m => m.1 != i) ++ (qs.take n).map (fun q => (i, q.1, if q.2.2 = .eos then 1 else 2)) }

/-- The queues of a class's receivers in a virtual cell, and their held markers, take packets in the order of `heldPackets`. -/
def Region.putPackets (r : Region) (v cls : Nat) (qs : List (Nat × Nat × Token)) : Region :=
  let marks (i : Nat) (p : Region × List (Nat × Nat × Token)) : Region × List (Nat × Nat × Token) :=
    (p.1.setCls cls ((p.1.cls cls).putMarkers i p.2), p.2.drop ((p.1.cls cls).heldMarkers i).length)
  ((List.range (r.cls cls).recvs.length).foldl (fun (p : Region × List (Nat × Nat × Token)) i =>
    match ((r.cls cls).recvs[i]? : Option Recv) with
    | some (.slot w k) =>
      if w = v then
        let sl := p.1.slot v k
        marks i (p.1.setSlot v k { sl with queue := p.2.take sl.queue.length }, p.2.drop sl.queue.length)
      else p
    | some (.node x) =>
      if r.vcellOf x = v then
        let c := p.1.cls cls
        marks i (p.1.setCls cls (c.setQueue i (p.2.take (c.queue i).length)), p.2.drop (c.queue i).length)
      else p
    | none => p) (r, qs)).1

def State.restorePackets (s : State) (t : TabView) (r : Region) : Region :=
  let keys := (List.range r.ncells).flatMap (fun v => (r.classes.filter (fun p => !(r.heldPackets v p.1).isEmpty)).map (fun p => (v, p.1)))
  ((t.places 10 r.packetRecs).zip keys).foldl (fun r p =>
    let qs := r.heldPackets p.2.1 p.2.2
    let n := (qs.map (fun q => 2 * packetLen q)).foldl (· + ·) 0
    r.putPackets p.2.1 p.2.2 (readPackets qs (s.tabWords (p.1 + 8) n))) r

/-- Channel queues from the tableau. A COUNT above the 4 tokens that a channel holds (R11), which no rule gives a meaning, stands
for 4 (DESIGN CHOICE, log 34). -/
def State.restoreChans (s : State) (t : TabView) (r : Region) : Region :=
  { r with chans := (r.chans.zip (t.places 3 r.chanRecs)).map (fun p =>
      let n := min 4 (bits (wordAt (s.tabWords p.2 1) 0) 34 32)
      { p.1 with q := (List.range n).map (fun j => tokOfWords (s.tabWords (p.2 + 8 + 72 * j) 9)), pre := [], cur := [] }) }

/-- Slots from the tableau: CSRs, then register images. -/
def State.restoreSlots (s : State) (t : TabView) (r : Region) (cellAt : List Nat) : Region :=
  ((t.places 5 r.slotRecords).zip r.slotKeys).foldl (fun r p =>
    let sl := r.slot p.2.1 p.2.2
    let img := s.read (cellAt.getD p.2.1 0 + 8 + 2048 * p.2.2) 2048
    r.setSlot p.2.1 p.2.2 ((sl.ofWords (s.tabWords p.1 13)).ofImage img)) r

/-- Tile tags from the tableau. -/
def State.restoreTags (s : State) (t : TabView) (r : Region) : Region :=
  ((t.places 7 ((List.range r.ncells).map r.tileRec)).zipIdx).foldl (fun r p =>
    (List.range r.tileCount).foldl (fun r k =>
      r.setCell p.2 ((r.cell p.2).setTag k (BitVec.ofNat 3 (s.load (p.1 + 8 + k) 1)))) r) r

/-- Bytes of the pools and of the Table Store, copied to the cells of the new placement. -/
def State.copyCells (s : State) (new : Region) (cellAt : List Nat) (tab : List Nat) : State :=
  let t := s.tenant new.tenant
  let s := (List.range new.ncells).foldl (fun s v =>
    s.write (poolKey new.die (new.cell v).site 0) (s.read (cellAt.getD v 0 + 8) new.usedBytes)) s
  ((new.tableKeys t).zip tab).foldl (fun s p =>
    s.write (tableKey new.die (new.cell p.1.1).site ((t.tsbase + p.1.2) * 8192)) (s.read (p.2 + 8) 8192)) s

/-- Words of the entries of a script image, each with its extension words, by fuel. -/
def splitEntries : Nat → List Word → List (List Word)
  | 0, _ => []
  | k + 1, ws =>
    if ws.isEmpty then []
    else
      let n := 2 + bits (wordAt ws 1) 1 0
      ws.take n :: splitEntries k (ws.drop n)

/-- A region's script, launch record and lists as their copies in its tableau have them (R333, R407). -/
def State.withCopies (s : State) (at_ : Nat) (r : Region) : Region :=
  let t := s.tabView at_
  let image := s.tabWords (at_ + t.offs.getD 0 0) r.image.length
  let ws := s.tabWords (at_ + t.offs.getD 1 0) (r.launchBytes.length / 8)
  let a := r.slotRecs.length
  let b := a + r.endRecs.length
  let c := b + r.tableRecs.length
  let ls := ws.drop r.launch.length
  { r with
    image := image, entries := entriesOf (splitEntries image.length image), launch := ws.take r.launch.length
    slotRecs := ls.take a, endRecs := (ls.take b).drop a, tableRecs := (ls.take c).drop b, codeRecs := ls.drop c }

/-- A region re-placed from its tableau (R333, R382, R414): `new` is the old region with its new sites and routes. -/
def State.restoreFrom (s : State) (c at_ : Nat) (new : Region) : State :=
  let old := s.region c
  let t := s.tabView at_
  let cellAt := t.places 4 (s.cellRecs old)
  let tabs := t.places 6 ((old.tableKeys (s.tenant old.tenant)).map (s.tableRecord old (s.tenant old.tenant)))
  let new := s.restoreTags t (s.restoreSlots t (s.restoreChans t (s.restoreEntries t new)) cellAt)
  let new := s.restorePackets t (s.restoreAccs t (s.restoreEngines t (s.restoreBarriers new cellAt)))
  let w0 := wordAt (s.tabWords at_ 1) 0
  let new := { new with tkind := bits w0 41 40, tcurt := bits w0 42 42 == 1 }
  let new := new.followCells old.placeOf new.placeOf
  ((s.copyCells new cellAt tabs).followFetches c old.placeOf new.placeOf).setRegion c new

end Sys2Proof.Machine
end

