-- ==== Sys2Proof/Machine/Freeze.lean ====
section
/-! DEFINITION. Stopping a region (R377 to R383): the freeze wave, the two holds, the end of a curtain, and readout of
the tableau. -/

namespace Sys2Proof.Machine

/-! ### Stopping a cell (R193, R290, R381) -/

/-- A slot stops in the state it holds. -/
def Slot.freeze (sl : Slot) : Slot :=
  if sl.st = .free ∨ sl.st = .frozen ∨ sl.st = .done then sl
  else { sl with st := .frozen, before := sl.st, waiting := .nothing }

/-- A requester of a region that lies in a virtual cell. -/
def Region.actorIn (r : Region) (c v : Nat) : Actor → Bool
  | .slot d w _ => d == c && w == v
  | .node d e => d == c && (r.entryCells e).contains v
  | _ => false

/-- An MVM call in progress is dropped; its inputs stay and it is computed again after resume (R179, R311). -/
def Region.dropCalls (r : Region) (v : Nat) : Region :=
  (List.range r.entries.length).foldl (fun r e =>
    let nd := r.node e
    if r.opcode e = 0x81 ∧ r.vcellOf e = v ∧ nd.op.out.isEmpty then
      r.setNode e { nd with op := { nd.op with flag := false, phase := 0, granted := false } }
    else r) r

def WBlk.callOf (w : WBlk) (c v : Nat) : Bool := w.call && w.cue == c && w.vcell == v

/-- The engine that runs a call of a cell. -/
def State.callAt (s : State) (c v : Nat) : Actor → Bool
  | .wings k 0 => (s.wing k).running.any (fun p => p.1 == 0 && p.2.callOf c v)
  | _ => false

def Wings.dropCalls (u : Wings) (c v : Nat) : Wings :=
  { u with qm := u.qm.filter (fun w => !w.callOf c v), running := u.running.filter (fun p => !p.2.callOf c v) }

/-- The wave reaches a cell. -/
def State.freezeCell (s : State) (c v : Nat) : State :=
  let r := s.region c
  let s := (s.withdrawLeave r.die (r.actorIn c v)).forgetDraws (s.callAt c v)
  let s := { s with wings := Tab.mapVal (fun _ (u : Wings) => u.dropCalls c v) s.wings }
  let cell := r.cell v
  s.setRegion c ((r.setCell v { cell with slots := Tab.mapVal (fun _ (sl : Slot) => sl.freeze) cell.slots, frozen := true }).dropCalls v)

/-- The tick at which the wave reaches a cell (R381). -/
def Region.waveTick (r : Region) (f : Freeze) (v : Nat) : Nat :=
  f.t0 + siteDist (r.cell f.start).site (r.cell v).site

/-- Exchanges whose transfer has not started are abandoned: nothing moves and no rest begins (R367). -/
def State.abandon (s : State) (c : Nat) : State :=
  let r := s.region c
  let back (s : State) (site : Nat) (q : Nat × Nat × Option (Nat × Nat)) : State :=
    s.setPcell r.die site { s.pcell r.die site with rleft := q.1, rlen := q.2.1, partner := q.2.2 }
  let s := (r.exchanges.filter (fun x => x.stage == 0)).foldl (fun s x => back (back s x.a x.restA) x.b x.restB) s
  s.setRegion c { r with exchanges := r.exchanges.filter (fun x => x.stage != 0) }

/-- BLACKOUT_WAVE_ARRIVE: an exchange whose transfer has not started is abandoned; one that is transferring commits
first (R367). -/
def execBlackoutWaveArrive (s : State) : Out :=
  let c := s.actCue
  let v := s.actCell
  let r := s.region c
  match r.freeze with
  | none => .next s
  | some f =>
    if (r.cell v).frozen ∨ r.ncells ≤ v ∨ s.cyc.toNat < r.waveTick f v then .next s
    else
      if r.exchanges.any (fun x => x.stage == 1) then .next s
      else .next ((s.abandon c).freezeCell c v)

/-! ### Engine commands of a region -/

/-- A command or block that can go no further: held on a translation fault, or stopped (R299, R375). -/
def FlyCmd.held (f : FlyCmd) : Bool := f.withheld.isSome || f.stopped
def WBlk.stuck (w : WBlk) : Bool := w.withheld.isSome || w.stopped

/-- No command of the region runs at a Fly engine: it holds none, or its head can go no further or may not start, or the
engine's die stands still. -/
def State.flySettled (s : State) (c e : Nat) : Bool :=
  match (s.fly e).q with
  | [] => true
  | f :: rest => f.held || (!f.started && s.flyHeldBack e f) || (s.die (e / 16)).power.dead || !(f :: rest).any (fun g => g.cue == c)

def Wings.stuckAt (u : Wings) (e : Nat) : Bool := ((u.running.find? (fun p => p.1 == e)).map (fun p => p.2.stuck)).getD false

/-- No block of the region runs at a Wings unit; a unit that stands still holds its blocks where they are. -/
def Wings.settled (u : Wings) (c : Nat) (stopped : Bool) : Bool :=
  stopped ||
  (u.running.all (fun p => p.2.cue != c || p.2.stuck) &&
    u.qm.all (fun w => w.cue != c || u.stuckAt 0) &&
    u.qs.all (fun w => w.cue != c || (if blkOp w.words = 2 then u.stuckAt 1 else [2, 3, 4, 5].all u.stuckAt)))

def State.enginesSettled (s : State) (c : Nat) : Bool :=
  s.flys.all (fun p => s.flySettled c p.1) && s.wings.all (fun p => p.2.settled c (s.wingsStopped p.1))

/-- No engine command of the region is left. -/
def State.enginesIdle (s : State) (c : Nat) : Bool :=
  (s.region c).parkedFly.isEmpty && (s.region c).parkedWings.isEmpty &&
  s.flys.all (fun p => p.2.q.all (fun f => f.cue != c)) &&
  s.wings.all (fun p => p.2.qm.all (fun w => w.cue != c) && p.2.qs.all (fun w => w.cue != c) &&
    p.2.running.all (fun q => q.2.cue != c))

/-- A Wings unit without the blocks of a region. -/
def Wings.without (u : Wings) (mine : WBlk → Bool) : Wings :=
  { u with qm := u.qm.filter (fun w => !mine w)
           qs := u.qs.filter (fun w => !mine w)
           running := u.running.filter (fun q => !mine q.2) }

/-- The engine at work on a command of the region. -/
def State.worksFor (s : State) (c : Nat) : Actor → Bool
  | .fly e => ((s.fly e).q.head?.map (fun f => f.cue == c)).getD false
  | .wings k e => (s.wing k).running.any (fun p => p.1 == e && p.2.cue == c)
  | _ => false

/-- Take the region's commands off the engines, to be kept while it is frozen: engine commands by engine, blocks by
stack, running ones first. What they had asked of the bucket is asked for again (R354). -/
def State.parkEngines (s : State) (c : Nat) : State :=
  let fl := s.flys.flatMap (fun p => (p.2.q.filter (fun f => f.cue == c)).map (fun f => (p.1, f)))
  let mine (w : WBlk) : Bool := w.cue == c
  let wl := s.wings.flatMap (fun p =>
    ((p.2.running.map (fun q => q.2)).filter mine ++ p.2.qm.filter mine ++ p.2.qs.filter mine).map (fun w => (p.1, w)))
  let r := s.region c
  let s := s.forgetDraws (s.worksFor c)
  let s := { s with
    flys := Tab.mapVal (fun _ (e : FlyEng) => { q := e.q.filter (fun f => f.cue != c) : FlyEng }) s.flys
    wings := Tab.mapVal (fun _ (u : Wings) => u.without mine) s.wings }
  s.setRegion c { r with parkedFly := r.parkedFly ++ fl, parkedWings := r.parkedWings ++ wl }

/-- A kept Fly command goes back behind the queue of its engine. -/
def State.unparkFly (s : State) (c : Nat) (p : Nat × FlyCmd) : State :=
  let e := (s.region c).flyTarget p
  s.setFly e { q := (s.fly e).q ++ [{ p.2 with started := false, withheld := none, stopped := false }] }

/-- A kept block goes back behind the queue of its unit. -/
def State.unparkBlk (s : State) (p : Nat × WBlk) : State :=
  let u := s.wing p.1
  let w := { p.2 with withheld := none, stopped := false }
  s.setWing p.1 (if blkQueue p.2.words = 0 then { u with qm := u.qm ++ [w] } else { u with qs := u.qs ++ [w] })

/-- The kept commands go back to their queues in the order they stood in, and on from where they stood (R299, R300, R308); those
beyond the 16 that a queue holds stand behind it, and join it in their order as room comes (log 12). A command of the cell's own
engine goes to the one the cell has now (R296). -/
def State.unparkEngines (s : State) (c : Nat) : State :=
  let r := s.region c
  let key (p : Nat × FlyCmd) : Nat := (p.2.made * 2 ^ 64 + agentRank p.2.cue p.2.vcell p.2.task p.2.agent) * 2 ^ 64 + p.2.seq
  let s := s.setRegion c { r with parkedFly := [], parkedWings := [] }
  let s := (sortBy key r.parkedFly).foldl (fun s p => s.unparkFly c p) s
  r.parkedWings.foldl State.unparkBlk s

/-! ### Readout (R381 to R383) -/

def granule (n : Nat) : Nat := (n + 65535) / 65536 * 65536

/-- A range of the arena that no tableau holds. -/
def Tenant.arenaFree (t : Tenant) (a n : Nat) : Bool :=
  decide (t.arena ≤ a) && decide (a + n ≤ t.arena + t.arenaLen) &&
  t.tableaux.all (fun p => !rangesMeet a n p.1 (granule p.2.1))

/-- First fit in 64 KiB granules. -/
def Tenant.allocate (t : Tenant) (n : Nat) : Option Nat :=
  (sortBy id (t.arena :: t.tableaux.map (fun p => p.1 + granule p.2.1))).find? (fun a => t.arenaFree a (granule n))

/-- Bytes of the arena that no tableau holds. -/
def Tenant.arenaLeft (t : Tenant) : Nat := t.arenaLen - t.tableaux.foldl (fun a p => a + granule p.2.1) 0

def Region.codeAddrs (r : Region) : List Nat := (List.range r.ncode).map r.codeAddr

/-! ### What can go no further while the region stands still (R258, R363, R381) -/

/-- An access, store or fetch of an age goes from one cell to another's scratchpad. -/
def State.remoteOf (s : State) (c src dst id : Nat) : Bool :=
  let r := s.region c
  r.accs.any (fun a => a.id == id && a.space == 2 && a.cell == src && a.target == dst) ||
  r.pend.any (fun p => p.id == id && p.space == 2 && p.vcell == src && p.target == dst) ||
  s.fetches.any (fun f => f.cue == c && f.id == id && f.space == 2 && f.cell == src && f.target == dst)

/-- At its target an access to another cell's scratchpad waits for a tile that an engine owns, or behind one that can go no
further (R248). -/
def State.remoteStuck (s : State) (c : Nat) (st : List Nat) (src dst : Nat) (ranges : List (Nat × Nat)) : Bool :=
  !(s.region c).remoteFree dst ranges || st.any (s.remoteOf c src dst)

/-- The access, store or fetch of an age can go no further, given the older ones that cannot: an access is withheld, is a pass
token that only its node's pass goes on with, or must follow such an access of its node; a store must follow one of its slot;
one to another cell's scratchpad waits there. -/
def State.stuckOne (s : State) (c : Nat) (st : List Nat) (id : Nat) : Bool :=
  let r := s.region c
  match r.accs.find? (fun a => a.id == id) with
  | some a =>
    !a.done && (a.withheld.isSome || (a.kind == .poll && a.banks.isEmpty) ||
      (r.accsOf a.entry).any (fun b => st.contains b.id && accAfter b a) ||
      (a.space == 2 && a.banks.isEmpty && s.remoteStuck c st a.cell a.target (segRanges a.segs.flatten)))
  | none =>
    match r.pend.find? (fun p => p.id == id) with
    | some p =>
      r.pend.any (fun q => st.contains q.id && q.vcell == p.vcell && q.slot == p.slot && pendMeet q.segs p.segs) ||
      (p.space == 2 && p.banks.isEmpty && s.remoteStuck c st p.vcell p.target p.ranges)
    | none =>
      match s.openFetch c id 2 with
      | some f => f.banks.isEmpty && s.remoteStuck c st f.cell f.target f.ranges
      | none => false

/-- The ages of the region's accesses, stores and fetches that can go no further, found in the order of their ages. -/
def State.stuck (s : State) (c : Nat) : List Nat :=
  let r := s.region c
  let ids := r.accs.map (fun a => a.id) ++ r.pend.map (fun p => p.id) ++ (s.fetches.filter (fun f => f.cue == c)).map (fun f => f.id)
  (sortBy (fun k => k) ids).foldl (fun st id => if s.stuckOne c st id then st ++ [id] else st) []

/-- Every presented access, store and fetch of the region is performed, or can go no further (R381). -/
def State.accsSettled (s : State) (c : Nat) : Bool :=
  let r := s.region c
  let st := s.stuck c
  r.accs.all (fun a => a.done || st.contains a.id) && r.pend.all (fun p => st.contains p.id) &&
  s.fetches.all (fun f => f.cue != c || f.served || st.contains f.id)

/-- Everything of the region has come to rest: every cell frozen, no exchange or copy going on, every packet landed, every access
performed unless it can go no further, no command running. -/
def State.atRest (s : State) (c : Nat) : Bool :=
  let r := s.region c
  (List.range r.ncells).all (fun v => (r.cell v).frozen && (r.cell v).tloads.isEmpty) &&
  r.exchanges.all (fun x => x.stage == 2) && s.accsSettled c &&
  s.packets.all (fun p => p.cue != c || p.taken) && s.enginesSettled c

/-- The incident of a freeze, with its tableau (R388). -/
def Rec.withTableau (q : Rec) (addr len : Nat) : Rec := { q with w5 := wd addr, w6 := wd len }

/-- Write the tableau where the arena has room, and post the freeze's incident; else TABLEAU_FULL once (R383). It waits while its
place lies in a stack of a die at DARK or OFF (R402). -/
def State.readout (s : State) (c : Nat) (f : Freeze) : State :=
  let r := s.region c
  let t := s.tenant r.tenant
  let bs := s.tableauBytes c f.kind r.tcurt false
  match t.allocate bs.length with
  | some a =>
    if s.inReach a bs.length = false then s else
    let s := s.write a bs
    let s := s.setTenant r.tenant { t with tableaux := t.tableaux ++ [(a, bs.length, false, r.codeAddrs, c)] }
    let s := s.setRegion c { r with tableau := some (a, bs.length), tkind := f.kind, fullPosted := false }
    s.postRec (f.incident.withTableau a bs.length)
  | none =>
    if r.fullPosted then s
    else
      (s.setRegion c { r with fullPosted := true, tkind := f.kind }).postRec
        (mkRec 0x08 0 r.tenant r.die c 0 0 0 noEntry 0 0 bs.length t.arenaLeft 0)

/-- TABLEAU_READOUT: once the region is at rest its commands are kept and its cue is FROZEN; a readout that found no room is tried
again. A request that has been performed keeps its answer for its slot or node, which issues afresh after resume; one that could
go no further is asked for again (log 10). -/
def execTableauReadout (s : State) : Out :=
  let c := s.actCue
  let r := s.region c
  match r.freeze with
  | none => .next s
  | some f =>
    if r.frozen then (if r.tableau.isNone then .next (s.readout c f) else .next s)
    else if s.atRest c = false then .next s
    else
      let s := s.parkEngines c
      let s := { s with fetches := s.fetches.filter (fun f => f.cue != c || f.served) }
      let s := s.setRegion c { s.region c with frozen := true, tcurt := decide (f.kind ≠ 0) && r.curtain }
      .next ((s.moveCue c .frozen .word0).readout c f)

/-! ### Holds (R377, R380) -/

/-- A withheld access: when it was presented, and an incident's cell, slot, copy, entry, firing index, address and cause. -/
structure Withheld where
  at_ : Nat
  cell : Nat
  slot : Nat := 0
  copy : Nat := 0
  entry : Nat := noEntry
  fire : Nat := 0
  va : Nat
  cause : Nat
  deriving DecidableEq, Repr

def Acc.heldRec (a : Acc) : Option Withheld :=
  a.withheld.map (fun w => { at_ := a.made, cell := a.cell, copy := a.copy, entry := a.entry, fire := a.fire, va := w.1, cause := w.2 })
/-- An engine command's withheld access, as its issuer's. -/
def heldCmd (v : Nat) (task : Bool) (agent fire at_ : Nat) (w : Nat × Nat) : Withheld :=
  if task then { at_ := at_, cell := v, slot := agent, fire := fire, va := w.1, cause := w.2 }
  else { at_ := at_, cell := v, entry := agent, fire := fire, va := w.1, cause := w.2 }
def presentTick (h : Option (Nat × Nat)) : Nat := (h.map (fun p => p.1)).getD 0
def FlyCmd.heldRec (f : FlyCmd) : Option Withheld :=
  f.withheld.map (heldCmd f.vcell f.task f.agent f.fire (presentTick f.heldAt))
def WBlk.heldRec (w : WBlk) : Option Withheld :=
  w.withheld.map (heldCmd w.vcell w.task w.agent w.fire (presentTick w.heldAt))

/-- The withheld accesses of a region in presentation order: by tick, and within one those of nodes, then of Fly engines, then
of Wings units (log 17). -/
def State.withheldList (s : State) (c : Nat) : List Withheld :=
  sortBy (fun h => h.at_) ((s.region c).accs.filterMap Acc.heldRec ++
    s.flys.flatMap (fun p => (p.2.q.filter (fun f => f.cue == c)).filterMap FlyCmd.heldRec) ++
    s.wings.flatMap (fun p => ((p.2.running.map (fun q => q.2)).filter (fun w => w.cue == c)).filterMap WBlk.heldRec))

def State.anyWithheld (s : State) (c : Nat) : Bool := !(s.withheldList c).isEmpty

/-- A hold blacks the region out from virtual cell 0. -/
def State.holdOut (s : State) (c : Nat) (q : Rec) : State := s.startFreeze c 0 1 false q

/-- PAGE_HOLD: the fault hold count has reached FHOLD. -/
def execPageHold (s : State) : Out :=
  let c := s.actCue
  let r := s.region c
  match s.withheldList c with
  | [] => .next s
  | h :: _ =>
    if r.freeze.isSome ∨ r.started = false ∨ r.holdCount < r.fhold then .next s
    else .next (s.holdOut c (mkRec 0x04 0 r.tenant r.die c h.cell h.slot h.copy h.entry 0 h.fire h.va h.cause 0))

/-! ### The end of a curtain (R379) -/

/-- A wait for a barrier phase. -/
def WaitFor.isBarrier : WaitFor → Bool
  | .barrier _ _ => true
  | _ => false

/-- A slot has stopped, stands in WAIT at a barrier (R193, R295; log 17), or has ended with nothing queued for it. -/
def Region.slotCurtained (r : Region) (v k : Nat) (sl : Slot) : Bool :=
  sl.st == .free || sl.stopped || (sl.st == .wait && sl.waiting.isBarrier) ||
  (sl.ended && sl.queue.isEmpty && r.chans.all (fun ch => (match ch.cons with
    | .task w j _ => !(w == v && j == k)
    | .entry _ _ => true) || ch.q.isEmpty))

def State.curtainDone (s : State) (c : Nat) : Bool :=
  let r := s.region c
  r.curtain && r.started && r.freeze.isNone &&
  (List.range r.entries.length).all (fun e => (r.node e).curt || (r.node e).eos) &&
  (List.range r.ncells).all (fun v => (r.cell v).slots.all (fun p => r.slotCurtained v p.1 p.2) &&
    (r.cell v).tloads.isEmpty) &&
  r.accs.isEmpty && r.pend.isEmpty && s.packets.all (fun p => p.cue != c || p.taken) && s.enginesIdle c &&
  r.exchanges.all (fun x => x.stage == 2 && x.routed)

/-- CURTAIN_HOLD: the curtain is not complete at the HOLD-th boundary (R380). -/
def execCurtainHold (s : State) : Out :=
  let c := s.actCue
  let r := s.region c
  if r.curtain = false ∨ r.freeze.isSome ∨ r.curtFrames < r.hold ∨ s.curtainDone c then .next s
  else .next (s.holdOut c (mkRec 0x05 0 r.tenant r.die c 0 0 0 noEntry 0 0 r.curtFrames 0 0))

/-- CURTAIN_COMPLETE: the whole region stops where the curtain left it, and readout follows with KIND = CURTAIN. -/
def execCurtainComplete (s : State) : Out :=
  let c := s.actCue
  if s.curtainDone c = false then .next s
  else
    let r := s.region c
    let s := s.setRegion c { r with
      curtain := false
      freeze := some { t0 := s.cyc.toNat, start := 0, kind := 0,
                       incident := mkRec 0x06 0 r.tenant r.die c 0 0 0 noEntry 0 0 0 0 0 } }
    let s := (List.range r.ncells).foldl (fun s v => s.freezeCell c v) s
    .next { s with due := s.due ++ [(.tableauReadout, .region c)] }

end Sys2Proof.Machine
end

