-- ==== Sys2Proof/Machine/Regions.lean ====
section
/-! DEFINITION. The host's commands on a placed region (R378, R381, R382, R414): CURTAIN, BLACKOUT, RESUME, REPLACE
(R333) and RELEASE; and freeing what a region holds. -/

namespace Sys2Proof.Machine

/-- Frame of a tick (R22), and the first boundary at or after it. -/
def frameOf (cyc : Nat) : Nat := cyc / 1024
def nextFrame (cyc : Nat) : Nat := (cyc + 1023) / 1024

/-! ### Freeing (R287, R362, R382) -/

/-- The actor belongs to a region. -/
def Actor.ofCue (c : Nat) : Actor → Bool
  | .slot d _ _ | .node d _ | .region d | .cell d _ | .cue d | .bank d _ _ | .access d _ | .tload d _ _
  | .barrier d _ _ => d == c
  | _ => false

/-- Rest state of the sites a region holds is cleared (R362). -/
def State.clearRest (s : State) (r : Region) : State :=
  (List.range r.ncells).foldl (fun s v =>
    let site := (r.cell v).site
    s.setPcell r.die site { s.pcell r.die site with rleft := 0, rlen := 0, partner := none }) s

/-- Free a region's cells, routes and classes, and whatever waits or travels for it. -/
def State.freeRegion (s : State) (c : Nat) : State :=
  let mine (w : WBlk) : Bool := w.cue == c
  { s with
    regions := Tab.del s.regions c
    packets := s.packets.filter (fun p => p.cue != c)
    tenants := Tab.mapVal (fun _ (t : Tenant) => t.forget (fun a => a.ofCue c || s.worksFor c a)) s.tenants
    fetches := s.fetches.filter (fun f => f.cue != c)
    dies := Tab.mapVal (fun _ (d : Die) =>
      { d with leaveQ := d.leaveQ.filter (fun q => !q.who.ofCue c)
               leaveGranted := d.leaveGranted.filter (fun a => !a.ofCue c)
               placing := if d.placing = some c then none else d.placing }) s.dies
    flys := Tab.mapVal (fun _ (e : FlyEng) => { q := e.q.filter (fun f => f.cue != c) : FlyEng }) s.flys
    wings := Tab.mapVal (fun _ (u : Wings) => u.without mine) s.wings }

/-- Update the record of the region that a cue's present launch has made (R425). -/
def State.markJob (s : State) (c : Nat) (f : JobReg → JobReg) : State :=
  let q := s.cue c
  let j := s.job q.tenant q.job
  s.setJob q.tenant q.job { j with placed := j.placed.map (fun p => if j.present c p then f p else p) }

/-! ### Tableaux given back (R385, log 18) -/

/-- Code objects whose deferred unload now takes effect. -/
def Tenant.settleUnloads (t : Tenant) : Tenant :=
  let pinned (a : Nat) : Bool := t.tableaux.any (fun p => p.2.2.2.1.contains a)
  { t with unloaded := t.unloaded ++ t.deferred.filter (fun a => !pinned a), deferred := t.deferred.filter pinned }

/-- A cue's tableau is held no longer. -/
def State.dropTableau (s : State) (c : Nat) : State :=
  let r := s.region c
  let t := s.tenant r.tenant
  (s.setTenant r.tenant { t with tableaux := t.tableaux.filter (fun p => p.2.2.2.2 != c) }.settleUnloads).setRegion c
    { r with tableau := none }

/-- A tableau is marked STALE (R385). -/
def State.tableauStale (s : State) (c : Nat) : Bool :=
  (s.tenant (s.region c).tenant).tableaux.any (fun p => p.2.2.2.2 == c && p.2.2.1)

/-- When the region goes on or is released with no tableau written, the incident of what froze it is posted; the ones
that report a readout, CURTAIN_DONE and BLACKOUT_DONE, are not (log 17). -/
def State.postUnread (s : State) (c : Nat) : State :=
  match (s.region c).freeze, (s.region c).tableau with
  | some f, none => if f.incident.w0.toNat % 256 = 6 ∨ f.incident.w0.toNat % 256 = 7 then s else s.postRec f.incident
  | _, _ => s

/-! ### Resuming (R377, R382, R414) -/

/-- A slot goes on from the state it held; a slot in WAIT or SLEEP issues its instruction afresh (R193). -/
def Slot.resume (sl : Slot) : Slot :=
  if sl.st ≠ .frozen then sl
  else
    match sl.before with
    | .wait | .sleep => { sl with st := sl.issueState }
    | st => { sl with st := st }

/-- A channel to a slot without the CURTAIN at its head. -/
def Chan.dropCurtain (ch : Chan) (v k : Nat) : Chan :=
  match ch.cons, ch.q with
  | .task w j _, .curtain :: rest => if w = v ∧ j = k then { ch with q := rest } else ch
  | _, _ => ch

/-- Remove a CURTAIN at the head of each of a slot's input ends, or of its class queue (R382). -/
def State.dropCurtain (s : State) (c v k : Nat) : State :=
  let s := match ((s.slotAt c v k).queue).head?, (s.slotAt c v k).bindClass with
    | some (_, _, .curtain), some _ => s.takeIn c v k 0
    | _, _ => s
  let r := s.region c
  let r := { r with chans := r.chans.map (fun (ch : Chan) => ch.dropCurtain v k) }
  s.setRegion c (r.setSlot v k { r.slot v k with stopped := false })

/-- After a curtain that completed: the slots' CURTAIN tokens go, and every node may take a new one. -/
def State.endCurtain (s : State) (c : Nat) : State :=
  let s := (s.region c).slotKeys.foldl (fun s p => s.dropCurtain c p.1 p.2) s
  let r := s.region c
  s.setRegion c { r with nodes := Tab.mapVal (fun _ (n : Node) => { n with curt := false }) r.nodes }

/-- The region runs again from the state its cells keep: its slots, its windows afresh (R358), its holds at 0, its
commands and withheld accesses presented again (R258, R299). -/
def State.resumeRegion (s : State) (c : Nat) : State :=
  let s := s.postUnread c
  let ended := decide ((s.region c).tkind = 0) && !(s.region c).tcurt
  let s := s.dropTableau c
  let r := s.region c
  let wake (x : VCell) : VCell := { x with frozen := false, slots := Tab.mapVal (fun _ (sl : Slot) => sl.resume) x.slots }
  let s := s.setRegion c { r with
    cells := Tab.mapVal (fun _ x => wake x) r.cells
    chans := r.chans.map (fun ch => { ch with traffic := 0 })
    freeze := none, frozen := false, fullPosted := false, curtain := r.tcurt, tcurt := false
    holdCount := 0, curtFrames := 0, faults := [], xfaults := 0, winBase := nextFrame s.cyc.toNat }
  let s := if ended then s.endCurtain c else s
  ((s.unparkEngines c).retryAccs c).moveCue c .running .word0

def cmdBits : List Nat := [span 19 0]

/-! ### CURTAIN and BLACKOUT -/

/-- The curtain has entered at every operand-less node (R378), or is over. -/
def State.curtainEntered (s : State) (c : Nat) : Bool :=
  let r := s.region c
  !r.curtain || r.freeze.isSome ||
  (List.range r.entries.length).all (fun e => !r.operandless e || (r.node e).curt || (r.node e).eos)

/-- CURTAIN: refused while the region is freezing or frozen; a second one joins the first. -/
def execCurtainCmd (win : Nat) (c : Cmd) (s : State) : Out :=
  .next (s.command win (.curtainCmd win c) c cmdBits (fun s =>
    let n := cmdCue c
    let r := s.region n
    refusals [(!s.cueInRange win n, resRange), ((s.cue n).st != .running || r.freeze.isSome, resState)] (fun _ =>
      let s := if r.curtain then s else s.setRegion n { r with curtain := true, curtFrames := 0 }
      if s.curtainEntered n then .done s else .busy s)))

/-- BLACKOUT: the wave starts at virtual cell 0. -/
def execBlackoutCmd (win : Nat) (c : Cmd) (s : State) : Out :=
  .next (s.command win (.blackoutCmd win c) c cmdBits (fun s =>
    let n := cmdCue c
    let r := s.region n
    refusals [(!s.cueInRange win n, resRange), ((s.cue n).st != .running, resState)] (fun _ =>
      .done (s.startFreeze n 0 1 false (mkRec 0x07 0 r.tenant r.die n 0 0 0 noEntry 0 0 0 0 0)))))

/-! ### RESUME and RELEASE -/

def execResumeCmd (win : Nat) (c : Cmd) (s : State) : Out :=
  .next (s.command win (.resumeCmd win c) c cmdBits (fun s =>
    let n := cmdCue c
    refusals [(!s.cueInRange win n, resRange),
      ((s.cue n).st != .frozen || (s.die (s.region n).die).power.dead, resState),
      (s.tableauStale n, resGone)] (fun _ => .done (s.resumeRegion n))))

/-- RELEASE: cells, routes and classes are freed; the tableau's bytes stay where they are. -/
def execReleaseCmd (win : Nat) (c : Cmd) (s : State) : Out :=
  .next (s.command win (.releaseCmd win c) c cmdBits (fun s =>
    let n := cmdCue c
    refusals [(!s.cueInRange win n, resRange),
      ((s.cue n).st != .frozen && (s.cue n).st != .failed, resState)] (fun _ =>
      if (s.cue n).st = .failed then .done (s.moveCue n .free .word0)
      else
        let s := ((s.postUnread n).dropTableau n).markJob n (fun p => { p with started := false })
        .done ((s.freeRegion n).moveCue n .free .word0))))

/-! ### REPLACE (R333) -/

def replaceBits : List Nat := [span 31 0, allBits]
def replaceDie (c : Cmd) : Nat := bits c.w0 21 20
def replaceX (c : Cmd) : Nat := bits c.w0 26 22
def replaceY (c : Cmd) : Nat := bits c.w0 31 27

/-- A physical buffer of n bytes lies in the host range or in HBM (R428). -/
def hostBuf (a n : Nat) : Bool := decide (a + n ≤ 12 * 2 ^ 36) || (decide (2 ^ 51 ≤ a) && decide (a + n ≤ 2 ^ 52))

/-- The availability mask: bit s of byte s / 8 at w1, or all ones. -/
def State.maskAt (s : State) (addr : Nat) (site : Nat) : Bool :=
  addr == 0 || s.load (addr + site / 8) 1 / 2 ^ (site % 8) % 2 == 1

/-- Power of the dies whose stacks the tableau lies on (R402). -/
def State.tableauPower (s : State) (c : Nat) : Power :=
  match (s.region c).tableau with
  | some (a, n) => s.rangePower a n
  | none => .full

/-- A region with the launch copies of its tableau (R333, R407). -/
def State.copied (s : State) (c : Nat) : Region := s.withCopies (((s.region c).tableau).getD (0, 0)).1 (s.region c)

/-- Pack the tableau's copy of a region, which gives the virtual cells and channels the region has (R322, R333), and map and route
them on a die: the region with its new sites and routes. -/
def State.replan (s : State) (c die anchor mask : Nat) : Except PlaceFail Region :=
  let r := s.region c
  let held (cl : Nat) : Bool := (s.othersOn die c).any (fun q => Tab.has q.classes cl)
  match { s.copied c with die := die }.pack (s.tenant r.tenant) (s.die die).lb held with
  | .error p => .error p
  | .ok _ => s.mapAndRoute c die anchor (s.maskAt mask) { r with exchanges := [] }

/-- The code objects of a cell's slots stand at their ORG in its instruction store (R238). -/
def State.loadStore (s : State) (r : Region) (v : Nat) : State :=
  (r.cellSlots v).foldl (fun s p =>
    s.write (storeKey r.die (r.cell v).site (r.codeOrg p.1.code)) (r.codeBytes p.1.code)) s

/-- A region with the script, launch record and lists of another. -/
def Region.launchOver (copy r : Region) : Region :=
  { r with image := copy.image, entries := copy.entries, launch := copy.launch, slotRecs := copy.slotRecs, endRecs := copy.endRecs
           tableRecs := copy.tableRecs, codeRecs := copy.codeRecs }

/-- The re-placement: on success the region is restored and runs; on failure its record is written and it stays
FROZEN. -/
def State.replaceNow (s : State) (win : Nat) (c : Cmd) : State :=
  let n := cmdCue c
  let die := replaceDie c
  match s.replan n die (serp (replaceX c) (replaceY c)) c.w1.toNat with
  | .error p =>
    let ws := p.words die
    let s := (s.setCue n { s.cue n with failure := ws }).moveCue n .frozen .failure
    (s.setWin win { s.win win with record := ws }).finish win resOk
  | .ok r =>
    let fresh (x : Node) : Node := { x with op := { x.op with prm := 0, prmw := 0 } }
    let copy := s.copied n
    let s := s.clearRest (s.region n)
    let s := s.restoreFrom n (((s.region n).tableau).getD (0, 0)).1 { r with nodes := Tab.mapVal (fun _ x => fresh x) r.nodes }
    let s := s.setRegion n (copy.launchOver (s.region n))
    let r := s.region n
    let s := (List.range r.ncells).foldl (fun s v => s.loadStore r v) (s.clearRest r)
    (s.resumeRegion n).finish win resOk

/-- The conditions of REPLACE (R382, R385, R398, R402). -/
def State.replaceRefusal (s : State) (win : Nat) (c : Cmd) : List (Bool × Nat) :=
  let n := cmdCue c
  let d := replaceDie c
  [(!cellColumn (replaceX c) || decide (23 < replaceY c) || (c.w1 != 0 && !hostBuf c.w1.toNat 72), resField),
   (!s.cueInRange win n || !s.dieInRange win d, resRange),
   ((s.cue n).st != .frozen || (s.region n).tableau.isNone || (s.die d).power.dead, resState),
   ((s.tableauPower n).dead, resOff),
   (s.tableauStale n, resGone)]

/-- A REPLACE waits while the die's Blocking Engine, which takes one placement at a time, places another (R320), or while its
mask is out of reach (R402). -/
def State.replaceWaits (s : State) (c : Cmd) : Bool :=
  (s.die (replaceDie c)).placing.isSome || !(c.w1 == 0 || s.inReach c.w1.toNat 72)

/-- REPLACE: the window stays BUSY while it waits. -/
def execReplaceCmd (win : Nat) (c : Cmd) (s : State) : Out :=
  .next (s.command win (.replaceCmd win c) c replaceBits (fun s =>
    refusals (s.replaceRefusal win c) (fun _ =>
      if s.replaceWaits c then .busy s else .done (s.replaceNow win c))))

/-- A REPLACE is taken once it waits no more; what has changed meanwhile may refuse it. -/
def State.retryReplace (s : State) (win : Nat) (c : Cmd) : State :=
  if s.replaceWaits c then s
  else
    match (s.replaceRefusal win c).find? (fun p => p.1) with
    | some p => s.finish win p.2
    | none => s.replaceNow win c

/-- The windows whose REPLACE waits for a die, in ascending number. -/
def State.retryReplaces (s : State) (die : Nat) : State :=
  (List.range 16).foldl (fun s w =>
    match (s.win w).busy with
    | some (.replaceCmd _ c) => if replaceDie c = die then s.retryReplace w c else s
    | _ => s) s

end Sys2Proof.Machine
end

