-- ==== Sys2Proof/Machine/Launch.lean ====
section
/-! DEFINITION. From a READY graph cue to a running region and its end: PLACEMENT (R285, R321, R422, R425),
REGION_START (R286) and REGION_COMPLETION (R287). -/

namespace Sys2Proof.Machine

/-! ### Taking the launch (R243, R422) -/

/-- What reading a launch comes to: what was read, the failure, or none of them while a page is migrating. -/
abbrev Taken (α : Type) := Except (Option PlaceFail) α × State

/-- Go on with what was read, unless it failed. -/
def thenRead {α β : Type} (p : Taken α) (k : α → State → Taken β) : Taken β :=
  match p.1 with
  | .error f => (.error f, p.2)
  | .ok a => k a p.2

/-- A check made between reads. -/
def checked {β : Type} (f : Option PlaceFail) (s : State) (k : State → Taken β) : Taken β :=
  match f with
  | some p => (.error (some p), s)
  | none => k s

/-- Read n records of k words each; an unreadable one is named by the list's address word. -/
def State.readList (s : State) (ten die addr n k word : Nat) : Taken (List Word) :=
  match s.readWords ten die addr (n * k) with
  | (.ok ws, s') => (.ok ws, s')
  | (.error a, s') => (.error (unread noEntry word ((a.getD 0 - addr) / (8 * k)) a), s')

/-- Read images in order; an unreadable one is named by its record. -/
def State.readImages (s : State) (ten die word : Nat) : List (Nat × List (Nat × Nat)) → List (List Byte) →
    Taken (List (List Byte))
  | [], acc => (.ok acc.reverse, s)
  | (i, parts) :: rest, acc =>
    let got : Taken (List Byte) := parts.foldl (fun p q => thenRead p (fun bs s =>
      match s.readVa ten die q.1 q.2 with
      | (.ok more, s') => (.ok (bs ++ more), s')
      | (.error a, s') => (.error (unread 0 word i a), s'))) (.ok [], s)
    match got with
    | (.error f, s') => (.error f, s')
    | (.ok bs, s') => s'.readImages ten die word rest (bs :: acc)

/-- The table and code images of a region, pool entries after the code words. -/
def Region.tableParts (r : Region) : List (Nat × List (Nat × Nat)) :=
  (List.range r.ntab).map (fun i => (i, [(r.tableAddr i, 4096)]))
def Region.codeParts (r : Region) : List (Nat × List (Nat × Nat)) :=
  (List.range r.ncode).map (fun i => (i, [(r.codeAddr i, 4 * r.codeLen i), (r.poolAddr i, 4 * r.codePools i)]))

/-- The first pool entry of a code object beyond its limits (R226). -/
def Region.poolFail (r : Region) : Option PlaceFail :=
  firstFail ((List.range r.ncode).map (fun i =>
    need ((poolsOf ((r.codeImages.getD i []).drop (4 * r.codeLen i))).all poolOk) (listAt 0x23 0 i 0)))

/-- Die of a launch, from its record; 0 where that cannot be read (R334, R422). -/
def State.launchDie (s : State) (c : Nat) : Nat :=
  let q := s.cue c
  match (s.readWords q.tenant 0 q.lrec 16).1 with
  | .ok ws => bits (wordAt ws 0) 18 17
  | .error _ => 0

/-- NSREG and the count of placed regions of the job that name the script (R425). -/
def State.jobFail (s : State) (c : Nat) (script : Nat) : Option PlaceFail :=
  let q := s.cue c
  let j := s.job q.tenant q.job
  let same := j.placed.filter (fun p => !j.present c p && p.script == script)
  need (same.all (fun p => p.nsreg == q.nsreg) && decide (same.length < q.nsreg))
    { code := invalidField, word := 0x11 }

/-- Read and validate a launch: the record, the script and the lists, then the images. The spec does not say whether an
unreadable later entry or list record comes before a breach in an earlier one: here all are read before the script is validated
(DESIGN CHOICE, log 16). -/
def State.takeLaunch (s : State) (c : Nat) : Taken Region :=
  let q := s.cue c
  let t := q.tenant
  match s.readWords t 0 q.lrec 16 with
  | (.error a, s) => (.error (unread noEntry (0x10 + (a.getD 0 - q.lrec) / 8) 0 a), s)
  | (.ok ws, s) =>
    let r : Region := { tenant := t, die := bits (wordAt ws 0) 18 17, launch := ws, lrec := q.lrec }
    let d := r.die
    checked (checkLaunch ws) s (fun s =>
      match s.readEntries t d r.nent 0 (r.lw 1).toNat [] with
      | (.error f, s) => (.error f, s)
      | (.ok es, s) =>
        thenRead (s.readList t d (r.lw 8).toNat r.nslot 4 0x18) (fun slots s =>
        thenRead (s.readList t d (r.lw 12).toNat r.nend 1 0x1C) (fun ends s =>
        thenRead (s.readList t d (r.lw 10).toNat r.ntab 2 0x1A) (fun tables s =>
        thenRead (s.readList t d (r.lw 11).toNat r.ncode 4 0x1B) (fun codes s =>
          let r := { r with slotRecs := slots, endRecs := ends, tableRecs := tables, codeRecs := codes,
                            image := es.flatten, entries := entriesOf es }
          checked (firstFail [r.checkScript es, r.checkRecords (s.tenant t).tableSlots]) s (fun s =>
            thenRead (s.readImages t d 0x22 r.tableParts []) (fun tabs s =>
            thenRead (s.readImages t d 0x23 r.codeParts []) (fun code s =>
              let r := { r with tableImages := tabs, codeImages := code }
              checked (firstFail [r.poolFail, s.jobFail c (r.lw 1).toNat]) s (fun s => (.ok r, s))))))))))

/-! ### PLACEMENT (R285, R320, R321) -/

/-- The READY graph cue that a die's Blocking Engine takes next (R282). -/
def State.nextGraph (s : State) (die : Nat) : Option Nat :=
  s.readyQ.find? (fun c => (s.cue c).kind == 0 && s.launchDie c == die)

/-- Pack, map and route a launch as taken. -/
def State.plan (s : State) (c : Nat) (r : Region) : Except PlaceFail Region :=
  let held (cl : Nat) : Bool := (s.othersOn r.die c).any (fun q => Tab.has q.classes cl)
  match r.pack (s.tenant r.tenant) (s.die r.die).lb held with
  | .error p => .error p
  | .ok r => s.mapAndRoute c r.die (serp (bits (r.lw 0) 23 19) (bits (r.lw 0) 28 24)) (fun _ => true) r

/-- A validation or fit failure: the cue is FAILED, its entry holds the record, CUE_FAILED is posted (R285). -/
def State.failPlacement (s : State) (c die : Nat) (p : PlaceFail) : State :=
  ((s.setCue c { s.cue c with failure := p.words die }).moveCue c .failed .failure).cueIncident 0x0F c die 0 (s.cue c).tenant

/-- A region holds its cells; it is loaded next. -/
def State.holdCells (s : State) (c : Nat) (r : Region) : State :=
  let q := s.cue c
  let j := s.job q.tenant q.job
  let s := s.setJob q.tenant q.job
    { j with placed := j.placed.filter (fun p => !j.present c p) ++ [⟨c, j.launchOf c, (r.lw 1).toNat, q.nsreg, false, false⟩] }
  (s.setDie r.die { s.die r.die with placing := some c }).setRegion c r

/-- PLACEMENT: the engine takes the launch, places it, or records why not. While a page of the launch migrates, the walk waits
and the cue stays READY (R254, R263). -/
def execPlacement (s : State) : Out :=
  let c := s.actCue
  let d := s.launchDie c
  let die := s.die d
  if (s.cue c).st ≠ .ready ∨ s.nextGraph d ≠ some c ∨ die.placing.isSome ∨ die.power.dead then .next s
  else
    let t := { s with readyQ := s.readyQ.erase c }.moveCue c .placing .word0
    match t.takeLaunch c with
    | (.error none, _) => .next s
    | (.error (some p), s) => .next (s.failPlacement c d p)
    | (.ok r, s) =>
      match s.plan c r with
      | .error p => .next (s.failPlacement c r.die p)
      | .ok r => .next (s.holdCells c r)

/-! ### REGION_START (R286) -/

/-- A copy's element at placement: its table binding (R185) and its scale registers (R16, R99, R100). -/
def initElem (opc : Nat) (n : NodeF) : Elem :=
  let x0 := nExt n 0
  let x1 := nExt n 1
  let l (w : Word) (hi lo : Nat) : Lane := BitVec.ofNat 32 (bits w hi lo)
  { tbind := if opc = 0x92 ∧ bits (n.cfg.zeroExtend 64) 4 4 = 1 then BitVec.ofNat 5 (16 + n.cfg.toNat % 16) else 0
    scl := if opc = 0x42 then #v[l x0 63 32, 0, 0, 0]
      else if opc = 0x43 then #v[l x0 31 0, l x0 63 32, l x1 31 0, l x1 63 32] else #v[0, 0, 0, 0] }

/-- A node at placement: CARRY primed by its extension word (R134). -/
def initNode (opc : Nat) (n : NodeF) : Node :=
  let op : OpSt := if opc = 0x06 ∧ bits (nExt n 0) 0 0 = 1 then
      { flag := true, held := some (.data (List.replicate (lanesOfWid n.wid) (BitVec.ofNat 32 (bits (nExt n 0) 63 32)))) }
    else {}
  { elems := (List.range (nodeRep n)).map (fun k => (k, initElem opc n)), op := op }

/-- A slot as placement configures it (R191, R240, R370). -/
def Region.initSlot (r : Region) (v : Nat) (q : SlotRec) : Slot :=
  let base := r.stackBase v q.slot
  { pc := BitVec.ofNat 16 q.entryPc, tvec := BitVec.ofNat 16 q.entryPc, entryPc := BitVec.ofNat 16 q.entryPc
    st := .idle, bind := BitVec.ofNat 6 q.bind, ssbase := BitVec.ofNat 32 base
    sslim := BitVec.ofNat 32 (base + q.stack), ssp := BitVec.ofNat 32 (base + q.stack)
    host := q.host, sends := BitVec.ofNat 16 q.sends, code := q.code }

/-- Resident tiles start at matrix/0 (R175). -/
def Region.residentTiles (r : Region) (v : Nat) : List Nat :=
  (List.range r.entries.length).flatMap (fun e =>
    if r.opcode e = 0x81 ∧ (r.fields e).res = 1 ∧ r.vcellOf e = v then mvmTiles (r.fields e) else [])

def Region.codePoolList (r : Region) (k : Nat) : List (Nat × Nat) :=
  poolsOf ((r.codeImages.getD k []).drop (4 * r.codeLen k))

/-- A cell at the region's start. -/
def Region.initCell (r : Region) (v : Nat) : VCell :=
  let qs := r.cellSlots v
  { site := (r.cell v).site
    slots := qs.map (fun p => (p.1.slot, r.initSlot v p.1))
    tags := (sortBy id (r.residentTiles v).eraseDups).map (fun t => (t, 2))
    marked := (qs.map (fun p => p.1.code)).eraseDups.flatMap r.codePoolList }

/-- Cells that take a table image of a slot: those of TEVALs bound to it, or targeted by a TSEL that names it (R183). -/
def Region.tableCells (r : Region) (slot : Nat) : List Nat :=
  ((List.range r.entries.length).flatMap (fun e =>
    let n := r.fields e
    if r.opcode e = 0x92 ∧ bits (n.cfg.zeroExtend 64) 4 4 = 1 ∧ n.cfg.toNat % 16 = slot then r.entryCells e
    else if r.opcode e = 0x90 ∧ bits (n.cfg.zeroExtend 64) 19 16 = slot then r.entryCells (e + n.cfg.toNat % 65536)
    else [])).eraseDups

/-- Clear a range of memory to what an unlisted byte reads as. -/
def State.clearRange (s : State) (key n : Nat) : State :=
  { s with mem := s.mem.filter (fun p => decide (p.1 < key) || decide (key + n ≤ p.1)) }

/-- Load a cell: its accumulators are +0 (R167), the tenant's table banks are zero (R183), its code objects stand at
their ORG (R238). -/
def State.loadCell (s : State) (r : Region) (v : Nat) : State :=
  let site := (r.cell v).site
  let t := s.tenant r.tenant
  let s := s.clearRange (poolKey r.die site (r.taskBytes + r.spadBytes)) (r.accg * 65536)
  let s := s.clearRange (tableKey r.die site (t.tsbase * 8192)) (t.tableSlots * 8192)
  s.loadStore r v

/-- Write the table images into bank 0 of their slots, in list order. -/
def State.loadTables (s : State) (r : Region) : State :=
  let t := s.tenant r.tenant
  (List.range r.ntab).foldl (fun s i =>
    let slot := r.tableSlot i
    (r.tableCells slot).foldl (fun s v =>
      s.write (tableKey r.die (r.cell v).site ((t.tsbase + slot) * 8192)) (r.tableImages.getD i [])) s) s

/-- The region as it starts. -/
def Region.begin (r : Region) (now : Nat) : Region :=
  { r with
    nodes := (List.range r.entries.length).map (fun e => (e, initNode (r.opcode e) (r.fields e)))
    cells := (List.range r.ncells).map (fun v => (v, r.initCell v))
    loaded := true, started := true, startTick := now, now := now, winBase := nextFrame now }

/-- REGION_START: the stores, tables, tags and slots are loaded and every cell starts in this tick. -/
def execRegionStart (s : State) : Out :=
  let c := s.actCue
  let r := s.region c
  if (s.cue c).st ≠ .placing ∨ r.started ∨ (s.die r.die).placing ≠ some c ∨ (s.die r.die).power.dead then .next s
  else
    let now := s.cyc.toNat
    let s := (List.range r.ncells).foldl (fun s v => s.loadCell r v) s
    let s := (s.loadTables r).setRegion c (r.begin now)
    let s := s.setDie r.die { s.die r.die with placing := none }
    let s := s.markJob c (fun p => { p with started := true })
    let s := (s.clearRest r).setCue c { s.cue c with startTick := now }
    .next ((s.moveCue c .running .start).retryReplaces r.die)

/-! ### REGION_COMPLETION (R287) -/

/-- A configured slot has ended (R214). -/
def Slot.isEnded (sl : Slot) : Bool := sl.st == .free || (sl.ended && sl.st == .idle) || sl.st == .done

/-- No token is queued for slot k of virtual cell v, on its input ends or its class (R214). -/
def Region.noneQueued (r : Region) (v k : Nat) : Bool :=
  (r.slot v k).queue.isEmpty && r.chans.all (fun (ch : Chan) => match ch.cons with
    | .task w j _ => !(w == v && j == k) || ch.q.isEmpty
    | .entry _ _ => true)

/-- The node has ended: EOS given, and a CARRY has discarded the EOS of B and C, before which DATA there still faults
(R134; log 22). -/
def Region.nodeEnded (r : Region) (e : Nat) : Bool :=
  (r.node e).eos && (r.opcode e != 0x06 || [1, 2].all (fun k => (r.node e).op.n / 2 ^ k % 2 == 1))

def State.completes (s : State) (c : Nat) : Bool :=
  let r := s.region c
  r.started && r.freeze.isNone && (s.cue c).st == .running &&
  (List.range r.entries.length).all r.nodeEnded &&
  r.cells.all (fun p => p.2.slots.all (fun q => q.2.isEnded && r.noneQueued p.1 q.1)) && s.enginesIdle c &&
  r.exchanges.all (fun x => x.stage == 2 && x.routed)

/-- Every access of the region is performed. -/
def State.performAll (s : State) (c : Nat) : State :=
  let r := s.region c
  (s.writeSegs (r.pend.flatMap (fun p => p.segs))).setRegion c { r with pend := [] }

def VCell.allDone (x : VCell) : VCell :=
  { x with slots := Tab.mapVal (fun _ (sl : Slot) => if sl.st = .free then sl else { sl with st := .done }) x.slots }

/-- Every configured slot is DONE. -/
def Region.isDone (r : Region) : Bool := r.cells.any (fun p => p.2.slots.any (fun q => q.2.st == .done))

/-- The cells are freed, the successors released, the cue ended and DONE reported. -/
def State.endRegion (s : State) (c : Nat) : State :=
  let q := s.cue c
  let s := s.markJob c (fun p => { p with completed := true })
  let s := ((s.clearRest (s.region c)).freeRegion c).releaseAll false q.succ
  (s.setCue c { s.cue c with doneTick := s.cyc.toNat }).endCue c .done

/-- REGION_COMPLETION: it is established in one step, in which every configured slot becomes DONE; the cells are freed in a
later one, before which a debug read finds the slots DONE (R20, R432). -/
def execRegionCompletion (s : State) : Out :=
  let c := s.actCue
  let r := s.region c
  if s.completes c = false then .next s
  else if r.isDone || r.cells.all (fun p => p.2.slots.isEmpty) then .next ((s.performAll c).endRegion c)
  else
    let s := s.performAll c
    let r := s.region c
    .next (s.setRegion c { r with cells := Tab.mapVal (fun _ (x : VCell) => x.allDone) r.cells })

end Sys2Proof.Machine
end

