-- ==== Sys2Proof/Machine/Net.lean ====
section
/-! DEFINITION. The packet network (R336 to R353, R419, R420): rings and paths, what a place admits, the award of a
stop's outputs, and the steps PACKET_INJECT, PACKET_HOP and PACKET_ARRIVE. -/

namespace Sys2Proof.Machine

/-! ### Rings (R336) -/

/-- Rings are numbered: the row rings of a die, three to a row, then the slice rings, then the spine ring. -/
def segOf (x : Nat) : Nat := x / 9
def rowRing (d y k : Nat) : Nat := d * 72 + y * 3 + k
def sliceRing (d k : Nat) : Nat := 288 + d * 3 + k
def spineRing : Nat := 300
def ringSize (r : Nat) : Nat := if r < 288 then 8 else 24

/-- The ring and the stop of a place that sends or receives: a site on its row ring, a slice on its slice ring, a Wings unit on
the spine ring. -/
def siteRing (d site : Nat) : Nat :=
  if 600 ≤ site then sliceRing d ((site - 600) / 24)
  else if 576 ≤ site then spineRing
  else rowRing d (siteY site) (segOf (siteX site))
def siteStop (site : Nat) : Nat :=
  if 600 ≤ site then (site - 600) % 24
  else if 576 ≤ site then 6 * ((site - 576) / 3) + 2 * ((site - 576) % 3) + 1
  else siteX site % 9

/-- The buffer of a bridge in one direction: a place of its own. -/
def bridgeKey (from_ to_ : Nat) : Nat := 2 ^ 20 + from_ * 1024 + to_
def isBridge (r : Nat) : Bool := decide (2 ^ 20 ≤ r)
def bridgeTo (r : Nat) : Nat := r % 1024
def bridgeFrom (r : Nat) : Nat := (r - 2 ^ 20) / 1024

/-- Stop of the spine ring at the bridge of a slice ring. -/
def spineStop (r : Nat) : Nat := 6 * ((r - 288) / 3) + 2 * ((r - 288) % 3)

/-- The stop at which a bridge enters a ring (R336). -/
def entryStop (from_ to_ : Nat) : Nat :=
  if to_ < 288 then 7
  else if to_ = spineRing then spineStop from_
  else if from_ = spineRing then 0
  else from_ % 72 / 3

/-! ### Paths (R337) -/

/-- Where a packet to a destination leaves a ring: the stop, and the ring it goes to, none at its destination. -/
def exitOf (r : Nat) (d : Dst) : Nat × Option Nat :=
  if 600 ≤ d.site then
    if r < 288 then (7, some (sliceRing (r / 72) (r % 3))) else (siteStop d.site, none)
  else if 576 ≤ d.site then
    if r = spineRing then (siteStop d.site, none)
    else if 288 ≤ r then (0, some spineRing)
    else (7, some (sliceRing (r / 72) (r % 3)))
  else
    let k := segOf (siteX d.site)
    if r = spineRing then (spineStop (sliceRing d.die k), some (sliceRing d.die k))
    else if 288 ≤ r then
      if r = sliceRing d.die k then (siteY d.site, some (siteRing d.die d.site)) else (0, some spineRing)
    else if r = siteRing d.die d.site then (siteStop d.site, none)
    else (7, some (sliceRing (r / 72) (r % 3)))

/-- The output of a stop toward a destination: 0 onward along the ring, 1 the ejection port, 2 + r the bridge to
ring r. A bridge has the one output 0. -/
def outputOf (r stop : Nat) (d : Dst) : Nat :=
  if isBridge r then 0
  else
    let x := exitOf r d
    if x.1 ≠ stop then 0
    else
      match x.2 with
      | none => 1
      | some q => 2 + q

/-- Destinations of a packet by output, each output once. -/
def splitDsts (r stop : Nat) (ds : List Dst) : List (Nat × List Dst) :=
  ((ds.map (outputOf r stop)).eraseDups).map (fun o => (o, ds.filter (fun d => outputOf r stop d == o)))

def nextStop (r stop : Nat) : Nat := (stop + 1) % ringSize r
/-- The dateline moves a packet from VC0 to VC1 (R342). -/
def nextVc (r stop vc : Nat) : Nat := if vc = 0 ∧ stop + 1 = ringSize r then 1 else vc

/-! ### Buffers (R341, R343, R419) -/

/-- Flits of a packet that a place still counts in tick t: those not gone by the end of the tick before. -/
def PktHop.flits (h : PktHop) (len t : Nat) : Nat :=
  if h.ghost ∨ t < h.arrive then 0
  else
    match h.leave with
    | none => len
    | some l => len - (t - l)

/-- Flits a buffer holds or has reserved. -/
def State.heldFlits (s : State) (plane r stop vc t : Nat) : Nat :=
  (s.packets.filter (fun p => p.plane == plane)).foldl (fun a p =>
    (p.hops.filter (fun h => h.ring == r && h.stop == stop && h.vc == vc)).foldl (fun a h => a + h.flits p.len t) a) 0

/-- A buffer of the given size has room for n flits. -/
def State.bufferRoom (s : State) (plane r stop vc t cap n : Nat) : Bool :=
  decide (s.heldFlits plane r stop vc t + n ≤ cap)

/-- A header still waits at a place at the end of the tick before t. -/
def PktHop.waits (h : PktHop) (t : Nat) : Bool :=
  !h.ghost && decide (h.arrive < t) && (match h.leave with
    | none => true
    | some l => decide (t ≤ l))

/-- The place at which a packet waits. -/
def Packet.waitsAt (p : Packet) (t : Nat) : Option PktHop := p.hops.find? (fun h => h.waits t)

/-- A VC2 buffer is empty (R419). -/
def State.escapeEmpty (s : State) (plane r stop t : Nat) : Bool :=
  s.packets.all (fun p => p.plane != plane || p.hops.all (fun h => !(h.ring == r && h.stop == stop && h.vc == 2 && h.waits t)))

def State.emptyEscapes (s : State) (plane r t : Nat) : Nat :=
  ((List.range (ringSize r)).filter (fun k => s.escapeEmpty plane r k t)).length

/-- The output of a place is in use in tick t, from the tick a header takes it to the tick its tail crosses. -/
def State.outputBusy (s : State) (plane r stop out t : Nat) : Bool :=
  s.packets.any (fun p => p.plane == plane && p.hops.any (fun h => h.ring == r && h.stop == stop && h.out == out &&
    (match h.leave with
      | some l => decide (l ≤ t) && decide (t < l + p.len)
      | none => false)))

/-! ### Order at a stop (R345) -/

/-- Two packets whose order is kept: one source and destination, or one source and class when one of them is
multicast. -/
def Packet.sameFlow (p q : Packet) : Bool :=
  p.plane == q.plane && p.srcDie == q.srcDie && p.srcSite == q.srcSite &&
  (if p.mc || q.mc then p.cls == q.cls
   else p.dsts.map (fun d => (d.die, d.site)) == q.dsts.map (fun d => (d.die, d.site)))

/-- An earlier packet of its flow still waits at the place until its tail has left; of one tick the one presented first is
the earlier. -/
def State.flowHeld (s : State) (p : Packet) (h : PktHop) (t : Nat) : Bool :=
  s.packets.any (fun q => q.id != p.id && p.sameFlow q && q.hops.any (fun g =>
    g.ring == h.ring && g.stop == h.stop && !g.ghost &&
    (decide (g.arrive < h.arrive) || (g.arrive == h.arrive && decide (q.id < p.id))) && (match g.leave with
      | none => true
      | some l => decide (t < l + q.len))))

/-! ### Admission (R341, R342, R346, R350, R420) -/

/-- The hop onward reaches the destination of every given destination. -/
def finalHop (r stop : Nat) (ds : List Dst) : Bool :=
  !isBridge r && ds.all (fun d => outputOf r (nextStop r stop) d == 1)

/-- The next dateline buffer, or the next VC2 buffer of a packet on VC2, admits the packet. -/
def State.ringRoomFor (s : State) (p : Packet) (h : PktHop) (t : Nat) : Bool :=
  if h.vc = 2 then s.escapeEmpty p.plane h.ring (nextStop h.ring h.stop) t
  else s.bufferRoom p.plane h.ring (nextStop h.ring h.stop) (nextVc h.ring h.stop h.vc) t 8 p.len

/-- Flits a buffer holds or has reserved at the end of the tick before t. -/
def State.flitsBefore (s : State) (plane r stop vc t : Nat) : Nat :=
  (s.packets.filter (fun p => p.plane == plane)).foldl (fun a p =>
    (p.hops.filter (fun h => h.ring == r && h.stop == stop && h.vc == vc && decide (h.arrive < t))).foldl (fun a h => a + h.flits p.len t) a) 0

/-- A part of a packet goes on along the ring from a hop in tick t, or would, past the next stop: it has not started leaving, or
leaves in this very tick. -/
def Packet.goesOn (p : Packet) (h : PktHop) (t : Nat) : Bool :=
  match h.leave with
  | none => (splitDsts h.ring h.stop p.dsts).any (fun g => g.1 == 0 && !finalHop h.ring h.stop g.2)
  | some l => l == t && h.out == 0 && p.arrives.isNone

/-- At the end of the tick before t a packet on VC0 or VC1 of a stop would go on, is not held by R345, finds its link free and lacks
room: it asks for an entry to VC2 (R343, R420). -/
def State.asksEscape (s : State) (plane r stop t : Nat) : Bool :=
  let next := nextStop r stop
  s.packets.any (fun p => p.plane == plane && p.hops.any (fun h => h.ring == r && h.stop == stop && h.vc != 2 && decide (h.arrive < t) &&
    p.goesOn h t && !s.flowHeld p h t && decide (8 < s.flitsBefore plane r next (nextVc r stop h.vc) t + p.len))) &&
  s.packets.all (fun p => p.plane != plane || p.hops.all (fun h => !(h.ring == r && h.stop == stop && h.out == 0 &&
    (match h.leave with
      | some l => decide (l < t) && decide (t < l + p.len)
      | none => false))))

/-- The count of a ring's empty VC2 buffers left for the entries of a stop: the stops are judged in ascending order before any link
is awarded, and each that asks and finds two empty, the one it enters among them, takes one up (R343, R420). -/
def State.escapesLeft (s : State) (plane r stop t : Nat) : Nat :=
  (List.range stop).foldl (fun n k =>
    n - (if 2 ≤ n ∧ s.escapeEmpty plane r (nextStop r k) t ∧ s.asksEscape plane r k t then 1 else 0)) (s.emptyEscapes plane r t)

/-- A packet on VC0 or VC1 may enter VC2 of the next stop (R343). -/
def State.mayEscape (s : State) (p : Packet) (h : PktHop) (t : Nat) : Bool :=
  h.vc != 2 && s.escapeEmpty p.plane h.ring (nextStop h.ring h.stop) t && decide (2 ≤ s.escapesLeft p.plane h.ring h.stop t)

/-- The packet crosses into its destination stop in a tick, over the link of the stop before. -/
def Packet.crossing (p : Packet) (plane r stop t : Nat) : Bool :=
  match p.hops, p.arrives with
  | h :: _, some a => p.plane == plane && h.ring == r && h.out == 0 && nextStop r h.stop == stop && decide (a < t + p.len) && decide (t ≤ a)
  | _, _ => false

/-- The ejection port of a stop is in use: a packet of the stop leaves by it, or one crosses into the stop (R344). -/
def State.ejectBusy (s : State) (plane r stop t : Nat) : Bool :=
  s.outputBusy plane r stop 1 t || s.packets.any (fun p => p.crossing plane r stop t)

/-- Requests that have reached a cell's remote port from other cells and are not yet performed (R247). -/
def State.remoteQueue (s : State) (die site : Nat) : Nat :=
  (s.regions.map (fun p =>
    let r := p.2
    let here (v : Nat) : Bool := r.die == die && (r.cell v).site == site
    (r.accs.filter (fun a => a.space == 2 && !a.done && here a.target && s.landed p.1 3 a.id)).length
      + (r.pend.filter (fun q => q.space == 2 && here q.target && s.landed p.1 3 q.id)).length
      + (s.fetches.filter (fun f => f.cue == p.1 && f.space == 2 && !f.served && here f.target && s.landed p.1 3 f.id)).length)).sum

/-- An MREQ is taken in at a cell once the remote port's queue of 8 has an entry (R247, R346); what R346 always takes in, and a
slice, of whose queue the spec gives no size, never refuse (log 10). -/
def State.admits (s : State) (p : Packet) : Bool :=
  p.kind != 3 || p.dsts.all (fun d => 576 ≤ d.site || decide (s.remoteQueue d.die d.site < 8))

/-- Where a part of a packet goes by one output: nothing when it may not; else the buffer it enters, or its
destination. -/
inductive Next where
  | no
  | buffer (ring stop vc origin : Nat)
  | dest
  deriving DecidableEq, Repr

def State.nextPlace (s : State) (p : Packet) (h : PktHop) (t : Nat) (g : Nat × List Dst) : Next :=
  if s.outputBusy p.plane h.ring h.stop g.1 t then .no
  else if isBridge h.ring then
    let r := bridgeTo h.ring
    let stop := entryStop (bridgeFrom h.ring) r
    if s.bufferRoom p.plane r stop 0 t 8 p.len then .buffer r stop 0 2 else .no
  else if g.1 = 0 then
    if finalHop h.ring h.stop g.2 then
      (if s.ejectBusy p.plane h.ring (nextStop h.ring h.stop) t || !s.admits p then .no else .dest)
    else if s.ringRoomFor p h t then
      .buffer h.ring (nextStop h.ring h.stop) (nextVc h.ring h.stop h.vc) 0
    else if s.mayEscape p h t then .buffer h.ring (nextStop h.ring h.stop) 2 0
    else .no
  else if g.1 = 1 then (if s.ejectBusy p.plane h.ring h.stop t || !s.admits p then .no else .dest)
  else if s.bufferRoom p.plane (bridgeKey h.ring (g.1 - 2)) 0 0 t 16 p.len then
    .buffer (bridgeKey h.ring (g.1 - 2)) 0 0 0
  else .no

/-- The places of all parts of a packet, when every one of its outputs admits it (R350). -/
def State.places (s : State) (p : Packet) (h : PktHop) (t : Nat) : Option (List ((Nat × List Dst) × Next)) :=
  let gs := (splitDsts h.ring h.stop p.dsts).map (fun g => (g, s.nextPlace p h t g))
  if s.flowHeld p h t ∨ gs.any (fun g => g.2 == .no) then none else some gs

/-! ### Priority (R344, R352, R420) -/

/-- The VC on which a packet leaves. -/
def leaveVc (h : PktHop) (gs : List ((Nat × List Dst) × Next)) : Nat :=
  (gs.filterMap (fun g => match g.2 with
    | .buffer r _ vc _ => if isBridge r then none else some vc
    | _ => none)).headD (if isBridge h.ring then 0 else nextVc h.ring h.stop h.vc)

/-- The keys of R344, the lowest first: older frame, ring before bridge or injection, lower VC, injection before
bridge, earlier header. -/
def rankOf (s : State) (p : Packet) (h : PktHop) (vc : Nat) : Nat :=
  let age := (frameOfTick s.cyc.toNat + 16 - p.frame) % 16
  ((((15 - age) * 2 + (if h.origin = 0 then 0 else 1)) * 4 + vc) * 2 + (if h.origin = 2 then 1 else 0)) * 2 ^ 64 + h.arrive
where
  frameOfTick (t : Nat) : Nat := t / 1024 % 16

/-- A packet that competes at a place, with its rank and the places of its parts. -/
structure Contender where
  rank : Nat
  packet : Packet
  hop : PktHop
  parts : List ((Nat × List Dst) × Next)
  deriving DecidableEq, Repr

/-- A packet competes at the place where it waits, when its next places admit it. -/
def State.contends (s : State) (plane r stop t : Nat) (p : Packet) : Option Contender :=
  match p.hops.find? (fun h => h.waits t && h.leave.isNone) with
  | some h =>
    if p.plane = plane ∧ h.ring = r ∧ h.stop = stop then
      (s.places p h t).map (fun gs => ⟨rankOf s p h (leaveVc h gs), p, h, gs⟩)
    else none
  | none => none

/-- The candidates of a place, best first. -/
def State.candidates (s : State) (plane r stop t : Nat) : List Contender :=
  sortBy (fun q => q.rank) (s.packets.filterMap (s.contends plane r stop t))

/-- The candidate takes an output. -/
def Contender.takes (q : Contender) (out : Nat) : Bool := q.parts.any (fun g => g.1.1 == out)

/-- The rank at an ejection port: a packet on its last hop comes along the ring, after those that stand at the stop. -/
def State.ejectRank (s : State) (q : Contender) (t : Nat) : Nat :=
  if q.takes 1 then q.rank else rankOf s q.packet { q.hop with origin := 0, arrive := t } (leaveVc q.hop q.parts)

/-- Those that compete for a stop's ejection port and still wait: the packets at the stop that leave by it, and the winner of
the stop before, on its last hop (R344). -/
def State.ejectRivals (s : State) (plane r stop t : Nat) : List Contender :=
  let before := (stop + ringSize r - 1) % ringSize r
  (s.candidates plane r stop t).filter (fun q => q.takes 1) ++
  (((s.candidates plane r before t).filter (fun q => q.takes 0)).take 1).filter (fun q =>
    q.parts.any (fun g => g.1.1 == 0 && g.2 == .dest))

/-- A better candidate for the ejection port that this one needs. -/
def State.yields (s : State) (q : Contender) (t : Nat) : Bool :=
  q.parts.any (fun g => g.2 == .dest &&
    (s.ejectRivals q.packet.plane q.hop.ring (if g.1.1 = 0 then nextStop q.hop.ring q.hop.stop else q.hop.stop) t).any (fun o =>
      o.packet.id != q.packet.id && decide (s.ejectRank o t < s.ejectRank q t)))

/-! ### The award -/

/-- Places a packet's flits may still occupy. -/
def keepHops (len t : Nat) (hs : List PktHop) : List PktHop :=
  hs.filter (fun h => match h.leave with
    | none => true
    | some l => decide (t ≤ l + len))

/-- A part of a packet goes on: its header crosses in tick t. -/
def Packet.cross (p : Packet) (h : PktHop) (t : Nat) (g : (Nat × List Dst) × Next) (ghost : Bool) : Packet :=
  let left := { h with leave := some t, out := g.1.1, ghost := ghost }
  let rest := if ghost then [] else keepHops p.len t (p.hops.filter (fun x => x != h))
  match g.2 with
  | .buffer r stop vc origin =>
    { p with dsts := g.1.2, hops := { ring := r, stop := stop, vc := vc, origin := origin, arrive := t } :: left :: rest }
  | _ => { p with dsts := g.1.2, hops := left :: rest, arrives := some (t + p.len - 1) }

/-- A packet that arrives in this tick is taken in by a step of this tick. -/
def arrivalSteps (t : Nat) (ps : List Packet) : List (Instr × Actor) :=
  (ps.filter (fun p => p.arrives == some t && !p.taken)).map (fun p => (.packetArrive, .packet p.id))

/-- Award a place's outputs to one candidate: its parts go on, those after the first as packets of their own. -/
def State.award (s : State) (p : Packet) (h : PktHop) (t : Nat) (gs : List ((Nat × List Dst) × Next)) : State :=
  match gs with
  | [] => s
  | g :: more =>
    let first := p.cross h t g false
    let others := more.zipIdx.map (fun q => { (p.cross h t q.1 true) with id := s.nextPkt + q.2 })
    { s with packets := (s.packets.map (fun q => if q.id = p.id then first else q)) ++ others
             nextPkt := s.nextPkt + others.length
             due := s.due ++ arrivalSteps t (first :: others) }

/-- Award in order of priority, each against the outputs the earlier ones left. -/
def State.awardAll (s : State) (plane r stop t : Nat) : List Contender → State
  | [] => s
  | q :: rest =>
    match s.contends plane r stop t q.packet with
    | none => s.awardAll plane r stop t rest
    | some q => if s.yields q t then s.awardAll plane r stop t rest else (s.award q.packet q.hop t q.parts).awardAll plane r stop t rest

/-- PACKET_HOP (R420): the outputs of a stop, or of a bridge, go to the candidates that win them. -/
def execPacketHop (s : State) : Out :=
  match s.actor with
  | .stop plane r stop =>
    let t := s.cyc.toNat
    .next (s.awardAll plane r stop t (s.candidates plane r stop t))
  | _ => .next s

/-! ### Injection (R353, R363, R419) -/

def State.actPacket (s : State) : Nat :=
  match s.actor with
  | .packet id => id
  | _ => 0

/-- An exchange or its lease holds the packet at its port (R363, R365). An MREQ that a cell of the pair presented before the
exchange still goes, to any other cell, since the transfer waits for its access (R364). -/
def State.injectHeld (s : State) (p : Packet) : Bool :=
  p.plane == 0 && ((if p.kind = 3 then s.exchangeAt p.srcDie p.srcSite (fun x => x.stage != 0 && !x.leaseOver)
    else s.leased p.srcDie p.srcSite) || p.dsts.any (fun d => s.leased d.die d.site))

/-- The first packet presented at its port on its plane and not yet injected, but for those an exchange holds. -/
def State.portHead (s : State) (p : Packet) : Bool :=
  ((s.packets.find? (fun q => !q.injected && q.plane == p.plane && q.srcDie == p.srcDie && q.srcSite == p.srcSite &&
    !s.injectHeld q)).map (fun q => q.id)) == some p.id

/-- A port's quota lets a packet of plane Q go: it covers the packet, or a frame boundary has let a longer one go (R353). -/
def State.quotaCovers (s : State) (p : Packet) : Bool :=
  let fq := (s.die p.srcDie).fq
  p.plane != 0 || (if p.len ≤ fq then decide ((s.pcell p.srcDie p.srcSite).used + p.len ≤ fq) else p.long)

/-- The packet's flits are deducted; a longer one has taken the whole frame's quota at the boundary. -/
def State.payQuota (s : State) (p : Packet) : State :=
  let pc := s.pcell p.srcDie p.srcSite
  if p.plane ≠ 0 ∨ p.long then s else s.setPcell p.srcDie p.srcSite { pc with used := pc.used + p.len }

/-- A packet of the same port and plane has entered in this tick: the port sends one flit per tick, so one header (R419). -/
def State.portUsed (s : State) (p : Packet) (t : Nat) : Bool :=
  s.packets.any (fun q => q.plane == p.plane && q.srcDie == p.srcDie && q.srcSite == p.srcSite &&
    q.hops.any (fun h => h.origin == 1 && h.arrive == t))

/-- PACKET_INJECT: the packet enters VC0 of its stop; plane Q draws flit quota. -/
def execPacketInject (s : State) : Out :=
  match s.packets.find? (fun p => p.id == s.actPacket) with
  | none => .next s
  | some p =>
    let t := s.cyc.toNat
    let r := siteRing p.srcDie p.srcSite
    let stop := siteStop p.srcSite
    if p.injected || !s.portHead p || s.portUsed p t || s.injectHeld p || !s.bufferRoom p.plane r stop 0 t 8 p.len || !s.quotaCovers p then .next s
    else
      let s := s.payQuota p
      let hop : PktHop := { ring := r, stop := stop, vc := 0, origin := 1, arrive := t }
      .next { s with packets := s.packets.map (fun q =>
        if q.id = p.id then { q with injected := true, frame := t / 1024 % 16, hops := [hop] } else q) }

/-! ### Arrival (R346, R348, R349) -/

/-- A word joins the queue of a receiver. -/
def Region.queueWord (r : Region) (cl i : Nat) (w : Nat × Nat × Token) : Region :=
  match ((r.cls cl).recvs[i]? : Option Recv) with
  | none => r
  | some (.slot v k) =>
    let sl := r.slot v k
    r.setSlot v k { sl with queue := sl.queue ++ [w] }
  | some (.node _) => r.setCls cl ((r.cls cl).setQueue i ((r.cls cl).queue i ++ [w]))

/-- A marker is held until the receiver holds it from every sending cell; one of each then joins the queue as one (R349). -/
def Region.queueMarker (r : Region) (cl i src kind : Nat) : Region :=
  let e := r.cls cl
  let marks := e.marks ++ [(i, src, kind)]
  if e.senders.all (fun v => marks.contains (i, v, kind)) then
    (r.setCls cl { e with marks := e.senders.foldl (fun ms v => ms.erase (i, v, kind)) marks }).queueWord cl i (src, 0, markerToken kind)
  else r.setCls cl { e with marks := marks }

/-- TAG of a packet with its VC and FRAME above it, as its header has them when it arrives (R338). -/
def Packet.fullTag (p : Packet) : Nat := p.tag + 65536 * ((p.hops.head?.map (fun h => h.vc)).getD 0 + 4 * p.frame)

/-- A packet reaches one of its destinations. -/
def Region.takePacket (r : Region) (p : Packet) (d : Dst) : Region :=
  match p.kind with
  | 0 => r.queueWord p.cls d.recv (p.srcCell, p.fullTag, .data p.lanes)
  | 3 => r
  | 4 => r.answered ((p.mem.map (fun m => m.acc)).getD 0)
  | 5 => r.setCls p.cls ((r.cls p.cls).addCredit d.recv p.tag (fun n => n + 1))
  | k => r.queueMarker p.cls d.recv p.srcCell k

/-- PACKET_ARRIVE: the tail has crossed into the destination stop, or been forwarded from there (R365), and the packet
is taken in. -/
def execPacketArrive (s : State) : Out :=
  match s.packets.find? (fun p => p.id == s.actPacket) with
  | none => .next s
  | some p =>
    match p.arrives with
    | none => .next s
    | some a =>
      if s.cyc.toNat < a || p.taken then .next s
      else
        let s := { s with packets := s.packets.map (fun q => if q.id = p.id then { q with taken := true } else q) }
        if Tab.has s.regions p.cue then .next (s.setRegion p.cue (p.dsts.foldl (fun r d => r.takePacket p d) (s.region p.cue)))
        else .next s

/-! ### The network's steps of a tick -/

/-- Places at which a header waits, in ascending plane, ring and stop. -/
def State.waitingPlaces (s : State) (t : Nat) : List (Nat × Nat × Nat) :=
  (sortBy (fun q => (q.1 * 2 ^ 32 + q.2.1) * 32 + q.2.2)
    (s.packets.filterMap (fun p => (p.waitsAt t).map (fun h => (p.plane, h.ring, h.stop)))).eraseDups)

/-- The packets next at their ports, in the order they were presented. -/
def State.portHeads (s : State) : List Nat := (s.packets.filter (fun p => !p.injected && s.portHead p)).map (fun p => p.id)

/-- Hops of each waiting place, then injections, then the arrivals of this tick. -/
def State.netSteps (s : State) (t : Nat) : List (Instr × Actor) :=
  (s.waitingPlaces t).map (fun q => (.packetHop, .stop q.1 q.2.1 q.2.2)) ++
  s.portHeads.map (fun id => (.packetInject, .packet id)) ++ arrivalSteps t s.packets

end Sys2Proof.Machine
end

