-- ==== Sys2Proof/Machine/Crossing.lean ====
section
/-! DEFINITION. Crossing (R356 to R367): the decisions of a swap instant, the transfer, its commit, the routing again of
the moved channels, and the end of the forwarding lease. -/

namespace Sys2Proof.Machine

/-! ### Who takes part (R356) -/

/-- The virtual cell of a region that stands at a site, by a list of sites in virtual-cell order. -/
def occupant (pos : List Nat) (site : Nat) : Option Nat := (List.range pos.length).find? (fun v => pos[v]? == some site)

def Region.sites (r : Region) : List Nat := (List.range r.ncells).map (fun v => (r.cell v).site)

/-- The cell holds a cell of a node with REP > 16 (R318). -/
def Region.holdsRun (r : Region) (v : Nat) : Bool :=
  (List.range r.entries.length).any (fun e =>
    !isSbox (r.opcode e) && decide (16 < nodeRep (r.fields e)) && (r.entryCells e).contains v)

/-- A row of a Fly command's range lies in a cell's scratchpad, through window 0xF1. -/
def rangeReaches (c : Cmd) (p : Word) (stride : Int) (v : Nat) : Bool :=
  winOf p.toNat == 0xF1 && rowsHit (offOf p.toNat) stride (flyLen c) (flyRows c) (v * 2 ^ 40) ((v + 1) * 2 ^ 40)

/-- An engine command of the region was issued by the cell, or reaches its scratchpad. -/
def State.engineTouches (s : State) (c v : Nat) : Bool :=
  s.flys.any (fun p => p.2.q.any (fun f => f.cue == c && (f.vcell == v || rangeReaches f.c f.c.w1 (flySs f.c) v || rangeReaches f.c f.c.w2 (flyDs f.c) v))) ||
  s.wings.any (fun p => p.2.qm.any (fun w => w.cue == c && w.vcell == v) || p.2.qs.any (fun w => w.cue == c && w.vcell == v) ||
    p.2.running.any (fun q => q.2.cue == c && q.2.vcell == v))

/-- The cell rests at the present instant: RLEFT is left, or this instant of the die, counted for another region, is the
last that the cell skips (R362). -/
def State.resting (s : State) (die site : Nat) : Bool :=
  let p := s.pcell die site
  let d := s.die die
  p.rleft != 0 || (d.instantMark == s.cyc.toNat / 1024 && (p.partner.map (fun q => q.2 == d.instants)).getD false)

/-- A site is one of the pair of an exchange of the region that has not ended. -/
def Region.inExchange (r : Region) (site : Nat) : Bool := r.exchanges.any (fun x => x.a == site || x.b == site)

/-- A site may take part: it holds an eligible cell of the region, or is an eligible free cell. -/
def State.eligible (s : State) (c : Nat) (pos : List Nat) (site : Nat) : Bool :=
  let r := s.region c
  !s.resting r.die site && !r.inExchange site &&
  (match occupant pos site with
    | some v => !r.holdsRun v && !s.engineTouches c v && (r.cell v).tloads.isEmpty
    | none => s.available r.die c (fun _ => true) site && (s.die r.die).placing.isNone)

/-! ### Gain and cost (R359, R361) -/

def Region.distAt (r : Region) (pos : List Nat) (ch : Chan) : Nat :=
  siteDist (pos.getD (r.endCell ch.prod) 0) (pos.getD (r.endCell ch.cons) 0)

/-- Sites after the occupants of a and b change places. -/
def swapSites (pos : List Nat) (a b : Nat) : List Nat := pos.map (fun x => if x = a then b else if x = b then a else x)

/-- The channel has exactly one end at the pair. -/
def Region.oneEnd (r : Region) (pos : List Nat) (a b : Nat) (ch : Chan) : Bool :=
  let at_ (v : Nat) : Bool := pos.getD v 0 == a || pos.getD v 0 == b
  at_ (r.endCell ch.prod) != at_ (r.endCell ch.cons)

def Region.gain (r : Region) (pos : List Nat) (a b : Nat) : Int :=
  (r.chans.filter (r.oneEnd pos a b)).foldl (fun g ch =>
    g + (ch.traffic : Int) * ((r.distAt pos ch : Int) - (r.distAt (swapSites pos a b) ch : Int))) 0

/-- MB of a cell, with the stack sizes its slot records declare (R361). -/
def State.moveBytes (s : State) (c : Nat) (v : Option Nat) : Nat :=
  match v with
  | none => 0
  | some v =>
    let r := s.region c
    let slots := r.cellSlots v
    65536 * (r.spadg + r.accg) +
      (if slots.isEmpty then 0 else 32768 + slots.foldl (fun a p => a + p.1.stack) 0) +
      8192 * (s.tenant r.tenant).tableSlots + 8192

def State.swapCost (s : State) (c : Nat) (va vb : Option Nat) : Nat :=
  (s.region c).xthr + (s.region c).xkap * (s.moveBytes c va + s.moveBytes c vb) / 1024

/-- An exchange puts work only on sound cells (R332). -/
def State.soundFor (s : State) (c a b : Nat) (va vb : Option Nat) : Bool :=
  let m := (s.die (s.region c).die).sound
  (va.isNone || m.getLsbD b) && (vb.isNone || m.getLsbD a)

/-! ### The four phases (R360) -/

/-- The partner of a site in a phase, when the site is the A of a pair. -/
def phasePartner (phase site : Nat) : Option Nat :=
  let x := siteX site
  let y := siteY site
  if phase < 2 then (if x % 2 = phase ∧ cellColumn (x + 1) ∧ x + 1 ≤ 25 then some (serp (x + 1) y) else none)
  else if y % 2 = phase - 2 ∧ y + 1 ≤ 23 then some (serp x (y + 1)) else none

/-- The pair's exchange is made in a phase. -/
def State.swaps (s : State) (c : Nat) (pos : List Nat) (a b : Nat) : Bool :=
  let va := occupant pos a
  let vb := occupant pos b
  (va.isSome || vb.isSome) && s.eligible c pos a && s.eligible c pos b && s.soundFor c a b va vb &&
  decide ((s.swapCost c va vb : Int) < (s.region c).gain pos a b)

/-- Pairs that swap in a phase, on the sites that earlier phases left; `out` holds sites already swapped. -/
def State.phasePairs (s : State) (c phase : Nat) (pos out : List Nat) : List (Nat × Nat) :=
  (List.range 576).filterMap (fun a =>
    match phasePartner phase a with
    | some b =>
      if !out.contains a && !out.contains b && ((occupant pos a).isSome || (occupant pos b).isSome) && s.swaps c pos a b then
        some (a, b)
      else none
    | none => none)

/-- The decisions of an instant: each pair with the sites before its phase. -/
def State.instantPairs (s : State) (c : Nat) : List Nat → List Nat → List Nat → List ((Nat × Nat) × List Nat)
  | [], _, _ => []
  | phase :: rest, pos, out =>
    let ps := s.phasePairs c phase pos out
    let pos' := ps.foldl (fun q p => swapSites q p.1 p.2) pos
    ps.map (fun p => (p, pos)) ++ s.instantPairs c rest pos' (out ++ ps.flatMap (fun p => [p.1, p.2]))

/-! ### Rest (R362) -/

def PCell.rest (p : PCell) : Nat × Nat × Option (Nat × Nat) := (p.rleft, p.rlen, p.partner)

/-- The length of the rest after a swap with a partner at instant n. -/
def PCell.restLen (p : PCell) (other n : Nat) : Nat :=
  match p.partner with
  | some (q, ended) => if q = other ∧ n ≤ ended + 4 then min 64 (2 * p.rlen) else 4
  | none => 4

/-- A cell begins its rest, by its own last rest and partner. -/
def PCell.beginRest (p : PCell) (other n : Nat) : PCell :=
  { p with rleft := p.restLen other n, rlen := p.restLen other n, partner := some (other, n) }

def State.beginRest (s : State) (die a b n : Nat) : State :=
  let s := s.setPcell die a ((s.pcell die a).beginRest b n)
  s.setPcell die b ((s.pcell die b).beginRest a n)

/-- A later instant of the die: RLEFT falls, and a rest that ends keeps its instant. -/
def PCell.passInstant (p : PCell) (n : Nat) : PCell :=
  if p.rleft = 0 then p
  else if p.rleft = 1 then { p with rleft := 0, partner := p.partner.map (fun q => (q.1, n)) }
  else { p with rleft := p.rleft - 1 }

/-- Instant n of the die passes for every cell but those that swap at it. -/
def State.passInstant (s : State) (die n : Nat) (out : List Nat) : State :=
  (List.range 576).foldl (fun s site =>
    let p := s.pcell die site
    if out.contains site ∨ p.rleft = 0 then s else s.setPcell die site (p.passInstant n)) s

/-! ### SWAP_INSTANT (R357, R360, R363) -/

/-- A swap instant of the region falls on this tick. -/
def Region.atInstant (r : Region) (cyc : Nat) : Bool :=
  let f := cyc / 1024
  r.resident && r.started && r.freeze.isNone && cyc % 1024 == 0 && decide (r.winBase < f) && decide (0 < r.xwin) &&
    (f - r.winBase) % r.xwin == 0 && r.instant != f

/-- Begin the exchange of a pair. -/
def State.beginExchange (s : State) (c n : Nat) (p : (Nat × Nat) × List Nat) : State :=
  let r := s.region c
  let a := p.1.1
  let b := p.1.2
  let x : Exchange :=
    { a := a, b := b, va := occupant p.2 a, vb := occupant p.2 b,
      restA := (s.pcell r.die a).rest, restB := (s.pcell r.die b).rest }
  (s.setRegion c { r with exchanges := r.exchanges ++ [x] }).beginRest r.die a b n

/-- The exchanges a region begins now: none while it is not RUNNING or a curtain is in progress. -/
def State.decisions (s : State) (c : Nat) : List ((Nat × Nat) × List Nat) :=
  let r := s.region c
  if (s.cue c).st ≠ .running ∨ r.curtain then [] else s.instantPairs c [0, 1, 2, 3] r.sites []

/-- SWAP_INSTANT: the instants of a die's regions that fall on one frame boundary are one instant of the die, which
passes once for every cell (R362, log 33). -/
def execSwapInstant (s : State) : Out :=
  let c := s.actCue
  let r := s.region c
  let d := r.die
  if r.atInstant s.cyc.toNat = false ∨ (s.die d).power = .dark then .next s
  else
    let f := s.cyc.toNat / 1024
    let first : Bool := (s.die d).instantMark != f
    let n := (s.die d).instants + (if first then 1 else 0)
    let s := s.setDie d { s.die d with instants := n, instantMark := f }
    let ps := s.decisions c
    let s := s.setRegion c { r with
      instant := f
      chans := r.chans.map (fun (ch : Chan) => { ch with traffic := 0 }) }
    let s := if first then s.passInstant d n (ps.flatMap (fun p => [p.1.1, p.1.2])) else s
    .next (ps.foldl (fun s p => s.beginExchange c n p) s)

/-! ### The transfer (R364) -/

def Exchange.has (x : Exchange) (v : Nat) : Bool := x.va == some v || x.vb == some v

/-- An MREQ of access `id` to the pair is held at its port, so that the access has not been sent (R363). -/
def State.heldReq (s : State) (c : Nat) (x : Exchange) (id : Nat) : Bool :=
  s.packets.any (fun p => p.ofAcc c 3 id && !p.injected && p.dsts.any (fun d => d.site == x.a || d.site == x.b))

/-- Every access of the pair, or sent to the pair's scratchpads, is performed and answered (R364); a CHAIN's pass token whose
banks have served it has only its stages to do. -/
def State.pairSettled (s : State) (c : Nat) (x : Exchange) : Bool :=
  let r := s.region c
  let mine (cell space target id : Nat) : Bool := (x.has cell || (space != 0 && x.has target)) && !s.heldReq c x id
  r.accs.all (fun a => (a.done && a.answers == 0) || (a.kind == .poll && a.withheld.isNone && a.banks.isEmpty) || !mine a.cell a.space a.target a.id) &&
  r.pend.all (fun p => !mine p.vcell p.space p.target p.id) &&
  s.fetches.all (fun f => f.cue != c || (f.served && s.landed c 4 f.id) || !mine f.cell f.space f.target f.id) &&
  s.packets.all (fun p => p.cue != c || p.kind != 4 || p.taken || !(p.srcSite == x.a || p.srcSite == x.b))

/-- No node of the pair still has a firing in progress to finish (R363). -/
def Region.pairStopped (r : Region) (x : Exchange) : Bool :=
  (List.range r.entries.length).all (fun e => !(x.has (r.cellOf.getD e (0, 0)).1 && r.giving e))

/-- Ticks of the transfer. -/
def State.transferTicks (s : State) (c : Nat) (x : Exchange) : Nat :=
  ceilDiv (max (s.moveBytes c x.va) (s.moveBytes c x.vb)) 256

/-- CROSSING_TRANSFER_START: each exchange of the region whose pair has settled. -/
def execCrossingTransferStart (s : State) : Out :=
  let c := s.actCue
  let r := s.region c
  if r.freeze.isSome then .next s
  else
    .next (s.setRegion c { r with exchanges := r.exchanges.map (fun (x : Exchange) =>
      if x.stage = 0 ∧ s.pairSettled c x ∧ r.pairStopped x then { x with stage := 1, finish := s.cyc.toNat + s.transferTicks c x } else x) })

/-! ### The commit (R365) -/

/-- Where a memory key of cell a's pool, table slots or store stands in cell b. -/
def cellShift (die lo hi a b key : Nat) : Option Nat :=
  if poolKey die a 0 ≤ key ∧ key < poolKey die a (2 ^ 21) then some (key + poolKey die b 0 - poolKey die a 0)
  else if tableKey die a lo ≤ key ∧ key < tableKey die a hi then some (key + tableKey die b 0 - tableKey die a 0)
  else if storeKey die a 0 ≤ key ∧ key < storeKey die a (2 ^ 16) then some (key + storeKey die b 0 - storeKey die a 0)
  else none

/-- The bytes of a pair go over the link: pools, the tenant's table slots, and the code their slots issue. A free cell
sends nothing. -/
def State.moveBytesOf (s : State) (die : Nat) (t : Tenant) (x : Exchange) : State :=
  let shift := cellShift die (t.tsbase * 8192) ((t.tslim + 1) * 8192)
  let to_ (key : Nat) : Option Nat :=
    (if x.va.isSome then shift x.a x.b key else none).orElse (fun _ => if x.vb.isSome then shift x.b x.a key else none)
  let covered (key : Nat) : Bool :=
    (x.va.isSome && (shift x.b x.a key).isSome) || (x.vb.isSome && (shift x.a x.b key).isSome)
  { s with mem := s.mem.foldl (fun m p => match to_ p.1 with
      | some k => memSet m k p.2
      | none => m) (s.mem.filter (fun p => !covered p.1)) }

/-- The location table takes the new sites. -/
def Region.moveCells (r : Region) (x : Exchange) : Region :=
  let put (r : Region) (v : Option Nat) (site : Nat) : Region :=
    match v with
    | some v => r.setCell v { r.cell v with site := site }
    | none => r
  put (put r x.va x.b) x.vb x.a

/-- The channel has an end at the pair. -/
def Region.endAt (r : Region) (x : Exchange) (ch : Chan) : Bool := x.has (r.endCell ch.prod) || x.has (r.endCell ch.cons)

/-- Commit an exchange: the cells move with the accesses held for them (R363), and the tracks of their channels are released
(R366). -/
def State.commitExchange (s : State) (c : Nat) (x : Exchange) : State :=
  let r := s.region c
  let s := s.moveBytesOf r.die (s.tenant r.tenant) x
  let old := r.placeOf
  let r := r.moveCells x
  let r := r.followCells old r.placeOf
  (s.followFetches c old r.placeOf).setRegion c { r with
    chans := r.chans.map (fun (ch : Chan) => if r.endAt x ch then { ch with route := [] } else ch)
    exchanges := r.exchanges.map (fun (y : Exchange) => if y.a = x.a ∧ y.b = x.b ∧ y.stage = 1 then
      { y with stage := 2, finish := s.cyc.toNat } else y) }

/-- CROSSING_COMMIT: each exchange of the region whose transfer has ended. -/
def execCrossingCommit (s : State) : Out :=
  let c := s.actCue
  .next (((s.region c).exchanges.filter (fun x => x.stage == 1 && decide (x.finish ≤ s.cyc.toNat))).foldl
    (fun s x => s.commitExchange c x) s)

/-! ### Routing again (R366) -/

/-- Route, in ascending number, the channels of a pair that need tracks and have none; the first that finds no path
ends the attempt. -/
def Region.rerouteFrom (others : List Hop) (x : Exchange) : List Nat → Region → Region × Bool
  | [], r => (r, true)
  | k :: rest, r =>
    match r.chans[k]? with
    | none => rerouteFrom others x rest r
    | some ch =>
      if !r.endAt x ch || r.tracksOf ch == 0 || !ch.route.isEmpty then rerouteFrom others x rest r
      else
        match r.routeFrom (others ++ r.chans.flatMap (fun q => q.route)) ch with
        | none => (r, false)
        | some p =>
          rerouteFrom others x rest
            { r with chans := r.chans.zipIdx.map (fun q => if q.2 = k then { q.1 with route := p } else q.1) }

def State.reroute (s : State) (c : Nat) (x : Exchange) : State :=
  let r := s.region c
  let others := (s.othersOn r.die c).flatMap (fun q => q.chans.flatMap (fun ch => ch.route))
  let p := Region.rerouteFrom others x (List.range r.chans.length) r
  let r := p.1
  s.setRegion c { r with exchanges := (r.exchanges.map (fun (y : Exchange) =>
    if y.a = x.a ∧ y.b = x.b then { y with routed := p.2, tried := !p.2 } else y)).filter (fun y => !(y.routed && y.leaseOver)) }

/-- CROSSING_REROUTE: once the die's Blocking Engine places no script; a failed attempt waits for a frame boundary. -/
def execCrossingReroute (s : State) : Out :=
  let c := s.actCue
  let r := s.region c
  if (s.die r.die).placing.isSome then .next s
  else
    .next ((r.exchanges.filter (fun x => x.stage == 2 && !x.routed && !x.tried)).foldl (fun s x => s.reroute c x) s)

/-! ### The lease (R365) -/

/-- A credit of a receiver in the pair that its sender's port still lacks, other than for packets not yet injected: a
packet sent to the pair that is not answered. -/
def State.unanswered (s : State) (c : Nat) (x : Exchange) : Bool :=
  let r := s.region c
  r.classes.any (fun p => (List.range p.2.recvs.length).any (fun i =>
    match (p.2.recvs[i]? : Option Recv) with
    | none => false
    | some q => x.has (r.recvCell q) && p.2.senders.any (fun v =>
        let waiting := (s.packets.filter (fun k => k.cue == c && !k.injected && decide (k.kind < 3) && k.cls == p.1 && k.srcCell == v &&
          k.dsts.any (fun d => d.recv == i))).length
        p.2.credit v i + waiting < 2)))

/-- Packets not yet injected take the new sites. -/
def State.renewPackets (s : State) (c : Nat) : State :=
  let r := s.region c
  let dst (p : Packet) (d : Dst) : Dst :=
    match p.kind with
    | 3 => { d with site := if 600 ≤ d.site then sliceSite (r.cell p.srcCell).site else if 576 ≤ d.site then d.site else (r.cell d.recv).site }
    | 4 | 5 => { d with site := r.portSite d.recv }
    | _ => { d with site := (r.cell (r.recvCell ((r.cls p.cls).recvs.getD d.recv (.node 0)))).site }
  { s with packets := s.packets.map (fun (p : Packet) =>
      if p.cue = c ∧ p.injected = false then
        { p with srcSite := if 576 ≤ p.srcSite then p.srcSite else (r.cell p.srcCell).site, dsts := p.dsts.map (dst p) }
      else p) }

/-- LEASE_END: at a frame boundary at least two frames after the commit, once every packet sent to the pair is
answered. -/
def State.endLease (s : State) (c : Nat) (x : Exchange) : State :=
  let r := s.region c
  (s.setRegion c { r with exchanges := (r.exchanges.map (fun (y : Exchange) =>
    if y.a = x.a ∧ y.b = x.b then { y with leaseOver := true } else y)).filter (fun y => !(y.routed && y.leaseOver)) }).renewPackets c

def execLeaseEnd (s : State) : Out :=
  let c := s.actCue
  let now := s.cyc.toNat
  if now % 1024 ≠ 0 then .next s
  else
    .next (((s.region c).exchanges.filter (fun x => x.stage == 2 && !x.leaseOver && decide (x.finish + 2048 ≤ now) && !s.unanswered c x)).foldl
      (fun s x => s.endLease c x) s)

end Sys2Proof.Machine
end

