-- ==== Sys2Proof/Machine/Digest.lean ====
section
/-! DEFINITION. SHA-384, which R405 and R406 name without restating it (log 8): its constants from the roots they are cut
from, its rounds as two histories of four words. -/

namespace Sys2Proof.Machine

/-! ### Constants: 64 bits of the fractional parts of roots of primes -/

/-- The integer k-th root of m, bit by bit from bit n - 1. -/
def intRoot (k m : Nat) : Nat → Nat → Nat
  | 0, acc => acc
  | n + 1, acc => intRoot k m n (if (acc + 2 ^ n) ^ k ≤ m then acc + 2 ^ n else acc)

/-- The first 64 bits after the point of the k-th root of p. -/
def rootBits (k p : Nat) : Word := BitVec.ofNat 64 (intRoot k (p * 2 ^ (64 * k)) 70 0)

def isPrime (p : Nat) : Bool := decide (2 ≤ p) && (List.range p).all (fun d => decide (d < 2) || p % d != 0)

/-- The first eighty primes. -/
def digestPrimes : List Nat := (List.range 410).filter isPrime

/-- A word for each round: cube roots of the eighty primes. -/
def roundWords : List Word := digestPrimes.map (rootBits 3)

/-! ### Rounds -/

/-- What a block is folded into: the last four words of each history, the latest first. -/
structure DigestVars where
  front : List Word
  back : List Word
  deriving DecidableEq, Repr

/-- Square roots of the ninth to the sixteenth prime. -/
def digestStart : DigestVars :=
  let ws := ((digestPrimes.drop 8).take 8).map (rootBits 2)
  { front := ws.take 4, back := ws.drop 4 }

/-- A word mixed with itself at three rotations; in the schedule the last is a shift. -/
def mix3 (x : Word) (i j k : Nat) : Word := x.rotateRight i ^^^ x.rotateRight j ^^^ x.rotateRight k
def mixShift (x : Word) (i j k : Nat) : Word := x.rotateRight i ^^^ x.rotateRight j ^^^ x >>> k

/-- Bits of y where x has ones, else of z; and the majority of three. -/
def pick3 (x y z : Word) : Word := z ^^^ (x &&& (y ^^^ z))
def vote3 (x y z : Word) : Word := (x &&& (y ||| z)) ||| (y &&& z)

/-- Word j of a history, 0 the latest. -/
def wordBack (ws : List Word) (j : Nat) : Word := ws.getD j 0

/-- One round: both histories grow by one word and forget their oldest. -/
def DigestVars.round (v : DigestVars) (input : Word) : DigestVars :=
  let f := wordBack v.front
  let b := wordBack v.back
  let added := input + b 3 + mix3 (b 0) 14 18 41 + pick3 (b 0) (b 1) (b 2)
  { front := (added + mix3 (f 0) 28 34 39 + vote3 (f 0) (f 1) (f 2)) :: v.front.take 3
    back := (f 3 + added) :: v.back.take 3 }

/-- The words of a block as a history, the latest first, made n longer. -/
def expand : Nat → List Word → List Word
  | 0, ws => ws
  | n + 1, ws =>
    expand n ((wordBack ws 15 + mixShift (wordBack ws 14) 1 8 7 + wordBack ws 6 + mixShift (wordBack ws 1) 19 61 6) :: ws)

/-! ### Blocks -/

/-- Big-endian value of bytes, and big-endian bytes of a value. -/
def beNat (bs : List Byte) : Nat := bs.foldl (fun a b => a * 256 + b.toNat) 0
def beBytes (n v : Nat) : List Byte := (bytesOf n v).reverse

/-- Zeros that fill a message of n bytes, its one-bit and its length up to blocks of 128 bytes. -/
def fillZeros (n : Nat) : Nat := (128 - (n + 17) % 128) % 128

/-- The message with its one-bit, its zeros and its length in bits. -/
def digestInput (bs : List Byte) : List Byte :=
  bs ++ 0x80 :: (List.replicate (fillZeros bs.length) 0 ++ beBytes 16 (bs.length * 8))

/-- Fold one block of 128 bytes. -/
def DigestVars.block (v : DigestVars) (bs : List Byte) : DigestVars :=
  let ws := (expand 64 ((List.range 16).foldl (fun acc j => BitVec.ofNat 64 (beNat ((bs.drop (8 * j)).take 8)) :: acc) [])).reverse
  let u := (List.zipWith (fun k w => k + w) roundWords ws).foldl DigestVars.round v
  { front := List.zipWith (fun x y => x + y) v.front u.front, back := List.zipWith (fun x y => x + y) v.back u.back }

/-- Fold n blocks. -/
def DigestVars.blocks : Nat → List Byte → DigestVars → DigestVars
  | 0, _, v => v
  | n + 1, bs, v => DigestVars.blocks n (bs.drop 128) (v.block (bs.take 128))

/-- The 48-byte digest: the first six words. -/
def sha384 (bs : List Byte) : List Byte :=
  let input := digestInput bs
  let v := DigestVars.blocks (input.length / 128) input digestStart
  (v.front ++ v.back.take 2).flatMap (fun w => beBytes 8 w.toNat)

end Sys2Proof.Machine
end

