-- ==== Sys2Proof/Machine/HostCmds.lean ====
section
/-! DEFINITION. The host's other commands (R398): UNLOAD, TLBINV, DEBUG, INCQ and ATTEST of a tenant's window, and
window 0's TENANT, SHARE, LEAVE, QUOTA, SOUND, EVICT, PODMAP, CHECKPOINT, FWLOAD and POWER; and a write that carries no
command (R395, R397). -/

namespace Sys2Proof.Machine

/-! ### UNLOAD (R385) -/

def unloadBits : List Nat := [span 8 0, allBits]

/-- A tableau of the arena names the object. -/
def Tenant.pins (t : Tenant) (image : Nat) : Bool := t.tableaux.any (fun p => p.2.2.2.1.contains image)

/-- A tableau entry marked STALE. -/
def staleEntry (image : Nat) (p : Nat × Nat × Bool × List Nat × Nat) : Nat × Nat × Bool × List Nat × Nat :=
  if p.2.2.2.1.contains image then (p.1, p.2.1, true, p.2.2.2) else p

/-- Set the STALE bit of every tableau that names the object, in the arena's record and in the tableau (R383). -/
def State.markStale (s : State) (ten image : Nat) : State :=
  let t := s.tenant ten
  let s := (t.tableaux.filter (fun p => p.2.2.2.1.contains image)).foldl (fun s p =>
    s.store p.1 8 ((s.load p.1 8) ||| 2 ^ 43)) s
  s.setTenant ten { t with tableaux := t.tableaux.map (staleEntry image) }

/-- The object is unloaded. -/
def State.unloadNow (s : State) (ten image : Nat) : State :=
  let t := s.tenant ten
  s.setTenant ten { t with unloaded := t.unloaded ++ [image], deferred := t.deferred.erase image }

/-- UNLOAD is deferred while a tableau names the object, and reports PINNED. -/
def State.unload (s : State) (win : Nat) (image : Nat) : CmdOut :=
  match s.winTenant win with
  | none => .refuse resRange
  | some ten =>
    let t := s.tenant ten
    if t.pins image then .report resPinned (s.setTenant ten { t with deferred := t.deferred.erase image ++ [image] })
    else .done (s.unloadNow ten image)

def execUnloadCmd (win : Nat) (c : Cmd) (s : State) : Out :=
  .next (s.command win (.unloadCmd win c) c unloadBits (fun s => s.unload win c.w1.toNat))

/-- UNLOAD with FORCE unloads at once and makes every tableau that names the object STALE. -/
def State.unloadForce (s : State) (win : Nat) (image : Nat) : CmdOut :=
  match s.winTenant win with
  | none => .refuse resRange
  | some ten =>
    s.withBufs (((s.tenant ten).tableaux.filter (fun p => p.2.2.2.1.contains image)).map (fun p => (p.1, 8))) (fun s =>
      .done ((s.markStale ten image).unloadNow ten image))

def execUnloadForceCmd (win : Nat) (c : Cmd) (s : State) : Out :=
  .next (s.command win (.unloadForceCmd win c) c unloadBits (fun s => s.unloadForce win c.w1.toNat))

/-! ### TLBINV (R257) -/

/-- A region's global accesses that hold a translation and are not yet performed. -/
def Region.translated (r : Region) : List Acc := r.accs.filter (fun a => a.space == 0 && a.withheld.isNone && !a.done)

/-- Perform those that may be performed, in the order they were presented, and answer them (R340). -/
def State.flushAccs (s : State) (c : Nat) : State :=
  (s.region c).translated.foldl (fun s a => if (s.region c).accReady a then s.respondAcc c a else s) s

/-- Those that still wait, behind a withheld access, are translated again. -/
def State.renewAccs (s : State) (c : Nat) : State :=
  (s.region c).translated.foldl (fun s a => s.retryAcc c a) s

/-- Perform a region's global task stores, in issue order, and the global accesses whose requesters wait. -/
def State.flushPend (s : State) (c : Nat) : State :=
  ((s.region c).pend.filter (fun p => p.space == 0)).foldl (fun s p => s.respondPend c p) s
/-- The same of what waits for an answer (R257). -/
def State.flushFetches (s : State) (c : Nat) : State :=
  (s.fetches.filter (fun f => f.cue == c && f.space == 0 && !f.served)).foldl State.serveFetch s

/-- A cached translation that the range of a tenant meets; `none` stands for every tenant. -/
def TlbEnt.meets (t : TlbEnt) (ten : Option Nat) (va n : Nat) : Bool :=
  (match ten with
    | some k => t.tenant == k
    | none => true) && decide (va < t.va + t.size) && decide (t.va < va + n)

/-- Every access that used an old entry and may be performed is, then the entries go, then the accesses that still
wait take the new translation (R257). -/
def State.tlbInvalidate (s : State) (ten : Option Nat) (va n : Nat) : State :=
  let mine (r : Region) : Bool := match ten with
    | some k => r.tenant == k
    | none => true
  let cues := Tab.keys (s.regions.filter (fun p => mine p.2))
  let s := cues.foldl (fun s c => ((s.flushAccs c).flushPend c).flushFetches c) s
  cues.foldl (fun s c => s.renewAccs c) { s with tlb := s.tlb.filter (fun t => !t.meets ten va n) }

def execTlbinvCmd (win : Nat) (c : Cmd) (s : State) : Out :=
  .next (s.command win (.tlbinvCmd win c) c [span 7 0, allBits, allBits] (fun s =>
    refusals [(c.w1.toNat % 65536 != 0 || c.w2.toNat % 65536 != 0, resField),
      (win != 0 && (s.winTenant win).isNone, resRange)] (fun _ =>
      .done (s.tlbInvalidate (if win = 0 then none else s.winTenant win) c.w1.toNat c.w2.toNat))))

/-! ### DEBUG (R386, R432) -/

/-- KIND of the live state: a freeze's own, else free, since a region that runs has no kind. -/
def State.liveKind (s : State) (r : Region) : Nat :=
  match r.freeze with
  | some f => f.kind
  | none => Config.freeNat s.free % 3

/-- Byte j read from offset off of a layout of n bytes; beyond its end the spec states none, and it is free (log 7). -/
def State.layoutByte (s : State) (at_ : Nat → Byte) (n off j : Nat) : Byte :=
  if off + j < n then at_ (off + j) else BitVec.ofNat 8 (Config.freeNat (s.free + 1 + j))

/-- The 64 bytes at an offset of a region's tableau, or of its live state laid out the same. -/
def State.debugBytes (s : State) (c off : Nat) : List Byte :=
  let r := s.region c
  let at_ : (Nat → Byte) × Nat :=
    match r.tableau with
    | some (a, n) => (fun k => memGet s.mem (a + k), n)
    | none =>
      let bs := s.tableauBytes c (s.liveKind r) r.curtain false
      (fun k => bs.getD k 0, bs.length)
  (List.range 64).map (fun j => s.layoutByte at_.1 at_.2 off j)

/-- Power of the dies that hold the state read at an offset: those of the tableau's stacks there, else the region's own. -/
def State.debugPower (s : State) (c off : Nat) : Power :=
  match (s.region c).tableau with
  | some (a, n) => s.rangePower (a + off) (min 64 (n - off))
  | none => (s.die (s.region c).die).power

/-- DEBUG: at DARK it waits until the host wakes the die; at OFF it is refused. -/
def State.debug (s : State) (win : Nat) (c : Cmd) : CmdOut :=
  let n := cmdCue c
  refusals [(!hostBuf c.w2.toNat 64, resField), (!s.cueInRange win n, resRange),
    (!Tab.has s.regions n, resState), (s.debugPower n c.w1.toNat == .off, resOff)] (fun _ =>
    if s.debugPower n c.w1.toNat = .dark then .busy s
    else s.withBufs [(c.w2.toNat, 64)] (fun s => .done ((s.write c.w2.toNat (s.debugBytes n c.w1.toNat)).skipFree 65)))

def execDebugCmd (win : Nat) (c : Cmd) (s : State) : Out :=
  .next (s.command win (.debugCmd win c) c [span 19 0, allBits, allBits] (fun s => s.debug win c))

/-! ### INCQ (R400) -/

/-- INCQ: the ring starts empty, and incidents held for the window enter it. -/
def State.setRing (s : State) (win base lg : Nat) : State :=
  let s := (s.store base 8 0).setWin win { s.win win with ring := some (base, lg), prod := 0, dropped := 0 }
  s.flushHeld win (s.win win).held

/-- INCQ (R400, R428): the window's ring, once its buffer is in reach. -/
def State.incq (s : State) (win : Nat) (c : Cmd) : CmdOut :=
  let lg := bits c.w0 12 8
  refusals [(decide (lg < 4) || decide (20 < lg) || c.w1.toNat % 64 != 0 || !hostBuf c.w1.toNat (64 + 64 * 2 ^ lg), resField)]
    (fun _ => s.withBufs [(c.w1.toNat, 64 + 64 * 2 ^ lg)] (fun s => .done (s.setRing win c.w1.toNat lg)))

def execIncqCmd (win : Nat) (c : Cmd) (s : State) : Out :=
  .next (s.command win (.incqCmd win c) c [span 12 0, allBits] (fun s => s.incq win c))

/-! ### ATTEST (R406, R407) -/

/-- FWDIG: the digest of the image FWLOAD loaded, else that of the boot image. -/
def State.firmwareDigest (s : State) : List Byte :=
  if s.fwDigest.isEmpty then (List.range 48).map Config.bootDigest else s.fwDigest

/-- Bytes 0 to 287 of a quote. -/
def State.quoteBody (s : State) (c : Nat) (nonce : List Byte) : List Byte :=
  let r := s.region c
  [0x51, 0x55, 0x4F, 0x54, 1, 0, BitVec.ofNat 8 r.tenant, 0] ++ bytesOf 2 c ++ List.replicate 6 0 ++ nonce ++
    s.firmwareDigest ++ sha384 (bytesOfWords r.image) ++ sha384 r.launchBytes ++ sha384 r.tableImages.flatten ++
    sha384 r.codeImages.flatten

/-- The signature's 96 bytes: the part key's over a digest is free (log 8). -/
def signature (digest : List Byte) : List Byte := (List.range 96).map (fun i => (Config.partSign digest).getD i 0)

def State.quote (s : State) (c : Nat) (nonce : List Byte) : List Byte :=
  s.quoteBody c nonce ++ signature (sha384 (s.quoteBody c nonce))

/-- ATTEST (R406, R407): the quote of the nonce at w1 goes to w2, once both are in reach. -/
def State.attest (s : State) (win : Nat) (c : Cmd) : CmdOut :=
  let n := cmdCue c
  refusals [(!hostBuf c.w1.toNat 32 || !hostBuf c.w2.toNat 384, resField),
    (win == 0 || !s.cueInRange win n, resRange),
    ((s.cue n).st != .running && (s.cue n).st != .frozen, resState)] (fun _ =>
    s.withBufs [(c.w1.toNat, 32), (c.w2.toNat, 384)] (fun s =>
      .done (s.write c.w2.toNat (s.quote n (s.read c.w1.toNat 32)))))

def execAttestCmd (win : Nat) (c : Cmd) (s : State) : Out :=
  .next (s.command win (.attestCmd win c) c [span 19 0, allBits, allBits] (fun s => s.attest win c))

/-! ### TENANT (R428) -/

def tenantBits : List Nat := [span 41 0, allBits, span 35 0, allBits, allBits, allBits]

def cmdTen (c : Cmd) : Nat := bits c.w0 13 8
def tenantWin (c : Cmd) : Nat := bits c.w0 17 14

/-- The binding a TENANT command gives, over what the tenant keeps. -/
def bindingOf (c : Cmd) (t : Tenant) : Tenant :=
  { t with
    bound := true, win := some (tenantWin c)
    cueBase := bits c.w0 29 18, ncue := bits c.w0 41 30, troot := c.w1.toNat
    tsbase := bits c.w2 3 0, tslim := bits c.w2 7 4
    classMask := BitVec.ofNat 16 (bits c.w2 23 8), stackMask := BitVec.ofNat 12 (bits c.w2 35 24)
    arena := c.w3.toNat, arenaLen := c.w4.toNat, cstat := c.w5.toNat }

/-- A binding whose fields are in their limits. -/
def Tenant.wellBound (t : Tenant) : Bool :=
  (match t.win with
    | some w => decide (1 ≤ w)
    | none => false) &&
  decide (t.cueBase + t.ncue ≤ 4096) && decide (t.tsbase ≤ t.tslim) &&
  t.troot % 8192 == 0 && inHbm t.troot &&
  t.arena % 65536 == 0 && t.arenaLen % 65536 == 0 && inHbm t.arena && decide (t.arena + t.arenaLen ≤ 12 * 2 ^ 36) &&
  t.cstat % 128 == 0 && inHost t.cstat && decide (t.cstat + 128 * t.ncue ≤ 2 ^ 52)

/-- Two bindings share a cue or a route class. -/
def Tenant.overlaps (t u : Tenant) : Bool :=
  (decide (t.cueBase < u.cueBase + u.ncue) && decide (u.cueBase < t.cueBase + t.ncue)) ||
  (t.classMask &&& u.classMask) != 0

/-- A tenant has a cue that is not FREE. -/
def State.tenantBusy (s : State) (ten : Nat) : Bool := s.cues.any (fun p => p.2.tenant == ten && p.2.st != .free)

/-- The binding is the same but for a greater ARENALEN. -/
def Tenant.raisedFrom (t old : Tenant) : Bool :=
  decide ({ t with arenaLen := old.arenaLen } = old) && decide (old.arenaLen < t.arenaLen)

/-- The tenant that another window's binding would take the window from. -/
def State.winOther (s : State) (ten win : Nat) : Option Nat :=
  match s.winTenant win with
  | some o => if o = ten then none else some o
  | none => none

/-- Bind: the tenant leaves its old window, the window's old tenant is left with none. -/
def State.bind (s : State) (ten : Nat) (new : Tenant) : State :=
  let w := new.win.getD 0
  let s := match s.winOther ten w with
    | some o => s.setTenant o { s.tenant o with win := none }
    | none => s
  let s := match (s.tenant ten).win with
    | some v => s.setWin v { s.win v with tenant := none }
    | none => s
  (s.setTenant ten new).setWin w { s.win w with tenant := some ten }

/-- Readouts of a tenant that wait with TABLEAU_FULL are tried again (R383). -/
def State.retryReadouts (s : State) (ten : Nat) : State :=
  let cs := Tab.keys (s.regions.filter (fun p => p.2.tenant == ten && p.2.frozen && p.2.tableau.isNone))
  { s with due := s.due ++ cs.map (fun c => (.tableauReadout, .region c)) }

def execTenantCmd (win : Nat) (c : Cmd) (s : State) : Out :=
  .next (s.command win (.tenantCmd win c) c tenantBits (fun s =>
    let ten := cmdTen c
    let old := s.tenant ten
    let new := bindingOf c old
    refusals [
      (!new.wellBound || s.tenants.any (fun p => p.1 != ten && p.2.bound && p.2.overlaps new), resField),
      (old.bound && s.tenantBusy ten && !new.raisedFrom old, resState),
      (((s.winOther ten (tenantWin c)).map s.tenantBusy).getD false, resState)] (fun _ =>
      if old.bound && new.raisedFrom old then .done ((s.setTenant ten new).retryReadouts ten)
      else .done (s.bind ten new))))

/-! ### SHARE, LEAVE and QUOTA: they hold from the next frame boundary -/

def shareOk (v : Nat) : Bool := decide (v < 2 ^ 40) || v == 2 ^ 64 - 1

def execShareCmd (win : Nat) (c : Cmd) (s : State) : Out :=
  .next (s.command win (.shareCmd win c) c [span 13 0, allBits] (fun s =>
    let ten := cmdTen c
    refusals [(!shareOk c.w1.toNat, resField)] (fun _ =>
      .busy (s.setTenant ten { s.tenant ten with sharePending := some c.w1.toNat }))))

def cmdDie (c : Cmd) : Nat := bits c.w0 9 8

def execLeaveCmd (win : Nat) (c : Cmd) (s : State) : Out :=
  .next (s.command win (.leaveCmd win c) c [span 9 0, span 15 0] (fun s =>
    .busy (s.setDie (cmdDie c) { s.die (cmdDie c) with lbPending := some (bits c.w1 15 0) })))

def execQuotaCmd (win : Nat) (c : Cmd) (s : State) : Out :=
  .next (s.command win (.quotaCmd win c) c [span 9 0, span 15 0] (fun s =>
    refusals [(c.w1 == 0, resField)] (fun _ =>
      .busy (s.setDie (cmdDie c) { s.die (cmdDie c) with fqPending := some (bits c.w1 15 0) }))))

/-! ### SOUND (R332) -/

def soundBits : List Nat := [span 9 0 + span 27 16, allBits]

/-- The 72 bytes of a map, bit s of byte s div 8. -/
def soundBytes (m : BitVec 576) : List Byte := (List.range 72).map (fun k => m.extractLsb' (8 * k) 8)

def setBit (m : BitVec 576) (k : Nat) (b : Bool) : BitVec 576 :=
  if b then m ||| BitVec.ofNat 576 (2 ^ k) else m &&& ~~~(BitVec.ofNat 576 (2 ^ k))

/-- Write the map where the command names a buffer. -/
def State.writeSound (s : State) (c : Cmd) : State :=
  if c.w1 = 0 then s else s.write c.w1.toNat (soundBytes (s.die (cmdDie c)).sound)
/-- The range that SOUND's map goes to, if any. -/
def soundBuf (c : Cmd) : List (Nat × Nat) := if c.w1 = 0 then [] else [(c.w1.toNat, 72)]

def soundRefusals (c : Cmd) : List (Bool × Nat) :=
  [(decide (575 < bits c.w0 25 16) || (c.w1 != 0 && !hostBuf c.w1.toNat 72), resField)]

/-- SOUND writes a bit of the map, or reads the map. -/
def State.soundSet (s : State) (c : Cmd) : CmdOut :=
  refusals (soundRefusals c) (fun _ => s.withBufs (soundBuf c) (fun s =>
    let d := cmdDie c
    let m := setBit (s.die d).sound (bits c.w0 25 16) (bits c.w0 26 26 == 1)
    .done ((s.setDie d { s.die d with sound := m }).writeSound c)))
/-- SOUND's query (R332, R398). -/
def State.soundQuery (s : State) (c : Cmd) : CmdOut :=
  refusals (soundRefusals c) (fun _ => s.withBufs (soundBuf c) (fun s => .done (s.writeSound c)))

def execSoundSetCmd (win : Nat) (c : Cmd) (s : State) : Out :=
  .next (s.command win (.soundSetCmd win c) c soundBits (fun s => s.soundSet c))

def execSoundQueryCmd (win : Nat) (c : Cmd) (s : State) : Out :=
  .next (s.command win (.soundQueryCmd win c) c soundBits (fun s => s.soundQuery c))

/-! ### EVICT and PODMAP (R262, R394) -/

/-- EVICT sets a stack's watermark and free list; a stuck evictor tries again. -/
def execEvictCmd (win : Nat) (c : Cmd) (s : State) : Out :=
  .next (s.command win (.evictCmd win c) c [span 11 0, allBits, allBits] (fun s =>
    let k := bits c.w0 11 8
    refusals [(decide (11 < k) || !hostBuf c.w2.toNat 8, resField)] (fun _ =>
      .done (s.setWing k { s.wing k with evlow := c.w1.toNat, freeList := c.w2.toNat, stuck := false }))))

def execPodmapCmd (win : Nat) (c : Cmd) (s : State) : Out :=
  .next (s.command win (.podmapCmd win c) c [span 17 0, allBits] (fun s =>
    .done { s with podmap := Tab.set s.podmap (bits c.w0 17 8) c.w1 }))

/-! ### CHECKPOINT (R404) -/

def hbmBytes : Nat := 12 * 2 ^ 36
def sramBytes : Nat := 4 * 576 * 2 ^ 21
def imageBytes : Nat := hbmBytes + sramBytes
/-- Bytes that each port needs from OFFSET. -/
def portBytes : Nat := imageBytes / 8

/-- Byte b of the image as a memory key, and its striped place in the memory tier. -/
def imageKey (b : Nat) : Nat := if b < hbmBytes then b else 2 ^ 52 + (b - hbmBytes)
def stripeKey (off b : Nat) : Nat :=
  2 ^ 48 + (b / 2 ^ 21 % 8) * 2 ^ 41 + off + 2 ^ 21 * (b / 2 ^ 24) + b % 2 ^ 21

/-- The image byte a memory key holds, and the one a striped place holds. -/
def imageOfKey (k : Nat) : Option Nat :=
  if k < hbmBytes then some k
  else if 2 ^ 52 ≤ k ∧ k < 2 ^ 52 + sramBytes then some (hbmBytes + (k - 2 ^ 52)) else none
def imageOfStripe (off k : Nat) : Option Nat :=
  if inTier k then
    let p := (k - 2 ^ 48) / 2 ^ 41
    let o := (k - 2 ^ 48) % 2 ^ 41
    if off ≤ o ∧ o < off + portBytes then some ((o - off) / 2 ^ 21 * 2 ^ 24 + p * 2 ^ 21 + (o - off) % 2 ^ 21) else none
  else none

/-- Copy image bytes: every listed byte that `from_` places goes to where `to_` puts it, over what stood there. -/
def copyImage (m : Mem) (from_ : Nat → Option Nat) (to_ : Nat → Nat) (covers : Nat → Option Nat) : Mem :=
  m.foldl (fun acc p => match from_ p.1 with
    | some b => memSet acc (to_ b) p.2
    | none => acc) (m.filter (fun p => (covers p.1).isNone))

/-- The cells of a die's frozen regions whose registers stand at the bottom of their pools (R19). -/
def State.taskCells (s : State) : List (Nat × Nat) :=
  s.regions.flatMap (fun p => (List.range p.2.ncells).filterMap (fun v =>
    if (p.2.cell v).slots.isEmpty then none else some (p.1, v)))

/-- Put the register images into the pools, and take them from there. -/
def State.imagesToPools (s : State) : State :=
  s.taskCells.foldl (fun s q =>
    let r := s.region q.1
    s.write (poolKey r.die (r.cell q.2).site 0) ((s.poolBytes r q.2).take 32768)) s

def State.imagesFromPools (s : State) : State :=
  s.taskCells.foldl (fun s q =>
    let r := s.region q.1
    let key := poolKey r.die (r.cell q.2).site 0
    s.setRegion q.1 ((r.cell q.2).slots.foldl (fun r p =>
      r.setSlot q.2 p.1 (p.2.ofImage (s.read (key + 2048 * p.1) 2048))) r)) s

def ckptBits : List Nat := [span 8 0, allBits]

/-- CHECKPOINT is refused while a cue runs or a die is between power states or OFF. -/
def State.ckptRefusals (s : State) (off : Nat) : List (Bool × Nat) :=
  [(off % 2 ^ 21 != 0 || decide (2 ^ 41 < off + portBytes), resField),
   (s.cues.any (fun p => p.2.st != .free && p.2.st != .frozen && p.2.st != .failed) ||
     s.dies.any (fun p => p.2.power == .off), resState)]

def State.saveImage (s : State) (off : Nat) : State :=
  let s := s.imagesToPools
  { s with mem := copyImage s.mem imageOfKey (stripeKey off) (imageOfStripe off) }

def State.restoreImage (s : State) (off : Nat) : State :=
  State.imagesFromPools { s with mem := copyImage s.mem (imageOfStripe off) imageKey imageOfKey }

def execCheckpointSaveCmd (win : Nat) (c : Cmd) (s : State) : Out :=
  .next (s.command win (.checkpointSaveCmd win c) c ckptBits (fun s =>
    refusals (s.ckptRefusals c.w1.toNat) (fun _ => .done (s.saveImage c.w1.toNat))))

def execCheckpointRestoreCmd (win : Nat) (c : Cmd) (s : State) : Out :=
  .next (s.command win (.checkpointRestoreCmd win c) c ckptBits (fun s =>
    refusals (s.ckptRefusals c.w1.toNat) (fun _ => .done (s.restoreImage c.w1.toNat))))

/-! ### FWLOAD (R405) -/

/-- FWLOAD: a bad signature or a version below the fused counter is SIG, after which only FWLOAD is accepted. -/
def State.loadFirmware (s : State) (img : List Byte) : CmdOut :=
  if Config.fwSigned img && decide (s.fwVersion ≤ Config.fwVersion img) then
    .done { s with fwDigest := sha384 img, fwOnly := false }
  else .report resSig { s with fwOnly := true }

/-- FWLOAD (R405, R428): the image at w1, once it is in reach. -/
def State.fwload (s : State) (c : Cmd) : CmdOut :=
  refusals [(!hostBuf c.w1.toNat c.w2.toNat, resField), (s.cues.any (fun p => p.2.st != .free), resState)] (fun _ =>
    s.withBufs [(c.w1.toNat, c.w2.toNat)] (fun s => s.loadFirmware (s.read c.w1.toNat c.w2.toNat)))

def execFwloadCmd (win : Nat) (c : Cmd) (s : State) : Out :=
  .next (s.command win (.fwloadCmd win c) c [span 7 0, allBits, allBits] (fun s => s.fwload c))

/-! ### POWER (R401 to R403) -/

def powerBits : List Nat := [span 9 0 + span 14 12]

/-- Start a transition: DONE when the state holds, at once when it already does. -/
def State.startPower (s : State) (d : Nat) (p : Power) : CmdOut :=
  let die := s.die d
  if die.power = p then .done s else .busy (s.setDie d { die with target := some p, moving := false })

/-- A cue holds cells on a die. -/
def State.dieHeld (s : State) (d : Nat) : Bool := s.regions.any (fun p => p.2.die == d)

def execPowerRunningCmd (win : Nat) (c : Cmd) (s : State) : Out :=
  .next (s.command win (.powerRunningCmd win c) c powerBits (fun s =>
    refusals [(decide (5 < bits c.w0 14 12), resField), ((s.die (cmdDie c)).tripped, resState)] (fun _ =>
      s.startPower (cmdDie c) (powerOfCode (bits c.w0 14 12)))))

def execPowerDarkCmd (win : Nat) (c : Cmd) (s : State) : Out :=
  .next (s.command win (.powerDarkCmd win c) c powerBits (fun s =>
    refusals [((s.die (cmdDie c)).tripped, resState)] (fun _ => s.startPower (cmdDie c) .dark)))

/-- OFF is refused while a cue holds cells on the die. -/
def execPowerOffCmd (win : Nat) (c : Cmd) (s : State) : Out :=
  .next (s.command win (.powerOffCmd win c) c powerBits (fun s =>
    refusals [((s.die (cmdDie c)).tripped || s.dieHeld (cmdDie c), resState)] (fun _ => s.startPower (cmdDie c) .off)))

/-! ### Other writes (R395, R397) -/

/-- A write of another size is discarded; one that arrives while BUSY sets LOST; any other names no command. -/
def execCallboardOtherWrite (win : Nat) (bytes : List Byte) (s : State) : Out :=
  if bytes.length ≠ 64 then .next s
  else
    .next (s.command win (.callboardOtherWrite win bytes) {} [] (fun _ => .refuse resUnknown))

end Sys2Proof.Machine
end

