-- ==== Sys2Proof/Machine/Evict.lean ====
section
/-! DEFINITION. The evictor of a Wings unit (R261 to R264): open windows, the choice of a page, and its move to the
memory tier. -/

namespace Sys2Proof.Machine

/-! ### Stream windows (R261) -/

/-- An open window: a tenant's range of addresses, and LOWNEED. -/
structure Window where
  ten : Nat
  lo : Nat
  hi : Nat
  low : Nat
  deriving DecidableEq, Repr

/-- Bytes from the lowest to the highest of an LDG's pattern with strides that are not negative. -/
def Pat.reach (p : Pat) : Int := (p.l0 - 1) * p.s0 + (p.l1 - 1) * p.s1 + (p.l2 - 1) * p.s2 + (p.l3 - 1) * p.s3
def Pat.rises (p : Pat) : Bool := decide (0 ≤ p.s0) && decide (0 ≤ p.s1) && decide (0 ≤ p.s2) && decide (0 ≤ p.s3)

/-- The first firing of a node whose read is still to be performed, else its next. -/
def Region.nextRead (r : Region) (e : Nat) : Nat :=
  ((r.accsOf e).filter (fun a => a.kind == .load && !a.done)).foldl (fun m a => min m a.fire) (r.node e).fire

/-- The window of a node, until the EOS it gives. -/
def State.nodeWindow (s : State) (r : Region) (e : Nat) : Option Window :=
  let n := r.fields e
  let k := r.nextRead e
  if (r.node e).eos then none
  else
    match r.opcode e with
    | 0x02 =>
      let b := edgeBase n
      if n.cfg ≠ 0 then some ⟨r.tenant, b, b + (n.cfg.toNat - 1) * srcStride n + tokBytes n, b + k * srcStride n⟩
      else some ⟨r.tenant, b - 16, b + (edgeCap n - 1) * srcStride n + tokBytes n, b - 16⟩
    | 0x62 =>
      let p := globPat n
      let hi := (p.base + p.reach).toNat + tokBytes n
      if r.named e 0 || patWin n != 0 || !p.rises then none
      else some ⟨r.tenant, p.base.toNat, hi, if p.total ≤ k then hi else (p.addr k 0).toNat⟩
    | 0x81 =>
      match s.weightPage r.tenant (mvmBase n) with
      | some (f, geom) => some ⟨r.tenant, mvmBase n, mvmBase n + weightExtent f geom (mvmN n) (mvmK n), mvmBase n⟩
      | none => none
    | _ => none

/-- The window of a Fly command in progress with a global source: from the lowest byte it has yet to read. -/
def State.flyWindow (s : State) (f : FlyCmd) : Option Window :=
  let c := f.c
  if winOf c.w1.toNat ≠ 0 ∨ f.started = false then none
  else
    let rows := flyRows c
    let got := f.done + (f.piece.map (fun b => b.length)).getD 0
    let start (r : Nat) : Nat := (rowStart c.w1 (flySs c) r).toNat
    let row := got / flyLen c
    let hi := max (start 0) (start (rows - 1)) + flyLen c
    some ⟨(s.region f.cue).tenant, min (start 0) (start (rows - 1)), hi,
      if rows ≤ row then hi
      else if row + 1 = rows then start row + got % flyLen c
      else min (start row + got % flyLen c) (min (start (row + 1)) (start (rows - 1)))⟩

/-- The lowest address of W that an MVM block has yet to read, `hi` when there is none. -/
def WBlk.weightLow (w : WBlk) (f : Fmt) (geom hi : Nat) : Nat :=
  ((mvmPieces f geom w.words w.call).drop w.pos).foldl (fun m p => match p with
    | .w va _ => min m va
    | _ => m) hi

/-- The windows of a Wings block in progress: the weights, the buffers, or the indices and the table. -/
def State.blockWindows (s : State) (w : WBlk) : List Window :=
  let b := w.words
  let ten := (s.region w.cue).tenant
  match blkOp b with
  | 1 =>
    let wb := (blkW b 3).toNat
    let geo := w.geo.map (fun g => (fmtOf g.1, g.2))
    match geo.orElse (fun _ => s.weightPage ten wb) with
    | some (f, geom) =>
      let hi := wb + weightExtent f geom (blkN b) (blkK b)
      [⟨ten, wb, hi, if geo.isSome then w.weightLow f geom hi else wb⟩]
    | none => []
  | 2 =>
    let n := min 64 (redLen b - w.pos)
    (List.range (redNbuf b)).map (fun j => ⟨ten, redBuf b j, redBuf b j + redLen b,
      redBuf b j + w.pos + (if (j + 1) * n ≤ w.buf.length then n else 0)⟩)
  | _ =>
    let i := (blkW b 3).toNat
    let t := (blkW b 5).toNat
    let read := if w.pos % 16 = 0 ∧ w.buf.isEmpty then w.pos else min (gatCount b) ((w.pos / 16 + 1) * 16)
    [⟨ten, i, i + 4 * gatCount b, i + 4 * read⟩, ⟨ten, t, t + (gatNidx b - 1) * (blkW b 6).toNat + gatSize b, t⟩]

/-- Every open window of the package. -/
def State.windowsOpen (s : State) : List Window :=
  s.regions.flatMap (fun p => if p.2.started then (List.range p.2.entries.length).filterMap (s.nodeWindow p.2) else []) ++
  s.flys.flatMap (fun p => p.2.q.filterMap s.flyWindow) ++
  s.wings.flatMap (fun p => ((p.2.running.map (fun q => q.2)).filter (fun w => !w.call)).flatMap s.blockWindows)

/-! ### Pages of a stack (R262) -/

/-- A leaf of a page table: tenant, its address, the virtual page, and the leaf. -/
structure PageRef where
  ten : Nat
  at_ : Nat
  va : Nat
  leaf : Word
  deriving DecidableEq, Repr

/-- The 64 KiB leaves below a table, by levels left. -/
def leavesUnder (m : Mem) (ten : Nat) : Nat → Nat → Nat → Nat → List PageRef
  | 0, _, _, _ => []
  | k + 1, level, tbl, va =>
    (List.range 1024).flatMap (fun i =>
      let at_ := tbl + 8 * i
      let e : Word := BitVec.ofNat 64 (natOf (memGetList m at_ 8))
      let va := va + i * 2 ^ (46 - 10 * level)
      if leafV e = false ∨ malformed e level then []
      else if leafLeaf e then (if level = 3 then [⟨ten, at_, va, e⟩] else [])
      else leavesUnder m ten k (level + 1) (bits e 51 13 * 8192) va)

def PageRef.frame (p : PageRef) : Nat := leafFrame p.leaf * 65536

/-- TIER = 0 pages of 64 KiB whose frames lie in a stack, in ascending frame order. -/
def State.stackPages (s : State) (stack : Nat) : List PageRef :=
  sortBy PageRef.frame ((s.tenants.filter (fun p => p.2.bound)).flatMap (fun p =>
    (leavesUnder s.mem p.1 4 0 p.2.troot 0).filter (fun q =>
      leafTier q.leaf == 0 && inHbm q.frame && stackOf q.frame == stack)))

def Window.maps (w : Window) (p : PageRef) : Bool := w.ten == p.ten && decide (w.lo < p.va + 65536) && decide (p.va < w.hi)

/-- Every window that maps the page has gone past its last byte, and one maps it. -/
def passed (ws : List Window) (p : PageRef) : Bool :=
  ws.any (fun w => w.maps p) && ws.all (fun w => !w.maps p || decide (p.va + 65535 < w.low))

/-- The sweep over pages that no window maps: ACC is cleared until a page with ACC clear is found; the state after it,
and that page. -/
def sweepPages : List PageRef → State → State × Option PageRef
  | [], s => (s, none)
  | p :: rest, s =>
    let e : Word := BitVec.ofNat 64 (s.load p.at_ 8)
    if leafAcc e then sweepPages rest (s.store p.at_ 8 (e &&& ~~~0x8000).toNat) else (s, some p)

/-- The page an eviction takes; the sweep goes on from where the last one ended. -/
def State.evictChoice (s : State) (stack : Nat) : State × Option PageRef :=
  let ps := s.stackPages stack
  let ws := s.windowsOpen
  match ps.find? (passed ws) with
  | some p => (s, some p)
  | none =>
    let free := ps.filter (fun p => !ws.any (fun w => w.maps p))
    let from_ := (s.wing stack).sweep
    let order := free.filter (fun p => decide (from_ ≤ p.frame)) ++ free.filter (fun p => decide (p.frame < from_))
    match sweepPages (order ++ order) s with
    | (s, some p) => (s.setWing stack { s.wing stack with sweep := p.frame + 65536 }, some p)
    | (s, none) => (s, none)

/-! ### EVICTION (R263) -/

/-- Replace V and MIG of a leaf. -/
def leafMove (e : Word) (v mig : Bool) : Word :=
  (e &&& ~~~0x20001) ||| (if v then 1 else 0) ||| (if mig then 0x20000 else 0)

/-- The new leaf: V = 1, MIG = 0, TIER = 1 and the new frame. -/
def leafEvicted (e : Word) (pa : Nat) : Word :=
  BitVec.ofNat 64 (bits (leafMove e true false) 27 0) ||| 0x4000 ||| BitVec.ofNat 64 (field (pa / 65536) 28)

/-- An access still to be performed touches a physical page. -/
def State.pageInUse (s : State) (pa : Nat) : Bool :=
  let meets (k n : Nat) : Bool := decide (k < pa + 65536) && decide (pa < k + n)
  s.regions.any (fun p =>
    p.2.accs.any (fun a => !a.done && a.withheld.isNone && a.segs.any (fun g => g.any (fun q => meets q.key q.len))) ||
    p.2.pend.any (fun q => q.segs.any (fun g => meets g.1 g.2.length)))

/-- The free frame the host's list gives: an address of the memory tier (log 19). -/
def tierFrame (n : Nat) : Nat := 2 ^ 48 + n % 2 ^ 28 * 65536

/-- Begin: V is cleared, MIG set, and every cached translation of the page dropped. -/
def State.beginEviction (s : State) (stack : Nat) (p : PageRef) (pa : Nat) : State :=
  let e : Word := BitVec.ofNat 64 (s.load p.at_ 8)
  let s := s.store p.at_ 8 (leafMove e false true).toNat
  let s := { s with tlb := s.tlb.filter (fun t => !t.meets (some p.ten) p.va 65536) }
  s.setWing stack { s.wing stack with evicting := some (p.ten, p.at_, p.va, p.frame, pa) }

/-- Finish: the page is copied and the leaf written. -/
def State.finishEviction (s : State) (stack at_ old new : Nat) : State :=
  let s := s.write new (s.read old 65536)
  let e : Word := BitVec.ofNat 64 (s.load at_ 8)
  let s := s.store at_ 8 (leafEvicted e new).toNat
  s.setWing stack { s.wing stack with evicting := none }

/-- No free frame: the evictor stops and posts an incident (R262). -/
def State.noFrame (s : State) (stack : Nat) : State :=
  (s.setWing stack { s.wing stack with stuck := true }).postRec
    (mkRec 0x10 0 0 (dieOfStack stack) 0 0 0 0 noEntry 0 0 stack 0 0)

/-- EVICTION: one eviction begins while the stack's free frames number fewer than EVLOW, and ends once every access of
the old translation is performed. How many frames are free is the host's to know and free here (log 19). -/
def execEviction (s : State) : Out :=
  let k := s.actWings.1
  let u := s.wing k
  match u.evicting with
  | some (_, at_, _, old, new) => if s.wingsStopped k || s.pageInUse old then .next s else .next (s.finishEviction k at_ old new)
  | none =>
    if s.wingsStopped k || u.evlow == 0 || u.stuck || !Config.freeBool s.free then .next s.tickFree
    else
      match s.evictChoice k with
      | (s, none) => .next s.tickFree
      | (s, some p) =>
        match Config.freeFrame s.free with
        | none => .next (s.noFrame k).tickFree
        | some n => .next (s.beginEviction k p (tierFrame n)).tickFree

end Sys2Proof.Machine
end

