-- ==== Sys2Proof/Machine/Frame.lean ====
section
/-! DEFINITION. Time: FRAME_BOUNDARY (R5, R290, R353 to R355, R377, R380, R409) and TICK (R5, R14, R381, R420). -/

namespace Sys2Proof.Machine

/-! ### Bandwidth (R354, R355, R409) -/

/-- A SHARE that waited for the boundary holds now; a tenant that becomes unthrottled waits no more. -/
def Tenant.takeShare (t : Tenant) : Tenant :=
  match t.sharePending with
  | none => t
  | some v => if v = 2 ^ 64 - 1 then { t with share := v, sharePending := none, asks := [], waiters := [], grants := [], demand := false }
              else { t with share := v, sharePending := none }

def posPart (i : Int) : Nat := i.toNat

/-- Tenants that R355 counts. -/
def State.throttled (s : State) : List Tenant := (s.tenants.map (fun p => p.2)).filter (fun t => !t.unthrottled)

/-- The pool and the sum of shares of tenants with demand (R355). -/
def State.bucketPool (s : State) : Nat := s.throttled.foldl (fun a t => a + posPart t.bkt) 0
def State.demandShares (s : State) : Nat := (s.throttled.filter (fun t => t.demand)).foldl (fun a t => a + t.share) 0

/-- A tenant's next bucket. -/
def Tenant.refill (t : Tenant) (pool d : Nat) : Int :=
  (t.share : Int) + (if t.demand ∧ 0 < d then (pool * t.share / d : Nat) else (0 : Nat)) + min t.bkt 0

/-- Grant waiting requests in order while the bucket is positive (R409). -/
def grantWaiters : List (Actor × List Nat) → Tenant → Tenant
  | [], t => { t with waiters := [] }
  | (a, ns) :: rest, t =>
    match grantParts ns t.bkt with
    | ([], b) => grantWaiters rest { t with bkt := b, grants := t.grants ++ [a] }
    | (left, b) => { t with bkt := b, waiters := (a, left) :: rest }

/-- The bucket at a boundary: refilled, then the requests that wait; one still waiting marks demand. -/
def Tenant.atBoundary (t : Tenant) (pool d : Nat) : Tenant :=
  if t.unthrottled then t
  else
    let t := grantWaiters t.waiters { t with bkt := t.refill pool d, demand := false }
    { t with demand := !t.waiters.isEmpty }

def State.bucketUpdate (s : State) : State :=
  let s := { s with tenants := Tab.mapVal (fun _ (t : Tenant) => t.takeShare) s.tenants }
  let pool := s.bucketPool
  let d := s.demandShares
  { s with tenants := Tab.mapVal (fun _ (t : Tenant) => t.atBoundary pool d) s.tenants }

/-! ### Dies and ports -/

/-- LB and FQ that waited hold now; the units left are reset to LB and the head is considered (R290); a power transition
commanded before starts (R401). -/
def Die.atBoundary (d : Die) : Die :=
  let d := { d with lb := d.lbPending.getD d.lb, lbPending := none, fq := d.fqPending.getD d.fq, fqPending := none }
  grantLeave d.leaveQ.length true { d with left := d.lb, moving := d.target.isSome }

/-- The packet at the head of its port on plane Q, longer than FQ, that no exchange holds (R353). -/
def State.longHead (s : State) (p : Packet) : Bool :=
  p.plane == 0 && !p.injected && s.portHead p && !s.injectHeld p && decide ((s.die p.srcDie).fq < p.len)

/-- A boundary lets such a packet go, and it takes the frame's whole quota (R353). -/
def State.letLong (s : State) (p : Packet) : State :=
  let s := { s with packets := s.packets.map (fun (q : Packet) => if q.id = p.id then { q with long := true } else q) }
  s.setPcell p.srcDie p.srcSite { s.pcell p.srcDie p.srcSite with used := (s.die p.srcDie).fq }

/-- Quota returns to FQ at every port, and is taken whole by a longer packet at a head (R353). -/
def State.resetQuota (s : State) : State :=
  (s.packets.filter s.longHead).foldl State.letLong
  { s with pcells := Tab.mapVal (fun _ (p : PCell) => { p with used := 0 }) s.pcells }

/-! ### Withheld accesses and holds (R377, R380) -/

/-- A held Fly command is presented again. -/
def State.retryFly (s : State) (c e : Nat) : State :=
  match (s.fly e).q with
  | [] => s
  | f :: _ =>
    if f.cue ≠ c ∨ f.withheld.isNone ∨ f.stopped then s
    else
      let f := { f with withheld := none }
      let s := s.putCmd e f
      if f.done < flyBytes f.c then s.flyPiece e f else s.flyComplete e f

/-- A held Wings block is presented again. -/
def State.retryBlock (s : State) (c k e : Nat) : State :=
  match ((s.wing k).running.find? (fun p => p.1 == e)).map (fun p => p.2) with
  | none => s
  | some w =>
    if w.cue ≠ c ∨ w.withheld.isNone ∨ w.stopped ∨ s.wingsStopped k then s
    else
      let w := { w with withheld := none }
      let s := s.putBlk k e w
      if w.finished then s.wingsComplete k e w
      else
        match blkOp w.words with
        | 1 => s.mvmStep k e w
        | 2 => s.reduceStep k e w
        | _ => s.gatherStep k e w

def State.retryEngines (s : State) (c : Nat) : State :=
  let s := (Tab.keys s.flys).foldl (fun s e => s.retryFly c e) s
  (Tab.keys s.wings).foldl (fun s k => (List.range 6).foldl (fun s e => s.retryBlock c k e) s) s

/-- A region at a boundary: withheld accesses are re-walked and the holds counted; an exchange may route again. -/
def State.regionBoundary (s : State) (c : Nat) : State :=
  let r := s.region c
  let s := s.setRegion c { r with exchanges := r.exchanges.map (fun (x : Exchange) => { x with tried := false }) }
  if !(s.region c).started || (s.region c).freeze.isSome then s
  else
    let s := (s.retryAccs c).retryEngines c
    let r := s.region c
    s.setRegion c { r with holdCount := if s.anyWithheld c then r.holdCount + 1 else 0
                           curtFrames := if r.curtain then r.curtFrames + 1 else 0 }

/-- The steps a boundary makes due at a region: the fault hold before the curtain hold, then Crossing. -/
def State.boundarySteps (s : State) (c : Nat) : List (Instr × Actor) :=
  let r := s.region c
  let held : Bool := r.started && r.freeze.isNone
  (if held && s.anyWithheld c && decide (r.fhold ≤ r.holdCount) then [(.pageHold, .region c)] else []) ++
  (if held && r.curtain && decide (r.hold ≤ r.curtFrames) then [(.curtainHold, .region c)] else []) ++
  (if r.exchanges.any (fun x => x.stage == 2 && !x.leaseOver) then [(.leaseEnd, .region c)] else []) ++
  (if r.exchanges.any (fun x => x.stage == 2 && !x.routed) then [(.crossingReroute, .region c)] else []) ++
  (if r.atInstant s.cyc.toNat then [(.swapInstant, .region c)] else [])

/-! ### Windows that wait (R397) -/

/-- Finish a window's waiting command where what it waits for has come about. -/
def State.pollWindow (s : State) (w : Nat) : State :=
  match (s.win w).busy with
  | some (.shareCmd _ _) | some (.leaveCmd _ _) | some (.quotaCmd _ _) => s.finish w resOk
  | some (.curtainCmd _ c) => if s.curtainEntered (cmdCue c) then s.finish w resOk else s
  | some (.replaceCmd _ c) => s.retryReplace w c
  | some (.debugCmd _ c) => s.retryCmd w (s.debug w c)
  | some (.attestCmd _ c) => s.retryCmd w (s.attest w c)
  | some (.incqCmd _ c) => s.retryCmd w (s.incq w c)
  | some (.soundSetCmd _ c) => s.retryCmd w (s.soundSet c)
  | some (.soundQueryCmd _ c) => s.retryCmd w (s.soundQuery c)
  | some (.fwloadCmd _ c) => s.retryCmd w (s.fwload c)
  | some (.unloadForceCmd _ c) => s.retryCmd w (s.unloadForce w c.w1.toNat)
  | _ => s

def State.pollWindows (s : State) : State := (List.range 16).foldl (fun s w => s.pollWindow w) s

/-! ### FRAME_BOUNDARY -/

/-- FRAME_BOUNDARY: once in the first tick of each frame. -/
def execFrameBoundary (s : State) : Out :=
  let f := s.cyc.toNat / 1024
  if s.cyc.toNat % 1024 ≠ 0 ∨ s.framed = f then .next s
  else
    let s := { s with framed := f, dies := Tab.mapVal (fun _ (d : Die) => d.atBoundary) s.dies }
    let s := s.resetQuota.bucketUpdate
    let cs := Tab.keys s.regions
    let s := (cs.foldl (fun s c => s.regionBoundary c) s).pollWindows
    .next { s with due := s.due ++ cs.flatMap s.boundarySteps }

/-! ### TICK -/

/-- Nodes whose pages list MEM among their causes (R86, R124, R160). -/
def countsMem (opc : Nat) : Bool :=
  [0x02, 0x03, 0x60, 0x61, 0x62, 0x63, 0x64, 0x67, 0x6A, 0x81, 0x84, 0xA0, 0xA2, 0xA3, 0xA4, 0xA5].contains opc

/-- An empty operand of the node is fed by one of some nodes. -/
def Region.awaits (r : Region) (es : List Nat) (e : Nat) : Bool :=
  r.chans.any (fun c => c.into e && c.q.isEmpty && (match c.prod with
    | .entry i _ => es.contains i
    | .task _ _ _ => false))

/-- Nodes that wait on some nodes through any number of channels, by fuel. -/
def Region.awaiting (r : Region) : Nat → List Nat → List Nat
  | 0, es => es
  | k + 1, es => r.awaiting k (es ++ (List.range r.entries.length).filter (fun e => !es.contains e && r.awaits es e))

/-- Nodes whose access is withheld, and everything that waits on them (R146). -/
def Region.memWaiters (r : Region) : List Nat :=
  match (r.accs.filter (fun a => a.withheld.isSome)).map (fun a => a.entry) with
  | [] => []
  | es => r.awaiting r.entries.length es.eraseDups

/-- A node's access waits at its target cell for a tile (R29); `fly` holds the accesses whose MREQs are still on their way. -/
def Region.tileWaits (r : Region) (fly : List Nat) (e : Nat) : Bool :=
  (r.accsOf e).any (fun a => a.space == 2 && !a.done && !fly.contains a.id && r.firstRemote a.cell a.target == some a.id
    && !r.remoteFree a.target (segRanges a.segs.flatten))

/-- The memory port holds a response or a request of the node: an access queued at a bank (R142), or room that is owed to
accesses not yet performed. -/
def Region.portWaits (r : Region) (e : Nat) (cause : Nat) : Bool :=
  (r.accsOf e).any (fun a => !a.banks.isEmpty)
    || (cause == 7 && !(r.accsOf e).isEmpty && [0, 1].all (fun p => r.room (.entry e p) 1))

/-- The cause that holds a node in this tick, by priority: an exchange, else what its last attempt met or its accesses
meet (R14). -/
def Region.stallCause (r : Region) (waiters fly : List Nat) (e : Nat) : Nat :=
  if r.nodeHeld e then 0
  else
    let cause := (r.node e).cause
    let opc := r.opcode e
    let cause := if r.tileWaits fly e then min cause 4 else cause
    if countsMem opc && (r.portWaits e cause || (waiters.contains e && (r.withheldAt e || cause == 6))) then min cause 5
    else cause

/-- A node's tick: it fired, or one stall counter of the copy its next token is dealt to rises (R14). -/
def Region.tickNode (r : Region) (waiters fly : List Nat) (e : Nat) (nd : Node) : Node :=
  if nd.fired then { nd with fired := false, cleared := [] }
  else
    let k := copyOf (r.fields e) nd.fire
    let el := nd.elem k
    let c := r.stallCause waiters fly e
    if nd.cleared.contains (k, c) then { nd with cleared := [] }
    else { nd.setElem k (setStall el c (if stallOf el c = 0xFFFF then 0xFFFF else stallOf el c + 1)) with cleared := [] }

/-- A region's tick. The nodes of cells that the wave has reached stand still. -/
def Region.tick (r : Region) (fly : List Nat) (now : Nat) : Region :=
  let waiters := r.memWaiters
  let r := r.deliverLate
  { r with now := now
           nodes := Tab.mapVal (fun e (nd : Node) =>
             if (r.cell (r.vcellOf e)).frozen then { nd with cleared := [] } else r.tickNode waiters fly e nd) r.nodes }

/-- Cells the wave of a freeze has reached by a tick and not yet stopped (R381). -/
def Region.waveSteps (r : Region) (c now : Nat) : List (Instr × Actor) :=
  match r.freeze with
  | none => []
  | some f =>
    ((List.range r.ncells).filter (fun v => !(r.cell v).frozen && decide (r.waveTick f v ≤ now))).map (fun v =>
      (.blackoutWaveArrive, .cell c v))

/-- The bucket requests of the tick are judged (R354); a node that is granted in the tick it asks is not held in it. -/
def State.judgeTick (s : State) : State :=
  let granted := s.tenants.flatMap (fun p => (p.2.judgeAll.grants.drop p.2.grants.length))
  let s := { s with tenants := Tab.mapVal (fun _ (t : Tenant) => t.judgeAll) s.tenants }
  granted.foldl (fun s a => match a with
    | .node c e => s.setRegion c ((s.region c).setNode e { (s.region c).node e with fired := true })
    | _ => s) s

/-- Slots whose SLEEPUNTIL time has come (R215). -/
def State.sleepSteps (s : State) : List (Instr × Actor) :=
  s.regions.flatMap (fun p => p.2.cells.flatMap (fun q => (q.2.slots.filter (fun k =>
    k.2.st == .sleep && !ltU s.cyc k.2.sleepTill && s.slotRuns p.1 q.1)).map (fun k => (.sleepExpiry, .slot p.1 q.1 k.1))))

/-- Slots whose markers go out from this tick on (R418). -/
def State.markerSteps (s : State) (t : Nat) : List (Instr × Actor) :=
  s.regions.flatMap (fun p => p.2.cells.flatMap (fun q => (q.2.slots.filter (fun k => !k.2.markers.isEmpty && k.2.markersAt == t)).map
    (fun k => (.markerSend, .slot p.1 q.1 k.1))))

/-- Engines with a command whose promise the tick reaches (R302). -/
def State.promiseSteps (s : State) (t : Nat) : List (Instr × Actor) :=
  (s.flys.filter (fun p => p.2.q.any (fun f => decide (f.promise ≤ t)))).map (fun p => (.flyPromiseExpiry, .fly p.1))

/-- A cell's task element has a slot to issue for in this cycle of its arithmetic clock (R20). -/
def State.issueOwed (s : State) : Bool :=
  s.regions.any (fun p => p.2.cells.any (fun q => q.2.slots.any (fun k => s.slotTurn p.1 q.1 k.1)))

/-- Accesses of a region whose MREQs are still on their way. -/
def State.flying (s : State) (c : Nat) : List Nat :=
  s.packets.filterMap (fun p => if p.cue == c && p.kind == 3 && !p.taken then p.mem.map (fun m => m.acc) else none)

/-- TICK: CYC advances once nothing is due in the present tick and every task element has issued (R20); what the new tick
brings is made due. -/
def execTick (s : State) : Out :=
  if !s.due.isEmpty || s.issueOwed then .next s
  else
    let s := s.judgeTick
    let now := s.cyc.toNat + 1
    let run (c : Nat) (r : Region) : Region := if r.started && (s.die r.die).power.running then r.tick (s.flying c) now else { r with now := now }
    let s := { s with cyc := s.cyc + 1, regions := Tab.mapVal run s.regions
                      packets := s.packets.filter (fun p => !p.taken) }
    let t := s.cyc.toNat
    .next { s with
      due := (if t % 1024 = 0 then [(.frameBoundary, .none)] else []) ++
        s.regions.flatMap (fun p => p.2.waveSteps p.1 t) ++ s.sleepSteps ++ s.markerSteps t ++ s.promiseSteps t ++ s.netSteps t }

end Sys2Proof.Machine
end

