-- ==== Sys2Proof/Machine/Events.lean ====
section
/-! DEFINITION. What comes from outside the programs: power states reached (R401, R402), the thermal trip (R7, R403),
errors (R390), the host's memory accesses (R392) and reset (R280). -/

namespace Sys2Proof.Machine

def State.actDie (s : State) : Nat :=
  match s.actor with
  | .die d => d
  | _ => 4

/-! ### Power (R6, R401, R402) -/

/-- No cue on a die is RUNNING or PLACING and no exchange is in progress there. -/
def State.dieQuiet (s : State) (d : Nat) : Bool :=
  (s.die d).placing.isNone &&
  s.regions.all (fun p => p.2.die != d || ((s.cue p.1).st != .running && (s.cue p.1).st != .placing &&
    p.2.exchanges.all (fun x => x.stage == 2 && x.routed)))

/-- The die's Wings units hold no queued block or call (R311, R402). -/
def State.wingsEmpty (s : State) (d : Nat) : Bool :=
  (List.range 3).all (fun k =>
    let u := s.wing (3 * d + k)
    u.qm.isEmpty && u.qs.isEmpty && u.running.isEmpty && u.evicting.isNone)

/-- The die may enter the commanded state. -/
def State.mayEnter (s : State) (d : Nat) (p : Power) : Bool :=
  match p with
  | .dark => s.dieQuiet d
  | .off => !s.dieHeld d && (s.die d).placing.isNone && s.wingsEmpty d
  | _ => true

/-- A translating unit lies on a die. -/
def unitOn (d u : Nat) : Bool :=
  (decide (72 * d ≤ u) && decide (u < 72 * d + 72)) || (decide (wingsUnit (3 * d) ≤ u) && decide (u < wingsUnit (3 * d + 3))) ||
  u == placerUnit d

/-- A Fly or Wings engine of a die. -/
def engineOn (d : Nat) : Actor → Bool
  | .fly e => e / 16 == d
  | .wings k _ => k / 3 == d
  | _ => false

/-- A byte of a die's cells. -/
def dieKey (d key : Nat) : Bool :=
  (decide (poolKey d 0 0 ≤ key) && decide (key < poolKey (d + 1) 0 0)) ||
  (decide (tableKey d 0 0 ≤ key) && decide (key < tableKey (d + 1) 0 0)) ||
  (decide (storeKey d 0 0 ≤ key) && decide (key < storeKey (d + 1) 0 0))

/-- Entering OFF: all die state is lost but the soundness map and what the management domain keeps (R6, R402). LB, FQ, EVLOW and
the free list then hold what they hold after reset, which no rule says (DESIGN CHOICE, log 23). A block or call that a region of
another die has at a Wings unit of a die that trips, or a command at a Fly engine there, is lost with the unit's queues and
reported to nobody, so that its issuer may complete without it or wait for its tiles or rows for ever; no rule says what becomes
of it (DESIGN CHOICE, log 23). -/
def State.loseDie (s : State) (d : Nat) : State :=
  let old := s.die d
  { s.forgetDraws (engineOn d) with
    mem := s.mem.filter (fun p => !dieKey d p.1)
    tlb := s.tlb.filter (fun t => !unitOn d t.unit)
    flys := s.flys.filter (fun p => p.1 / 16 != d)
    wings := s.wings.filter (fun p => p.1 / 3 != d)
    pcells := s.pcells.filter (fun p => p.1 / 576 != d)
    dies := Tab.set s.dies d { power := .off, tripped := old.tripped, sound := old.sound : Die } }

/-- Finish the POWER command that waits for a die, if any. -/
def State.finishPower (s : State) (d code : Nat) : State :=
  match (s.win 0).busy with
  | some (.powerRunningCmd _ c) | some (.powerDarkCmd _ c) | some (.powerOffCmd _ c) =>
    if cmdDie c = d then s.finish 0 code else s
  | _ => s

/-- POWER_STATE_REACHED: a transition that has started makes its next step; the command is DONE when the commanded
state holds. -/
def execPowerStateReached (s : State) : Out :=
  let d := s.actDie
  let die := s.die d
  match die.target with
  | none => .next s
  | some p =>
    if die.moving = false ∨ s.mayEnter d p = false then .next s
    else
      let q := powerStep die.power p
      if q ≠ p then .next (s.setDie d { die with power := q })
      else
        let s := s.setDie d { die with power := p, target := none, moving := false }
        let s := if p = .off then s.loseDie d else s
        .next (s.finishPower d resOk)

/-! ### The thermal trip (R7, R389, R403) -/

/-- A region is lost without a tableau, and its cue becomes FAILED. -/
def State.loseRegion (s : State) (c : Nat) : State :=
  ((((s.dropTableau c).markJob c (fun p => { p with started := false })).freeRegion c)).moveCue c .failed .word0

/-- THERMAL_TRIP: the die moves to OFF; VAL0 is the die, VAL1 the cues lost. -/
def execThermalTrip (s : State) : Out :=
  let d := s.actDie
  if 3 < d ∨ (s.die d).tripped then .next s
  else
    let cs := Tab.keys (s.regions.filter (fun p => p.2.die == d))
    let s := cs.foldl (fun s c => s.loseRegion c) s
    let s := s.setDie d { s.die d with tripped := true }
    let s := (s.loseDie d).finishPower d resState
    .next (s.postRec (mkRec 0x0C 0 0 d 0 0 0 0 noEntry 0 0 d cs.length 0))

/-- THERMAL_TRIP_CLEAR: POWER commands for the die are accepted again. -/
def execThermalTripClear (s : State) : Out :=
  let d := s.actDie
  if 3 < d then .next s else .next (s.setDie d { s.die d with tripped := false })

/-! ### Errors (R390) -/

/-- The stretch, who meets the error, its two numbers, and the address. -/
def State.actError (s : State) : Nat × Nat × Nat × Nat × Nat :=
  match s.actor with
  | .error st k a b addr => (st, k, a, b, addr)
  | _ => (0, 0, 0, 0, 0)

/-- CORRECTABLE_ERROR: corrected or retried; HBM and SRAM errors are counted on their die, the first number. -/
def execCorrectableError (s : State) : Out :=
  let (st, _, d, _, _) := s.actError
  if (st = 1 ∨ st = 3) ∧ d ≤ 3 then
    let die := s.die d
    .next (s.setDie d { die with errors := Tab.set die.errors st (Tab.get die.errors st 0 + 1) })
  else .next s

/-- The UE incident of a stretch. -/
def ueRec (ten die cue v slot entry fire v0 st : Nat) : Rec := mkRec 0x09 0 ten die cue v slot 0 entry 0 fire v0 st 0

/-- A region freezes on an error, from a cell. -/
def State.ueFreeze (s : State) (c v slot entry fire v0 st : Nat) : State :=
  let r := s.region c
  if Tab.has s.regions c && r.started then s.startFreeze c v 2 true (ueRec r.tenant r.die c v slot entry fire v0 st) else s

/-- A read of a task slot meets an error: the slot freezes as at a violation. -/
def State.ueSlot (s : State) (c v k addr st : Nat) : State :=
  let r := s.region c
  let sl := r.slot v k
  if !Tab.has s.regions c || !r.started || sl.st == .free || sl.st == .frozen || sl.st == .done then s
  else
    (s.setRegion c (r.setSlot v k { sl with st := .frozen, before := sl.st, waiting := .nothing })).ueFreeze c v k noEntry sl.pc.toNat addr st

/-- A read of a node meets an error: MEM_UE, of an access presented or of the firing its operands stand for. -/
def State.ueAccess (s : State) (c id addr : Nat) : State :=
  match (s.region c).accs.find? (fun a => a.id == id && !a.done) with
  | some a => s.accStop c a 0x01 (nfaultCode .memUe) addr 0
  | none => s
def State.ueNode (s : State) (c e addr : Nat) : State :=
  let r := s.region c
  if Tab.has s.regions c && r.started && decide (e < r.entries.length) then
    { s with actor := .node c e }.nodeFault (r.fields e) .memUe (r.namedOps e) 0 addr 0
  else s

/-- A Fly engine's or Wings engine's command meets an error: it stops, and its region freezes. -/
def State.ueFly (s : State) (e addr st : Nat) : State :=
  match (s.fly e).q with
  | [] => s
  | f :: _ =>
    (s.putCmd e { f with stopped := true }).ueFreeze f.cue f.vcell (if f.task then f.agent else 0)
      (if f.task then noEntry else f.agent) f.fire addr st
def State.ueWings (s : State) (k e addr st : Nat) : State :=
  match ((s.wing k).running.find? (fun p => p.1 == e)).map (fun p => p.2) with
  | none => s
  | some w =>
    (s.putBlk k e { w with stopped := true }).ueFreeze w.cue w.vcell (if w.task then w.agent else 0)
      (if w.task then noEntry else w.agent) w.fire addr st

/-- Who reads what an error strikes: 0 a node's access (cue, number), 1 a task slot (cue, 16 × cell + slot), 2 a Fly
engine, 3 a Wings engine (stack, engine), 4 a node's firing (cue, entry); nobody otherwise. -/
def State.ueConsumer (s : State) (kind a b addr st : Nat) : State :=
  match kind with
  | 0 => s.ueAccess a b addr
  | 1 => s.ueSlot a (b / 16) (b % 16) addr st
  | 2 => s.ueFly a addr st
  | 3 => s.ueWings a b addr st
  | 4 => s.ueNode a b addr
  | _ => s

/-- Lanes after an uncorrectable error, at most 64: the spec states none, and each is free (log 7). -/
def State.spoil (s : State) (ls : List Lane) : List Lane := (List.range ls.length).map (fun k => Config.freeLane (s.free + k))

def Token.spoil (s : State) : Token → Token
  | .data ls => .data (s.spoil ls)
  | .cfg k t ls => .cfg k t (s.spoil ls)
  | t => t

/-- A channel's last token fails its check at the consumer end: the region freezes from there. -/
def State.ueChannel (s : State) (c k : Nat) : State :=
  let r := s.region c
  match r.chans[k]? with
  | none => s
  | some ch =>
    let bad (ch : Chan) : Chan := { ch with q := ch.q.dropLast ++ (ch.q.getLast?.map (Token.spoil s)).toList }
    let s' := s.setRegion c { r with chans := r.chans.zipIdx.map (fun q => if q.2 = k then bad q.1 else q.1) }
    (s'.ueFreeze c (r.endCell ch.cons) 0 noEntry 0 4 4).skipFree 64

/-- A packet fails its check: its region freezes. -/
def State.uePacket (s : State) (id : Nat) : State :=
  match s.packets.find? (fun p => p.id == id && !p.taken) with
  | none => s
  | some p =>
    let s' := { s with packets := s.packets.map (fun (q : Packet) => if q.id = id then { q with lanes := s.spoil q.lanes } else q) }
    (s'.ueFreeze p.cue p.srcCell 0 noEntry 0 5 5).skipFree 64

/-- The configuration network or a readout fails: a placement ends, a tableau is written again. -/
def State.ueOperation (s : State) (c : Nat) : State :=
  let r := s.region c
  let q := ueRec r.tenant r.die c 0 0 noEntry 0 6 6
  if (s.cue c).st = .placing then ((s.freeRegion c).moveCue c .failed .word0).postRec q
  else if r.frozen && r.tableau.isSome then
    let s := s.dropTableau c
    ({ s with due := s.due ++ [(Instr.tableauReadout, Actor.region c)] }).postRec q
  else s

/-- UNCORRECTABLE_ERROR, by stretch; in a cell's memories the cell's soundness bit clears and an incident is posted
(R332). -/
def execUncorrectableError (s : State) : Out :=
  let (st, kind, a, b, addr) := s.actError
  match st with
  | 1 | 2 | 7 => .next (s.ueConsumer kind a b addr st)
  | 3 =>
    let d := addr / 576
    if 3 < d then .next s
    else
      let s := s.setDie d { s.die d with sound := setBit (s.die d).sound (addr % 576) false }
      .next ((s.postRec (ueRec 0 d 0 0 0 noEntry 0 3 3)).ueConsumer kind a b 3 3)
  | 4 => .next (s.ueChannel a b)
  | 5 => .next (s.uePacket a)
  | 6 => .next (s.ueOperation a)
  | 8 => .next (s.postRec (ueRec 0 0 0 0 0 noEntry 0 8 8))
  | _ => .next s

/-! ### Host memory accesses (R275, R392) -/

/-- A byte range lies in HBM, or in the host's own memory, where the host's stores reach without the part (log 20). -/
def hostRange (a n : Nat) : Bool := decide (a + n ≤ 12 * 2 ^ 36) || (decide (2 ^ 51 ≤ a) && decide (a + n ≤ 2 ^ 52))

/-- Its stacks lie on dies that run; on others the access waits (R402). -/
def State.hbmReady (s : State) (a n : Nat) : Bool :=
  (List.range 12).all (fun k => !(decide (k * 2 ^ 36 < a + n) && decide (a < (k + 1) * 2 ^ 36)) || (s.die (dieOfStack k)).power.running)

/-- HOST_MEMORY_ACCESS: a read leaves the state as it is; a write is performed at once. -/
def execHostMemoryAccess (s : State) : Out :=
  match s.actor with
  | .host (.read a n) => if hostRange a n then .next s else .fault (.noSuchHostAddress a)
  | .host (.write a bs) =>
    if !hostRange a bs.length then .fault (.noSuchHostAddress a)
    else if s.hbmReady a bs.length then .next (s.write a bs) else .next s
  | _ => .next s

/-! ### RESET (R280, R290, R353) -/

/-- RESET: every cue FREE and the defaults of the dies. Memory keeps its bytes (log 3), the fused counter its value. The boot ROM
verifies the boot image (R405); where that fails only FWLOAD is accepted, as after a failed FWLOAD (log 8). -/
def execReset (s : State) : Out :=
  .next { State.reset with mem := s.mem, free := s.free, fwVersion := s.fwVersion
                           fwOnly := !(Config.bootSigned && decide (s.fwVersion ≤ Config.bootVersion)) }

end Sys2Proof.Machine
end

