-- ==== Sys2Proof/Machine/TaskVec.lean ====
section
/-! DEFINITION. The vector group (R204 to R206). Each lane follows the node of the same name with MOD = 0. -/

namespace Sys2Proof.Machine

def execVadd (d a b : VReg) (t : Fmt) (s : State) : Out :=
  .next (s.writeVec d (vec2 (addLane t .plain) (s.rv a) (s.rv b)))
def execVsub (d a b : VReg) (t : Fmt) (s : State) : Out :=
  .next (s.writeVec d (vec2 (subLane t .plain) (s.rv a) (s.rv b)))
def execVmul (d a b : VReg) (t : Fmt) (s : State) : Out :=
  .next (s.writeVec d (vec2 (mulLane t .plain) (s.rv a) (s.rv b)))
/-- VFMA adds the old v[d] (R192, R205). -/
def execVfma (d a b : VReg) (t : Fmt) (s : State) : Out :=
  .next (s.writeVec d (vecThree (fmaLane t .plain) (s.rv a) (s.rv b) (s.rv d)))
def execVmin (d a b : VReg) (t : Fmt) (s : State) : Out :=
  .next (s.writeVec d (vec2 (minLane t) (s.rv a) (s.rv b)))
def execVmax (d a b : VReg) (t : Fmt) (s : State) : Out :=
  .next (s.writeVec d (vec2 (maxLane t) (s.rv a) (s.rv b)))
def execVand (d a b : VReg) (t : Fmt) (s : State) : Out :=
  .next (s.writeVec d (vec2 (andLane t) (s.rv a) (s.rv b)))
def execVor (d a b : VReg) (t : Fmt) (s : State) : Out :=
  .next (s.writeVec d (vec2 (orLane t) (s.rv a) (s.rv b)))
def execVshl (d a b : VReg) (t : Fmt) (s : State) : Out :=
  .next (s.writeVec d (vec2 (shlLane t) (s.rv a) (s.rv b)))
def execVshr (d a b : VReg) (t : Fmt) (s : State) : Out :=
  .next (s.writeVec d (vec2 (shrLane t) (s.rv a) (s.rv b)))
def execVeq (d a b : VReg) (t : Fmt) (s : State) : Out :=
  .next (s.writeVec d (vec2 (relEq t) (s.rv a) (s.rv b)))
def execVlt (d a b : VReg) (t : Fmt) (s : State) : Out :=
  .next (s.writeVec d (vec2 (relLt t) (s.rv a) (s.rv b)))

/-- VSPLAT: every lane the low bits of g[a], placed by R38. -/
def execVsplat (d : VReg) (a : Reg) (t : Fmt) (s : State) : Out :=
  .next (s.writeVec d (Vector.replicate 16 (placeBits t (s.rg a).toNat)))

/-- VGET: lane g[b] of v[a]; a lane number of 16 or more raises BOUNDS (R206). -/
def execVget (d : Reg) (a : VReg) (b : Reg) (t : Fmt) (s : State) : Out :=
  if 16 ≤ (s.rg b).toNat then .next (s.trap .bounds (s.rg b))
  else .next (s.writeReg d (getLane t (laneAt (s.rv a) (s.rg b).toNat)))

/-- VPUT: lane g[b] of v[d] from the low bits of g[a]; the other lanes keep. -/
def execVput (d : VReg) (a b : Reg) (t : Fmt) (s : State) : Out :=
  if 16 ≤ (s.rg b).toNat then .next (s.trap .bounds (s.rg b))
  else .next (s.writeVec d ((s.rv d).setIfInBounds (s.rg b).toNat (placeBits t (s.rg a).toNat)))

/-- VCVT: each lane by R47 from format t to format u, RNE, no saturation, subnormals kept. -/
def execVcvt (d a : VReg) (u t : Fmt) (s : State) : Out :=
  .next (s.writeVec d (vec1 (cvtLane t u .plain) (s.rv a)))

/-- VRSUM: the R58 tree over 16 lanes, placed as VGET places a lane. -/
def execVrsum (d : Reg) (a : VReg) (t : Fmt) (s : State) : Out :=
  .next (s.writeReg d (getLane t (redLanes .sum t .plain (s.rv a).toList)))

end Sys2Proof.Machine
end

