-- ==== Sys2Proof/Machine/Dispatch.lean ====
section
/-! DEFINITION. The one dispatch: an arm for each constructor of `Instr`, each a direct call of its meaning. -/

namespace Sys2Proof.Machine

def exec (i : Instr) (s : State) : Host.Outcome State Fault Refusal :=
  match i with
  | .add d a b => Sys2Proof.Machine.execAdd d a b s
  | .sub d a b => Sys2Proof.Machine.execSub d a b s
  | .and d a b => Sys2Proof.Machine.execAnd d a b s
  | .or d a b => Sys2Proof.Machine.execOr d a b s
  | .xor d a b => Sys2Proof.Machine.execXor d a b s
  | .sll d a b => Sys2Proof.Machine.execSll d a b s
  | .srl d a b => Sys2Proof.Machine.execSrl d a b s
  | .sra d a b => Sys2Proof.Machine.execSra d a b s
  | .slt d a b => Sys2Proof.Machine.execSlt d a b s
  | .sltu d a b => Sys2Proof.Machine.execSltu d a b s
  | .min d a b => Sys2Proof.Machine.execMin d a b s
  | .max d a b => Sys2Proof.Machine.execMax d a b s
  | .mul d a b => Sys2Proof.Machine.execMul d a b s
  | .mulh d a b => Sys2Proof.Machine.execMulh d a b s
  | .div d a b => Sys2Proof.Machine.execDiv d a b s
  | .divu d a b => Sys2Proof.Machine.execDivu d a b s
  | .rem d a b => Sys2Proof.Machine.execRem d a b s
  | .divt d a b => Sys2Proof.Machine.execDivt d a b s
  | .clz d a => Sys2Proof.Machine.execClz d a s
  | .popc d a => Sys2Proof.Machine.execPopc d a s
  | .addi d a imm => Sys2Proof.Machine.execAddi d a imm s
  | .andi d a imm => Sys2Proof.Machine.execAndi d a imm s
  | .ori d a imm => Sys2Proof.Machine.execOri d a imm s
  | .xori d a imm => Sys2Proof.Machine.execXori d a imm s
  | .slli d a sh => Sys2Proof.Machine.execSlli d a sh s
  | .srli d a sh => Sys2Proof.Machine.execSrli d a sh s
  | .srai d a sh => Sys2Proof.Machine.execSrai d a sh s
  | .slti d a imm => Sys2Proof.Machine.execSlti d a imm s
  | .lui d imm => Sys2Proof.Machine.execLui d imm s
  | .lhi d a imm => Sys2Proof.Machine.execLhi d a imm s
  | .ldb d a imm => Sys2Proof.Machine.execLdb d a imm s
  | .ldbu d a imm => Sys2Proof.Machine.execLdbu d a imm s
  | .ldh d a imm => Sys2Proof.Machine.execLdh d a imm s
  | .ldhu d a imm => Sys2Proof.Machine.execLdhu d a imm s
  | .ldw d a imm => Sys2Proof.Machine.execLdw d a imm s
  | .ldwu d a imm => Sys2Proof.Machine.execLdwu d a imm s
  | .ldd d a imm => Sys2Proof.Machine.execLdd d a imm s
  | .vld d a imm => Sys2Proof.Machine.execVld d a imm s
  | .stb d a imm => Sys2Proof.Machine.execStb d a imm s
  | .sth d a imm => Sys2Proof.Machine.execSth d a imm s
  | .stw d a imm => Sys2Proof.Machine.execStw d a imm s
  | .std d a imm => Sys2Proof.Machine.execStd d a imm s
  | .vst d a imm => Sys2Proof.Machine.execVst d a imm s
  | .beq a b o => Sys2Proof.Machine.execBeq a b o s
  | .bne a b o => Sys2Proof.Machine.execBne a b o s
  | .blt a b o => Sys2Proof.Machine.execBlt a b o s
  | .bge a b o => Sys2Proof.Machine.execBge a b o s
  | .bltu a b o => Sys2Proof.Machine.execBltu a b o s
  | .bgeu a b o => Sys2Proof.Machine.execBgeu a b o s
  | .j o => Sys2Proof.Machine.execJ o s
  | .jal o => Sys2Proof.Machine.execJal o s
  | .jalr d a imm => Sys2Proof.Machine.execJalr d a imm s
  | .pushm first last => Sys2Proof.Machine.execPushm first last s
  | .popm first last => Sys2Proof.Machine.execPopm first last s
  | .csrr d c => Sys2Proof.Machine.execCsrr d c s
  | .csrw d a c => Sys2Proof.Machine.execCsrw d a c s
  | .csrs d a c => Sys2Proof.Machine.execCsrs d a c s
  | .csrc d a c => Sys2Proof.Machine.execCsrc d a c s
  | .vadd d a b t => Sys2Proof.Machine.execVadd d a b t s
  | .vsub d a b t => Sys2Proof.Machine.execVsub d a b t s
  | .vmul d a b t => Sys2Proof.Machine.execVmul d a b t s
  | .vfma d a b t => Sys2Proof.Machine.execVfma d a b t s
  | .vmin d a b t => Sys2Proof.Machine.execVmin d a b t s
  | .vmax d a b t => Sys2Proof.Machine.execVmax d a b t s
  | .vand d a b t => Sys2Proof.Machine.execVand d a b t s
  | .vor d a b t => Sys2Proof.Machine.execVor d a b t s
  | .vshl d a b t => Sys2Proof.Machine.execVshl d a b t s
  | .vshr d a b t => Sys2Proof.Machine.execVshr d a b t s
  | .veq d a b t => Sys2Proof.Machine.execVeq d a b t s
  | .vlt d a b t => Sys2Proof.Machine.execVlt d a b t s
  | .vsplat d a t => Sys2Proof.Machine.execVsplat d a t s
  | .vget d a b t => Sys2Proof.Machine.execVget d a b t s
  | .vput d a b t => Sys2Proof.Machine.execVput d a b t s
  | .vcvt d a u t => Sys2Proof.Machine.execVcvt d a u t s
  | .vrsum d a t => Sys2Proof.Machine.execVrsum d a t s
  | .fadd d a b => Sys2Proof.Machine.execFadd d a b s
  | .fsub d a b => Sys2Proof.Machine.execFsub d a b s
  | .fmul d a b => Sys2Proof.Machine.execFmul d a b s
  | .fdiv d a b => Sys2Proof.Machine.execFdiv d a b s
  | .fsqrt d a => Sys2Proof.Machine.execFsqrt d a s
  | .flt d a b => Sys2Proof.Machine.execFlt d a b s
  | .fcvtif d a => Sys2Proof.Machine.execFcvtif d a s
  | .fcvtfi d a => Sys2Proof.Machine.execFcvtfi d a s
  | .aadd d a b r w => Sys2Proof.Machine.execAadd d a b r w s
  | .amax d a b r w => Sys2Proof.Machine.execAmax d a b r w s
  | .amin d a b r w => Sys2Proof.Machine.execAmin d a b r w s
  | .aand d a b r w => Sys2Proof.Machine.execAand d a b r w s
  | .aor d a b r w => Sys2Proof.Machine.execAor d a b r w s
  | .aswp d a b r w => Sys2Proof.Machine.execAswp d a b r w s
  | .acas d a b r w => Sys2Proof.Machine.execAcas d a b r w s
  | .afadd d a b r => Sys2Proof.Machine.execAfadd d a b r s
  | .amaxa d a b r => Sys2Proof.Machine.execAmaxa d a b r s
  | .fenceAcq r => Sys2Proof.Machine.execFenceAcq r s
  | .fenceRel r => Sys2Proof.Machine.execFenceRel r s
  | .fenceFull r => Sys2Proof.Machine.execFenceFull r s
  | .tflip d a e n => Sys2Proof.Machine.execTflip d a e n s
  | .twait a e => Sys2Proof.Machine.execTwait a e s
  | .recv d e => Sys2Proof.Machine.execRecv d e s
  | .recvv d e => Sys2Proof.Machine.execRecvv d e s
  | .send a e => Sys2Proof.Machine.execSend a e s
  | .sendv a e => Sys2Proof.Machine.execSendv a e s
  | .sendp a b c => Sys2Proof.Machine.execSendp a b c s
  | .maskc c => Sys2Proof.Machine.execMaskc c s
  | .unmaskc c => Sys2Proof.Machine.execUnmaskc c s
  | .sleepuntil a => Sys2Proof.Machine.execSleepuntil a s
  | .flyc d a => Sys2Proof.Machine.execFlyc d a s
  | .wngc d a => Sys2Proof.Machine.execWngc d a s
  | .tload a b => Sys2Proof.Machine.execTload a b s
  | .bara a r => Sys2Proof.Machine.execBara a r s
  | .barw a r => Sys2Proof.Machine.execBarw a r s
  | .baraw a r => Sys2Proof.Machine.execBaraw a r s
  | .ecall => Sys2Proof.Machine.execEcall s
  | .eret => Sys2Proof.Machine.execEret s
  | .brk => Sys2Proof.Machine.execBrk s
  | .illegalWord w => Sys2Proof.Machine.execIllegalWord w s
  | .taskWake => Sys2Proof.Machine.execTaskWake s
  | .sleepExpiry => Sys2Proof.Machine.execSleepExpiry s
  | .taskWaitResume => Sys2Proof.Machine.execTaskWaitResume s
  | .constN n => Sys2Proof.Machine.execConstN n s
  | .iotaN n => Sys2Proof.Machine.execIotaN n s
  | .srcN n => Sys2Proof.Machine.execSrcN n s
  | .snkN n => Sys2Proof.Machine.execSnkN n s
  | .steerN n => Sys2Proof.Machine.execSteerN n s
  | .mergeN n => Sys2Proof.Machine.execMergeN n s
  | .carryN n => Sys2Proof.Machine.execCarryN n s
  | .invN n => Sys2Proof.Machine.execInvN n s
  | .gateN n => Sys2Proof.Machine.execGateN n s
  | .barN n => Sys2Proof.Machine.execBarN n s
  | .curtN n => Sys2Proof.Machine.execCurtN n s
  | .movN n => Sys2Proof.Machine.execMovN n s
  | .addN n => Sys2Proof.Machine.execAddN n s
  | .subN n => Sys2Proof.Machine.execSubN n s
  | .mulN n => Sys2Proof.Machine.execMulN n s
  | .fmaN n => Sys2Proof.Machine.execFmaN n s
  | .fmsN n => Sys2Proof.Machine.execFmsN n s
  | .fnmaN n => Sys2Proof.Machine.execFnmaN n s
  | .divN n => Sys2Proof.Machine.execDivN n s
  | .sqrtN n => Sys2Proof.Machine.execSqrtN n s
  | .negN n => Sys2Proof.Machine.execNegN n s
  | .absN n => Sys2Proof.Machine.execAbsN n s
  | .minN n => Sys2Proof.Machine.execMinN n s
  | .maxN n => Sys2Proof.Machine.execMaxN n s
  | .mulhN n => Sys2Proof.Machine.execMulhN n s
  | .remN n => Sys2Proof.Machine.execRemN n s
  | .clampN n => Sys2Proof.Machine.execClampN n s
  | .cmpeqN n => Sys2Proof.Machine.execCmpeqN n s
  | .cmpneN n => Sys2Proof.Machine.execCmpneN n s
  | .cmpltN n => Sys2Proof.Machine.execCmpltN n s
  | .cmpleN n => Sys2Proof.Machine.execCmpleN n s
  | .cmpgtN n => Sys2Proof.Machine.execCmpgtN n s
  | .cmpgeN n => Sys2Proof.Machine.execCmpgeN n s
  | .cmpunN n => Sys2Proof.Machine.execCmpunN n s
  | .classN n => Sys2Proof.Machine.execClassN n s
  | .selN n => Sys2Proof.Machine.execSelN n s
  | .andN n => Sys2Proof.Machine.execAndN n s
  | .orN n => Sys2Proof.Machine.execOrN n s
  | .xorN n => Sys2Proof.Machine.execXorN n s
  | .notN n => Sys2Proof.Machine.execNotN n s
  | .andnN n => Sys2Proof.Machine.execAndnN n s
  | .shlN n => Sys2Proof.Machine.execShlN n s
  | .shrN n => Sys2Proof.Machine.execShrN n s
  | .shraN n => Sys2Proof.Machine.execShraN n s
  | .rotlN n => Sys2Proof.Machine.execRotlN n s
  | .popcN n => Sys2Proof.Machine.execPopcN n s
  | .clzN n => Sys2Proof.Machine.execClzN n s
  | .ctzN n => Sys2Proof.Machine.execCtzN n s
  | .brevN n => Sys2Proof.Machine.execBrevN n s
  | .floorN n => Sys2Proof.Machine.execFloorN n s
  | .ceilN n => Sys2Proof.Machine.execCeilN n s
  | .truncN n => Sys2Proof.Machine.execTruncN n s
  | .rintN n => Sys2Proof.Machine.execRintN n s
  | .copysignN n => Sys2Proof.Machine.execCopysignN n s
  | .absdiffN n => Sys2Proof.Machine.execAbsdiffN n s
  | .cvtN n => Sys2Proof.Machine.execCvtN n s
  | .quantN n => Sys2Proof.Machine.execQuantN n s
  | .deqN n => Sys2Proof.Machine.execDeqN n s
  | .scaleN n => Sys2Proof.Machine.execScaleN n s
  | .sclwN n => Sys2Proof.Machine.execSclwN n s
  | .rsumN n => Sys2Proof.Machine.execRsumN n s
  | .rmaxN n => Sys2Proof.Machine.execRmaxN n s
  | .rminN n => Sys2Proof.Machine.execRminN n s
  | .rmaxaN n => Sys2Proof.Machine.execRmaxaN n s
  | .rdotN n => Sys2Proof.Machine.execRdotN n s
  | .wsumN n => Sys2Proof.Machine.execWsumN n s
  | .wmaxN n => Sys2Proof.Machine.execWmaxN n s
  | .wminN n => Sys2Proof.Machine.execWminN n s
  | .wmaxaN n => Sys2Proof.Machine.execWmaxaN n s
  | .shufN n => Sys2Proof.Machine.execShufN n s
  | .bcastN n => Sys2Proof.Machine.execBcastN n s
  | .packN n => Sys2Proof.Machine.execPackN n s
  | .unpackN n => Sys2Proof.Machine.execUnpackN n s
  | .ldsN n => Sys2Proof.Machine.execLdsN n s
  | .stsN n => Sys2Proof.Machine.execStsN n s
  | .ldgN n => Sys2Proof.Machine.execLdgN n s
  | .stgN n => Sys2Proof.Machine.execStgN n s
  | .atmN n => Sys2Proof.Machine.execAtmN n s
  | .fencenN n => Sys2Proof.Machine.execFencenN n s
  | .ordjN n => Sys2Proof.Machine.execOrdjN n s
  | .tfillN n => Sys2Proof.Machine.execTfillN n s
  | .ttagN n => Sys2Proof.Machine.execTtagN n s
  | .twaitnN n => Sys2Proof.Machine.execTwaitnN n s
  | .ldiN n => Sys2Proof.Machine.execLdiN n s
  | .mmaN n => Sys2Proof.Machine.execMmaN n s
  | .mvmN n => Sys2Proof.Machine.execMvmN n s
  | .gmmaN n => Sys2Proof.Machine.execGmmaN n s
  | .wscaleN n => Sys2Proof.Machine.execWscaleN n s
  | .mxmaxN n => Sys2Proof.Machine.execMxmaxN n s
  | .tselN n => Sys2Proof.Machine.execTselN n s
  | .tswapN n => Sys2Proof.Machine.execTswapN n s
  | .tevalN n => Sys2Proof.Machine.execTevalN n s
  | .chainN n => Sys2Proof.Machine.execChainN n s
  | .csumN n => Sys2Proof.Machine.execCsumN n s
  | .flypN n => Sys2Proof.Machine.execFlypN n s
  | .wngpN n => Sys2Proof.Machine.execWngpN n s
  | .sendnN n => Sys2Proof.Machine.execSendnN n s
  | .recvnN n => Sys2Proof.Machine.execRecvnN n s
  | .cfgTokenTake => Sys2Proof.Machine.execCfgTokenTake s
  | .eosTokenTake => Sys2Proof.Machine.execEosTokenTake s
  | .curtainTokenTake => Sys2Proof.Machine.execCurtainTokenTake s
  | .leaveGrant => Sys2Proof.Machine.execLeaveGrant s
  | .flyCommandStart => Sys2Proof.Machine.execFlyCommandStart s
  | .flyPiece => Sys2Proof.Machine.execFlyPiece s
  | .flyCommandComplete => Sys2Proof.Machine.execFlyCommandComplete s
  | .flyPromiseExpiry => Sys2Proof.Machine.execFlyPromiseExpiry s
  | .wingsBlockStart => Sys2Proof.Machine.execWingsBlockStart s
  | .wingsBlockComplete => Sys2Proof.Machine.execWingsBlockComplete s
  | .tloadCopyComplete => Sys2Proof.Machine.execTloadCopyComplete s
  | .pageWalk => Sys2Proof.Machine.execPageWalk s
  | .eviction => Sys2Proof.Machine.execEviction s
  | .scratchpadBankServe => Sys2Proof.Machine.execScratchpadBankServe s
  | .remoteAccessServe => Sys2Proof.Machine.execRemoteAccessServe s
  | .frameBoundary => Sys2Proof.Machine.execFrameBoundary s
  | .pageHold => Sys2Proof.Machine.execPageHold s
  | .curtainHold => Sys2Proof.Machine.execCurtainHold s
  | .swapInstant => Sys2Proof.Machine.execSwapInstant s
  | .crossingTransferStart => Sys2Proof.Machine.execCrossingTransferStart s
  | .crossingCommit => Sys2Proof.Machine.execCrossingCommit s
  | .crossingReroute => Sys2Proof.Machine.execCrossingReroute s
  | .leaseEnd => Sys2Proof.Machine.execLeaseEnd s
  | .controlCueCond => Sys2Proof.Machine.execControlCueCond s
  | .controlCueLoop => Sys2Proof.Machine.execControlCueLoop s
  | .controlCueSwitch => Sys2Proof.Machine.execControlCueSwitch s
  | .placement => Sys2Proof.Machine.execPlacement s
  | .regionStart => Sys2Proof.Machine.execRegionStart s
  | .regionCompletion => Sys2Proof.Machine.execRegionCompletion s
  | .barrierPhaseComplete => Sys2Proof.Machine.execBarrierPhaseComplete s
  | .curtainComplete => Sys2Proof.Machine.execCurtainComplete s
  | .blackoutWaveArrive => Sys2Proof.Machine.execBlackoutWaveArrive s
  | .tableauReadout => Sys2Proof.Machine.execTableauReadout s
  | .packetInject => Sys2Proof.Machine.execPacketInject s
  | .packetHop => Sys2Proof.Machine.execPacketHop s
  | .packetArrive => Sys2Proof.Machine.execPacketArrive s
  | .markerSend => Sys2Proof.Machine.execMarkerSend s
  | .thermalTrip => Sys2Proof.Machine.execThermalTrip s
  | .uncorrectableError => Sys2Proof.Machine.execUncorrectableError s
  | .correctableError => Sys2Proof.Machine.execCorrectableError s
  | .powerStateReached => Sys2Proof.Machine.execPowerStateReached s
  | .hostMemoryAccess => Sys2Proof.Machine.execHostMemoryAccess s
  | .reset => Sys2Proof.Machine.execReset s
  | .launchCmd win c => Sys2Proof.Machine.execLaunchCmd win c s
  | .cueCmd win c => Sys2Proof.Machine.execCueCmd win c s
  | .cuerelCmd win c => Sys2Proof.Machine.execCuerelCmd win c s
  | .curtainCmd win c => Sys2Proof.Machine.execCurtainCmd win c s
  | .blackoutCmd win c => Sys2Proof.Machine.execBlackoutCmd win c s
  | .resumeCmd win c => Sys2Proof.Machine.execResumeCmd win c s
  | .replaceCmd win c => Sys2Proof.Machine.execReplaceCmd win c s
  | .releaseCmd win c => Sys2Proof.Machine.execReleaseCmd win c s
  | .unloadCmd win c => Sys2Proof.Machine.execUnloadCmd win c s
  | .unloadForceCmd win c => Sys2Proof.Machine.execUnloadForceCmd win c s
  | .tlbinvCmd win c => Sys2Proof.Machine.execTlbinvCmd win c s
  | .debugCmd win c => Sys2Proof.Machine.execDebugCmd win c s
  | .incqCmd win c => Sys2Proof.Machine.execIncqCmd win c s
  | .attestCmd win c => Sys2Proof.Machine.execAttestCmd win c s
  | .tenantCmd win c => Sys2Proof.Machine.execTenantCmd win c s
  | .shareCmd win c => Sys2Proof.Machine.execShareCmd win c s
  | .powerRunningCmd win c => Sys2Proof.Machine.execPowerRunningCmd win c s
  | .powerDarkCmd win c => Sys2Proof.Machine.execPowerDarkCmd win c s
  | .powerOffCmd win c => Sys2Proof.Machine.execPowerOffCmd win c s
  | .leaveCmd win c => Sys2Proof.Machine.execLeaveCmd win c s
  | .quotaCmd win c => Sys2Proof.Machine.execQuotaCmd win c s
  | .soundSetCmd win c => Sys2Proof.Machine.execSoundSetCmd win c s
  | .soundQueryCmd win c => Sys2Proof.Machine.execSoundQueryCmd win c s
  | .evictCmd win c => Sys2Proof.Machine.execEvictCmd win c s
  | .podmapCmd win c => Sys2Proof.Machine.execPodmapCmd win c s
  | .checkpointSaveCmd win c => Sys2Proof.Machine.execCheckpointSaveCmd win c s
  | .checkpointRestoreCmd win c => Sys2Proof.Machine.execCheckpointRestoreCmd win c s
  | .fwloadCmd win c => Sys2Proof.Machine.execFwloadCmd win c s
  | .callboardOtherWrite win bytes => Sys2Proof.Machine.execCallboardOtherWrite win bytes s
  | .tick => Sys2Proof.Machine.execTick s
  | .memoryResponse => Sys2Proof.Machine.execMemoryResponse s
  | .wingsPiece => Sys2Proof.Machine.execWingsPiece s
  | .thermalTripClear => Sys2Proof.Machine.execThermalTripClear s
  | .incidentQueueRoom => Sys2Proof.Machine.execIncidentQueueRoom s

end Sys2Proof.Machine
end

