-- ==== Sys2Proof/Machine/Step.lean ====
section
/-! DEFINITION. One step of the package: the next agent moves (log 1), running the instruction its unit holds; and the
state in which a given word is the one the next step runs. -/

namespace Sys2Proof.Machine

/-- The step function. A unit that may not move leaves the state as it is. -/
def step (s : State) : Host.Outcome State Fault Refusal :=
  match s.nextPick.2.enter s.nextPick.1 with
  | (some i, s') => exec i s'
  | (none, s') => .next s'

/-- The word w of nbits bits placed where the next step fetches (log 15). -/
def State.withFetchWord (s : State) (nbits w : Nat) : State :=
  { s.placeWord s.pickedSlot.1 s.pickedSlot.2.1 s.pickedSlot.2.2 (bytesOf (max 4 (nbits / 8)) w) with
    pick := some (.slot s.pickedSlot.1 s.pickedSlot.2.1 s.pickedSlot.2.2) }

end Sys2Proof.Machine
end

