-- ==== Sys2Proof/Safety.lean ====
section
/-! DEFINITION. The terms in which claims speak: what a step leaves alone, how far a change reaches, and what counts as a
safe state. -/

namespace Sys2Proof.Machine

/-- Memory is in its one canonical form (log 3). -/
def State.memOk (s : State) : Prop := s.mem.wf = true

/-- Running `i` at `s` answers a next state, and `P` holds of it. -/
def Completes (i : Instr) (s : State) (P : State → Prop) : Prop := ∃ t, exec i s = .next t ∧ P t

/-! ### How far a change reaches -/

/-- Every byte of memory reads as before. -/
def SameMem (s t : State) : Prop := ∀ a, memGet t.mem a = memGet s.mem a
/-- Every byte of memory outside the n bytes at a key reads as before. -/
def SameMemBut (s t : State) (key n : Nat) : Prop := ∀ a, (a < key ∨ key + n ≤ a) → memGet t.mem a = memGet s.mem a

/-- Of the package only the regions differ, and of these only region c. -/
def OnlyRegion (s t : State) (c : Nat) : Prop :=
  { t with regions := s.regions } = s ∧ ∀ d, d ≠ c → t.region d = s.region d

/-- Of region c only its cells differ, and of these only cell v. -/
def OnlyCell (s t : State) (c v : Nat) : Prop :=
  OnlyRegion s t c ∧ { t.region c with cells := (s.region c).cells } = s.region c ∧
  ∀ u, u ≠ v → (t.region c).cell u = (s.region c).cell u

/-- Of cell v only its slots differ, and of these only slot k. -/
def OnlySlot (s t : State) (c v k : Nat) : Prop :=
  OnlyCell s t c v ∧ { (t.region c).cell v with slots := ((s.region c).cell v).slots } = (s.region c).cell v ∧
  ∀ j, j ≠ k → (t.region c).slot v j = (s.region c).slot v j

/-- Only the slot that acts differs. -/
def OnlyMe (s t : State) : Prop := OnlySlot s t s.actCue s.actCell s.actSlot

/-! ### A task instruction that completes -/

/-- g[d] holds x (R19: unless d is g0), every other general register keeps its value, g0 reads 0, the PC is at the next
word, and nothing else of the package differs: no vector register, no other register of the slot, no other slot, no byte
of memory. -/
def RegDone (s t : State) (d : Reg) (x : Word) : Prop :=
  OnlyMe s t ∧ (d ≠ 0 → t.rg d = x) ∧ (∀ r, r ≠ d → t.rg r = s.rg r) ∧ t.rg 0 = 0 ∧ t.me.pc = s.me.pc + 4 ∧
  { t.me with g := s.me.g, pc := s.me.pc } = s.me

/-- v[d] holds x, every other vector register keeps its value, the PC is at the next word, and nothing else differs. -/
def VecDone (s t : State) (d : VReg) (x : Vector Lane 16) : Prop :=
  OnlyMe s t ∧ t.rv d = x ∧ (∀ r, r ≠ d → t.rv r = s.rv r) ∧ t.me.pc = s.me.pc + 4 ∧
  { t.me with v := s.me.v, pc := s.me.pc } = s.me

/-- The slot is at the given byte address, g[d] holds x, and nothing else differs. -/
def JumpDone (s t : State) (pc : BitVec 16) : Prop :=
  OnlyMe s t ∧ t.me.pc = pc ∧ { t.me with pc := s.me.pc } = s.me

/-- g31 or another register holds the link, the slot is at the given byte address, and nothing else differs (R200). -/
def LinkDone (s t : State) (d : Reg) (pc : BitVec 16) : Prop :=
  OnlyMe s t ∧ t.me.pc = pc ∧ (d ≠ 0 → t.rg d = BitVec.ofNat 64 (s.me.pc.toNat + 4)) ∧ (∀ r, r ≠ d → t.rg r = s.rg r) ∧
  { t.me with g := s.me.g, pc := s.me.pc } = s.me

/-- A byte address of the instruction store that a branch or jump may reach (R73, R200). -/
def inStore (t : Int) : Prop := 0 ≤ t ∧ t ≤ 0xFFFC

/-- A trap taken with the nesting bit clear (R370): the saved PC, cause and value, the nesting bit, the emulation bit for
ILL, SUPV, the PC at TVEC; no other register of the slot, no other slot and no byte of memory differs (R193). -/
def TrapDone (s t : State) (code : Nat) (val : Word) : Prop :=
  OnlyMe s t ∧ t.me.tepc = s.me.pc ∧ t.me.tcause = BitVec.ofNat 64 code ∧ t.me.trapval = val ∧
  t.me.tstat.getLsbD 0 = true ∧ (t.me.tstat.getLsbD 1 = true ↔ code = 1) ∧ t.me.st = .supv ∧ t.me.pc = s.me.tvec ∧
  { t.me with tepc := s.me.tepc, tcause := s.me.tcause, trapval := s.me.trapval, tstat := s.me.tstat, st := s.me.st,
              waiting := s.me.waiting, pc := s.me.pc } = s.me

/-- The slot does not vector and keeps the first trap's registers; it is FROZEN (R372). What the freeze of its region
writes beside it stands in the region and in State.due only. -/
def DoubleTrapDone (s t : State) : Prop :=
  t.me.st = .frozen ∧ t.me.tepc = s.me.tepc ∧ t.me.tcause = s.me.tcause ∧ t.me.trapval = s.me.trapval ∧
  t.me.tstat = s.me.tstat ∧ t.me.pc = s.me.pc ∧ t.me.g = s.me.g ∧ t.me.v = s.me.v ∧ t.myRegion.freeze.isSome = true ∧
  SameMem s t

/-- The nesting bit TSTAT[0] is clear. -/
def Fresh (s : State) : Prop := s.me.tstat.getLsbD 0 = false

/-- The acting slot is as in s but for its PC, which is at the next word. -/
def Passed (s t : State) : Prop := t.me = { s.me with pc := s.me.pc + 4 }

/-- No slot but the acting one differs. -/
def OtherSlots (s t : State) : Prop :=
  ∀ c v k, (c ≠ s.actCue ∨ v ≠ s.actCell ∨ k ≠ s.actSlot) → t.slotAt c v k = s.slotAt c v k

/-- The little-endian bytes of the low n bytes of a word (R197). -/
def leBytes (n : Nat) (w : Word) : List Byte := (List.range n).map (fun k => (w.extractLsb' (8 * k) 8 : Byte))

/-- A value of n bytes as a register holds it after a load (R197). -/
def loaded (n : Nat) (signed : Bool) (v : Nat) : Word :=
  if signed then (BitVec.ofNat (8 * n) v).signExtend 64 else (BitVec.ofNat (8 * n) v).setWidth 64

/-- The byte that parts of memory give an address, the last of them that holds it. -/
def partByte (parts : List (Nat × List Byte)) (x : Nat) : Option Byte :=
  (parts.reverse.find? (fun p => decide (p.1 ≤ x ∧ x < p.1 + p.2.length))).map (fun p => p.2.getD (x - p.1) 0)

/-- Memory holds the given parts, and every byte outside them reads as before. -/
def Written (s t : State) (parts : List (Nat × List Byte)) : Prop :=
  ∀ x, memGet t.mem x = (partByte parts x).getD (memGet s.mem x)

/-- The executing cell's memory as its slots read it, register images in their place (R19, R240), holds the given parts, and
every byte outside them is as before; the image of g0 discards what is stored there. -/
def Viewed (s t : State) (parts : List (Nat × List Byte)) : Prop :=
  ∀ x, ((∀ k j, s.imageAt x = some (k, j) → 8 ≤ j) → t.viewByte x = (partByte parts x).getD (s.viewByte x)) ∧
    (∀ k j, s.imageAt x = some (k, j) → j < 8 → t.viewByte x = s.viewByte x)

/-- The store stands last among the region's stores that are issued and not yet performed (R199, R268), and memory is as
before. -/
def Queued (s t : State) (ea : Word) (segs : List Seg) (bs : List Byte) : Prop :=
  t.mem = s.mem ∧ t.myRegion.nextAcc = s.myRegion.nextAcc + 1 ∧ t.myRegion.pend = s.myRegion.pend ++
    [{ id := s.myRegion.nextAcc, vcell := s.actCell, slot := s.actSlot, space := spaceOf ea, segs := splitSegs segs bs,
       target := spadTarget ea s.actCell, made := s.cyc.toNat, banks := if spaceOf ea = 1 then keyBanks (segRanges segs) else [] }]

/-- The acting slot or node has not asked for a job at an address. -/
abbrev Unasked (s : State) (ea : Word) (job : MemJob) : Prop := s.fetchOf ea.toNat job = none

/-- The slot has not asked for a job at ea, and the checks of R198 come to an outcome, leaving the state s1. -/
def Checks (s : State) (ea : Word) (align : Nat) (job : MemJob) (x : Chk) (s1 : State) : Prop :=
  Unasked s ea job ∧ checkAccess s ea job.size align job.reads job.writes = (x, s1)

/-- A task access at ea passes its checks and goes on at once: nothing earlier holds it, and its requests, where it makes any, have
joined the port (R198, R247, R248, R268, R353, R354); s' is the state after it, segs the ranges of memory it reaches. -/
def Admits (s : State) (ea : Word) (align : Nat) (job : MemJob) (segs : List Seg) (s' : State) : Prop :=
  ∃ s1, Checks s ea align job (.ok segs) s1 ∧ s1.accessWait ea segs job = none ∧ s1.request ea segs job = (none, s')

/-- What the slot has asked for at ea has been performed and its answer has come (R247, R340): the bytes it brings, and the state
without it. -/
def Answered (s : State) (ea : Word) (job : MemJob) (bs : List Byte) (s' : State) : Prop :=
  ∃ f, s.fetchOf ea.toNat job = some f ∧ s.fetched f = true ∧ bs = f.bytes ∧ s' = s.dropFetches

/-- A task access at ea goes on with g: at once, with the ranges it reaches and the bytes there, or with what its answer brought. -/
def Gets (s : State) (ea : Word) (align : Nat) (job : MemJob) (g : Got) (s' : State) : Prop :=
  (∃ segs, Admits s ea align job segs s' ∧ g = { segs := segs, bytes := s'.viewSegs segs }) ∨
  (∃ f, s.fetchOf ea.toNat job = some f ∧ s.fetched f = true ∧ g = { bytes := f.bytes, done := true, fetch := [f] } ∧
    s' = s.dropFetches)

/-- The state in which an instruction that waits keeps what it has got. -/
def State.keep (s : State) (g : Got) : State := { s with fetches := s.fetches ++ g.fetch }

/-- A task access at ea waits, in the state s': for a tile or a page under migration, for the slot's own stores or room at its port,
for its grant or its port, or for its answer (R198, R199, R247, R248, R268, R340, R353, R354). -/
def Pends (s : State) (ea : Word) (align : Nat) (job : MemJob) (s' : State) : Prop :=
  (∃ f, s.fetchOf ea.toNat job = some f ∧ s.fetched f = false ∧ s' = s) ∨
  (∃ w, Checks s ea align job (.wait w) s') ∨
  (∃ segs w, Checks s ea align job (.ok segs) s' ∧ s'.accessWait ea segs job = some w) ∨
  (∃ segs w s1, Checks s ea align job (.ok segs) s1 ∧ s1.accessWait ea segs job = none ∧ s1.request ea segs job = (some w, s'))

/-- No store of the slot is still to be performed (R208, R266). -/
def Settled (s : State) : Prop := s.myRegion.ownPend s.actCell s.actSlot = []

/-- A byte range of the acting cell's own scratchpad named through window 0xF0, with its tile in the fabric's hands. -/
def OwnRange (s : State) (ea : Word) (n : Nat) : Prop :=
  ea.toNat / 2 ^ 56 = 0xF0 ∧ ea.toNat % n = 0 ∧ ea.toNat % 2 ^ 56 + n ≤ s.myRegion.spadBytes ∧
  (s.myCell.tag (ea.toNat % 2 ^ 56 / 4096)).toNat < 2
/-- The memory key of its first byte (R25). -/
def ownKey (s : State) (ea : Word) : Nat :=
  poolKey s.myRegion.die s.myCell.site (s.myRegion.taskBytes + ea.toNat % 2 ^ 56)
/-- A byte range of the slot's spill stack named through window 0xF3. -/
def StackRange (s : State) (ea : Word) (n : Nat) : Prop :=
  ea.toNat / 2 ^ 56 = 0xF3 ∧ ea.toNat % n = 0 ∧ s.me.ssbase.toNat ≤ ea.toNat % 2 ^ 56 ∧
  ea.toNat % 2 ^ 56 + n ≤ s.me.sslim.toNat
def stackKey (s : State) (ea : Word) : Nat := poolKey s.myRegion.die s.myCell.site (ea.toNat % 2 ^ 56)

/-- A violation of the acting slot (R193, R375): it is FROZEN at its instruction, with every register as it was, its region
freezes, and no byte of memory changes. -/
def ViolationDone (s t : State) : Prop :=
  t.me = { s.me with st := .frozen, before := s.me.st, waiting := .nothing } ∧ t.myRegion.freeze.isSome = true ∧ SameMem s t

/-- The slot waits: it is in WAIT with its PC at the instruction, and nothing else differs (R20, R193). -/
def Waits (s t : State) : Prop :=
  OnlyMe s t ∧ t.me.st = .wait ∧ { t.me with st := s.me.st, waiting := s.me.waiting } = s.me

/-- Of the channels only those at the consumer end lost their head token (R9, R11). -/
def TookFrom (r r' : Region) (c : End) : Prop :=
  r'.chans.map (fun ch : Chan => (ch.prod, ch.cons, ch.q)) =
    r.chans.map (fun ch : Chan => (ch.prod, ch.cons, if ch.cons = c then ch.q.tail else ch.q))
/-- Every channel of the producer's port received the token, and no other channel differs (R9). -/
def GaveOn (r r' : Region) (p : End) (t : Token) : Prop :=
  r'.chans.map (fun ch : Chan => (ch.prod, ch.cons, ch.q)) =
    r.chans.map (fun ch : Chan => (ch.prod, ch.cons, if ch.prod = p then ch.q ++ [t] else ch.q))

/-! ### A node's firing -/

/-- The node that acts. -/
def State.myNode (s : State) : Node := s.myRegion.node s.actEntry
/-- The lanes of the DATA token in operand k of the node that acts. -/
def State.lanes (s : State) (k : Nat) : List Lane := s.myRegion.lanesAt s.actEntry k
/-- Every named operand of the acting node holds DATA, and every channel of its outputs has a free slot beside what its
accesses owe (R12, R144). -/
def NodeReady (s : State) : Prop :=
  s.myRegion.allData s.actEntry (s.myRegion.namedOps s.actEntry) = true ∧ s.myRegion.outRoom s.actEntry 1 = true
/-- The named operands. -/
def State.opsNamed (s : State) : List Nat := s.myRegion.namedOps s.actEntry

/-- Operand k gives its token from its channel, no faulting token standing there (R382). -/
def Region.direct (r : Region) (e k : Nat) : Bool := !(r.node e).faulting.any (fun p => p.1 == k)
/-- A channel loses its head token when the operands ks of entry e are taken. -/
def Region.loses (r : Region) (e : Nat) (ks : List Nat) (ch : Chan) : Bool :=
  ks.any (fun k => ch.cons == .entry e k && r.direct e k)
/-- The tokens that port p of the given list gets, in order. -/
def givenOn (e : Nat) (gives : List (Nat × Token)) (p : End) : List Token :=
  gives.filterMap (fun g => if p = .entry e g.1 then some g.2 else none)
/-- The faulting tokens left when the operands ks are taken. -/
def restFaulting (ks : List Nat) (f : List (Nat × Token)) : List (Nat × Token) :=
  ks.foldl (fun f k => f.eraseP (fun p => p.1 == k)) f

/-- A firing of the acting node (R12, R16, R17, R32): the tokens of the operands ks are taken, each port gets its tokens on
every channel of it, the firing index rises by one, the opcode state is op, only the copy the firing is dealt to may change
its pipeline registers, and nothing else of the package differs: no other node, no task slot, no byte of memory. -/
def Fired (s t : State) (n : NodeF) (ks : List Nat) (gives : List (Nat × Token)) (op : OpSt) : Prop :=
  let e := s.actEntry
  let r := s.myRegion
  let r' := t.myRegion
  let copy := s.myNode.fire % (n.repm1.toNat + 1)
  OnlyRegion s t s.actCue ∧ { r' with nodes := r.nodes, chans := r.chans } = r ∧ (∀ j, j ≠ e → r'.node j = r.node j) ∧
  r'.chans.map (fun ch : Chan => (ch.prod, ch.cons, ch.q)) = r.chans.map (fun ch : Chan =>
    (ch.prod, ch.cons, (if r.loses e ks ch then ch.q.tail else ch.q) ++ givenOn e gives ch.prod)) ∧
  { t.myNode with elems := s.myNode.elems } = { s.myNode with
    fire := s.myNode.fire + 1, fired := true, cause := 6, op := op, faulting := restFaulting ks s.myNode.faulting } ∧
  (∀ j, j ≠ copy → t.myNode.elem j = s.myNode.elem j) ∧
  { t.myNode.elem copy with p := (s.myNode.elem copy).p } = s.myNode.elem copy

/-- P1 to P6 of the copy the firing is dealt to hold the given lanes, and zeros after them (R16). -/
def FiredP (s t : State) (n : NodeF) (ls : List Lane) : Prop :=
  ∀ j : Fin 6, (t.myNode.elem (s.myNode.fire % (n.repm1.toNat + 1))).p.get j = Vector.ofFn (fun k => ls.getD k.val 0)

/-- The element-wise shape of a firing (R81, R82): every named operand is taken, the lanes are given on port 0, and they stand in
P1 to P6 of a node that is no switch box. -/
def LaneFired (s t : State) (n : NodeF) (out : List Lane) : Prop :=
  Fired s t n s.opsNamed [(0, .data out)] s.myNode.op ∧
  (isSbox (s.myRegion.opcode s.actEntry) = false → FiredP s t n out)

/-- A step of the acting node that is no counted firing: the tokens of the operands ks are taken, each port gets its tokens,
the node is nd, and nothing else of the package differs. -/
def NodeStep (s t : State) (ks : List Nat) (gives : List (Nat × Token)) (nd : Node) : Prop :=
  let e := s.actEntry
  let r := s.myRegion
  let r' := t.myRegion
  OnlyRegion s t s.actCue ∧ { r' with nodes := r.nodes, chans := r.chans } = r ∧ (∀ j, j ≠ e → r'.node j = r.node j) ∧
  r'.chans.map (fun ch : Chan => (ch.prod, ch.cons, ch.q)) = r.chans.map (fun ch : Chan =>
    (ch.prod, ch.cons, (if r.loses e ks ch then ch.q.tail else ch.q) ++ givenOn e gives ch.prod)) ∧
  t.myNode = nd

/-- The acting node in a tick in which it does not fire: only the cause it waits for is recorded (R14). -/
def Held (s t : State) (cause : Nat) : Prop := NodeStep s t [] [] { s.myNode with cause := cause }

/-- The node has ended (R13): the operands ks are taken, port 0 gets the given tokens and EOS, port 1 EOS. -/
def Ended (s t : State) (ks : List Nat) (before : List Token) : Prop :=
  NodeStep s t ks (before.map (fun x => (0, x)) ++ [(0, .eos), (1, .eos)])
    { s.myNode with eos := true, cause := 6, faulting := restFaulting ks s.myNode.faulting }

/-- Accesses as they are presented one after the other: their ages, and the tick they reach their port in. -/
def stamped (now : Nat) : Nat → List Acc → List Acc
  | _, [] => []
  | id, a :: as => { a with id := id, made := now } :: stamped now (id + 1) as

/-- A firing whose accesses are presented (R144, R146): the tokens of the operands ks are taken, no channel gets a token, the
firing index rises by one, the accesses stand last among the region's, and nothing else of the package differs. -/
def Presented (s t : State) (ks : List Nat) (as : List Acc) (op : OpSt) : Prop :=
  let e := s.actEntry
  let r := s.myRegion
  let r' := t.myRegion
  OnlyRegion s t s.actCue ∧
  { r' with nodes := r.nodes, chans := r.chans, accs := r.accs, nextAcc := r.nextAcc } = r ∧
  r'.accs = r.accs ++ stamped s.cyc.toNat r.nextAcc as ∧ r'.nextAcc = r.nextAcc + as.length ∧
  (∀ j, j ≠ e → r'.node j = r.node j) ∧
  r'.chans.map (fun ch : Chan => (ch.prod, ch.cons, ch.q)) =
    r.chans.map (fun ch : Chan => (ch.prod, ch.cons, if r.loses e ks ch then ch.q.tail else ch.q)) ∧
  t.myNode = { s.myNode with
    fire := s.myNode.fire + 1, fired := true, cause := 6, op := op, faulting := restFaulting ks s.myNode.faulting }

/-- The tokens and the earlier accesses that a firing's access carries with it. -/
def State.carried (s : State) (ks : List Nat) (a : Acc) : Acc :=
  { a with took := s.myRegion.heldTokens a.entry ks, pre := s.myRegion.headsPre a.entry ks }

/-- A memory node may fire on DATA of the operands ks, with its order input as needed (R12, R144, R146). -/
def MemReady (s : State) (ks : List Nat) (need : Bool) : Prop :=
  s.myRegion.withheldAt s.actEntry = false ∧ s.myRegion.allData s.actEntry ks = true ∧
  s.myRegion.outRoom s.actEntry 1 = true ∧ s.myRegion.orderWaits s.actEntry need = false
/-- The operands it takes: C too where an ORDER token is needed. -/
def State.memOps (s : State) (ks : List Nat) (need : Bool) : List Nat :=
  if s.myRegion.named s.actEntry 2 && need then ks ++ [2] else ks

/-- A node without operands may fire (R125): not ended, not curtained, its region not curtained, room on its ports. -/
def SourceReady (s : State) : Prop :=
  s.myNode.eos = false ∧ s.myNode.curt = false ∧ s.myRegion.curtain = false ∧ s.myRegion.outRoom s.actEntry 1 = true

/-- A fault or violation of a firing (R374, R375): the tokens of the operands ks are taken and kept, the region begins to freeze
with the record of the incident, and nothing else differs: no token is given, no node's state changes, nothing is presented, and no
byte of memory is written. -/
def NodeStopped (s t : State) (code sub : Nat) (ks : List Nat) (v0 : Nat) : Prop :=
  let e := s.actEntry
  let r := s.myRegion
  let r' := t.myRegion
  OnlyRegion { s with due := t.due } t s.actCue ∧ SameMem s t ∧
  { r' with nodes := r.nodes, chans := r.chans, freeze := r.freeze, faults := r.faults, xfaults := r.xfaults } = r ∧
  (∀ j, j ≠ e → r'.node j = r.node j) ∧
  r'.chans.map (fun ch : Chan => (ch.prod, ch.cons, ch.q)) =
    r.chans.map (fun ch : Chan => (ch.prod, ch.cons, if r.loses e ks ch then ch.q.tail else ch.q)) ∧
  t.myNode = { s.myNode with
    faulting := ks.filterMap (fun k => (r.opHead e k).map (fun x => (k, x))) ++ restFaulting ks s.myNode.faulting } ∧
  ∃ f, r'.freeze = some f ∧ (r.freeze = none →
    f.t0 = s.cyc.toNat ∧ bits f.incident.w0 7 0 = code ∧ bits f.incident.w0 15 8 = sub ∧
    f.incident.w2 = BitVec.ofNat 64 s.myNode.fire ∧ f.incident.w3 = BitVec.ofNat 64 v0)

/-- The MREQs of the node's access, and of accesses that go with it, at its cell's port: the port's answer and the state after it
(R340, R353, R354). -/
def State.asks (s : State) (a : Acc) (after : List Acc) : Bool × State :=
  s.portRequest a.cell (s.accDst s.actCue a) ((a :: after).map Acc.reqs) (a.space == 0)
/-- What holds them at the port before they are made, as a stall cause. -/
def State.heldAt (s : State) (a : Acc) (runs : List (Nat × Nat)) : Option Nat :=
  s.portHeld s.actor s.myRegion.tenant s.myRegion.die (s.myRegion.cell a.cell).site runs

/-- What a firing with a global access comes to (R141, R146, R353, R354), by what holds its port, the reach of its runs and the
port's answer: it waits, there or for its grant; it is presented with its ranges; it is presented withheld; or the firing stops with VIOLATION or
PAGE_FMT. -/
def GlobalPresents (i : Instr) (s : State) (ks : List Nat) (a : Acc) : Prop :=
  let a := s.carried ks a
  (∀ cause, s.heldAt a a.ptrs = some cause → Completes i s (fun t => Held s t cause)) ∧
  (s.heldAt a a.ptrs = none →
    (∀ segs u v, s.accReach s.actCue a = (.ok segs, u) → u.asks a [] = (true, v) → v.regions = s.regions ∧
      Completes i s (fun t => Presented v t ks [{ a with segs := segs }] s.myNode.op)) ∧
    (∀ segs u v, s.accReach s.actCue a = (.ok segs, u) → u.asks a [] = (false, v) →
      Completes i s (fun t => Held v t 5)) ∧
    (∀ va cause u v, s.accReach s.actCue a = (.miss va cause, u) →
      (u.postDark s.actCue va cause).asks a [] = (true, v) →
      Completes i s (fun t => Presented v t ks [{ a with withheld := some (va, cause) }] s.myNode.op)) ∧
    (∀ va right u, s.accReach s.actCue a = (.viol va right, u) → Completes i s (fun t => NodeStopped u t 2 0 ks va)) ∧
    (∀ va u, s.accReach s.actCue a = (.badFmt va, u) → Completes i s (fun t => NodeStopped u t 1 4 ks va)))

/-- What a firing with an access to its own cell's scratchpad comes to (R29, R142, R247): it waits for its tiles, then for its
port, or it is presented to the banks of its bytes. -/
def OwnPresents (i : Instr) (s : State) (ks : List Nat) (a : Acc) (sw off len : Nat) (segs : List (List Seg)) (op : OpSt) :
    Prop :=
  let r := s.myRegion
  let full := r.portFull a.cell (r.portOf a.entry a.copy)
  (r.busyTiles a.cell off len = [] → full = false → Completes i s (fun t => Presented s t ks
    [s.carried ks { a with space := 1, target := a.cell, segs := segs, banks := banksOf sw off len }] op)) ∧
  (r.busyTiles a.cell off len ≠ [] → Completes i s (fun t => Held s t 4)) ∧
  (r.busyTiles a.cell off len = [] → full = true → Completes i s (fun t => Held s t 5))

/-- A firing with an access to another cell's scratchpad (R248, R353): it waits while an exchange holds the cell it names or
its port is held; else its MREQ joins the port. -/
def RemotePresents (i : Instr) (s : State) (ks : List Nat) (a : Acc) (off len : Nat) (segs : List (List Seg)) : Prop :=
  let r := s.myRegion
  let a := { s.carried ks a with space := 2, ptrs := [(off, len)], segs := segs }
  let lease := s.leased r.die (r.cell a.target).site
  (lease = true → Completes i s (fun t => Held s t 0)) ∧
  (∀ cause, lease = false → s.heldAt a a.ptrs = some cause → Completes i s (fun t => Held s t cause)) ∧
  (∀ v, lease = false → s.heldAt a a.ptrs = none → s.asks a [] = (true, v) → v.regions = s.regions ∧
    Completes i s (fun t => Presented v t ks [a] s.myNode.op))

/-- The copy a firing is dealt to (R32), and the virtual cell it stands in. -/
def State.myCopy (s : State) (n : NodeF) : Nat := s.myNode.fire % (n.repm1.toNat + 1)
def State.copyAt (s : State) (n : NodeF) : Nat := s.myRegion.copyCell s.actEntry (s.myCopy n)

/-! ### Invariants -/

/-- A region holds a site: one of its cells stands there, or it is one of the pair of an exchange that has not ended (R320, R363). -/
def Region.holdsSite (r : Region) (site : Nat) : Prop :=
  (∃ v, v < r.ncells ∧ (r.cell v).site = site) ∨ ∃ x ∈ r.exchanges, x.a = site ∨ x.b = site

/-- No two regions of a die hold a site. -/
def State.cellsApart (s : State) : Prop := ∀ c d, c ≠ d → Tab.has s.regions c = true → Tab.has s.regions d = true →
  (s.region c).die = (s.region d).die → ∀ site, ¬((s.region c).holdsSite site ∧ (s.region d).holdsSite site)

/-- No channel holds more than 4 tokens (R11). -/
def State.chansFit (s : State) : Prop := ∀ c, ∀ ch ∈ (s.region c).chans, ch.q.length ≤ 4

/-- The spill stack of a slot is as R19 allows it, and its g0 is 0. -/
def Slot.stackFits (sl : Slot) : Prop :=
  sl.ssp.toNat % 8 = 0 ∧ sl.ssbase.toNat % 8 = 0 ∧ sl.sslim.toNat % 8 = 0 ∧
  sl.ssbase.toNat ≤ sl.ssp.toNat ∧ sl.ssp.toNat ≤ sl.sslim.toNat ∧ sl.g.get 0 = 0

/-- Every slot's is; and so are the stacks that a region being placed has in its slot records (R240). -/
def State.stacksFit (s : State) : Prop :=
  (∀ c v k, ((s.region c).slot v k).stackFits) ∧
  ∀ c, (s.cue c).st = .placing → let r := s.region c
    ∀ v, v < r.ncells → ∀ p ∈ r.cellSlots v,
      p.1.stack % 8 = 0 ∧ r.stackBase v p.1.slot % 8 = 0 ∧ r.stackBase v p.1.slot + p.1.stack ≤ r.taskBytes

/-! ### Host commands (R396 to R398) -/

/-- The commands of R398 with the bits that the command table defines in each word. -/
def cmdForms (w : Nat) (c : Cmd) : List (Instr × List Nat) :=
  [(.launchCmd w c, launchBits), (.cueCmd w c, cueBits), (.cuerelCmd w c, [span 19 0]), (.curtainCmd w c, cmdBits),
   (.blackoutCmd w c, cmdBits), (.resumeCmd w c, cmdBits), (.replaceCmd w c, replaceBits), (.releaseCmd w c, cmdBits),
   (.unloadCmd w c, unloadBits), (.unloadForceCmd w c, unloadBits), (.tlbinvCmd w c, [span 7 0, allBits, allBits]),
   (.debugCmd w c, [span 19 0, allBits, allBits]), (.incqCmd w c, [span 12 0, allBits]),
   (.attestCmd w c, [span 19 0, allBits, allBits]), (.tenantCmd w c, tenantBits), (.shareCmd w c, [span 13 0, allBits]),
   (.leaveCmd w c, [span 9 0, span 15 0]), (.quotaCmd w c, [span 9 0, span 15 0]), (.soundSetCmd w c, soundBits),
   (.soundQueryCmd w c, soundBits), (.evictCmd w c, [span 11 0, allBits, allBits]), (.podmapCmd w c, [span 17 0, allBits]),
   (.checkpointSaveCmd w c, ckptBits), (.checkpointRestoreCmd w c, ckptBits), (.fwloadCmd w c, [span 7 0, allBits, allBits]),
   (.powerRunningCmd w c, powerBits), (.powerDarkCmd w c, powerBits), (.powerOffCmd w c, powerBits)]

/-- Window w may take the command (R397, R405): it is one of the 16, holds no command, may issue the code, and every bit that
the table does not define is 0. -/
def CmdReady (s : State) (w : Nat) (c : Cmd) (fields : List Nat) : Prop :=
  w ≤ 15 ∧ (s.win w).isBusy = false ∧ s.fwOnly = false ∧ (bits c.w0 7 0 < 0x10 ∨ w = 0) ∧ bitsClear c fields = true

/-- Window w counted the command once, cleared LOST as it did so, and shows the given STATE and RESULT (R396). -/
def Reports (s t : State) (w state result : Nat) : Prop :=
  (t.win w).state = state ∧ (t.win w).result = result ∧ (t.win w).lost = ((s.win w).counted && (s.win w).lost) ∧
  (t.win w).seq = (if (s.win w).counted then (s.win w).seq else (s.win w).seq + 1)

/-- The command is DONE with RESULT OK. -/
def CmdDone (s t : State) (w : Nat) : Prop := Reports s t w 2 0 ∧ (t.win w).busy = none
/-- The window stays BUSY with the command. -/
def CmdBusy (i : Instr) (s t : State) (w : Nat) : Prop :=
  Reports s t w 1 (s.win w).result ∧ (t.win w).busy = some i

/-- Of the windows only the status of window w differs. -/
def OnlyStatus (s t : State) (w : Nat) : Prop :=
  (∀ v, v ≠ w → t.win v = s.win v) ∧
  { t.win w with state := (s.win w).state, lost := (s.win w).lost, result := (s.win w).result, seq := (s.win w).seq,
                 busy := (s.win w).busy, counted := (s.win w).counted } = s.win w

/-- The command is refused with a RESULT and changes nothing (R397). -/
def Refuses (i : Instr) (s : State) (w result : Nat) : Prop :=
  Completes i s (fun t => Reports s t w 2 result ∧ OnlyStatus s t w ∧ { t with windows := s.windows } = s)

/-- Window w may name cue n (R397, R434). -/
def MayName (s : State) (w n : Nat) : Prop :=
  w = 0 ∨ ∃ ten, (s.win w).tenant = some ten ∧ (s.tenant ten).hasCue n = true

/-- The address of a cue's status entry (R399). -/
def statusAt (s : State) (ten n : Nat) : Nat := (s.tenant ten).cstat + 128 * (n - (s.tenant ten).cueBase)

/-- Word 0 of cue n's status entry shows its state and its updates, and every byte of memory outside word 0 reads as
before (R399). -/
def EntryShows (s t : State) (n : Nat) : Prop :=
  let key := statusAt s (t.cue n).tenant n
  t.load key 8 = cueCode (t.cue n).st + (t.cue n).updates * 2 ^ 32 ∧ SameMemBut s t key 8

/-- Of the cues only cue n differs. -/
def OnlyCue (s t : State) (n : Nat) : Prop := ∀ m, m ≠ n → t.cue m = s.cue m

/-- Cue n is accepted with count PREDS (R277 to R280): WAITING, or READY in the same tick at 0, with ITER 0 and the
count of its updates going on. -/
def Accepted (s t : State) (n : Nat) (q : Cue) : Prop :=
  OnlyCue s t n ∧ EntryShows s t n ∧
  (q.preds ≠ 0 → t.cue n = { q with st := .waiting, count := q.preds, updates := ((s.cue n).updates + 1) % 2 ^ 32 } ∧
    t.readyQ = s.readyQ) ∧
  (q.preds = 0 → t.cue n = { q with
      st := .ready, count := 0, updates := ((s.cue n).updates + 2) % 2 ^ 32, readyAt := s.cyc.toNat } ∧
    t.readyQ = readyInsert t.cues s.cyc.toNat n s.readyQ)

/-! ### CSR addresses (R22) -/

/-- The assigned addresses. -/
def csrAssigned (c : Nat) : Prop :=
  c ≤ 0x003 ∨ (0x010 ≤ c ∧ c ≤ 0x012) ∨ (0x020 ≤ c ∧ c ≤ 0x024) ∨ c = 0x030 ∨ c = 0x031 ∨ (0x040 ≤ c ∧ c ≤ 0x042) ∨
  (0x050 ≤ c ∧ c ≤ 0x053) ∨ c = 0x060 ∨ c = 0x070 ∨ (0x100 ≤ c ∧ c ≤ 0x19F) ∨ (0x200 ≤ c ∧ c ≤ 0x27F)
/-- Addresses whose access is "read", or "read in SUPV". -/
def csrReadOnly (c : Nat) : Prop :=
  c ≤ 0x003 ∨ c = 0x021 ∨ c = 0x022 ∨ c = 0x030 ∨ c = 0x031 ∨ (0x040 ≤ c ∧ c ≤ 0x042) ∨ (0x050 ≤ c ∧ c ≤ 0x053) ∨
  c = 0x060 ∨ c = 0x070
/-- Addresses whose every access, and whose write, is marked "in SUPV". -/
def csrSupv (c : Nat) (write : Bool) : Prop :=
  (0x020 ≤ c ∧ c ≤ 0x024) ∨ (write = true ∧ (c = 0x011 ∨ c = 0x012))

end Sys2Proof.Machine
end

