-- ==== Sys2Proof/WellFormed.lean ====
section
/-! DEFINITION. Well-formed instructions: the limits that the encodings set on the fields themselves (R61, R67, R68,
R72, R77, R204, R398), whatever the region. What a launch checks beyond these is Machine/Validate.lean. -/

namespace Sys2Proof

/-- An operand field by its use (R63): distance 0 has port 0, and an operand the opcode does not use is absent. A
required operand may be encoded absent, where a task output end feeds it (R239). -/
def Opnd.wf (o : Opnd) (u : OpUse) : Bool :=
  (o.dist != 0 || o.port == 0) && (u != .absent || o.dist == 0)

/-- The fields of a firing (R61, R67, R68): FMT assigned, WID, RATE and REP in range, operands by use, and the number
of extension words. -/
def NodeF.wf (n : NodeF) (row : NodeRow) : Bool :=
  decide (n.fmt.toNat ≤ 13) && decide (n.wid.toNat ≤ 4) && decide (1 ≤ n.rate.toNat) && decide (n.rate.toNat ≤ 16) &&
  (row.rep || n.repm1 == 0) && n.sa.wf row.a && n.sb.wf row.b && n.sc.wf row.c &&
  decide (row.xmin ≤ n.ext.length) && decide (n.ext.length ≤ row.xmax)

/-- The code of a callboard command (R398), with the field that tells two rows of one code apart. -/
def cmdCodeOk : Instr → Bool
  | .launchCmd _ c => c.w0.extractLsb' 0 8 == 0x01
  | .cueCmd _ c => c.w0.extractLsb' 0 8 == 0x02
  | .cuerelCmd _ c => c.w0.extractLsb' 0 8 == 0x03
  | .curtainCmd _ c => c.w0.extractLsb' 0 8 == 0x04
  | .blackoutCmd _ c => c.w0.extractLsb' 0 8 == 0x05
  | .resumeCmd _ c => c.w0.extractLsb' 0 8 == 0x06
  | .replaceCmd _ c => c.w0.extractLsb' 0 8 == 0x07
  | .releaseCmd _ c => c.w0.extractLsb' 0 8 == 0x08
  | .unloadCmd _ c => c.w0.extractLsb' 0 8 == 0x09 && c.w0.extractLsb' 8 1 == 0
  | .unloadForceCmd _ c => c.w0.extractLsb' 0 8 == 0x09 && c.w0.extractLsb' 8 1 == 1
  | .tlbinvCmd _ c => c.w0.extractLsb' 0 8 == 0x0A
  | .debugCmd _ c => c.w0.extractLsb' 0 8 == 0x0B
  | .incqCmd _ c => c.w0.extractLsb' 0 8 == 0x0C
  | .attestCmd _ c => c.w0.extractLsb' 0 8 == 0x0D
  | .tenantCmd _ c => c.w0.extractLsb' 0 8 == 0x10
  | .shareCmd _ c => c.w0.extractLsb' 0 8 == 0x11
  | .powerRunningCmd _ c => c.w0.extractLsb' 0 8 == 0x12 && c.w0.extractLsb' 12 3 != 4 && c.w0.extractLsb' 12 3 != 5
  | .powerDarkCmd _ c => c.w0.extractLsb' 0 8 == 0x12 && c.w0.extractLsb' 12 3 == 4
  | .powerOffCmd _ c => c.w0.extractLsb' 0 8 == 0x12 && c.w0.extractLsb' 12 3 == 5
  | .leaveCmd _ c => c.w0.extractLsb' 0 8 == 0x13
  | .quotaCmd _ c => c.w0.extractLsb' 0 8 == 0x14
  | .soundSetCmd _ c => c.w0.extractLsb' 0 8 == 0x15 && c.w0.extractLsb' 27 1 == 0
  | .soundQueryCmd _ c => c.w0.extractLsb' 0 8 == 0x15 && c.w0.extractLsb' 27 1 == 1
  | .evictCmd _ c => c.w0.extractLsb' 0 8 == 0x16
  | .podmapCmd _ c => c.w0.extractLsb' 0 8 == 0x17
  | .checkpointSaveCmd _ c => c.w0.extractLsb' 0 8 == 0x18 && c.w0.extractLsb' 8 1 == 0
  | .checkpointRestoreCmd _ c => c.w0.extractLsb' 0 8 == 0x18 && c.w0.extractLsb' 8 1 == 1
  | .fwloadCmd _ c => c.w0.extractLsb' 0 8 == 0x19
  | .callboardOtherWrite w bs => decodeCommand w bs == .callboardOtherWrite w bs
  | _ => true

/-- The limits of a task word's fields: lane formats (R204) and the range of PUSHM and POPM (R79). -/
def taskFieldsOk : Instr → Bool
  | .vadd _ _ _ t | .vsub _ _ _ t | .vmul _ _ _ t | .vfma _ _ _ t | .vmin _ _ _ t | .vmax _ _ _ t
  | .veq _ _ _ t | .vlt _ _ _ t | .vrsum _ _ t => vfmtArith (Machine.fmtCode t)
  | .vand _ _ _ t | .vor _ _ _ t | .vshl _ _ _ t | .vshr _ _ _ t => vfmtBits (Machine.fmtCode t)
  | .vsplat _ _ t | .vget _ _ _ t | .vput _ _ _ t => vfmtMove (Machine.fmtCode t)
  | .vcvt _ _ u t => vfmtMove (Machine.fmtCode u) && vfmtMove (Machine.fmtCode t)
  | .pushm d a | .popm d a => decide (d.toNat ≤ a.toNat)
  | .illegalWord w => match decodeTask w with
    | .ok _ => false
    | .error _ => true
  | _ => true

/-- A well-formed instruction. -/
def Instr.wf (i : Instr) : Bool :=
  taskFieldsOk i && cmdCodeOk i &&
  match opcOf i with
  | none => true
  | some (opc, n) => match nodeRow opc with
    | none => false
    | some row => n.wf row

end Sys2Proof
end

