-- ==== Sys2Proof/Certificates/Slice0/Obligations.lean ====
section
/-! DEFINITION. The statements for the provers. -/

open Sys2Proof Sys2Proof.Machine

/-! ### The integer instructions of a task -/

/-- ADD to MULH, CLZ and POPC of R194: each completes for all operands, with the value of the table computed on integers,
and changes nothing but its destination and the PC.

The immediate group of R196: each completes for all operands with the value of the table. -/
def Obligations.TaskAlu : Prop :=
  (∀ (s : State) (d a b : Reg),
  Completes (.add d a b) s (fun t => RegDone s t d (BitVec.ofNat 64 ((s.rg a).toNat + (s.rg b).toNat))) ∧
  Completes (.sub d a b) s (fun t => RegDone s t d (BitVec.ofInt 64 ((s.rg a).toNat - (s.rg b).toNat))) ∧
  Completes (.and d a b) s (fun t => RegDone s t d (s.rg a &&& s.rg b)) ∧
  Completes (.or d a b) s (fun t => RegDone s t d (s.rg a ||| s.rg b)) ∧
  Completes (.xor d a b) s (fun t => RegDone s t d (s.rg a ^^^ s.rg b)) ∧
  Completes (.sll d a b) s (fun t => RegDone s t d (BitVec.ofNat 64 ((s.rg a).toNat * 2 ^ ((s.rg b).toNat % 64)))) ∧
  Completes (.srl d a b) s (fun t => RegDone s t d (BitVec.ofNat 64 ((s.rg a).toNat / 2 ^ ((s.rg b).toNat % 64)))) ∧
  Completes (.sra d a b) s (fun t => RegDone s t d (BitVec.ofInt 64 ((s.rg a).toInt / 2 ^ ((s.rg b).toNat % 64)))) ∧
  Completes (.slt d a b) s (fun t => RegDone s t d (if (s.rg a).toInt < (s.rg b).toInt then 1 else 0)) ∧
  Completes (.sltu d a b) s (fun t => RegDone s t d (if (s.rg a).toNat < (s.rg b).toNat then 1 else 0)) ∧
  Completes (.min d a b) s (fun t => RegDone s t d (BitVec.ofInt 64 (min (s.rg a).toInt (s.rg b).toInt))) ∧
  Completes (.max d a b) s (fun t => RegDone s t d (BitVec.ofInt 64 (max (s.rg a).toInt (s.rg b).toInt))) ∧
  Completes (.mul d a b) s (fun t => RegDone s t d (BitVec.ofNat 64 ((s.rg a).toNat * (s.rg b).toNat))) ∧
  Completes (.mulh d a b) s (fun t => RegDone s t d (BitVec.ofInt 64 ((s.rg a).toInt * (s.rg b).toInt / 2 ^ 64))) ∧
  (∃ n : Nat, Completes (.clz d a) s (fun t => RegDone s t d (BitVec.ofNat 64 n)) ∧ n ≤ 64 ∧
    (s.rg a).toNat < 2 ^ (64 - n) ∧ (n < 64 → 2 ^ (63 - n) ≤ (s.rg a).toNat)) ∧
  Completes (.popc d a) s (fun t => RegDone s t d
    (BitVec.ofNat 64 ((List.range 64).filter (fun k => (s.rg a).getLsbD k)).length))) ∧
  (∀ (s : State) (d a : Reg) (i : BitVec 16) (sh : BitVec 6),
  Completes (.addi d a i) s (fun t => RegDone s t d (BitVec.ofInt 64 ((s.rg a).toInt + i.toInt))) ∧
  Completes (.andi d a i) s (fun t => RegDone s t d (s.rg a &&& BitVec.ofNat 64 i.toNat)) ∧
  Completes (.ori d a i) s (fun t => RegDone s t d (s.rg a ||| BitVec.ofNat 64 i.toNat)) ∧
  Completes (.xori d a i) s (fun t => RegDone s t d (s.rg a ^^^ BitVec.ofNat 64 i.toNat)) ∧
  Completes (.slli d a sh) s (fun t => RegDone s t d (BitVec.ofNat 64 ((s.rg a).toNat * 2 ^ sh.toNat))) ∧
  Completes (.srli d a sh) s (fun t => RegDone s t d (BitVec.ofNat 64 ((s.rg a).toNat / 2 ^ sh.toNat))) ∧
  Completes (.srai d a sh) s (fun t => RegDone s t d (BitVec.ofInt 64 ((s.rg a).toInt / 2 ^ sh.toNat))) ∧
  Completes (.slti d a i) s (fun t => RegDone s t d (if (s.rg a).toInt < i.toInt then 1 else 0)) ∧
  Completes (.lui d i) s (fun t => RegDone s t d (BitVec.ofInt 64 (i.toInt * 2 ^ 16))) ∧
  Completes (.lhi d a i) s (fun t => RegDone s t d (BitVec.ofNat 64 ((s.rg a).toNat % 2 ^ 48 + i.toNat * 2 ^ 48))))

/-- R195 whole: DIV, DIVU and REM complete for all operands with the listed edges, DIVT for a divisor that is not 0, and
with 0 it traps with DIVZERO and leaves d unchanged; no integer instruction traps on overflow. -/
def Obligations.TaskDivide : Prop := ∀ (s : State) (d a b : Reg) (i : BitVec 16) (sh : BitVec 6),
  let x := s.rg a
  let y := s.rg b
  let quot : Word :=
    if y = 0 then (if 0 ≤ x.toInt then 0x7FFFFFFFFFFFFFFF else 0x8000000000000000) else BitVec.ofInt 64 (Int.tdiv x.toInt y.toInt)
  Completes (.div d a b) s (fun t => RegDone s t d quot) ∧
  Completes (.divu d a b) s (fun t => RegDone s t d (if y = 0 then 0xFFFFFFFFFFFFFFFF else BitVec.ofNat 64 (x.toNat / y.toNat))) ∧
  Completes (.rem d a b) s (fun t => RegDone s t d
    (if y = 0 then x else BitVec.ofInt 64 (x.toInt - y.toInt * Int.tdiv x.toInt y.toInt))) ∧
  (x = 0x8000000000000000 ∧ y = 0xFFFFFFFFFFFFFFFF →
    Completes (.div d a b) s (fun t => RegDone s t d 0x8000000000000000) ∧
    Completes (.rem d a b) s (fun t => RegDone s t d 0)) ∧
  (y ≠ 0 → Completes (.divt d a b) s (fun t => RegDone s t d quot)) ∧
  (y = 0 → Fresh s → Completes (.divt d a b) s (fun t => TrapDone s t 9 x ∧ t.rg d = s.rg d)) ∧
  (y = 0 → ¬Fresh s → Completes (.divt d a b) s (fun t => DoubleTrapDone s t ∧ t.rg d = s.rg d)) ∧
  ∀ j ∈ ([.add d a b, .sub d a b, .and d a b, .or d a b, .xor d a b, .sll d a b, .srl d a b, .sra d a b, .slt d a b,
      .sltu d a b, .min d a b, .max d a b, .mul d a b, .mulh d a b, .div d a b, .divu d a b, .rem d a b, .clz d a, .popc d a,
      .addi d a i, .andi d a i, .ori d a i, .xori d a i, .slli d a sh, .srli d a sh, .srai d a sh, .slti d a i, .lui d i,
      .lhi d a i] : List Instr),
    Completes j s (fun t => t.me.st = s.me.st ∧ t.me.tstat = s.me.tstat ∧ t.me.tcause = s.me.tcause ∧ t.me.tepc = s.me.tepc)

/-! ### The FP32 group -/

/-- R203 on exact values: FADD to FCVTFI round the exact result once, to nearest even, and change nothing but the
destination and the PC; FLT with a NaN gives 0, FCVTFI of NaN gives 0, of infinities the ends of the range. -/
def Obligations.TaskFp32 : Prop := ∀ (s : State) (d a b : Reg),
  let x := exOf32 ((s.rg a).setWidth 32)
  let y := exOf32 ((s.rg b).setWidth 32)
  Completes (.fadd d a b) s (fun t => RegDone s t d ((rne32 (Ex.add .rne x y)).setWidth 64)) ∧
  Completes (.fsub d a b) s (fun t => RegDone s t d ((rne32 (Ex.add .rne x y.neg)).setWidth 64)) ∧
  Completes (.fmul d a b) s (fun t => RegDone s t d ((rne32 (Ex.mul x y)).setWidth 64)) ∧
  Completes (.fdiv d a b) s (fun t => RegDone s t d ((rne32 (Ex.div x y)).setWidth 64)) ∧
  Completes (.fsqrt d a) s (fun t => RegDone s t d ((rne32 (Ex.sqrt x)).setWidth 64)) ∧
  Completes (.flt d a b) s (fun t => RegDone s t d
    (if x.isNan || y.isNan then 0 else if Ex.cmp x y = .lt then 1 else 0)) ∧
  Completes (.fcvtif d a) s (fun t => RegDone s t d ((rne32 (ofIntEx (s.rg a).toInt)).setWidth 64)) ∧
  Completes (.fcvtfi d a) s (fun t => RegDone s t d (match x with
    | .nan => 0
    | .inf true => 0x8000000000000000
    | .inf false => 0x7FFFFFFFFFFFFFFF
    | .fin neg m e => BitVec.ofInt 64 (max (-(2 ^ 63)) (min (2 ^ 63 - 1) (roundInt .rne neg m e)))))

/-! ### The vector group -/

/-- R205: each lane of VADD to VLT follows the node of the same name on that lane, VFMA with the old v[d], and VCVT
converts each lane; nothing but v[d] and the PC changes.

R206: VSPLAT, VGET, VPUT and VRSUM; a lane number of 16 or more raises BOUNDS. -/
def Obligations.TaskVector : Prop :=
  (∀ (s : State) (d a b : VReg) (f g : Fmt),
  let lanes (h : Lane → Lane → Lane) : Vector Lane 16 := Vector.ofFn (fun k => h ((s.rv a).get k) ((s.rv b).get k))
  Completes (.vadd d a b f) s (fun t => VecDone s t d (lanes (addLane f .plain))) ∧
  Completes (.vsub d a b f) s (fun t => VecDone s t d (lanes (subLane f .plain))) ∧
  Completes (.vmul d a b f) s (fun t => VecDone s t d (lanes (mulLane f .plain))) ∧
  Completes (.vfma d a b f) s (fun t => VecDone s t d
    (Vector.ofFn (fun k => fmaLane f .plain ((s.rv a).get k) ((s.rv b).get k) ((s.rv d).get k)))) ∧
  Completes (.vmin d a b f) s (fun t => VecDone s t d (lanes (minLane f))) ∧
  Completes (.vmax d a b f) s (fun t => VecDone s t d (lanes (maxLane f))) ∧
  Completes (.vand d a b f) s (fun t => VecDone s t d (lanes (andLane f))) ∧
  Completes (.vor d a b f) s (fun t => VecDone s t d (lanes (orLane f))) ∧
  Completes (.vshl d a b f) s (fun t => VecDone s t d (lanes (shlLane f))) ∧
  Completes (.vshr d a b f) s (fun t => VecDone s t d (lanes (shrLane f))) ∧
  Completes (.veq d a b f) s (fun t => VecDone s t d (lanes (relEq f))) ∧
  Completes (.vlt d a b f) s (fun t => VecDone s t d (lanes (relLt f))) ∧
  Completes (.vcvt d a g f) s (fun t => VecDone s t d (Vector.ofFn (fun k => cvtLane f g .plain ((s.rv a).get k))))) ∧
  (∀ (s : State) (d a : VReg) (x y : Reg) (f : Fmt),
  Completes (.vsplat d x f) s (fun t => VecDone s t d (Vector.ofFn (fun _ => placeBits f (s.rg x).toNat))) ∧
  (∀ k : Fin 16, (s.rg y).toNat = k.val →
    Completes (.vget x a y f) s (fun t => RegDone s t x
      (if f = .i32 ∨ f = .i16 ∨ f = .i8 then BitVec.ofInt 64 (readInt f ((s.rv a).get k))
       else BitVec.ofNat 64 (lowBits f ((s.rv a).get k)))) ∧
    Completes (.vput d x y f) s (fun t => VecDone s t d
      (Vector.ofFn (fun j => if j = k then placeBits f (s.rg x).toNat else (s.rv d).get j)))) ∧
  (16 ≤ (s.rg y).toNat → Fresh s →
    Completes (.vget x a y f) s (fun t => TrapDone s t 5 (s.rg y)) ∧
    Completes (.vput d x y f) s (fun t => TrapDone s t 5 (s.rg y))) ∧
  Completes (.vrsum x a f) s (fun t => RegDone s t x (getLane f (redLanes .sum f .plain (s.rv a).toList))))

/-! ### Branches and jumps -/

/-- R200: a taken branch and J go to PC + 4 × offset, an untaken branch to PC + 4; JAL and JALR write PC + 4; a JALR
target that is no multiple of 4 raises MISALIGN first, a target outside 0 to 0xFFFC BOUNDS, and neither register nor PC
changes but by the trap entry. -/
def Obligations.TaskBranches : Prop := ∀ (s : State) (a b d : Reg) (o i : BitVec 16) (j : BitVec 26),
  let x := s.rg a
  let y := s.rg b
  let near : Int := s.me.pc.toNat + 4 * o.toInt
  let far : Int := s.me.pc.toNat + 4 * j.toInt
  let ea : Word := x + i.signExtend 64
  (∀ p ∈ ([(.beq a b o, decide (x = y)), (.bne a b o, decide (x ≠ y)), (.blt a b o, decide (x.toInt < y.toInt)),
      (.bge a b o, decide (y.toInt ≤ x.toInt)), (.bltu a b o, decide (x.toNat < y.toNat)),
      (.bgeu a b o, decide (y.toNat ≤ x.toNat))] : List (Instr × Bool)),
    (p.2 = false → Completes p.1 s (fun t => JumpDone s t (s.me.pc + 4))) ∧
    (p.2 = true → inStore near → Completes p.1 s (fun t => JumpDone s t (BitVec.ofInt 16 near))) ∧
    (p.2 = true → ¬inStore near → Fresh s → Completes p.1 s (fun t => TrapDone s t 5 (BitVec.ofInt 64 near)))) ∧
  (inStore far → Completes (.j j) s (fun t => JumpDone s t (BitVec.ofInt 16 far)) ∧
    Completes (.jal j) s (fun t => LinkDone s t 31 (BitVec.ofInt 16 far))) ∧
  (¬inStore far → Fresh s → Completes (.j j) s (fun t => TrapDone s t 5 (BitVec.ofInt 64 far)) ∧
    Completes (.jal j) s (fun t => TrapDone s t 5 (BitVec.ofInt 64 far))) ∧
  (ea.toNat % 4 = 0 → ea.toNat ≤ 0xFFFC → Completes (.jalr d a i) s (fun t => LinkDone s t d (ea.setWidth 16))) ∧
  (ea.toNat % 4 ≠ 0 → Fresh s → Completes (.jalr d a i) s (fun t => TrapDone s t 3 ea)) ∧
  (ea.toNat % 4 = 0 → 0xFFFC < ea.toNat → Fresh s → Completes (.jalr d a i) s (fun t => TrapDone s t 5 ea))

/-! ### Traps -/

/-- R221 whole: the words of ECALL, BRK and ERET; ECALL and BRK trap with TEPC at the instruction, and are a double trap with
the nesting bit set; ERET in SUPV returns, outside SUPV it raises ILL.

A word that is no instruction raises POOL_EXEC when it was fetched from a data-marked line, else ILL with the word in
TRAPVAL (R79, R193, R371). -/
def Obligations.TaskSystem : Prop :=
  (decodeTask 0xF0000000 = .ok .ecall ∧ decodeTask 0xF0000002 = .ok .brk ∧ decodeTask 0xF0000001 = .ok .eret ∧
  ∀ s : State,
    (Fresh s → Completes .ecall s (fun t => TrapDone s t 10 0) ∧ Completes .brk s (fun t => TrapDone s t 11 0)) ∧
    (¬Fresh s → Completes .ecall s (DoubleTrapDone s) ∧ Completes .brk s (DoubleTrapDone s)) ∧
    (s.me.st = .supv → Completes .eret s (fun t => OnlyMe s t ∧ t.me.pc = s.me.tepc ∧ t.me.st = .run ∧
      t.me.tstat.getLsbD 0 = false ∧ t.me.tstat.getLsbD 1 = s.me.tstat.getLsbD 1 ∧
      { t.me with pc := s.me.pc, st := s.me.st, tstat := s.me.tstat } = s.me)) ∧
    (s.me.st ≠ .supv → Fresh s → Completes .eret s (fun t => TrapDone s t 1 0xF0000001)) ∧
    (s.me.st ≠ .supv → ¬Fresh s → Completes .eret s (fun t => DoubleTrapDone s t))) ∧
  (∀ (s : State) (w : BitVec 32), Fresh s →
  let marked := ∃ p ∈ s.myCell.marked, p.1 ≤ s.me.pc.toNat / 64 ∧ s.me.pc.toNat / 64 < p.1 + p.2
  (marked → Completes (.illegalWord w) s (fun t => TrapDone s t 2 (s.me.pc.setWidth 64))) ∧
  (¬marked → Completes (.illegalWord w) s (fun t => TrapDone s t 1 (w.setWidth 64))))

/-- R372 whole: a trap of any cause with the nesting bit set vectors nowhere, keeps TEPC, TCAUSE, TRAPVAL and TSTAT, freezes
the slot, blacks the region out from the slot's cell in this tick, and records the second cause, its PC and its value. -/
def Obligations.DoubleTrap : Prop := ∀ (s : State) (c : Cause) (v : Word), ¬Fresh s →
  DoubleTrapDone s (s.trap c v) ∧
  (s.myRegion.freeze = none → ∃ f, (s.trap c v).myRegion.freeze = some f ∧ f.t0 = s.cyc.toNat ∧ f.start = s.actCell ∧
    f.kind = 2 ∧ bits f.incident.w0 7 0 = 0x03 ∧ bits f.incident.w0 15 8 = causeCode c ∧
    f.incident.w2 = BitVec.ofNat 64 s.me.pc.toNat ∧ f.incident.w3 = v ∧
    (s.trap c v).due = s.due ++ [(.blackoutWaveArrive, .cell s.actCue s.actCell)])

/-! ### Control and status registers -/

/-- R23 whole: an access to an unassigned address, a write to a read-only one, and an access marked "in SUPV" from a slot that
is not in SUPV raise ILL; no register, CSR or memory byte changes but by the trap entry. CSRW always writes, CSRS and CSRC
write unless a is g0 (R78). -/
def Obligations.CsrFaults : Prop := ∀ (s : State) (d a : Reg) (c : BitVec 12),
  let n := c.toNat
  let bad (write : Bool) : Prop :=
    ¬csrAssigned n ∨ (write = true ∧ csrReadOnly n) ∨ (csrSupv n write ∧ s.me.st ≠ .supv)
  ∀ p ∈ ([(.csrr d c, false), (.csrw d a c, true), (.csrs d a c, decide (a ≠ 0)), (.csrc d a c, decide (a ≠ 0))] : List (Instr × Bool)),
    bad p.2 → (Fresh s → Completes p.1 s (fun t => TrapDone s t 1 (wordOf p.1))) ∧
      (¬Fresh s → Completes p.1 s (fun t => DoubleTrapDone s t))

/-- Reading a CSR gives what R22 says it holds and changes nothing but d and the PC: CYC, FRAME, WHO, SLOTST with BIND, the spill
registers, the Table Store bounds, the Crossing and Prompter fields, PARTW, CMASK; the trap registers in SUPV; the stall and
Prompter counters of the cell's elements and the stall counters of its switch-box nodes, 0 where no node owns the element or has
the number. CSRS and CSRC with a = g0 are such reads (R78).

CSRW, CSRS and CSRC read the old value into d and write the new one in one step (R202): of the spill pointer within its
limits, and in SUPV of SSBASE, SSLIM, the trap vector, TEPC and TSTAT; any write to a stall or Prompter counter clears it, and one
to a counter that no node owns writes nothing. A value that breaks a limit of R22 raises ILL, and so, by log 16's choice, does one of
SSBASE or SSLIM that would part SSP from its bounds. -/
def Obligations.CsrAccess : Prop :=
  (∀ (s : State) (d : Reg),
  (∀ p ∈ ([(0x000, s.cyc), (0x001, BitVec.ofNat 64 (s.cyc.toNat / 2 ^ 10)),
      (0x003, BitVec.ofNat 64 (slotCode s.me.st + s.me.bind.toNat * 2 ^ 8)),
      (0x010, s.me.ssp.setWidth 64), (0x011, s.me.ssbase.setWidth 64), (0x012, s.me.sslim.setWidth 64),
      (0x030, BitVec.ofNat 64 s.myTenant.tsbase), (0x031, BitVec.ofNat 64 s.myTenant.tslim),
      (0x002, BitVec.ofNat 64 (s.myRegion.tenant * 2 ^ 36 + s.myRegion.die * 2 ^ 34 + siteX s.myCell.site * 2 ^ 29 +
        siteY s.myCell.site * 2 ^ 24 + s.actCell * 2 ^ 4 + s.actSlot)),
      (0x040, BitVec.ofNat 64 s.myRegion.xwin), (0x041, BitVec.ofNat 64 s.myRegion.xthr), (0x042, BitVec.ofNat 64 s.myRegion.xkap),
      (0x050, BitVec.ofNat 64 s.myRegion.prmBatch), (0x051, BitVec.ofNat 64 s.myRegion.prmQmax),
      (0x052, BitVec.ofNat 64 s.myRegion.prmPort), (0x053, BitVec.ofNat 64 s.myRegion.prmBytes),
      (0x060, BitVec.ofNat 64 (bits (s.myRegion.lw 2) 63 32)), (0x070, s.me.cmask.setWidth 64)] : List (BitVec 12 × Word)),
    Completes (.csrr d p.1) s (fun t => RegDone s t d p.2)) ∧
  (s.me.st = .supv → ∀ p ∈ ([(0x020, s.me.tvec.setWidth 64), (0x021, s.me.tcause), (0x022, s.me.trapval),
      (0x023, s.me.tepc.setWidth 64), (0x024, s.me.tstat.setWidth 64)] : List (BitVec 12 × Word)),
    Completes (.csrr d p.1) s (fun t => RegDone s t d p.2)) ∧
  (∀ e k : Nat, e < 16 → k < 8 → (∀ i copy, s.myRegion.elemOwner s.actCell e = some (i, copy) →
      Completes (.csrr d (BitVec.ofNat 12 (0x100 + 8 * e + k))) s (fun t =>
        RegDone s t d ((stallOf ((s.myRegion.node i).elem copy) k).setWidth 64)) ∧
      Completes (.csrr d (BitVec.ofNat 12 (0x180 + 2 * e))) s (fun t => RegDone s t d (BitVec.ofNat 64 (s.myRegion.node i).op.prm)) ∧
      Completes (.csrr d (BitVec.ofNat 12 (0x181 + 2 * e))) s (fun t => RegDone s t d (BitVec.ofNat 64 (s.myRegion.node i).op.prmw))) ∧
    (s.myRegion.elemOwner s.actCell e = none →
      ∀ c ∈ ([BitVec.ofNat 12 (0x100 + 8 * e + k), BitVec.ofNat 12 (0x180 + 2 * e), BitVec.ofNat 12 (0x181 + 2 * e)] : List (BitVec 12)),
        Completes (.csrr d c) s (fun t => RegDone s t d 0)) ∧
    Completes (.csrr d (BitVec.ofNat 12 (0x200 + 8 * e + k))) s (fun t => RegDone s t d
      (match (s.myRegion.boxNodes s.actCell)[e]? with
        | some i => (stallOf ((s.myRegion.node i).elem 0) k).setWidth 64
        | none => 0))) ∧
  (∀ c : BitVec 12, csrAssigned c.toNat → (csrSupv c.toNat false → s.me.st = .supv) →
    exec (.csrs d 0 c) s = exec (.csrr d c) s ∧ exec (.csrc d 0 c) s = exec (.csrr d c) s)) ∧
  (∀ (s : State) (d a : Reg),
  let new (t : State) (x : Slot) : Prop := OnlyMe s t ∧ t.me = (x.setReg d (s.me.ssp.setWidth 64)).next
  let fits (v : Word) : Prop := v.toNat % 8 = 0 ∧ s.me.ssbase.toNat ≤ v.toNat ∧ v.toNat ≤ s.me.sslim.toNat
  (fits (s.rg a) → Completes (.csrw d a 0x010) s (fun t => new t { s.me with ssp := (s.rg a).setWidth 32 })) ∧
  (a ≠ 0 → fits (s.me.ssp.setWidth 64 ||| s.rg a) →
    Completes (.csrs d a 0x010) s (fun t => new t { s.me with ssp := (s.me.ssp.setWidth 64 ||| s.rg a).setWidth 32 })) ∧
  (a ≠ 0 → fits (s.me.ssp.setWidth 64 &&& ~~~(s.rg a)) →
    Completes (.csrc d a 0x010) s (fun t => new t { s.me with ssp := (s.me.ssp.setWidth 64 &&& ~~~(s.rg a)).setWidth 32 })) ∧
  (s.me.st = .supv → (s.rg a).toNat % 4 = 0 → (s.rg a).toNat ≤ 0xFFFC →
    Completes (.csrw d a 0x020) s (fun t => OnlyMe s t ∧
      t.me = (({ s.me with tvec := (s.rg a).setWidth 16 } : Slot).setReg d (s.me.tvec.setWidth 64)).next) ∧
    Completes (.csrw d a 0x023) s (fun t => OnlyMe s t ∧
      t.me = (({ s.me with tepc := (s.rg a).setWidth 16 } : Slot).setReg d (s.me.tepc.setWidth 64)).next)) ∧
  (s.me.st = .supv → (s.rg a).toNat ≤ 3 →
    Completes (.csrw d a 0x024) s (fun t => OnlyMe s t ∧
      t.me = (({ s.me with tstat := (s.rg a).setWidth 2 } : Slot).setReg d (s.me.tstat.setWidth 64)).next)) ∧
  (s.me.st = .supv → (s.rg a).toNat % 8 = 0 →
    ((s.rg a).toNat ≤ s.me.ssp.toNat → Completes (.csrw d a 0x011) s (fun t => OnlyMe s t ∧
      t.me = (({ s.me with ssbase := (s.rg a).setWidth 32 } : Slot).setReg d (s.me.ssbase.setWidth 64)).next)) ∧
    (s.me.ssp.toNat ≤ (s.rg a).toNat → (s.rg a).toNat ≤ s.myRegion.taskBytes → Completes (.csrw d a 0x012) s (fun t => OnlyMe s t ∧
      t.me = (({ s.me with sslim := (s.rg a).setWidth 32 } : Slot).setReg d (s.me.sslim.setWidth 64)).next))) ∧
  (s.me.st = .supv → Fresh s → ∀ p ∈ ([(0x011, (s.rg a).toNat % 8 ≠ 0 ∨ s.me.ssp.toNat < (s.rg a).toNat),
      (0x012, (s.rg a).toNat % 8 ≠ 0 ∨ s.myRegion.taskBytes < (s.rg a).toNat ∨ (s.rg a).toNat < s.me.ssp.toNat),
      (0x020, (s.rg a).toNat % 4 ≠ 0 ∨ 0xFFFC < (s.rg a).toNat), (0x023, (s.rg a).toNat % 4 ≠ 0 ∨ 0xFFFC < (s.rg a).toNat),
      (0x024, 3 < (s.rg a).toNat)] : List (BitVec 12 × Prop)), p.2 →
    Completes (.csrw d a p.1) s (fun t => TrapDone s t 1 (wordOf (.csrw d a p.1)))) ∧
  (∀ e k : Nat, e < 16 → k < 8 →
    (∀ i copy, s.myRegion.elemOwner s.actCell e = some (i, copy) →
      Completes (.csrw d a (BitVec.ofNat 12 (0x100 + 8 * e + k))) s (fun t =>
        stallOf ((t.myRegion.node i).elem copy) k = 0 ∧
        t.me = (s.me.setReg d ((stallOf ((s.myRegion.node i).elem copy) k).setWidth 64)).next ∧ SameMem s t) ∧
      Completes (.csrw d a (BitVec.ofNat 12 (0x180 + 2 * e))) s (fun t => (t.myRegion.node i).op.prm = 0 ∧
        (t.myRegion.node i).op.prmw = (s.myRegion.node i).op.prmw ∧
        t.me = (s.me.setReg d (BitVec.ofNat 64 (s.myRegion.node i).op.prm)).next ∧ SameMem s t) ∧
      Completes (.csrw d a (BitVec.ofNat 12 (0x181 + 2 * e))) s (fun t => (t.myRegion.node i).op.prmw = 0 ∧
        (t.myRegion.node i).op.prm = (s.myRegion.node i).op.prm ∧
        t.me = (s.me.setReg d (BitVec.ofNat 64 (s.myRegion.node i).op.prmw)).next ∧ SameMem s t)) ∧
    (s.myRegion.elemOwner s.actCell e = none →
      ∀ c ∈ ([BitVec.ofNat 12 (0x100 + 8 * e + k), BitVec.ofNat 12 (0x180 + 2 * e), BitVec.ofNat 12 (0x181 + 2 * e)] : List (BitVec 12)),
        Completes (.csrw d a c) s (fun t => RegDone s t d 0)) ∧
    (∀ i, (s.myRegion.boxNodes s.actCell)[e]? = some i → Completes (.csrw d a (BitVec.ofNat 12 (0x200 + 8 * e + k))) s (fun t =>
      stallOf ((t.myRegion.node i).elem 0) k = 0 ∧
      t.me = (s.me.setReg d ((stallOf ((s.myRegion.node i).elem 0) k).setWidth 64)).next ∧ SameMem s t))))

/-! ### The spill stack -/

/-- R21 whole: a push of n bytes needs SSP − n ≥ SSBASE, writes its registers upwards from SSP − n and lowers SSP; a pop needs
SSP + n ≤ SSLIM and raises SSP; one that would break its bound raises SPILL_OVER with n and changes neither memory nor SSP;
a CSR write of SSP outside its bounds, or no multiple of 8, raises SPILL_OVER and leaves SSP. Below byte 32,768 of the task area
the stack is the register images (R19, R240), whose layout is the model's (DESIGN CHOICE, log 17): a push goes into them and a
pop reads them. -/
def Obligations.SpillStack : Prop := ∀ (s : State) (f l d a : Reg), f.toNat ≤ l.toNat →
  let n := 8 * (l.toNat + 1 - f.toNat)
  let at_ (off : Nat) : Nat := poolKey s.myRegion.die s.myCell.site off
  (s.me.ssbase.toNat + n ≤ s.me.ssp.toNat → 32768 ≤ s.me.ssp.toNat - n →
    Completes (.pushm f l) s (fun t =>
      t.me = { s.me with ssp := BitVec.ofNat 32 (s.me.ssp.toNat - n), pc := s.me.pc + 4 } ∧ OtherSlots s t ∧
      SameMemBut s t (at_ (s.me.ssp.toNat - n)) n ∧
      ∀ k j, f.toNat ≤ k → k ≤ l.toNat → j < 8 →
        memGet t.mem (at_ (s.me.ssp.toNat - n) + 8 * (k - f.toNat) + j) = (s.rg (BitVec.ofNat 5 k)).extractLsb' (8 * j) 8)) ∧
  (s.me.ssbase.toNat + n ≤ s.me.ssp.toNat → s.me.ssp.toNat - n < 32768 →
    Completes (.pushm f l) s (fun t => t.me.ssp = BitVec.ofNat 32 (s.me.ssp.toNat - n) ∧ t.me.pc = s.me.pc + 4 ∧
      Viewed s t [(at_ (s.me.ssp.toNat - n),
        (List.range (l.toNat + 1 - f.toNat)).flatMap (fun k => leBytes 8 (s.rg (BitVec.ofNat 5 (f.toNat + k)))))])) ∧
  (s.me.ssp.toNat + n ≤ s.me.sslim.toNat → s.me.ssp.toNat < 32768 →
    Completes (.popm f l) s (fun t => OnlyMe s t ∧
      { t.me with g := s.me.g } = { s.me with ssp := BitVec.ofNat 32 (s.me.ssp.toNat + n), pc := s.me.pc + 4 } ∧ t.rg 0 = 0 ∧
      (f ≠ 0 → t.rg f = BitVec.ofNat 64 (natOf (s.viewBytes (at_ s.me.ssp.toNat) 8))) ∧
      (∀ r : Reg, r.toNat < f.toNat ∨ l.toNat < r.toNat → t.rg r = s.rg r))) ∧
  (s.me.ssp.toNat + n ≤ s.me.sslim.toNat → 32768 ≤ s.me.ssp.toNat →
    Completes (.popm f l) s (fun t => OnlyMe s t ∧
      { t.me with g := s.me.g } = { s.me with ssp := BitVec.ofNat 32 (s.me.ssp.toNat + n), pc := s.me.pc + 4 } ∧ t.rg 0 = 0 ∧
      (∀ k, f.toNat ≤ k → k ≤ l.toNat → k ≠ 0 →
        t.rg (BitVec.ofNat 5 k) = BitVec.ofNat 64 (s.load (at_ s.me.ssp.toNat + 8 * (k - f.toNat)) 8)) ∧
      (∀ r : Reg, r.toNat < f.toNat ∨ l.toNat < r.toNat → t.rg r = s.rg r))) ∧
  (Fresh s → s.me.ssp.toNat < s.me.ssbase.toNat + n → Completes (.pushm f l) s (fun t => TrapDone s t 8 (BitVec.ofNat 64 n))) ∧
  (Fresh s → s.me.sslim.toNat < s.me.ssp.toNat + n → Completes (.popm f l) s (fun t => TrapDone s t 8 (BitVec.ofNat 64 n))) ∧
  (∀ p ∈ ([(.csrw d a 0x010, s.rg a), (.csrs d a 0x010, s.me.ssp.setWidth 64 ||| s.rg a),
      (.csrc d a 0x010, s.me.ssp.setWidth 64 &&& ~~~(s.rg a))] : List (Instr × Word)),
    (p.1 = .csrw d a 0x010 ∨ a ≠ 0) →
    (p.2.toNat % 8 ≠ 0 ∨ p.2.toNat < s.me.ssbase.toNat ∨ s.me.sslim.toNat < p.2.toNat) →
    (Fresh s → Completes p.1 s (fun t => TrapDone s t 8 p.2 ∧ t.me.ssp = s.me.ssp)) ∧
    (¬Fresh s → Completes p.1 s (fun t => DoubleTrapDone s t ∧ t.me.ssp = s.me.ssp))) ∧
  (¬Fresh s →
    (s.me.ssp.toNat < s.me.ssbase.toNat + n → Completes (.pushm f l) s (fun t => DoubleTrapDone s t ∧ t.me.ssp = s.me.ssp)) ∧
    (s.me.sslim.toNat < s.me.ssp.toNat + n → Completes (.popm f l) s (fun t => DoubleTrapDone s t ∧ t.me.ssp = s.me.ssp)))

/-! ### Task memory -/

/-- Loads (R197, R199): a load that its checks and requests let go on at once has the bytes the slot sees at the ranges reached, one
that has been asked for those that its answer brought (R340); d holds them, sign- or zero-extended. What waits for a tile, for
stores of the slot to its bytes, for its port or its answer waits (R247, R248, R268, R353, R354).

Stores (R197, R199): once the checks and requests pass, the low bytes of the register go to the ranges reached. A store to
the spill stack is made at once (log 5), in memory or, below 32,768, in the register images that stand there (R19, R240, log 17); any
other joins the region's stores still to be performed and memory is untouched, but one to a strong page waits till it has been
performed and answered, and passes with its answer (R268). No other byte, slot or register changes.

R198 for every load and store: the first check that fails decides. MISALIGN; BOUNDS for a window that is not named; WINDOW_SPLIT;
BOUNDS for a store to 0xF2 and for bytes outside the scratchpad, the tenant's tables or the slot's spill bounds; PAGE for a page of
the range that does not translate (TARGET_DARK or TARGET_OFF where the table itself is out of reach, log 20), a wait for one that
migrates; VIOLATION for a right its pages lack; TARGET_OFF and TARGET_DARK for a page in a stack out of reach (R387). TRAPVAL is the
address.

An aligned load or store of the slot's own scratchpad, or of its spill stack, completes at the key R25 and R26 lay out, where
the slot's own stores, the queue of its port and, for a load, requests queued at its banks do not hold it (R247, R268). A store to
the spill stack is made at once (log 5), below byte 32,768 in the register images (log 17). -/
def Obligations.TaskLoadsStores : Prop :=
  (∀ (s : State) (d a : Reg) (v : VReg) (i : BitVec 16),
  let ea : Word := s.rg a + i.signExtend 64
  (∀ p ∈ ([(.ldb d a i, 1, true), (.ldbu d a i, 1, false), (.ldh d a i, 2, true), (.ldhu d a i, 2, false),
      (.ldw d a i, 4, true), (.ldwu d a i, 4, false), (.ldd d a i, 8, false)] : List (Instr × Nat × Bool)),
    (∀ g s', Gets s ea p.2.1 (.read p.2.1) g s' → s'.regions = s.regions ∧
      Completes p.1 s (fun t => RegDone s' t d (loaded p.2.1 p.2.2 (natOf g.bytes)))) ∧
    (∀ s', Pends s ea p.2.1 (.read p.2.1) s' → Completes p.1 s (fun t => Waits s' t))) ∧
  (∀ g s', Gets s ea 4 (.read 64) g s' → s'.regions = s.regions ∧
    Completes (.vld v a i) s (fun t => VecDone s' t v (Vector.ofFn (fun k => (lanesOfBytes g.bytes).getD k.val 0)))) ∧
  (∀ s', Pends s ea 4 (.read 64) s' → Completes (.vld v a i) s (fun t => Waits s' t))) ∧
  (∀ (s : State) (d a : Reg) (v : VReg) (i : BitVec 16),
  let ea : Word := s.rg a + i.signExtend 64
  let win := ea.toNat / 2 ^ 56
  (∀ p ∈ ([(.stb d a i, 1, leBytes 1 (s.rg d)), (.sth d a i, 2, leBytes 2 (s.rg d)), (.stw d a i, 4, leBytes 4 (s.rg d)),
      (.std d a i, 8, leBytes 8 (s.rg d)),
      (.vst v a i, 4, (s.rv v).toList.flatMap (fun x => leBytes 4 (x.setWidth 64)))] : List (Instr × Nat × List Byte)),
    (∀ segs s', Admits s ea p.2.1 (.write p.2.2) segs s' → s'.regions = s.regions ∧
      (win = 0xF3 → 32768 ≤ ea.toNat % 2 ^ 56 → Completes p.1 s (fun t => Passed s' t ∧ OtherSlots s' t ∧
        Written s' t (splitSegs segs p.2.2) ∧ t.myRegion.pend = s'.myRegion.pend)) ∧
      (win = 0xF3 → ea.toNat % 2 ^ 56 < 32768 → Completes p.1 s (fun t => t.me.pc = s'.me.pc + 4 ∧
        Viewed s' t (splitSegs segs p.2.2) ∧ t.myRegion.pend = s'.myRegion.pend)) ∧
      (win ≠ 0xF3 → Completes p.1 s (fun t => Passed s' t ∧ OtherSlots s' t ∧ Queued s' t ea segs p.2.2))) ∧
    (∀ bs s', Answered s ea (.write p.2.2) bs s' → s'.regions = s.regions ∧
      Completes p.1 s (fun t => Passed s' t ∧ OnlyMe s' t)) ∧
    (∀ s', Pends s ea p.2.1 (.write p.2.2) s' → Completes p.1 s (fun t => Waits s' t)))) ∧
  (∀ (s : State) (d a : Reg) (v : VReg) (i : BitVec 16),
  let ea : Word := s.rg a + i.signExtend 64
  let win := ea.toNat / 2 ^ 56
  let off := ea.toNat % 2 ^ 56
  let r := s.myRegion
  let unit := sliceOf r.die s.myCell.site
  ∀ p ∈ ([(.ldb d a i, 1, .read 1), (.ldbu d a i, 1, .read 1), (.ldh d a i, 2, .read 2), (.ldhu d a i, 2, .read 2),
      (.ldw d a i, 4, .read 4), (.ldwu d a i, 4, .read 4), (.ldd d a i, 8, .read 8), (.vld v a i, 4, .read 64),
      (.stb d a i, 1, .write (leBytes 1 (s.rg d))), (.sth d a i, 2, .write (leBytes 2 (s.rg d))),
      (.stw d a i, 4, .write (leBytes 4 (s.rg d))), (.std d a i, 8, .write (leBytes 8 (s.rg d))),
      (.vst v a i, 4, .write ((s.rv v).toList.flatMap (fun x => leBytes 4 (x.setWidth 64))))] : List (Instr × Nat × MemJob)),
    let n := p.2.2.size
    let wr := p.2.2.writes
    let traps (u : State) (code : Nat) : Prop := Fresh s → Completes p.1 s (fun t => TrapDone u t code ea)
    let named := win = 0 ∨ win = 0xF0 ∨ win = 0xF1 ∨ win = 0xF2 ∨ win = 0xF3
    let whole := (ea.toNat + n - 1) % 2 ^ 64 / 2 ^ 56 = win
    Unasked s ea p.2.2 →
    (ea.toNat % p.2.1 ≠ 0 → traps s 3) ∧
    (ea.toNat % p.2.1 = 0 →
      (¬named → traps s 5) ∧
      (named → ¬whole → traps s 4) ∧
      (named → whole →
        ((win = 0xF2 ∧ wr = true) ∨ (win = 0xF0 ∧ r.spadBytes < off + n) ∨
          (win = 0xF1 ∧ (2 ^ 52 ≤ off ∨ r.ncells ≤ off / 2 ^ 40 ∨ r.spadBytes < off % 2 ^ 40 + n)) ∨
          (win = 0xF2 ∧ (s.myTenant.tslim + 1 - s.myTenant.tsbase) * 8192 < off + n) ∨
          (win = 0xF3 ∧ (off < s.me.ssbase.toNat ∨ s.me.sslim.toNat < off + n)) → traps s 5)) ∧
      (win = 0 → whole → ∀ x s1, translate s unit r.tenant off wr = (x, s1) →
        (x = .invalid ∨ x = .malformed → traps s1 6) ∧
        (∀ pa, x = .dark pa → traps s1 (if s1.powerAt pa = .off then 13 else 12)) ∧
        (x = .migrating → Completes p.1 s (fun t => Waits s1 t)) ∧
        (∀ e pa, x = .ok e pa → off % 65536 + n ≤ 65536 →
          (∀ right, rights e r.tenant (!wr) wr = some right → Completes p.1 s (fun t => ViolationDone s1 t)) ∧
          (rights e r.tenant (!wr) wr = none → s1.powerAt pa = .off → traps s1 13) ∧
          (rights e r.tenant (!wr) wr = none → s1.powerAt pa = .dark → dieOfStack (stackOf pa) ≠ r.die → traps s1 12)) ∧
        (∀ e pa y s2, x = .ok e pa → 65536 < off % 65536 + n → translate s1 unit r.tenant (off + (65536 - off % 65536)) wr = (y, s2) →
          (y = .invalid ∨ y = .malformed → traps s2 6) ∧
          (∀ e2 pa2 right, y = .ok e2 pa2 → (rights e r.tenant (!wr) wr).or (rights e2 r.tenant (!wr) wr) = some right →
            Completes p.1 s (fun t => ViolationDone s2 t)))))) ∧
  (∀ (s : State) (d a : Reg) (i : BitVec 16),
  let ea : Word := s.rg a + i.signExtend 64
  let seen (key n : Nat) : Nat := natOf ((List.range n).map (fun k => s.viewByte (key + k)))
  let free (key : Nat) (job : MemJob) : Prop := Unasked s ea job ∧ s.accessWait ea [⟨key, job.size, none⟩] job = none
  ∀ key, (∀ n, n ∈ [1, 2, 4, 8] → (OwnRange s ea n ∧ key = ownKey s ea) ∨ (StackRange s ea n ∧ key = stackKey s ea) →
    (free key (.read n) → s.queuesOwn ea [⟨key, n, none⟩] (.read n) = false → ∀ p ∈ ([(.ldb d a i, 1, true), (.ldbu d a i, 1, false), (.ldh d a i, 2, true), (.ldhu d a i, 2, false),
        (.ldw d a i, 4, true), (.ldwu d a i, 4, false), (.ldd d a i, 8, false)] : List (Instr × Nat × Bool)),
      p.2.1 = n → Completes p.1 s (fun t => RegDone s t d (loaded n p.2.2 (seen key n)))) ∧
    (free key (.write (leBytes n (s.rg d))) → ∀ p ∈ ([(.stb d a i, 1), (.sth d a i, 2), (.stw d a i, 4), (.std d a i, 8)] : List (Instr × Nat)),
      p.2 = n →
      (OwnRange s ea n → Completes p.1 s (fun t => Passed s t ∧ OtherSlots s t ∧
        Queued s t ea [⟨key, n, none⟩] (leBytes n (s.rg d)))) ∧
      (StackRange s ea n → 32768 ≤ ea.toNat % 2 ^ 56 → Completes p.1 s (fun t => Passed s t ∧ OtherSlots s t ∧
        Written s t [(key, leBytes n (s.rg d))])) ∧
      (StackRange s ea n → ea.toNat % 2 ^ 56 < 32768 → Completes p.1 s (fun t => t.me.pc = s.me.pc + 4 ∧
        Viewed s t [(key, leBytes n (s.rg d))])))))

/-- The ATOM group (R207): at an aligned address of window 0x00, 0xF0 or 0xF1, d holds the old value. Where nothing is queued at its
banks an atomic on the own scratchpad puts the new value of R152 there at once, and nothing else changes; any other is performed
where its requests go (AccessServed), and passes with the old value that its answer brings (R247, R248, R340). What waits for a tile,
for stores of the slot to its bytes, for its port or its answer waits (R268). MISALIGN comes first, then BOUNDS for another window. -/
def Obligations.TaskAtomics : Prop := ∀ (s : State) (d a b : Reg) (r : BitVec 3) (w : BitVec 1),
  let ea := s.rg a
  let sg (n v : Nat) : Int := (BitVec.ofNat (8 * n) v).toInt
  let win := ea.toNat / 2 ^ 56
  ∀ p ∈ ([(.aadd d a b r w, .add, atomBytes w, true, fun n m x _ => (m + x) % 2 ^ (8 * n)),
      (.amax d a b r w, .max, atomBytes w, true, fun n m x _ => if sg n m < sg n x then x else m),
      (.amin d a b r w, .min, atomBytes w, true, fun n m x _ => if sg n x < sg n m then x else m),
      (.aand d a b r w, .and, atomBytes w, true, fun _ m x _ => m &&& x),
      (.aor d a b r w, .or, atomBytes w, true, fun _ m x _ => m ||| x),
      (.aswp d a b r w, .swp, atomBytes w, true, fun _ _ x _ => x),
      (.acas d a b r w, .cas, atomBytes w, true, fun _ m x old => if m = old then x else m),
      (.afadd d a b r, .fadd, 4, false, fun _ m x _ => (addLane .f32 .plain (BitVec.ofNat 32 m) (BitVec.ofNat 32 x)).toNat),
      (.amaxa d a b r, .maxa, 4, false, fun _ m x _ => (amaxaLane (BitVec.ofNat 32 m) (BitVec.ofNat 32 x)).toNat)] :
      List (Instr × AtomOp × Nat × Bool × (Nat → Nat → Nat → Nat → Nat))),
    let n := p.2.2.1
    let x := (s.rg b).toNat % 2 ^ (8 * n)
    let old := (s.rg d).toNat % 2 ^ (8 * n)
    let job : MemJob := .atom p.2.1 n x old
    (ea.toNat % n = 0 → win = 0 ∨ win = 0xF0 ∨ win = 0xF1 →
      (∀ segs s', Admits s ea n job segs s' →
        let m := natOf (s'.viewSegs segs)
        let parts := splitSegs segs (bytesOf n (p.2.2.2.2 n m x old))
        s'.regions = s.regions ∧ Completes p.1 s (fun t =>
          RegDone (s'.writeSegs parts) t d (loaded n p.2.2.2.1 m) ∧ OtherSlots s' t ∧ Written s' t parts)) ∧
      (∀ bs s', Answered s ea job bs s' → s'.regions = s.regions ∧
        Completes p.1 s (fun t => RegDone s' t d (loaded n p.2.2.2.1 (natOf bs)))) ∧
      (∀ s', Pends s ea n job s' → Completes p.1 s (fun t => Waits s' t))) ∧
    (Fresh s → ea.toNat % n ≠ 0 → Completes p.1 s (fun t => TrapDone s t 3 ea)) ∧
    (Fresh s → ea.toNat % n = 0 → win ≠ 0 ∧ win ≠ 0xF0 ∧ win ≠ 0xF1 → Completes p.1 s (fun t => TrapDone s t 5 ea))

/-! ### Fences, time and masks -/

/-- FENCE.acq passes; FENCE.rel and FENCE.full pass once every earlier store of the slot is performed, and wait till then (R208,
log 5).

SLEEPUNTIL sleeps while CYC < g[a] and else passes (R215); SLEEP_EXPIRY ends the sleep once CYC is there, in RUN, or in SUPV
while the nesting bit is set (log 6); TASK_WAIT_RESUME does so for a wait whose cause is ready; both where the cell runs and no
exchange holds it (R363, R381).

MASKC sets and UNMASKC clears bit c of CMASK and no other; a class outside the tenant's is a VIOLATION (R213). -/
def Obligations.TaskOrder : Prop :=
  (∀ (s : State) (r : BitVec 3),
  Completes (.fenceAcq r) s (fun t => JumpDone s t (s.me.pc + 4)) ∧
  ∀ i ∈ ([.fenceRel r, .fenceFull r] : List Instr),
    (Settled s → Completes i s (fun t => JumpDone s t (s.me.pc + 4))) ∧ (¬Settled s → Completes i s (Waits s))) ∧
  (∀ (s : State) (a : Reg),
  let back : SlotSt := if s.me.tstat.getLsbD 0 then .supv else .run
  (s.cyc.toNat < (s.rg a).toNat → Completes (.sleepuntil a) s (fun t => OnlyMe s t ∧
    t.me = { s.me with st := .sleep, sleepTill := s.rg a })) ∧
  ((s.rg a).toNat ≤ s.cyc.toNat → Completes (.sleepuntil a) s (fun t => JumpDone s t (s.me.pc + 4))) ∧
  (s.me.st = .sleep → s.me.sleepTill.toNat ≤ s.cyc.toNat → s.slotRuns s.actCue s.actCell = true → Completes .sleepExpiry s (fun t => OnlyMe s t ∧
    t.me = { s.me with st := back })) ∧
  (s.me.st = .wait → s.waitReady s.actCue s.actCell s.actSlot = true → s.slotRuns s.actCue s.actCell = true →
    Completes .taskWaitResume s (fun t => OnlyMe s t ∧
    t.me = { s.me with st := back, waiting := .nothing }))) ∧
  (∀ (s : State) (c : BitVec 4),
  (s.myTenant.classMask.getLsbD c.toNat = true →
    ∀ p ∈ ([(.maskc c, true), (.unmaskc c, false)] : List (Instr × Bool)), Completes p.1 s (fun t => OnlyMe s t ∧
      t.me.pc = s.me.pc + 4 ∧ { t.me with cmask := s.me.cmask, pc := s.me.pc } = s.me ∧
      ∀ k, k < 16 → t.me.cmask.getLsbD k = if k = c.toNat then p.2 else s.me.cmask.getLsbD k)) ∧
  (s.myTenant.classMask.getLsbD c.toNat = false →
    Completes (.maskc c) s (ViolationDone s) ∧ Completes (.unmaskc c) s (ViolationDone s)))

/-! ### Tile tags -/

/-- TFLIP and TWAIT on a tile no late Fly command of the slot names (R28, R209): the flip succeeds exactly when the tag is E,
writes that tag only, and where N names an engine it waits until the slot's stores are performed (R29); a flip that fails gives 1
and its place in the tick's order is noted; one that comes after a later flip of its tick issues again (DEDUCED, log 25). TWAIT passes when the
tag is E and else waits. A tile beyond SPADG × 16 raises BOUNDS.

R217: on the destination tile of a Fly command that the slot issued, that has not completed and whose told promise CYC has
reached, TWAIT and TFLIP trap with FLY_LATE; TRAPVAL is the new promise, which replaces the old. -/
def Obligations.TaskTileTags : Prop :=
  (∀ (s : State) (d a : Reg) (e n : BitVec 3),
  let k := (s.rg a).toNat
  let late := s.myCell.flipLate s.cyc.toNat (slotFlipRank s.actSlot) k
  (k < s.myRegion.spadg * 16 → s.lateCmd s.actCue s.actCell s.actSlot k = none →
    (s.myCell.tag k = e → late = false → n.toNat < 2 ∨ Settled s → Completes (.tflip d a e n) s (fun t =>
      t.myCell.tag k = n ∧ (∀ j, j ≠ k → t.myCell.tag j = s.myCell.tag j) ∧ t.me = (s.me.setReg d 0).next ∧ OtherSlots s t ∧
      SameMem s t)) ∧
    (s.myCell.tag k = e → late = false → 2 ≤ n.toNat → ¬Settled s → Completes (.tflip d a e n) s (Waits s)) ∧
    (s.myCell.tag k ≠ e → late = false → Completes (.tflip d a e n) s (fun t =>
      RegDone (s.setMyCell (s.myCell.noteFlip s.cyc.toNat (slotFlipRank s.actSlot) k)) t d 1)) ∧
    (late = true → Completes (.tflip d a e n) s (fun t => t = s)) ∧
    (s.myCell.tag k = e → Completes (.twait a e) s (fun t => JumpDone s t (s.me.pc + 4))) ∧
    (s.myCell.tag k ≠ e → Completes (.twait a e) s (Waits s))) ∧
  (s.myRegion.spadg * 16 ≤ k → Fresh s →
    Completes (.tflip d a e n) s (fun t => TrapDone s t 5 (s.rg a)) ∧
    Completes (.twait a e) s (fun t => TrapDone s t 5 (s.rg a)))) ∧
  (∀ (s : State) (d a : Reg) (e n : BitVec 3) (g : Nat) (f : FlyCmd), Fresh s →
  (s.rg a).toNat < s.myRegion.spadg * 16 → s.lateCmd s.actCue s.actCell s.actSlot (s.rg a).toNat = some (g, f) →
  let p := if f.promise ≤ s.cyc.toNat then s.cyc.toNat + 64 + (flyBytes f.c - f.done + f.reff - 1) / f.reff else f.promise
  ∀ i ∈ ([.twait a e, .tflip d a e n] : List Instr), Completes i s (fun t =>
    TrapDone { s with flys := t.flys } t 7 (BitVec.ofNat 64 p) ∧
    ∀ h ∈ (t.fly g).q, h.seq = f.seq → h.promise = p ∧ h.told = p))

/-! ### Channels and packets of a task -/

/-- RECV and RECVV (R210): of a DATA token from a channel the register holds lane 0, or the lanes with zeros after them; of the
oldest packet of the slot's class RECV puts the tag above lane 0, and one CREDIT goes to the packet's sender (R348). An ORDER or
CFG token is discarded, and CURTAIN stops the slot, with CURTAIN on its output ends (R378). With nothing there, or the class masked (R213), the slot waits; an end that is no input raises BOUNDS.

R214: taking EOS, from a channel or from the slot's class, ends a task: EOS on every output end, the PC at the entry, IDLE,
the registers as they stand, and the slot owes the EOS markers of the classes that no other slot of its cell holds back, from the
next tick on (R418).

SEND and SENDV (R211): with a free slot on the end, every channel of it receives one DATA token of the channel's width: g[a]
in lane 0 and zeros, or the lanes of v[a]; without, the slot waits; an end that is no output raises BOUNDS.

SENDP (R212, R350): with the class held by the tenant and in the slot's mask, a length and window in range, the payload's
reads admitted, quota at the port and a credit of every receiver, one packet is presented for each unicast not yet gone, or one for
all, with the tag and the payload's lanes; where the port is not ready the slot waits. Each of the checks decides in the order the rule
gives.

A word on its channel or class moves an IDLE slot of a running cell to RUN (R20), but a CURTAIN there stops it: CURTAIN on
its output ends (R378). A marker that a slot owes is sent to its class's receivers, not before its tick, once the class has their
credits (R418), and waits till then. -/
def Obligations.TaskChannels : Prop :=
  (∀ (s : State) (d : Reg) (v : VReg) (e : BitVec 5),
  let c : End := .task s.actCell s.actSlot e.toNat
  let vec (ls : List Lane) : Vector Lane 16 := Vector.ofFn (fun k => ls.getD k.val 0)
  let done (sl : Slot) (q : List (Nat × Nat × Token)) : Slot := { sl with queue := q, ended := false, pc := s.me.pc + 4 }
  let credit (t : State) (cl src : Nat) : Prop := ∃ p, t.packets = s.packets ++ [p] ∧ p.kind = 5 ∧ p.plane = 1 ∧ p.cls = cl ∧
    p.len = 1 ∧ p.dsts.map (fun q => q.recv) = [src]
  (∀ ls, s.me.bindClass = none → s.myRegion.head c = some (.data ls) →
    Completes (.recv d e) s (fun t => t.me = done (s.me.setReg d ((ls.headD 0).setWidth 64)) s.me.queue ∧
      TookFrom s.myRegion t.myRegion c ∧ OtherSlots s t ∧ SameMem s t) ∧
    Completes (.recvv v e) s (fun t => t.me = done (s.me.setVec v (vec ls)) s.me.queue ∧
      TookFrom s.myRegion t.myRegion c ∧ OtherSlots s t ∧ SameMem s t)) ∧
  (∀ cl src tag ls rest, s.me.bindClass = some cl → e = 0 → s.me.cmask.getLsbD cl = false →
    s.me.queue = (src, tag, .data ls) :: rest →
    Completes (.recv d e) s (fun t =>
      t.me = done (s.me.setReg d (BitVec.ofNat 64 ((ls.headD 0).toNat + tag % 2 ^ 16 * 2 ^ 32))) rest ∧
      credit t cl src ∧ OtherSlots s t ∧ SameMem s t) ∧
    Completes (.recvv v e) s (fun t =>
      t.me = done (s.me.setVec v (vec ls)) rest ∧ credit t cl src ∧ OtherSlots s t ∧ SameMem s t)) ∧
  (∀ tok, s.me.bindClass = none → s.myRegion.head c = some tok → (∃ k, tok = .order k) ∨ (∃ x y ls, tok = .cfg x y ls) →
    ∀ i ∈ ([.recv d e, .recvv v e] : List Instr), Completes i s (fun t => t.me.st = .wait ∧ t.me.pc = s.me.pc ∧
      t.me.g = s.me.g ∧ t.me.v = s.me.v ∧ TookFrom s.myRegion t.myRegion c ∧ OtherSlots s t ∧ SameMem s t)) ∧
  (s.me.bindClass = none → s.myRegion.head c = some .curtain → s.me.stopped = false →
    s.myRegion.outsRoom s.actCell s.actSlot = none →
    ∀ i ∈ ([.recv d e, .recvv v e] : List Instr), Completes i s (fun t => t.me.st = .wait ∧ t.me.stopped = true ∧
      t.me.pc = s.me.pc ∧ t.me.g = s.me.g ∧ t.me.v = s.me.v ∧ OtherSlots s t ∧ SameMem s t ∧
      ∀ o, o < 32 → ∀ ch ∈ t.myRegion.chans, ch.prod = .task s.actCell s.actSlot o → ch.q.getLast? = some .curtain)) ∧
  ((s.me.bindClass = none ∧ s.myRegion.chanTo c ≠ none ∧ s.myRegion.head c = none) ∨
      (∃ cl, s.me.bindClass = some cl ∧ e = 0 ∧ (s.me.cmask.getLsbD cl = true ∨ s.me.queue = [])) →
    Completes (.recv d e) s (Waits s) ∧ Completes (.recvv v e) s (Waits s)) ∧
  (Fresh s → (s.me.bindClass = none ∧ s.myRegion.chanTo c = none) ∨ (s.me.bindClass ≠ none ∧ e ≠ 0) →
    Completes (.recv d e) s (fun t => TrapDone s t 5 (e.setWidth 64)) ∧
    Completes (.recvv v e) s (fun t => TrapDone s t 5 (e.setWidth 64)))) ∧
  (∀ (s : State) (d : Reg) (v : VReg) (e : BitVec 5),
  (s.me.bindClass = none ∧ s.myRegion.head (.task s.actCell s.actSlot e.toNat) = some .eos) ∨
    (∃ cl src tag rest, s.me.bindClass = some cl ∧ e = 0 ∧ s.me.cmask.getLsbD cl = false ∧
      s.me.queue = (src, tag, .eos) :: rest) →
  s.myRegion.outsRoom s.actCell s.actSlot = none →
  ∀ i ∈ ([.recv d e, .recvv v e] : List Instr), Completes i s (fun t =>
    t.me.pc = s.me.entryPc ∧ t.me.st = .idle ∧ t.me.ended = true ∧ t.me.g = s.me.g ∧ t.me.v = s.me.v ∧
    t.me.markers = s.me.markers ++ s.myCell.owedMarkers s.actSlot (fun q => q.ended) .eos ∧
    t.me.markersAt = s.cyc.toNat + 1 ∧ OtherSlots s t ∧ SameMem s t ∧
    ∀ o, o < 32 → ∀ ch ∈ t.myRegion.chans, ch.prod = .task s.actCell s.actSlot o → ch.q.getLast? = some .eos)) ∧
  (∀ (s : State) (a : Reg) (v : VReg) (e : BitVec 5),
  let p : End := .task s.actCell s.actSlot e.toNat
  (∀ ch, s.myRegion.chans.find? (fun c => c.prod == p) = some ch → s.myRegion.room p 1 = true →
    Completes (.send a e) s (fun t => Passed s t ∧ OtherSlots s t ∧ SameMem s t ∧
      GaveOn s.myRegion t.myRegion p (.data ((List.range ch.wid).map (fun k => if k = 0 then (s.rg a).setWidth 32 else 0)))) ∧
    Completes (.sendv v e) s (fun t => Passed s t ∧ OtherSlots s t ∧ SameMem s t ∧
      GaveOn s.myRegion t.myRegion p (.data ((s.rv v).toList.take ch.wid)))) ∧
  ((∃ ch ∈ s.myRegion.chans, ch.prod = p) → s.myRegion.room p 1 = false →
    Completes (.send a e) s (Waits s) ∧ Completes (.sendv v e) s (Waits s)) ∧
  (Fresh s → (∀ ch ∈ s.myRegion.chans, ch.prod ≠ p) →
    Completes (.send a e) s (fun t => TrapDone s t 5 (e.setWidth 64)) ∧
    Completes (.sendv v e) s (fun t => TrapDone s t 5 (e.setWidth 64)))) ∧
  (∀ (s : State) (a b : Reg) (c : BitVec 4),
  let n := (s.rg b).toNat / 2 ^ 16 % 16 + 1
  let win := (s.rg a).toNat / 2 ^ 56
  let held := s.myTenant.classMask.getLsbD c.toNat = true
  let mask := s.me.sends.getLsbD c.toNat = true
  let small := (s.rg b).toNat / 2 ^ 20 = 0
  (∀ g s', held → mask → small → win = 0xF0 ∨ win = 0xF3 → Gets s (s.rg a) 4 (.read (4 * n)) g s' →
    let r := s.myRegion
    let lanes := lanesOfBytes g.bytes
    ((∀ q ∈ r.classDsts c.toNat, 0 < (r.cls c.toNat).credit s.actCell q.recv) →
      s'.hasQuota r.die s.myCell.site (dataFlits n) = true → s'.classLeased s.actCue s.actCell c.toNat = false →
      Completes (.sendp a b c) s (fun t => t.me = { s.me with sent := 0, pc := s.me.pc + 4 } ∧ OtherSlots s t ∧ SameMem s' t ∧
        ∃ ps, t.packets = s.packets ++ ps ∧
          ps.map (fun p => p.dsts) = r.sendsLeft c.toNat (dataFlits lanes.length) s.me.sent ∧
          ∀ p ∈ ps, p.kind = 0 ∧ p.plane = 0 ∧ p.cls = c.toNat ∧ p.tag = (s.rg b).toNat % 2 ^ 16 ∧ p.lanes = lanes ∧
            p.srcCell = s.actCell)) ∧
    (s'.portReady s.actCue s.actCell c.toNat (dataFlits n) s.me.sent = false → Completes (.sendp a b c) s (Waits s'))) ∧
  (¬held → Completes (.sendp a b c) s (ViolationDone s)) ∧
  (Fresh s → held → ¬mask → Completes (.sendp a b c) s (fun t => TrapDone s t 5 (c.setWidth 64))) ∧
  (Fresh s → held → mask → ¬small → Completes (.sendp a b c) s (fun t => TrapDone s t 5 (s.rg b))) ∧
  (Fresh s → held → mask → small → win ≠ 0xF0 → win ≠ 0xF3 → Completes (.sendp a b c) s (fun t => TrapDone s t 5 (s.rg a)))) ∧
  (∀ s : State,
  (∀ src tag tok, s.me.st = .idle → s.slotRuns s.actCue s.actCell = true →
    s.inHead s.actCue s.actCell s.actSlot s.me.boundEnd = some (src, tag, tok) →
    (tok ≠ .curtain → Completes .taskWake s (fun t => OnlyMe s t ∧ t.me = { s.me with st := .run })) ∧
    (tok = .curtain → s.me.stopped = false → s.myRegion.outsRoom s.actCell s.actSlot = none →
      Completes .taskWake s (fun t => t.me.stopped = true ∧ t.me.st = .idle ∧ OtherSlots s t ∧ SameMem s t ∧
        ∀ o, o < 32 → ∀ ch ∈ t.myRegion.chans, ch.prod = .task s.actCell s.actSlot o → ch.q.getLast? = some .curtain))) ∧
  (s.cyc.toNat < s.me.markersAt → Completes .markerSend s (fun t => t = s)) ∧
  (∀ cl tok, s.me.markers = [(cl, tok)] → s.me.markersAt ≤ s.cyc.toNat → s.classLeased s.actCue s.actCell cl = false →
    (s.myRegion.classDsts cl ≠ [] → (∀ q ∈ s.myRegion.classDsts cl, 0 < (s.myRegion.cls cl).credit s.actCell q.recv) →
      Completes .markerSend s (fun t => t.me = { s.me with markers := [] } ∧ OtherSlots s t ∧ SameMem s t ∧
        ∃ p, t.packets = s.packets ++ [p] ∧ p.kind = (if tok = .eos then 1 else 2) ∧ p.cls = cl ∧ p.len = 1 ∧
          p.srcCell = s.actCell ∧ p.dsts = s.myRegion.classDsts cl)) ∧
    ((∃ q ∈ s.myRegion.classDsts cl, (s.myRegion.cls cl).credit s.actCell q.recv = 0) →
      Completes .markerSend s (fun t => t.me = s.me ∧ OtherSlots s t ∧ SameMem s t ∧ t.packets = s.packets))))

/-! ### Engines and barriers from a task -/

/-- FLYC (R216, R300, R301): a command that is read, well formed, released, and finds a place and its leave is queued at the own
engine, behind all but later ranked commands of its tick, and d holds its promise. WNGC (R218) queues its block and gives 0, or
gives the refusal status. Both wait until the slot's stores are performed, and while the queue is full. TLOAD (R219) begins a copy
into the back bank. Misaligned addresses raise MISALIGN, others outside the windows and malformed commands (R298) BOUNDS. -/
def Obligations.TaskEngines : Prop := ∀ (s : State) (d a b : Reg),
  let ea := s.rg a
  let win := ea.toNat / 2 ^ 56
  (∀ g s', ea.toNat % 64 = 0 → win = 0 ∨ win = 0xF0 ∨ win = 0xF3 → Gets s ea 64 (.read 64) g s' →
    let c := cmdOfWords (wordsOfBytes g.bytes)
    let e := s.myRegion.die * 16 + s.myCell.site / 36
    flyMalformed s.myRegion s.actCell c = false →
    (∀ s2, Settled s → s'.queueRoom e = true →
      s'.askLeave s.myRegion.die s.actor (leaveUnits (flyBytes c)) = (true, s2) →
      let f : FlyCmd := { seq := s2.nextFly, cue := s.actCue, vcell := s.actCell, task := true, agent := s.actSlot, own := true,
                          c := c, promise := 0, made := s.cyc.toNat, fire := s.me.pc.toNat }
      let q := (s.fly e).q
      let ahead := q.take (q.length - (q.reverse.takeWhile f.behind).length)
      let pr := s2.flyPromise s.myRegion.tenant e c ahead
      Completes (.flyc d a) s (fun t => OtherSlots s t ∧ SameMem s' t ∧ t.me = (s.me.setReg d (BitVec.ofNat 64 pr.1)).next ∧
        ∃ rest, (t.fly e).q = ahead ++ { f with promise := pr.1, told := pr.1, reff := pr.2 } :: rest ∧
          rest.map (fun g => g.seq) = (q.drop ahead.length).map (fun g => g.seq))) ∧
    (¬Settled s → Completes (.flyc d a) s (Waits (s'.keep g))) ∧
    (Settled s → s'.queueRoom e = false → Completes (.flyc d a) s (Waits (s'.keep g)))) ∧
  (∀ g s', Fresh s → ea.toNat % 64 = 0 → win = 0 ∨ win = 0xF0 ∨ win = 0xF3 → Gets s ea 64 (.read 64) g s' →
    flyMalformed s.myRegion s.actCell (cmdOfWords (wordsOfBytes g.bytes)) = true →
    Completes (.flyc d a) s (fun t => TrapDone s' t 5 ea)) ∧
  (∀ g s', ea.toNat % 128 = 0 → win = 0 ∨ win = 0xF0 ∨ win = 0xF3 → Gets s ea 128 (.read 128) g s' →
    let w := wordsOfBytes g.bytes
    (∀ s2, Settled s → s'.issueBlock s.actCue s.actCell true s.actSlot (blkStack w) false w s.actor 0 s.me.pc.toNat = .queued s2 →
      Completes (.wngc d a) s (fun t => OtherSlots s t ∧ SameMem s' t ∧ t.me = (s.me.setReg d 0).next ∧ t.wings = s2.wings)) ∧
    (∀ n, Settled s → s'.issueBlock s.actCue s.actCell true s.actSlot (blkStack w) false w s.actor 0 s.me.pc.toNat = .status n →
      Completes (.wngc d a) s (fun t => RegDone s' t d (BitVec.ofNat 64 n))) ∧
    (¬Settled s → Completes (.wngc d a) s (Waits (s'.keep g)))) ∧
  (∀ g s' f, ea.toNat % 64 = 0 → win = 0 ∨ win = 0xF0 → Gets s ea 64 (.read 4096) g s' →
    let n := (s.rg b).toNat
    n ≤ s.myTenant.tslim - s.myTenant.tsbase → s.myRegion.frontBanks s.actCell n = [f] →
    s.myCell.tloads.any (fun q => q.slot == n) = false →
    Completes (.tload a b) s (fun t => Passed s' t ∧ OtherSlots s' t ∧ SameMem s' t ∧
      t.myCell.tloads = s.myCell.tloads ++ [⟨n, 1 - f, g.bytes, s.actSlot⟩])) ∧
  (Fresh s → ∀ p ∈ ([(.flyc d a, 64, [0, 0xF0, 0xF3]), (.wngc d a, 128, [0, 0xF0, 0xF3]), (.tload a b, 64, [0, 0xF0])] :
      List (Instr × Nat × List Nat)),
    (ea.toNat % p.2.1 ≠ 0 → Completes p.1 s (fun t => TrapDone s t 3 ea)) ∧
    (ea.toNat % p.2.1 = 0 → win ∉ p.2.2 → Completes p.1 s (fun t => TrapDone s t 5 ea)))

/-- BARA, BARW and BARAW (R220, R293): an arrival, made once the slot's stores are performed, raises the member's count by one;
BARW waits for the phase last arrived at, or the open one when the slot has not arrived since the last completion, and passes
once it completes; BARAW's arrival counts once however often it issues; another number or rung raises BOUNDS.
BARRIER_PHASE_COMPLETE raises the phase in every cell of the domain: at rungs 0 and 1 in every region of it where the number has
that rung (R294).

BAR (R12, R137, R148, R293): with room on its port and every access that precedes A performed, a firing takes A, arrives,
and holds the token; it gives it once the phase it arrived at completes.

FENCEN (R149) and ORDJ (R150): what is given on each port, and the scope of the ORDER token. -/
def Obligations.NodeSync : Prop :=
  (∀ (s : State) (a : Reg) (r : BitVec 3),
  let b := (s.rg a).toNat
  let m : Member := .slot s.actCell s.actSlot
  let count (t : State) : Nat := t.myRegion.arrivals b m
  let phase (t : State) : Nat := t.myRegion.phaseOf b r.toNat m
  let ok := b < 2048 ∧ b < s.myRegion.nbar ∧ s.myRegion.barRung b = some r.toNat
  (ok → Settled s → Completes (.bara a r) s (fun t => Passed s t ∧ OtherSlots s t ∧ SameMem s t ∧ count t = count s + 1)) ∧
  (ok → ¬Settled s → Completes (.bara a r) s (Waits s)) ∧
  (ok → s.me.arrived = none → Completes (.barw a r) s (fun t => OnlyMe s t ∧ t.me.st = .wait ∧ t.me.pc = s.me.pc ∧
    t.me.arrived = some (b, if phase s < count s then count s - 1 else phase s))) ∧
  (∀ q k, ok → s.me.arrived = some (q, k) → k < phase s → ∀ i ∈ ([.barw a r, .baraw a r] : List Instr),
    Completes i s (fun t => OnlyMe s t ∧ t.me = { s.me with arrived := none, pc := s.me.pc + 4 })) ∧
  (∀ q k, ok → s.me.arrived = some (q, k) → phase s ≤ k → ∀ i ∈ ([.barw a r, .baraw a r] : List Instr),
    Completes i s (fun t => OnlyMe s t ∧ t.me.st = .wait ∧ t.me.pc = s.me.pc ∧ t.me.arrived = some (b, k))) ∧
  (ok → s.me.arrived = none → Settled s → Completes (.baraw a r) s (fun t => OtherSlots s t ∧ SameMem s t ∧
    count t = count s + 1 ∧
    (count s < phase t → t.me = { s.me with arrived := none, pc := s.me.pc + 4 }) ∧
    (phase t ≤ count s → t.me.st = .wait ∧ t.me.pc = s.me.pc ∧ t.me.arrived = some (b, count s)))) ∧
  (ok → s.me.arrived = none → ¬Settled s → Completes (.baraw a r) s (Waits s)) ∧
  (Fresh s → ¬ok → ∀ i ∈ ([.bara a r, .barw a r, .baraw a r] : List Instr), Completes i s (fun t => TrapDone s t 5 (s.rg a))) ∧
  (∀ c v k rung, s.actor = .barrier c v k → (s.region c).barRung k = some rung → 2 ≤ rung → rung ≤ 4 →
    s.phaseReady c v k = true → Completes .barrierPhaseComplete s (fun t => OnlyRegion s t c ∧ SameMem s t ∧
      ∀ u, (((t.region c).cell u).bar k).phase =
        (((s.region c).cell u).bar k).phase + (if u ∈ (s.region c).domCells rung v then 1 else 0))) ∧
  (∀ c v k rung, s.actor = .barrier c v k → (s.region c).barRung k = some rung → rung ≤ 1 → s.phaseReady c v k = true →
    ((s.peers c rung).map (fun p => p.cue)).Nodup → Completes .barrierPhaseComplete s (fun t => SameMem s t ∧
      ∀ p ∈ s.peers c rung, p.completed = false → ∀ u, u < (s.region p.cue).ncells →
        (((t.region p.cue).cell u).bar k).phase = (((s.region p.cue).cell u).bar k).phase +
          (if (s.region p.cue).barRung k = some rung then 1 else 0)))) ∧
  (∀ (s : State) (n : NodeF) (a : List Lane) (x : Token),
  let e := s.actEntry
  let r := s.myRegion
  let o := s.myNode.op
  let b := n.cfg.toNat % 2048
  let rung := (r.barRung b).getD 7
  (o.held = none → r.opHead e 0 = some (.data a) → r.preceded e [0] = true → r.outRoom e 1 = true →
    Completes (.barN n) s (fun t => t.myRegion.arrivals b (.node e) = r.arrivals b (.node e) + 1 ∧
      t.myNode.op = { o with held := some (.data a), phase := r.arrivals b (.node e) } ∧ t.myNode.fire = s.myNode.fire + 1 ∧
      SameMem s t ∧ t.myRegion.chans.map (fun ch : Chan => (ch.prod, ch.cons, ch.q)) =
        r.chans.map (fun ch : Chan => (ch.prod, ch.cons, if r.loses e [0] ch then ch.q.tail else ch.q)))) ∧
  (o.held = none → r.opHead e 0 = some (.data a) → r.preceded e [0] = false → Completes (.barN n) s (fun t => Held s t 3)) ∧
  (o.held = none → r.opHead e 0 = some (.data a) → r.preceded e [0] = true → r.outRoom e 1 = false →
    Completes (.barN n) s (fun t => Held s t 7)) ∧
  (o.held = some x → o.phase < r.phaseOf b rung (.node e) → r.outRoom e 1 = true →
    Completes (.barN n) s (fun t => NodeStep s t [] [(0, x)] { s.myNode with op := { o with held := none } })) ∧
  (o.held = some x → r.phaseOf b rung (.node e) ≤ o.phase → Completes (.barN n) s (fun t => Held s t 3))) ∧
  (∀ (s : State) (n : NodeF) (x : Token),
  let e := s.actEntry
  let r := s.myRegion
  let rung := r.scopeOf n
  r.outRoom e 1 = true →
  (r.opHead e 0 = some x → (n.cfg.toNat % 4 = 1 ∨ r.accs = []) →
    (∀ ls, x = .data ls → Completes (.fencenN n) s (fun t => Fired s t n [0] [(0, x), (1, .order rung)] s.myNode.op)) ∧
    (∀ k, x = .order k → Completes (.fencenN n) s (fun t => Fired s t n [0] [(0, x), (1, .order rung)] s.myNode.op)) ∧
    (∀ k m ls, x = .cfg k m ls → Completes (.fencenN n) s (fun t => Fired s t n [0] [(0, x), (1, x)] s.myNode.op)) ∧
    (x = .eos → Completes (.fencenN n) s (fun t => ∃ u, Fired s u n [0] [(0, x), (1, x)] s.myNode.op ∧
      NodeStep u t [] [] { u.myNode with eos := true })) ∧
    (x = .curtain → Completes (.fencenN n) s (fun t => ∃ u, Fired s u n [0] [(0, x), (1, x)] s.myNode.op ∧
      NodeStep u t [] [] { u.myNode with curt := true }))) ∧
  ((∀ k ∈ s.opsNamed, (∃ ls, r.opHead e k = some (.data ls)) ∨ ∃ q, r.opHead e k = some (.order q)) →
    let orders := s.opsNamed.filterMap (fun k => match r.opHead e k with
      | some (.order q) => some q
      | _ => none)
    Completes (.ordjN n) s (fun t => Fired s t n s.opsNamed [(0, .order (max (orders.min?.getD 0) rung))] s.myNode.op)))

/-! ### Element-wise nodes -/

/-- One-operand nodes (R88 to R96, R100): with DATA on every named operand and room, the firing gives the function of the
page lane by lane; without DATA it counts OPERAND, without room SPACE, and changes nothing else (R12, R14).

Two- and three-operand nodes (R88 to R95): the function of the page over the lanes of A, B and C. -/
def Obligations.NodeArith : Prop :=
  (∀ (s : State) (n : NodeF),
  let f := nFmt n
  let c := nCtl n
  ∀ p ∈ ([(.sqrtN n, sqrtLane f c), (.negN n, negLane f), (.absN n, absLane f), (.classN n, classLane f), (.notN n, notLane f),
      (.popcN n, popcLane f), (.clzN n, clzLane f), (.ctzN n, ctzLane f), (.brevN n, brevLane f), (.movN n, fun x => x),
      (.floorN n, integralLane f ⟨.rdn, false, false⟩), (.ceilN n, integralLane f ⟨.rup, false, false⟩),
      (.truncN n, integralLane f ⟨.rtz, false, false⟩), (.rintN n, integralLane f c),
      (.cvtN n, cvtLane (fmtOf (nModHi n)) f c),
      (.scaleN n, fun x =>
        let m := n.mod.toNat / 16 % 4
        let copy := s.myNode.elem (s.myNode.fire % (n.repm1.toNat + 1))
        let scl (j : Nat) : Ex := exOf32 (copy.scl.toList.getD (j % 4) 0)
        let y := Ex.mul (laneF f c x) (scl m)
        roundLane f c (if n.mod.toNat / 64 % 2 = 1 then Ex.add c.rm y (scl (m + 1)) else y))] : List (Instr × (Lane → Lane))),
    (NodeReady s → Completes p.1 s (fun t => LaneFired s t n ((s.lanes 0).map p.2))) ∧
    (s.myRegion.allData s.actEntry s.opsNamed = false → Completes p.1 s (fun t => Held s t 6)) ∧
    (s.myRegion.allData s.actEntry s.opsNamed = true → s.myRegion.outRoom s.actEntry 1 = false →
      Completes p.1 s (fun t => Held s t 7))) ∧
  (∀ (s : State) (n : NodeF), NodeReady s →
  let f := nFmt n
  let c := nCtl n
  let A := s.lanes 0
  let B := s.lanes 1
  let C := s.lanes 2
  (∀ p ∈ ([(.addN n, addLane f c), (.subN n, subLane f c), (.mulN n, mulLane f c), (.divN n, divLane f c),
      (.minN n, minLane f), (.maxN n, maxLane f), (.mulhN n, mulhLane f), (.remN n, remLane f), (.copysignN n, copysignLane f),
      (.absdiffN n, absdiffLane f c), (.cmpeqN n, relEq f), (.cmpneN n, relNe f), (.cmpltN n, relLt f), (.cmpleN n, relLe f),
      (.cmpgtN n, relGt f), (.cmpgeN n, relGe f), (.cmpunN n, relUn f), (.andN n, andLane f), (.orN n, orLane f),
      (.xorN n, xorLane f), (.andnN n, andnLane f), (.shlN n, shlLane f), (.shrN n, shrLane f), (.shraN n, shraLane f),
      (.rotlN n, rotlLane f)] : List (Instr × (Lane → Lane → Lane))),
    Completes p.1 s (fun t => LaneFired s t n (List.zipWith p.2 A B))) ∧
  (A.length = B.length → B.length = C.length →
    ∀ p ∈ ([(.fmaN n, fmaLane f c), (.fmsN n, fmsLane f c), (.fnmaN n, fnmaLane f c), (.clampN n, clampLane f),
      (.selN n, fun x y z => if z = 0 then y else x)] : List (Instr × (Lane → Lane → Lane → Lane))),
    Completes p.1 s (fun t => LaneFired s t n
      ((List.range A.length).map (fun k => p.2 (A.getD k 0) (B.getD k 0) (C.getD k 0))))))

/-- R89 whole, with the placing of R38: on an integer format of width W the lane functions compute the exact integer result of
the low W bits, wrapped modulo 2^W or clamped to the range with SAT, RM and FTZ without effect; DIV, REM, MULH, NEG and ABS
with their edges. -/
def Obligations.IntegerLanes : Prop := ∀ (f : Fmt) (k : Ctl) (a b c : Lane), fmtIsInt f = true →
  let w := fmtBits f
  let lo : Int := if fmtIsSigned f then -(2 ^ (w - 1)) else 0
  let hi : Int := if fmtIsSigned f then 2 ^ (w - 1) - 1 else 2 ^ w - 1
  let val (x : Lane) : Int := if fmtIsSigned f then (x.setWidth w).toInt else (x.setWidth w).toNat
  let wrap (x : Int) : Int := if fmtIsSigned f then (BitVec.ofInt w x).toInt else (BitVec.ofInt w x).toNat
  let put (x : Int) : Lane := BitVec.ofInt 32 (wrap x)
  let fin (x : Int) : Lane := BitVec.ofInt 32 (if k.sat then max lo (min hi x) else wrap x)
  let x := val a
  let y := val b
  let z := val c
  addLane f k a b = fin (x + y) ∧ subLane f k a b = fin (x - y) ∧ mulLane f k a b = fin (x * y) ∧
  fmaLane f k a b c = fin (x * y + z) ∧ fmsLane f k a b c = fin (x * y - z) ∧ fnmaLane f k a b c = fin (z - x * y) ∧
  absdiffLane f k a b = fin (if x ≤ y then y - x else x - y) ∧
  divLane f k a b = (if y = 0 then BitVec.ofInt 32 (if x < 0 then lo else hi) else fin (Int.tdiv x y)) ∧
  remLane f a b = put (if y = 0 then x else x - y * Int.tdiv x y) ∧
  mulhLane f a b = put (x * y / 2 ^ w) ∧ negLane f a = put (-x) ∧ absLane f a = put (if x < 0 then -x else x)

/-! ### Lane moves, reductions and windows -/

/-- Reductions, dot product, SHUF, BCAST, PACK, UNPACK, DEQ, GATE and CURT (R99, R103 to R108, R136, R138). -/
def Obligations.NodeLanes : Prop := ∀ (s : State) (n : NodeF), NodeReady s →
  let f := nFmt n
  let c := nCtl n
  let A := s.lanes 0
  let B := s.lanes 1
  let w := 2 ^ n.wid.toNat
  let ext := wordAt n.ext 0
  let src := fmtOf (n.mod.toNat / 16)
  let per := 32 / fmtBits src
  let copy := s.myNode.elem (s.myNode.fire % (n.repm1.toNat + 1))
  ∀ p ∈ ([(.rsumN n, List.replicate w (redLanes .sum f c A)), (.rmaxN n, List.replicate w (redLanes .max f c A)),
      (.rminN n, List.replicate w (redLanes .min f c A)), (.rmaxaN n, List.replicate w (redLanes .maxa f c A)),
      (.rdotN n, List.replicate w (dotLanes f c A B)),
      (.shufN n, (List.range w).map (fun k => A.getD (ext.toNat / 2 ^ (4 * k) % 16) 0)),
      (.bcastN n, List.replicate w (A.getD (n.cfg.toNat % 16) 0)),
      (.packN n, (List.range (A.length / per)).map (fun j => BitVec.ofNat 32 (((List.range per).map (fun q =>
        lowBits src (A.getD (per * j + q) 0) * 2 ^ (fmtBits src * q))).sum))),
      (.unpackN n, (List.range w).map (fun k => placeBits src
        ((A.getD ((n.cfg.toNat % 4 * w + k) / per) 0).toNat / 2 ^ (fmtBits src * ((n.cfg.toNat % 4 * w + k) % per))))),
      (.deqN n, (List.range A.length).map (fun k =>
        let g := fmtOf (ext.toNat % 16)
        let x : Ex := if fmtIsFloat g then laneF g c (A.getD k 0)
          else if g = .gs4 ∨ g = .gs3 then ofIntEx (gsInt g (A.getD k 0).toNat) else ofIntEx (readInt g (A.getD k 0))
        let y : Ex := if B.length = 0 then exOf32 (copy.scl.get 0) else if B.length = 1 then laneF .f32 c (B.getD 0 0)
          else laneF .f32 c (B.getD k 0)
        roundLane f c (Ex.mul x y))),
      (.gateN n, A),
      (.curtN n, if n.mod.toNat / 16 % 2 = 1 then BitVec.ofNat 32 s.myNode.op.n :: A.drop 1 else A)] : List (Instr × List Lane)),
    Completes p.1 s (fun t => LaneFired s t n p.2)

/-- QUANT (R97, R98): the lanes and, with SOUT, a second token with the scale; WSCALE, SCLW (R102, R165): every QPER-th token
becomes the CFG token that names its target.

Windows (R109, R110): each token enters the partial tree, the last one of WLEN closes it and gives its value; over an
associative pairing a window's value is the pairing of its tokens in order. -/
def Obligations.NodeScaleWindows : Prop :=
  (∀ (s : State) (n : NodeF),
  s.myRegion.allData s.actEntry s.opsNamed = true →
  let A := s.lanes 0
  let sf : Fmt := if n.mod.toNat / 32 % 8 = 0 then .f32 else if n.mod.toNat / 32 % 8 = 1 then .bf16 else .f16
  let qmax : Lane := if n.ext = [] then defaultQmax (nFmt n) else (wordAt n.ext 0).setWidth 32
  let q := quantRow sf (nFmt n) (nCtl n) qmax A
  (n.mod.toNat / 16 % 2 = 0 → s.myRegion.outRoom s.actEntry 1 = true → Completes (.quantN n) s (fun t => LaneFired s t n q.1)) ∧
  (n.mod.toNat / 16 % 2 = 1 → s.myRegion.outRoom s.actEntry 2 = true → Completes (.quantN n) s (fun t =>
    Fired s t n s.opsNamed [(0, .data q.1), (0, .data ((List.range A.length).map (fun i => if i = 0 then q.2 else 0)))]
      s.myNode.op)) ∧
  (s.myRegion.outRoom s.actEntry 1 = true → ∀ p ∈ ([(.wscaleN n, 0), (.sclwN n, 3)] : List (Instr × Nat)),
    Completes p.1 s (fun t => Fired s t n s.opsNamed
      [(0, if s.myNode.fire % (n.cfg.toNat / 65536) = 0 then .cfg p.2 (s.actEntry + n.cfg.toNat % 65536) A else .data A)]
      s.myNode.op))) ∧
  ((∀ (s : State) (n : NodeF), NodeReady s →
    let f := nFmt n
    let c := nCtl n
    let o := s.myNode.op
    ∀ p ∈ ([(.wsumN n, .sum), (.wmaxN n, .max), (.wminN n, .min), (.wmaxaN n, .maxa)] : List (Instr × Red)),
      let tree := pushTree (redPair p.2 f c) o.win ((s.lanes 0).map (redIn p.2 f c))
      let last := o.n = (wordAt n.ext 0).toNat % 2 ^ 16
      (¬last → Completes p.1 s (fun t => Fired s t n s.opsNamed [] { o with win := tree, n := o.n + 1 })) ∧
      (last → Completes p.1 s (fun t => Fired s t n s.opsNamed
        [(0, .data ((closeTree (redPair p.2 f c) tree).map (redOut p.2 f c)))] { o with win := [], n := 0 }))) ∧
  ∀ (f : Lane → Lane → Lane) (x : List Lane) (xs : List (List Lane)), (∀ a b c, f (f a b) c = f a (f b c)) →
    (∀ y ∈ xs, y.length = x.length) →
    closeTree f ((x :: xs).foldl (pushTree f) []) = xs.foldl (List.zipWith f) x)

/-! ### Sources and control flow -/

/-- CONST (R127) and IOTA (R128): token i holds the lanes of the page; the stream ends with EOS after its last token.

STEER (R132), MERGE (R133), CARRY (R134) and INV (R135): which operands a firing takes, which token it gives on which port,
and its node state. -/
def Obligations.NodeRoutes : Prop :=
  (∀ (s : State) (n : NodeF), SourceReady s →
  let i := s.myNode.fire
  let w := 2 ^ n.wid.toNat
  let words : List Lane := n.ext.flatMap (fun x => [x.setWidth 32, x.extractLsb' 32 32])
  let x := wordAt n.ext 0
  let sx (v : BitVec 16) : Int := v.toInt
  let const := (List.range w).map (fun k => words.getD (k % words.length) 0)
  let iota := (List.range w).map (fun (k : Nat) =>
    if n.ext = [] then BitVec.ofNat 32 (i * w + k)
    else BitVec.ofInt 32 ((x.setWidth 32).toNat + i * sx (x.extractLsb' 32 16) + k * sx (x.extractLsb' 48 16)))
  (n.cfg = 0 ∨ i < n.cfg.toNat → Completes (.constN n) s (fun t => Fired s t n [] [(0, .data const)] s.myNode.op)) ∧
  (n.cfg ≠ 0 ∧ n.cfg.toNat ≤ i → Completes (.constN n) s (fun t => Ended s t [] [])) ∧
  (i ≤ n.cfg.toNat → Completes (.iotaN n) s (fun t => Fired s t n [] [(0, .data iota)] s.myNode.op)) ∧
  (n.cfg.toNat < i → Completes (.iotaN n) s (fun t => Ended s t [] []))) ∧
  (∀ (s : State) (n : NodeF) (a b c : List Lane),
  let e := s.actEntry
  let r := s.myRegion
  let o := s.myNode.op
  let holds (k : Nat) (ls : List Lane) : Prop := r.opHead e k = some (.data ls)
  let yes (ls : List Lane) : Prop := ls.headD 0 ≠ 0
  let room (p : Nat) : Prop := r.room (.entry e p) 1 = true
  let came (k : Nat) : Nat := ((r.chanTo (.entry e k)).map (fun ch => ch.headAt)).getD 0
  let fires (i : Instr) (ks : List Nat) (gives : List (Nat × Token)) (op : OpSt) : Prop :=
    Completes i s (fun t => Fired s t n ks gives op)
  (holds 0 a → holds 1 b → yes b → room 0 → fires (.steerN n) [0, 1] [(0, .data a)] o) ∧
  (holds 0 a → holds 1 b → ¬yes b → room 1 → fires (.steerN n) [0, 1] [(1, .data a)] o) ∧
  (n.ndt = 0 → holds 2 c → room 0 → (yes c → holds 0 a → fires (.mergeN n) [0, 2] [(0, .data a)] o) ∧
    (¬yes c → holds 1 b → fires (.mergeN n) [1, 2] [(0, .data b)] o)) ∧
  (n.ndt = 1 → room 0 →
    (holds 0 a → (∀ x, ¬holds 1 x) ∨ came 0 ≤ came 1 → fires (.mergeN n) [0] [(0, .data a)] o) ∧
    (holds 1 b → (∀ x, ¬holds 0 x) ∨ came 1 < came 0 → fires (.mergeN n) [1] [(0, .data b)] o)) ∧
  (s.myNode.eos = false → s.myNode.curt = false → o.held = none →
    (o.flag = false → holds 0 a → room 0 → fires (.carryN n) [0] [(0, .data a)] { o with flag := true }) ∧
    (o.flag = true → r.opHead e 0 ≠ some .curtain → holds 2 c →
      (yes c → holds 1 b → room 0 → fires (.carryN n) [1, 2] [(0, .data b)] o) ∧
      (¬yes c → fires (.carryN n) [2] [] { o with flag := false }))) ∧
  (∀ x, s.myNode.eos = false → s.myNode.curt = false → o.held = some x → room 0 →
    Completes (.carryN n) s (fun t => NodeStep s t [] [(0, x)] { s.myNode with op := { o with held := none, flag := true } })) ∧
  (holds 1 b →
    (o.held = none → holds 0 a →
      (yes b → room 0 → fires (.invN n) [0, 1] [(0, .data a)] { o with held := some (.data a) }) ∧
      (¬yes b → fires (.invN n) [0, 1] [] o)) ∧
    (∀ x, o.held = some x → (yes b → room 0 → fires (.invN n) [1] [(0, x)] o) ∧
      (¬yes b → fires (.invN n) [1] [] { o with held := none }))))

/-! ### Node memory -/

/-- LDS and STS (R139, R141 to R145): the access of firing i lies at addr(i) of the own scratchpad under the swizzle, once its
order token is there; a load in source mode ends after its pattern, and takes and discards what is left on C up to EOS; MISALIGN and BOUNDS stop the firing. Waiting for an order
token counts ORDER, behind a withheld access MEM, for an operand OPERAND (R14).

LDG and STG (R140, R141, R144, R146): in window 0x00 a global access at addr(i), in window 0xF1 an access to the scratchpad of
the named virtual cell, BOUNDS where bits 55:52 of the base are not 0 (R245); the same end in source mode. -/
def Obligations.NodeMemory : Prop :=
  (∀ (s : State) (n : NodeF),
  let e := s.actEntry
  let r := s.myRegion
  let p := ownPat n
  let i := s.myNode.fire
  let need := decide (n.cfg.getLsbD 0 = false ∨ i % (p.l0 * p.l1 * p.l2 * p.l3) = 0)
  let len := 2 ^ n.wid.toNat * fmtSize (nFmt n)
  let size : Int := fmtSize (nFmt n)
  let drained := r.named e 2 = false ∨ s.myNode.op.flag = true ∨ r.opHead e 2 = none
  let drains (j : Instr) : Prop := ∀ x, s.myNode.eos = true ∨ p.l0 * p.l1 * p.l2 * p.l3 ≤ i → r.named e 2 = true →
    s.myNode.op.flag = false → r.opHead e 2 = some x → Completes j s (fun t => NodeStep s t [2] []
      { s.myNode with op := { s.myNode.op with flag := x == .eos }, faulting := restFaulting [2] s.myNode.faulting })
  let top : Int := s.myRegion.spadBytes
  let does (j : Instr) (ks : List Nat) (a : Acc) (addr : Int) : Prop :=
    let all := s.memOps ks need
    (MemReady s ks need →
      (addr % size = 0 → 0 ≤ addr → addr + len ≤ top → OwnPresents j s all a (ownSw n) addr.toNat len
        [r.spadSegs a.cell (ownSw n) addr.toNat len] s.myNode.op) ∧
      (addr % size ≠ 0 → Completes j s (fun t => NodeStopped s t 1 3 all (BitVec.ofInt 64 addr).toNat)) ∧
      (addr % size = 0 → addr < 0 ∨ top < addr + len →
        Completes j s (fun t => NodeStopped s t 1 2 all (BitVec.ofInt 64 addr).toNat))) ∧
    (r.allData e ks = true → r.orderWaits e need = true → Completes j s (fun t => Held s t 3)) ∧
    (r.orderWaits e need = false → r.withheldAt e = true → Completes j s (fun t => Held s t 5)) ∧
    (r.orderWaits e need = false → r.withheldAt e = false → r.allData e ks = false → Completes j s (fun t => Held s t 6))
  (r.named e 0 = true → does (.ldsN n) [0] (r.moveAcc n e false []) (p.addr i (offsetOf (s.lanes 0)))) ∧
  (r.named e 0 = false → s.myNode.eos = false → s.myNode.curt = false → (r.curtain = false ∨ r.named e 2 = true) →
    (i < p.l0 * p.l1 * p.l2 * p.l3 → does (.ldsN n) [] (r.moveAcc n e false []) (p.addr i (offsetOf (s.lanes 0)))) ∧
    (p.l0 * p.l1 * p.l2 * p.l3 ≤ i → drained → r.accsOf e = [] → r.outRoom e 1 = true →
      Completes (.ldsN n) s (fun t => Ended s t [] [])) ∧
    (p.l0 * p.l1 * p.l2 * p.l3 ≤ i → drained → r.accsOf e ≠ [] → Completes (.ldsN n) s (fun t => Held s t 5))) ∧
  (r.named e 0 = false → drains (.ldsN n)) ∧
  does (.stsN n) (if r.named e 1 then [0, 1] else [0]) (r.moveAcc n e true (s.lanes 0)) (p.addr i (offsetOf (s.lanes 1)))) ∧
  (∀ (s : State) (n : NodeF),
  let e := s.actEntry
  let r := s.myRegion
  let p := globPat n
  let i := s.myNode.fire
  let need := decide (n.cfg.getLsbD 0 = false ∨ i % (p.l0 * p.l1 * p.l2 * p.l3) = 0)
  let len := 2 ^ n.wid.toNat * fmtSize (nFmt n)
  let size : Int := fmtSize (nFmt n)
  let drained := r.named e 2 = false ∨ s.myNode.op.flag = true ∨ r.opHead e 2 = none
  let drains (j : Instr) : Prop := ∀ x, s.myNode.eos = true ∨ p.l0 * p.l1 * p.l2 * p.l3 ≤ i → r.named e 2 = true →
    s.myNode.op.flag = false → r.opHead e 2 = some x → Completes j s (fun t => NodeStep s t [2] []
      { s.myNode with op := { s.myNode.op with flag := x == .eos }, faulting := restFaulting [2] s.myNode.faulting })
  let base := (wordAt n.ext 0).toNat
  let win := base / 2 ^ 56
  let cell := base / 2 ^ 40 % 4096
  let does (j : Instr) (ks : List Nat) (a : Acc) (addr : Int) : Prop :=
    MemReady s ks need →
    let all := s.memOps ks need
    let far := if win = 0xF1 then (base / 2 ^ 52 % 16 ≠ 0 ∨ r.ncells ≤ cell ∨ addr < 0 ∨ (r.spadBytes : Int) < addr + len)
      else (addr < 0 ∨ (2 ^ 56 : Int) < addr + len)
    (addr % size = 0 → ¬far → win ≠ 0xF1 → GlobalPresents j s all { a with ptrs := [(addr.toNat, len)] }) ∧
    (addr % size = 0 → ¬far → win = 0xF1 → RemotePresents j s all { a with target := cell } addr.toNat len
      [r.spadSegs cell 0 addr.toNat len]) ∧
    (addr % size ≠ 0 → Completes j s (fun t => NodeStopped s t 1 3 all (BitVec.ofInt 64 addr).toNat)) ∧
    (addr % size = 0 → far → Completes j s (fun t => NodeStopped s t 1 2 all (BitVec.ofInt 64 addr).toNat))
  (r.named e 0 = true → does (.ldgN n) [0] (r.moveAcc n e false []) (p.addr i (offsetOf (s.lanes 0)))) ∧
  (r.named e 0 = false → s.myNode.eos = false → s.myNode.curt = false → (r.curtain = false ∨ r.named e 2 = true) →
    (i < p.l0 * p.l1 * p.l2 * p.l3 → does (.ldgN n) [] (r.moveAcc n e false []) (p.addr i (offsetOf (s.lanes 0)))) ∧
    (p.l0 * p.l1 * p.l2 * p.l3 ≤ i → drained → r.accsOf e = [] → r.outRoom e 1 = true →
      Completes (.ldgN n) s (fun t => Ended s t [] []))) ∧
  (r.named e 0 = false → drains (.ldgN n)) ∧
  does (.stgN n) (if r.named e 1 then [0, 1] else [0]) (r.moveAcc n e true (s.lanes 0)) (p.addr i (offsetOf (s.lanes 1))))

/-- ATM (R152), LDI (R153), MXMAX (R180) and TFILL (R154): the access each firing presents; MISALIGN, and BOUNDS for a pointer or
lane outside its window (R245), stop it. A TFILL waits for its tile before the first write, and after the last one until its flip
succeeds (R28). -/
def Obligations.NodeAtomics : Prop := ∀ (s : State) (n : NodeF),
  let e := s.actEntry
  let r := s.myRegion
  let i := s.myNode.fire
  let x := wordAt n.ext 0
  let y := wordAt n.ext 1
  let win := x.toNat / 2 ^ 56
  let w := 2 ^ n.wid.toNat
  let v := s.copyAt n
  let owed := if n.ord = 1 then some (r.scopeOf n) else none
  let cell := if win = 0xF1 then x.toNat / 2 ^ 40 % 4096 else v
  (let ks := if r.named e 1 then [0, 1] else [0]
    let a := { r.newAcc n e .atomic with
      lanes := s.lanes 0, cmp := s.lanes 1, op := n.mod.toNat / 16, gives := true, pages := 2, owed := owed }
    let off : Nat := if win = 0xF1 then x.toNat % 2 ^ 40 else x.toNat % 2 ^ 56
    let addr : Int := off + (i % (y.toNat % 2 ^ 16 + 1) : Nat) * (y.extractLsb' 16 32 : BitVec 32).toInt
    let all := s.memOps ks true
    let lanes := (List.range w).map (fun k => (addr.toNat + 4 * k, 4))
    let segs := (List.range w).map (fun k => r.spadSegs cell 0 (addr.toNat + 4 * k) 4)
    MemReady s ks true →
    (addr % 4 ≠ 0 → Completes (.atmN n) s (fun t => NodeStopped s t 1 3 all (BitVec.ofInt 64 addr).toNat)) ∧
    (addr % 4 = 0 → win = 0 → addr < 0 ∨ 2 ^ 56 < addr + 4 * w →
      Completes (.atmN n) s (fun t => NodeStopped s t 1 2 all (BitVec.ofInt 64 addr).toNat)) ∧
    (addr % 4 = 0 → win ≠ 0 → (win = 0xF1 ∧ x.toNat / 2 ^ 52 % 16 ≠ 0) ∨ r.ncells ≤ cell ∨ addr < 0 ∨
      (r.spadBytes : Int) < addr + 4 * w →
      Completes (.atmN n) s (fun t => NodeStopped s t 1 2 all (BitVec.ofInt 64 addr).toNat)) ∧
    (addr % 4 = 0 → 0 ≤ addr →
    (win = 0 → addr + 4 * w ≤ 2 ^ 56 → GlobalPresents (.atmN n) s all { a with ptrs := lanes }) ∧
    (win = 0xF1 → x.toNat / 2 ^ 52 % 16 = 0 → cell < r.ncells → addr + 4 * w ≤ r.spadBytes →
      RemotePresents (.atmN n) s all { a with target := cell } addr.toNat (4 * w) segs) ∧
    (win = 0xF0 → cell < r.ncells → addr + 4 * w ≤ r.spadBytes →
      OwnPresents (.atmN n) s all a 0 addr.toNat (4 * w) segs s.myNode.op))) ∧
  (let size := fmtSize (nFmt n)
    let base := x.toNat % 2 ^ 56
    let step := y.toNat % 2 ^ 32
    let lim := y.toNat / 2 ^ 32
    let all := s.memOps [0] true
    MemReady s [0] true →
    (∀ k l, (s.lanes 0)[k]? = some l → (lim ≤ l.toNat ∧ n.mod.toNat / 16 % 2 = 0) ∨
        (l.toNat < lim ∧ 2 ^ 56 < base + l.toNat * step + size) →
      (∀ l' ∈ (s.lanes 0).take k, (lim ≤ l'.toNat → n.mod.toNat / 16 % 2 = 1) ∧
        (l'.toNat < lim → base + l'.toNat * step + size ≤ 2 ^ 56)) →
      Completes (.ldiN n) s (fun t => NodeStopped s t 1 2 all (base + l.toNat * step))) ∧
    ((∀ l ∈ s.lanes 0, (lim ≤ l.toNat → n.mod.toNat / 16 % 2 = 1) ∧ (l.toNat < lim → base + l.toNat * step + size ≤ 2 ^ 56)) →
    GlobalPresents (.ldiN n) s all { r.newAcc n e .load with
      ptrs := (s.lanes 0).map (fun l => if lim ≤ l.toNat then (0, 0) else (base + l.toNat * step, size)), gives := true
      owed := owed })) ∧
  (let a := { r.newAcc n e .atomic with
      lanes := [widenF32 (nFmt n) ((s.lanes 0).headD 0)], op := 8, fmt := 6, gives := true, pages := 3,
      pass := some (.data (s.lanes 0)) }
    let off := if win = 0xF1 then x.toNat % 2 ^ 40 else x.toNat % 2 ^ 56
    MemReady s [0] false →
    (win = 0 → GlobalPresents (.mxmaxN n) s [0] { a with ptrs := [(off, 4)] }) ∧
    (win ≠ 0 → (win = 0xF1 ∧ x.toNat / 2 ^ 52 % 16 ≠ 0) ∨ r.ncells ≤ cell ∨ r.spadBytes < off + 4 →
      Completes (.mxmaxN n) s (fun t => NodeStopped s t 1 2 [0] off)) ∧
    (win = 0xF1 → x.toNat / 2 ^ 52 % 16 = 0 → cell < r.ncells → off + 4 ≤ r.spadBytes →
      RemotePresents (.mxmaxN n) s [0] { a with target := cell } off 4 [r.spadSegs cell 0 off 4]) ∧
    (win = 0xF0 → v < r.ncells → off + 4 ≤ r.spadBytes →
      OwnPresents (.mxmaxN n) s [0] a 0 off 4 [r.spadSegs v 0 off 4] s.myNode.op)) ∧
  (let o := s.myNode.op
    let tile := x.toNat % 2 ^ 12 + o.m
    let len := (s.lanes 0).length * fmtSize (nFmt n)
    let last := 4096 ≤ o.n + len
    let a := { r.newAcc n e .store with
      bytes := bytesFromLanes (nFmt n) (s.lanes 0), gives := decide last
      pass := if last then some (.data [BitVec.ofNat 32 tile]) else none, flip := if last then some tile else none }
    (∀ b, (r.accsOf e).head? = some b → b.done = true → r.flipBlocked b = true → Completes (.tfillN n) s (fun t => Held s t 4)) ∧
    ((∀ b, (r.accsOf e).head? = some b → b.done = false) → MemReady s [0] false →
    (o.n = 0 → r.accsOf e ≠ [] ∨ (r.cell v).tag tile ≠ 0 → Completes (.tfillN n) s (fun t => Held s t 4)) ∧
    ((o.n = 0 → r.accsOf e = [] ∧ (r.cell v).tag tile = 0) →
    OwnPresents (.tfillN n) s [0] a (ownSw n) (tile * 4096 + o.n) len [r.spadSegs v (ownSw n) (tile * 4096 + o.n) len]
      (if last then { o with n := 0, m := (o.m + 1) % (x.toNat / 2 ^ 12 % 2 ^ 12 + 1) } else { o with n := o.n + len }))))

/-- SRC and SNK (R129 to R131, R374). Buffer mode: token i at its place, EOS after the last, SINK_FULL beyond it. Ring mode: the
descriptor's counts are read, a token is moved while they allow it, with the store of its new count after it, and a broken count
stops the firing, as does a descriptor whose store breaks a right, with no token moved. -/
def Obligations.NodeEdges : Prop := ∀ (s : State) (n : NodeF),
  let e := s.actEntry
  let r := s.myRegion
  let i := s.myNode.fire
  let o := s.myNode.op
  let base := (wordAt n.ext 0).toNat % 2 ^ 56
  let cap := (wordAt n.ext 1).toNat % 2 ^ 32
  let tok := 2 ^ n.wid.toNat * fmtSize (nFmt n)
  let stride := if (wordAt n.ext 2).toNat % 2 ^ 32 = 0 then tok else (wordAt n.ext 2).toNat % 2 ^ 32
  let load (at_ : Nat) : Acc := { r.newAcc n e .load with ptrs := [(at_, tok)], gives := true }
  let store (at_ : Nat) : Acc := { r.newAcc n e .store with
    ptrs := [(at_, tok)], bytes := bytesFromLanes (nFmt n) (s.lanes 0) }
  let count (at_ v : Nat) : Acc := { r.newAcc n e .store with
    ptrs := [(at_, 8)], bytes := bytesOf 8 v, pages := 0, extra := true }
  let moves (j : Instr) (u : State) (ks : List Nat) (a b : Acc) (op : OpSt) : Prop :=
    let a := s.carried ks a
    let runs := a.ptrs ++ b.ptrs
    (∀ cause, u.heldAt a runs = some cause → Completes j s (fun t => Held u t cause)) ∧
    (u.heldAt a runs = none → ∀ segs u1, u.accReach s.actCue a = (.ok segs, u1) →
      (∀ more u2 v, u1.accReach s.actCue b = (.ok more, u2) → u2.asks a [b] = (true, v) →
        Completes j s (fun t => Presented v t ks [{ a with segs := segs }, { b with segs := more }] op)) ∧
      (∀ va right u2, u1.accReach s.actCue b = (.viol va right, u2) → Completes j s (fun t => NodeStopped u2 t 2 0 ks va)))
  (SourceReady s → r.withheldAt e = true → Completes (.srcN n) s (fun t => Held s t 5)) ∧
  (SourceReady s → r.withheldAt e = false → n.cfg ≠ 0 →
    (i < n.cfg.toNat → base + i * stride + tok ≤ 2 ^ 56 → GlobalPresents (.srcN n) s [] (load (base + i * stride))) ∧
    (i < n.cfg.toNat → 2 ^ 56 < base + i * stride + tok →
      Completes (.srcN n) s (fun t => NodeStopped s t 1 2 [] (base + i * stride))) ∧
    (n.cfg.toNat ≤ i → r.accsOf e = [] → Completes (.srcN n) s (fun t => Ended s t [] []))) ∧
  (MemReady s [0] false → n.cfg ≠ 0 →
    (i < n.cfg.toNat → base + i * tok + tok ≤ 2 ^ 56 → GlobalPresents (.snkN n) s [0] (store (base + i * tok))) ∧
    (i < n.cfg.toNat → 2 ^ 56 < base + i * tok + tok →
      Completes (.snkN n) s (fun t => NodeStopped s t 1 2 [0] (base + i * tok))) ∧
    (n.cfg.toNat ≤ i → Completes (.snkN n) s (fun t => NodeStopped s t 1 7 [0] 0))) ∧
  (SourceReady s → r.withheldAt e = false → n.cfg = 0 →
    let token (u : State) (m : Nat) : Prop := base + o.n % cap * stride + tok ≤ 2 ^ 56 →
      moves (.srcN n) u [] (load (base + o.n % cap * stride)) (count (base - 16 + 8) (o.n + 1))
        { o with m := m, n := o.n + 1, asked := false }
    (∀ w u, o.flag = false → (∀ k, s.readDesc n [] (base - 16 + 8) k = k w u) →
      Completes (.srcN n) s (fun t => t = u.setOp (fun o => { o with flag := true, n := w.toNat % 2 ^ 63 }))) ∧
    (o.flag = true → o.asked = true → token s o.m) ∧
    (∀ w u, o.flag = true → o.asked = false → (∀ k, s.readDesc n [] (base - 16) k = k w u) → u.regions = s.regions →
      u.actor = s.actor →
      let rc := o.n
      let wc := w.toNat % 2 ^ 63
      (wc < o.m ∨ rc + cap < wc ∨ wc < rc → Completes (.srcN n) s (fun t => NodeStopped u t 1 6 [] (base - 16))) ∧
      (o.m ≤ wc → rc < wc → wc ≤ rc + cap → token (u.setOp (fun o => { o with m := wc, asked := true })) wc) ∧
      (o.m ≤ wc → wc = rc → w.toNat / 2 ^ 63 = 0 →
        Completes (.srcN n) s (fun t => Held (u.setOp (fun o => { o with m := wc })) t 5)) ∧
      (o.m ≤ wc → wc = rc → r.accsOf e = [] → w.toNat / 2 ^ 63 = 1 →
        Completes (.srcN n) s (fun t => Ended (u.setOp (fun o => { o with m := wc })) t [] [])))) ∧
  (MemReady s [0] false → n.cfg = 0 →
    let token (u : State) (m : Nat) : Prop := base + o.n % cap * tok + tok ≤ 2 ^ 56 →
      moves (.snkN n) u [0] (store (base + o.n % cap * tok)) (count (base - 16) (o.n + 1))
        { o with m := m, n := o.n + 1, asked := false }
    (∀ w u, o.flag = false → (∀ k, s.readDesc n [0] (base - 16) k = k w u) → u.regions = s.regions → u.actor = s.actor →
      (w.toNat / 2 ^ 63 = 1 → Completes (.snkN n) s (fun t => NodeStopped u t 1 6 [0] (base - 16))) ∧
      (w.toNat / 2 ^ 63 = 0 →
        Completes (.snkN n) s (fun t => t = u.setOp (fun o => { o with flag := true, n := w.toNat % 2 ^ 63 })))) ∧
    (o.flag = true → o.asked = true → token s o.m) ∧
    (∀ w u, o.flag = true → o.asked = false → (∀ k, s.readDesc n [0] (base - 16 + 8) k = k w u) → u.regions = s.regions →
      u.actor = s.actor →
      let rc := w.toNat % 2 ^ 63
      let wc := o.n
      (rc < o.m ∨ wc < rc → Completes (.snkN n) s (fun t => NodeStopped u t 1 6 [0] (base - 16 + 8))) ∧
      (o.m ≤ rc → rc ≤ wc → wc - rc < cap → token (u.setOp (fun o => { o with m := rc, asked := true })) rc) ∧
      (o.m ≤ rc → rc ≤ wc → cap ≤ wc - rc →
        Completes (.snkN n) s (fun t => Held (u.setOp (fun o => { o with m := rc })) t 5))))

/-- Performing an access (R144, R152, R247, R248, R340, R346): MEMORY_RESPONSE and REMOTE_ACCESS_SERVE once the MREQs have all
arrived, SCRATCHPAD_BANK_SERVE at its last bank; a remote access behind requests at its banks queues there (R247). A store writes
its bytes and no others; a load takes the lanes its ranges hold then, each MREQ is answered by one MRSP, and with the last of them
the lanes and an owed ORDER token are given; a task's store is written whole; what a requester waits for is done there and then, and
its answer brings the bytes it read. -/
def Obligations.AccessServed : Prop := ∀ (s : State) (c : Nat),
  let r := s.region c
  let answered (t : State) (id n : Nat) : Prop := t.packets.length = s.packets.length + n ∧
    t.packets.take s.packets.length = s.packets ∧
    ∀ p ∈ t.packets.drop s.packets.length, p.ofAcc c 4 id = true ∧ p.plane = 1 ∧ p.injected = false
  let quiet (t : State) : Prop := (t.region c).chans.map (fun ch : Chan => (ch.prod, ch.cons, ch.q)) =
    r.chans.map (fun ch : Chan => (ch.prod, ch.cons, ch.q))
  let done (j : Instr) (a : Acc) : Prop :=
    let n := (mreqParts a.ptrs).length
    (a.kind = .store → Completes j s (fun t => Written s t (splitSegs a.segs.flatten a.bytes) ∧ answered t a.id n)) ∧
    (a.kind = .load → a.xfmt = 15 → (∀ g ∈ a.segs, g ≠ []) → Completes j s (fun t => SameMem s t ∧ answered t a.id n ∧
      (r.accsOf a.entry = [a] → a.pass = none → n ≠ 0 → quiet t ∧ (t.region c).accsOf a.entry = [{ a with
        done := true, answers := n,
        res := some (.data (a.segs.flatMap (fun g => lanesFromBytes (fmtOf a.fmt) (s.readSegs g)))) }]))) ∧
    (∀ g k, a.kind = .atomic → a.segs = [[⟨g, 4, k⟩]] → Completes j s (fun t => answered t a.id n ∧
      Written s t [(g, bytesOf 4 (atomLane a.op (fmtOf a.fmt) (BitVec.ofNat 32 (s.load g 4)) (a.lanes.getD 0 0)
        (a.cmp.getD 0 0)).toNat)]))
  let asked (j : Instr) (f : Fetch) : Prop :=
    let old := f.ranges.flatMap (fun g => s.read g.1 g.2)
    let put (bs : List Byte) : List (Nat × List Byte) := splitSegs (f.ranges.map (fun g => ⟨g.1, g.2, none⟩)) bs
    let new := match f.job with
      | .read _ => []
      | .write bs => put bs
      | .atom op n b d => put (bytesOf n (atomNew op n (natOf old) b d))
    Completes j s (fun t => Written s t new ∧ t.regions = s.regions ∧
      answered t f.id f.parts.length ∧ t.fetches = s.fetches.map (fun g =>
        if g.cue = c ∧ g.id = f.id then { g with served := true, bytes := if f.job.reads then old else [] } else g))
  let idle (v : Nat) (rs : List (Nat × Nat)) : Prop := s.bankQueued c v (keyBanks rs) = false
  (∀ id, s.actor = .access c id → s.landed c 3 id = false → Completes .memoryResponse s (fun t => t = s)) ∧
  (∀ a, s.actor = .access c a.id → r.accs.find? (fun b => b.id == a.id && b.space == 0) = some a → r.accReady a = true →
    s.landed c 3 a.id = true → done .memoryResponse a) ∧
  (∀ a, s.actor = .access c a.id → r.accs.find? (fun b => b.id == a.id && b.space == 2 && b.banks.isEmpty) = some a →
    r.accReady a = true → s.remoteReady c a.cell a.target a.id (segRanges a.segs.flatten) = true →
    (idle a.target (segRanges a.segs.flatten) → done .remoteAccessServe a) ∧
    (¬idle a.target (segRanges a.segs.flatten) → Completes .remoteAccessServe s (fun t => SameMem s t ∧ quiet t ∧
      t.packets = s.packets ∧ (t.region c).accs = r.accs.map (fun b => if b.id = a.id then
        { b with banks := keyBanks (segRanges a.segs.flatten), made := s.cyc.toNat } else b)))) ∧
  (∀ f, r.accs = [] → r.pend = [] → s.actor = .access c f.id →
    (s.openFetch c f.id 0 = some f → s.landed c 3 f.id = true → asked .memoryResponse f) ∧
    (s.openFetch c f.id 2 = some f → f.banks = [] → s.remoteReady c f.cell f.target f.id f.ranges = true →
      idle f.target f.ranges → asked .remoteAccessServe f)) ∧
  (∀ v b f, s.actor = .bank c v b → r.accs = [] → r.pend = [] → s.fetches = [f] → f.cue = c → f.target = v → f.space = 1 →
    f.served = false → f.banks = [b] → Completes .scratchpadBankServe s (fun t =>
      (∀ n, f.job = .read n → SameMem s t ∧ t.fetches = [{ f with
        banks := [], served := true, bytes := f.ranges.flatMap (fun g => s.read g.1 g.2) }]) ∧
      (∀ op n x d, f.job = .atom op n x d → Written s t (splitSegs (f.ranges.map (fun g => ⟨g.1, g.2, none⟩))
        (bytesOf n (atomNew op n (natOf (f.ranges.flatMap (fun g => s.read g.1 g.2))) x d)))))) ∧
  (∀ p d m a, s.actor = .packet p.id → s.packets.find? (fun q => q.id == p.id) = some p → p.taken = false → p.kind = 4 →
    p.cue = c → p.dsts = [d] → p.mem = some m → m.acc = a.id → (∃ x, p.arrives = some x ∧ x ≤ s.cyc.toNat) →
    Tab.has s.regions c = true → r.accs.find? (fun b => b.id == a.id) = some a → r.accsOf a.entry = [a] → a.done = true →
    (1 < a.answers → Completes .packetArrive s (fun t => SameMem s t ∧ quiet t ∧
      (t.region c).accsOf a.entry = [{ a with answers := a.answers - 1 }])) ∧
    (∀ tok, a.answers = 1 → a.gives = true → a.res = some tok → a.flip = none → a.closes = false → r.giveHeld a = false →
      Completes .packetArrive s (fun t => SameMem s t ∧ (t.region c).accsOf a.entry = [] ∧
        (t.region c).chans.map (fun ch : Chan => (ch.prod, ch.cons, ch.q)) = r.chans.map (fun ch : Chan =>
          (ch.prod, ch.cons, ch.q ++ givenOn a.entry ((0, tok) :: (match a.owed with
            | some sc => [(1, .order sc)]
            | none => [])) ch.prod))))) ∧
  (∀ v b a, s.actor = .bank c v b → r.accs = [a] → r.pend = [] → (∀ f ∈ s.fetches, f.cue = c → f.banks = []) → a.space = 1 → a.target = v → a.withheld = none →
    a.done = false → a.kind = .store →
    (a.banks = [b] → Completes .scratchpadBankServe s (fun t => Written s t (splitSegs a.segs.flatten a.bytes))) ∧
    (b ∈ a.banks → a.banks.erase b ≠ [] → Completes .scratchpadBankServe s (fun t => SameMem s t ∧
      (t.region c).accs = [{ a with banks := a.banks.erase b }]))) ∧
  (∀ p, r.accs = [] → r.pend = [p] →
    let performed (j : Instr) : Prop := Completes j s (fun t => Written s t p.segs ∧ (t.region c).pend = [])
    (s.actor = .access c p.id → p.space = 0 → s.landed c 3 p.id = true → performed .memoryResponse) ∧
    (s.actor = .access c p.id → p.space = 2 → p.banks = [] → s.remoteReady c p.vcell p.target p.id p.ranges = true →
      idle p.target p.ranges → performed .remoteAccessServe) ∧
    (∀ b, s.actor = .bank c p.target b → p.space = 1 → p.banks = [b] → (∀ f ∈ s.fetches, f.cue = c → f.banks = []) →
      performed .scratchpadBankServe))

/-- TTAG and TWAITN (R28, R148, R155, R302): on a tile of the scratchpad whose tag is E, TTAG writes the tag N and no other, for
an engine once every access that precedes its firing is performed; TWAITN changes none, and both give A's token. Another tag, or a
later flip of the tick (DEDUCED, log 25), counts TILE; a TWAITN that waits for a late Fly command counts MEM (DEDUCED, log 28); a tile beyond SPADG × 16
raises BOUNDS.

TSEL (R165): its token before the first DATA token of a stream, then A unchanged. TSWAP (R165): a token for each position
reached, A's token while the next position lies beyond it, SWAP_ORDER for a position passed. TEVAL (R185 to R188): a bound
copy whose bank stands, and which the Table Store serves in this tick (R189), gives the lanes of the table, else it counts TABLE;
an unbound one and a bad header fault, with the bits of x of R186 as value. -/
def Obligations.NodeTilesTables : Prop :=
  (∀ (s : State) (n : NodeF), NodeReady s →
  let r := s.myRegion
  let v := s.copyAt n
  let tile := ((s.lanes 0).headD 0).toNat
  let x : BitVec 3 := n.cfg.extractLsb' 0 3
  let y : BitVec 3 := n.cfg.extractLsb' 3 3
  let rank := nodeFlipRank s.actEntry
  let late := (r.cell v).flipLate s.cyc.toNat rank tile
  let before := r.preceded s.actEntry [0]
  (tile < r.spadg * 16 →
    ((r.cell v).tag tile = x →
      Completes (.twaitnN n) s (fun t => Fired s t n [0] [(0, .data (s.lanes 0))] s.myNode.op)) ∧
    ((r.cell v).tag tile ≠ x →
      Completes (.twaitnN n) s (fun t => Held s t (if s.lateTile s.actCue v tile then 5 else 4))) ∧
    ((r.cell v).tag tile = x → late = false → y.toNat < 2 ∨ before = true → Completes (.ttagN n) s (fun t =>
      ((t.myRegion.cell v).tag tile = y ∧ ∀ k, k ≠ tile → (t.myRegion.cell v).tag k = (r.cell v).tag k) ∧
      Fired (s.setMyRegion (r.setCell v ((r.cell v).flipTag s.cyc.toNat rank tile y))) t n [0] [(0, .data (s.lanes 0))]
        s.myNode.op)) ∧
    ((r.cell v).tag tile ≠ x ∨ late = true ∨ (2 ≤ y.toNat ∧ before = false) →
      Completes (.ttagN n) s (fun t => Held s t 4))) ∧
  (r.spadg * 16 ≤ tile → Completes (.twaitnN n) s (fun t => NodeStopped s t 1 2 [0] tile) ∧
    Completes (.ttagN n) s (fun t => NodeStopped s t 1 2 [0] tile))) ∧
  (∀ (s : State) (n : NodeF),
  let e := s.actEntry
  let r := s.myRegion
  let o := s.myNode.op
  let i := s.myNode.fire
  let target := e + n.cfg.toNat % 65536
  let swapped : Node := { s.myNode with faulting := restFaulting [1] s.myNode.faulting }
  let lane0 (k : Nat) : Nat := ((s.lanes k).headD 0).toNat
  let isData (k : Nat) : Prop := ∃ ls, r.opHead e k = some (.data ls)
  (NodeReady s → o.flag = false → Completes (.tselN n) s (fun t => NodeStep s t []
    [(0, .cfg 1 target [BitVec.ofNat 32 (n.cfg.toNat / 65536 % 16)])] { s.myNode with op := { o with flag := true } })) ∧
  (NodeReady s → o.flag = true → Completes (.tselN n) s (fun t => Fired s t n s.opsNamed [(0, .data (s.lanes 0))] o)) ∧
  (r.outRoom e 1 = true →
    (isData 0 → isData 1 →
      (i < lane0 1 → Completes (.tswapN n) s (fun t => Fired s t n [0] [(0, .data (s.lanes 0))] o)) ∧
      (lane0 1 = i → Completes (.tswapN n) s (fun t => NodeStep s t [1] [(0, .cfg 2 target [])] swapped)) ∧
      (lane0 1 < i → Completes (.tswapN n) s (fun t => NodeStopped s t 1 8 [0, 1] (lane0 1)))) ∧
    (isData 0 → r.opHead e 1 = some .eos →
      Completes (.tswapN n) s (fun t => Fired s t n [0] [(0, .data (s.lanes 0))] o)) ∧
    (r.opHead e 0 = some .eos → isData 1 →
      Completes (.tswapN n) s (fun t => NodeStep s t [1] [(0, .cfg 2 target [])] swapped)) ∧
    (r.opHead e 0 = some .curtain → isData 1 → lane0 1 = i →
      Completes (.tswapN n) s (fun t => NodeStep s t [1] [(0, .cfg 2 target [])] swapped))) ∧
  (NodeReady s →
    let el := s.myNode.elem (s.myCopy n)
    let rel := el.tbind.toNat % 16
    let bank := if el.bsel then 1 else 0
    let cell := r.cell (s.copyAt n)
    let key := tableKey r.die cell.site ((s.myTenant.tsbase + rel) * 8192 + bank * 4096)
    let rd (k : Nat) : Byte := memGet s.mem (key + k)
    let ws := wordsOfBytes (s.read key 64)
    let served := r.tabServes s.cyc.toNat e
    (el.tbind.toNat < 16 → r.fields e = n →
      Completes (.tevalN n) s (fun t => NodeStopped s t 1 12 s.opsNamed (tevalBits n ((s.lanes 0).headD 0)))) ∧
    (16 ≤ el.tbind.toNat → r.fields e = n → (∀ c ∈ cell.tloads, c.slot ≠ rel ∨ c.bank ≠ bank) → served = true →
      (tabHdrOk ws = false →
        Completes (.tevalN n) s (fun t => NodeStopped s t 1 11 s.opsNamed (tevalBits n ((s.lanes 0).headD 0)))) ∧
      (tabHdrOk ws = true → ∀ out, tevalLanes rd (tabHdr ws) n 0 (s.lanes 0) [] = .inr out →
        Completes (.tevalN n) s (fun t => LaneFired (s.setMyRegion (r.tabServed s.cyc.toNat e)) t n out)) ∧
      (tabHdrOk ws = true → ∀ k f idx, tevalLanes rd (tabHdr ws) n 0 (s.lanes 0) [] = .inl (k, f, idx) →
        Completes (.tevalN n) s (fun t =>
          NodeStopped s t 1 (nfaultCode f) s.opsNamed (tevalBits n ((s.lanes 0).getD k 0))))) ∧
    (16 ≤ el.tbind.toNat → r.fields e = n → served = false ∨ (∃ c ∈ cell.tloads, c.slot = rel ∧ c.bank = bank) →
      Completes (.tevalN n) s (fun t => Held s t 2))))

/-! ### Generators, tables and passes -/

/-- CHAIN (R12, R112 to R117): a trigger with its leave and room starts a pass; pass token i is loaded, taken through the six
stages, and stored at its place and nowhere else, once the fabric owns its tiles (TILE) and its banks stand idle; else its requests
join the port, where it has a place for them (R247), and it counts MEM until they are served; after N tokens the count is given. CSUM (R118 to R120): tokens enter the block, a block
closes with its CRC, and a mismatch stops it. -/
def Obligations.NodePasses : Prop := ∀ (s : State) (n : NodeF),
  let e := s.actEntry
  let r := s.myRegion
  let o := s.myNode.op
  let opened : OpSt := { o with flag := true, n := 0 }
  let begun (s1 t : State) (ks : List Nat) : Prop := t.mem = s.mem ∧ t.myNode = { s.myNode with
    fire := s.myNode.fire + 1, fired := true, cause := 6, op := opened, faulting := restFaulting ks s.myNode.faulting } ∧
    t.myRegion.accs = s1.myRegion.accs
  let i := o.n
  let copy := i % (n.repm1.toNat + 1)
  let v := r.copyCell e copy
  let len (f : Fmt) : Nat := chainW n * fmtSize f
  let two := n.ext.length = 3
  let load (f : Fmt) (off : Nat) : List Lane :=
    (lanesFromBytes f (s.readSegs (r.spadSegs v 0 off (len f)))).map (cvtLane f (nFmt n) (nCtl n))
  let ys : List Lane := if two then load (chainS2fmt n) (chainSrc2 n i) else []
  let stages := chainStages n (fun j => ((s.myNode.elem copy).scl.toList).getD j 0) ys 6 (load (chainSfmt n) (chainSrc n i))
  let out := (stages.getLastD []).map (cvtLane (nFmt n) (chainDfmt n) (nCtl n))
  let ranges := [(chainSrc n i, len (chainSfmt n)), (chainDst n i, len (chainDfmt n))] ++
    (if two then [(chainSrc2 n i, len (chainS2fmt n))] else [])
  let banks := keyBanks (ranges.flatMap (fun p => segRanges (r.spadSegs v 0 p.1 p.2)))
  let free := o.flag = true ∧ i < chainN n ∧ ∀ p ∈ ranges, r.busyTiles v p.1 p.2 = []
  let asked := ((r.accsOf e).find? (fun a => a.kind == .poll)).map (fun a => a.banks)
  let queued := s.bankQueued s.actCue v banks
  (∀ s1, s.leaveWaits r.die s.actor = false → s.askLeave r.die s.actor (chainLeave n) = (true, s1) → o.flag = false →
    (r.named e 0 = true → r.outRoom e 1 = true → (∃ ls, r.opHead e 0 = some (.data ls)) → Completes (.chainN n) s (fun t => begun s1 t [0])) ∧
    (r.named e 0 = false → SourceReady s → o.m = 0 → Completes (.chainN n) s (fun t => begun s1 t []))) ∧
  (r.named e 0 = false → SourceReady s → o.flag = false → o.m ≠ 0 → Completes (.chainN n) s (fun t => Ended s t [] [])) ∧
  (o.flag = false → (∃ ls, r.opHead e 0 = some (.data ls)) → r.named e 0 = true → s.leaveWaits r.die s.actor = true →
    Completes (.chainN n) s (fun t => Held s t 1)) ∧
  (o.flag = true → i < chainN n → (∃ p ∈ ranges, r.busyTiles v p.1 p.2 ≠ []) → Completes (.chainN n) s (fun t => Held s t 4)) ∧
  (free → asked = none → queued = true →
    (r.portFull v (r.portOf e copy) = true → Completes (.chainN n) s (fun t => Held s t 5)) ∧
    (r.portFull v (r.portOf e copy) = false →
      Completes (.chainN n) s (fun t => Held (s.pushAcc (chainRequest e copy v banks)) t 5))) ∧
  (∀ bs, free → asked = some bs → bs ≠ [] → Completes (.chainN n) s (fun t => Held s t 5)) ∧
  (free → (asked = none ∧ queued = false) ∨ asked = some [] →
    Completes (.chainN n) s (fun t => t.myRegion.accs = r.accs.filter (fun a => a.entry != e) ∧
      Written s t (splitSegs (r.spadSegs v 0 (chainDst n i) (len (chainDfmt n))) (bytesFromLanes (chainDfmt n) out)) ∧
      t.myNode.op = { o with n := i + 1 } ∧ t.myNode.fire = s.myNode.fire ∧ t.myRegion.chans = r.chans ∧
      (∀ j : Fin 6, (t.myNode.elem copy).p.get j = Vector.ofFn (fun k => (stages.getD j.val []).getD k.val 0)) ∧
      ∀ j, j ≠ e → t.myRegion.node j = r.node j)) ∧
  (o.flag = true → chainN n ≤ i → r.outRoom e 1 = true → Completes (.chainN n) s (fun t =>
    NodeStep s t [] [(0, .data [BitVec.ofNat 32 (chainN n)])]
      { s.myNode with op := { o with flag := false, n := 0, m := o.m + 1 } })) ∧
  (let mode := n.mod.toNat / 16 % 4
    let len := (wordAt n.ext 0).toNat % 2 ^ 16 + 1
    let st := csumState o
    let a := csumAdd st.1 (s.lanes 0)
    let b := if mode = 1 then csumAdd st.2 (s.lanes 1) else st.2
    let c := a ^^^ 0xFFFFFFFF
    let ref := if mode = 1 then b ^^^ 0xFFFFFFFF else (s.lanes 1).headD 0
    let ks : List Nat := if mode = 1 ∨ (mode = 2 ∧ o.n + 1 = len) then [0, 1] else [0]
    r.allData e ks = true → r.outRoom e 1 = true →
    (o.n + 1 ≠ len → Completes (.csumN n) s (fun t => Fired s t n ks [] { o with rows := [[a, b]], n := o.n + 1 })) ∧
    (o.n + 1 = len → mode = 0 ∨ c = ref →
      Completes (.csumN n) s (fun t => Fired s t n ks [(0, .data [c])] { o with rows := [], n := 0, m := o.m + 1 })) ∧
    (o.n + 1 = len → mode ≠ 0 → c ≠ ref → Completes (.csumN n) s (fun t => NodeStopped s t 1 10 ks c.toNat)))

/-! ### Matrix nodes -/

/-- A step of MMA (R12, R167 to R171) and of GMMA (R173, R174): with its operands, tags, leave and room, the accumulator tile holds the
sums of R170 and no other accumulator byte changes; the tiles flip, and a step whose flips come after
a later flip of the tick is held and counts TILE (DEDUCED, log 25); a LAST step drains. A waiting output is given first. -/
def Obligations.NodeMatrix : Prop := ∀ (s : State) (n : NodeF),
  let e := s.actEntry
  let r := s.myRegion
  let o := s.myNode.op
  let v := r.entryCell e
  let st := stepOf (s.lanes 0)
  let tile := (wordAt n.ext 0).toNat / 2 ^ 8 % 2 ^ 12
  let dmode := (wordAt n.ext 0).toNat / 2 ^ 20 % 2
  let scale (j : Nat) : Ex := exOfBf16 (s.myNode.wsc.getD (j % 32) 0x3F80).toNat
  let stepped (t : State) (ks : List Nat) (gather xt : Bool) (x : Nat → Nat → Ex) : Prop :=
    let sw := if gather then (wordAt n.ext 0).toNat / 2 ^ 21 % 8 else (wordAt n.ext 0).toNat / 2 ^ 24 % 8
    let w (j k : Nat) : Ex := s.tileWeight r v (fmtOf ((wordAt n.ext 0).toNat / 16 % 16)) sw st.wt (32 * j + k)
    let old (m j : Nat) : Lane := if st.first then 0 else BitVec.ofNat 32 (s.load (r.accKey v tile m j) 4)
    let sum (m j : Nat) : Lane := k32Sum (old m j) ((List.range 32).map (fun k => some (mulProduct (w j k) (scale j) (x m k))))
    let freeX := xt && !st.keepX
    let freeW := !(st.keepW || n.res == 1) &&
      (if gather then !(tilesOf (gmBase n) (gmRows n * gmStride n)).contains st.wt else st.wt != st.xt)
    t.myNode.fire = s.myNode.fire + 1 ∧
    t.myNode.faulting = restFaulting ks s.myNode.faulting ∧
    (st.last = false ∨ dmode = 0 →
      (∀ m j, m < 32 → j < 32 → t.load (r.accKey v tile m j) 4 = (sum m j).toNat) ∧
      SameMemBut s t (r.accKey v tile 0 0) 4096 ∧
      (∀ k, (t.myRegion.cell v).tag k =
        if (freeX = true ∧ k = st.xt) ∨ (freeW = true ∧ k = st.wt) then 0 else (r.cell v).tag k)) ∧
    (st.last = false → t.myNode.op.out = o.out) ∧
    (st.last = true → dmode = 0 → t.myNode.op.out = (List.range (matMM1 n gather + 1)).flatMap (fun m =>
      let row := (List.range 32).map (fun k => drainCvt (nFmt n) (nCtl n) (sum m k))
      [.data (row.take 16), .data (row.drop 16)])) ∧
    (st.last = true → dmode = 1 → (t.myRegion.cell v).tag st.dt = 1 ∧ t.myNode.op.out = [.data [BitVec.ofNat 32 st.dt]])
  let leave := st.first = true → s.leaveWaits r.die s.actor = false ∧ ∃ s1, s.askLeave r.die s.actor 4 = (true, s1)
  (o.out = [] → r.allData e s.opsNamed = true → stepFault r n st true = none → stepTags r n v st [st.xt] = true →
    stepFlipLate r n e v st false = false → leave → r.outRoom e 1 = true →
    Completes (.mmaN n) s (fun t => stepped t s.opsNamed false true (fun m k =>
      let f := fmtOf ((wordAt n.ext 0).toNat % 16)
      floatAt f (fun i => s.spadByte r v ((wordAt n.ext 0).toNat / 2 ^ 21 % 8) (st.xt * 4096 + i)) ((32 * m + k) * fmtSize f)))) ∧
  (o.out = [] → r.allData e [0, 1] = true → o.held = none → Completes (.gmmaN n) s (fun t => NodeStep s t [1] []
    { s.myNode with op := { o with held := some (.data (s.lanes 1)) }, faulting := restFaulting [1] s.myNode.faulting })) ∧
  (o.out = [] → r.allData e s.opsNamed = true → stepFault r n st true = none →
    (st.first = true → s.leaveWaits r.die s.actor = false) →
    stepTags r n v st [st.xt] = false ∨ stepFlipLate r n e v st false = true → Completes (.mmaN n) s (fun t => Held s t 4)) ∧
  (∀ h, o.out = [] → r.allData e [0, 1] = true → o.held = some (.data h) → stepFault r n st false = none →
    (∀ l ∈ h ++ s.lanes 1, gmRows n ≤ l.toNat → gmOob n = true) →
    stepTags r n v st (tilesOf (gmBase n) (gmRows n * gmStride n)) = true →
    stepFlipLate r n e v st true = false → leave → r.outRoom e 1 = true →
    Completes (.gmmaN n) s (fun t => t.myNode.op.held = none ∧ stepped t [0, 1] true false (fun m k =>
      let f := fmtOf ((wordAt n.ext 0).toNat % 16)
      let row := ((h ++ s.lanes 1).map (fun l => l.toNat)).getD m 0
      if gmRows n ≤ row then .fin false 0 0
      else floatAt f (fun i => s.spadByte r v 0 i) (gmBase n + row * gmStride n + k * fmtSize f)))) ∧
  (∀ x rest, o.out = x :: rest → r.outRoom e 1 = true → ∀ i ∈ ([.mmaN n, .gmmaN n] : List Instr),
    Completes i s (fun t => NodeStep s t [] [(0, x)]
      { s.myNode with fired := true, cause := 6, op := { o with out := rest } })) ∧
  (∀ f, o.out = [] → r.allData e s.opsNamed = true → r.outRoom e 1 = true → stepFault r n st true = some f →
    Completes (.mmaN n) s (fun t => NodeStopped s t 1 (nfaultCode f) s.opsNamed st.xt))

/-- MVM (R175 to R179, R310, R311): each firing gathers a token of the call's input; an ORDER token is taken, between calls by R178
and amid the input too (DESIGN CHOICE, log 21). A call with its inputs draws its leave, then chooses its path once by R310. On the
stage path it asks for the bytes of W, and computes from them when they have come, or from resident tiles that hold them; on the
wings path it joins the unit's queue with the index of its last input's firing. Each path is counted. The outputs are given in order,
and the last ends the call. A page that is absent withholds the call, and W of a wrong format, placement or right stops the firing
that gathered the last token (DEDUCED, log 21). -/
def Obligations.NodeMvm : Prop := ∀ (s : State) (n : NodeF),
  let e := s.actEntry
  let r := s.myRegion
  let o := s.myNode.op
  let b := n.cfg.toNat % 64 + 1
  let k := (wordAt n.ext 1).toNat % 2 ^ 16 + 1
  let m := (wordAt n.ext 1).toNat / 2 ^ 16 % 2 ^ 16 + 1
  let wb := (wordAt n.ext 0).toNat % 2 ^ 56
  let v := r.entryCell e
  let site := (r.cell v).site
  let slice := sliceOf r.die site
  let idle := o.out = [] ∧ o.flag = false ∧ r.withheldAt e = false
  let count (j c : Nat) : Nat := if s.myNode.cleared.contains (0, 16 + j) then c else min (c + 1) (2 ^ 32 - 1)
  (idle → o.rows.length < b * k / 16 →
    (∀ a, r.opHead e 0 = some (.data a) →
      (r.outRoom e 1 = true → Completes (.mvmN n) s (fun t => Fired s t n [0] [] { o with rows := o.rows ++ [a] })) ∧
      (r.outRoom e 1 = false → Completes (.mvmN n) s (fun t => Held s t 7))) ∧
    (∀ sc, r.opHead e 0 = some (.order sc) → Completes (.mvmN n) s (fun t => NodeStep s t [0] []
      { s.myNode with faulting := restFaulting [0] s.myNode.faulting }))) ∧
  (∀ x rest, o.out = x :: rest → r.outRoom e 1 = true →
    (rest ≠ [] → Completes (.mvmN n) s (fun t => NodeStep s t [] [(0, x)]
      { s.myNode with fired := true, cause := 6, op := { o with out := rest } })) ∧
    (rest = [] → Completes (.mvmN n) s (fun t => NodeStep s t [] [(0, x)] { s.myNode with
      fired := true, cause := 6, op := { o with out := [], rows := [], granted := false, phase := 0 } }))) ∧
  (∀ s1, idle → b * k / 16 ≤ o.rows.length → o.granted = false →
    (s.askLeave r.die s.actor ((b * m * k + 65535) / 65536) = (false, s1) → Completes (.mvmN n) s (fun t => Held s1 t 1)) ∧
    (s.askLeave r.die s.actor ((b * m * k + 65535) / 65536) = (true, s1) →
      exec (.mvmN n) s = exec (.mvmN n) (s1.setOp (fun o => { o with granted := true })))) ∧
  (∀ x s1, idle → b * k / 16 ≤ o.rows.length → o.granted = true → translate s slice r.tenant wb false = (x, s1) →
    let stopped (code sub v0 : Nat) (t : State) : Prop := SameMem s t ∧ t.myNode.fire = s.myNode.fire - 1 ∧
      t.myNode.op = { o with rows := o.rows.dropLast, granted := false, phase := 0 } ∧
      (∀ a, o.rows.getLast? = some a → (0, Token.data a) ∈ t.myNode.faulting) ∧
      ∃ f, t.myRegion.freeze = some f ∧ (r.freeze = none → bits f.incident.w0 7 0 = code ∧ bits f.incident.w0 15 8 = sub ∧
        f.incident.w2 = BitVec.ofNat 64 (s.myNode.fire - 1) ∧ f.incident.w3 = BitVec.ofNat 64 v0)
    (∀ cause, (x = .invalid ∧ cause = 0) ∨ (x = .malformed ∧ cause = 1) ∨ (x = .migrating ∧ cause = 2) ∨
        ((∃ y, x = .dark y) ∧ cause = 3) →
      Completes (.mvmN n) s (fun t => t.myNode.cause = 5 ∧ ∃ a, t.myRegion.accs = r.accs ++ [a] ∧ a.entry = e ∧
        a.fire = s.myNode.fire - 1 ∧ a.withheld = some (wb, cause))) ∧
    (∀ leaf pa, x = .ok leaf pa →
      let f := fmtOf (leafFmt leaf)
      let geom := leafGeom leaf
      let ext := weightExtent f geom m k
      let stack := stackOf pa
      let fits := rights leaf r.tenant true false = none ∧ weightCheck f geom wb k = 0 ∧
        s1.mixedPage r.tenant wb ext f geom = none ∧ wb + ext ≤ 2 ^ 56
      let toUnit := inHbm pa = true ∧ (s1.die (dieOfStack stack)).power.dead = false ∧ b < r.prmBatch ∧
        residentAll r n v 3 = false ∧ min 16 (s1.wing stack).qm.length < r.prmQmax ∧
        (r.prmPort ≤ s1.slicePort slice ∨ r.prmBytes ≤ weightBytes f geom m k)
      (∀ right, rights leaf r.tenant true false = some right → Completes (.mvmN n) s (stopped 2 0 wb)) ∧
      (rights leaf r.tenant true false = none → s1.mixedPage r.tenant wb ext f geom = none →
        (weightCheck f geom wb k = 1 → Completes (.mvmN n) s (stopped 1 3 wb)) ∧
        (weightCheck f geom wb k = 2 → Completes (.mvmN n) s (stopped 1 5 wb)) ∧
        (weightCheck f geom wb k = 0 → 2 ^ 56 < wb + ext → Completes (.mvmN n) s (stopped 1 2 wb))) ∧
      (fits → o.phase = 2 ∨ (o.phase = 0 ∧ toUnit) →
        let q : WBlk := { cue := s.actCue, vcell := v, task := false, agent := e, call := true, fire := s.myNode.fire - 1,
                          words := mvmCallWords n stack, x := mvmRowsX b (k / 16) o.rows, sr := (List.range 32).map s.myNode.sr }
        (s1.queueRoom (64 + 2 * stack) = true →
          Completes (.mvmN n) s (fun t => t.mem = s1.mem ∧ t.wings = (s1.enqueueWings stack q).wings ∧
            t.myNode.fire = s.myNode.fire ∧ t.myNode.op = { o with phase := 2, flag := true, prmw := count 1 o.prmw })) ∧
        (s1.queueRoom (64 + 2 * stack) = false →
          Completes (.mvmN n) s (fun t => Held (s1.setOp (fun o => { o with phase := 2 })) t 5))) ∧
      (fits → o.phase = 1 ∨ (o.phase = 0 ∧ ¬toUnit) →
        let s2 := s1.setOp (fun o => { o with phase := 1 })
        let loading := residentAll r n v 2 = true
        let late := loading ∧ ∃ q ∈ mvmTiles n, (r.cell v).flipLate s.cyc.toNat (nodeFlipRank e) q = true
        let tiles := r.taskBytes + (wordAt n.ext 2).toNat % 2 ^ 12 * 4096
        let gives (rd : Nat → Byte) (t : State) : Prop := t.myNode.fire = s.myNode.fire ∧
          t.myNode.op = { o with phase := 1, prm := count 0 o.prm, out := callTokens (mvmRows f geom rd m k
            ((List.range 32).map s.myNode.sr) (fmtOf (n.mod.toNat / 16)) (nFmt n) (n.mod.toNat % 16)
            (mvmRowsX b (k / 16) o.rows)) }
        let waits (u t : State) : Prop := Held u t (if u.leased r.die site then 0 else 5)
        (late → Completes (.mvmN n) s (fun t => Held s2 t 5)) ∧
        (residentAll r n v 3 = true → Completes (.mvmN n) s (fun t => SameMem s t ∧
          gives (fun i => memGet s1.mem (poolKey r.die site (tiles + i))) t)) ∧
        (residentAll r n v 3 = false → ¬late →
          (∀ g, s.fetchOf wb (.read ext) = some g →
            (s.fetched g = false → Completes (.mvmN n) s (waits s2)) ∧
            (s.fetched g = true → Completes (.mvmN n) s (fun t => gives (fun i => g.bytes.getD i 0) t ∧
              t.fetches = s.fetches.filter (fun h => h.who != s.actor) ∧
              (loading → ext ≤ (mvmTiles n).length * 4096 → Written s t [(poolKey r.die site tiles, g.bytes)] ∧
                ∀ q ∈ mvmTiles n, (t.myRegion.cell v).tag q = 3) ∧
              (¬loading ∨ (mvmTiles n).length * 4096 < ext → SameMem s t)))) ∧
          (∀ segs s3, s.fetchOf wb (.read ext) = none → s2.reach slice r.tenant r.die wb ext true false = (.ok segs, s3) →
            Completes (.mvmN n) s (waits (s3.askFor {
              who := s.actor, cue := s.actCue, id := 0, key := wb, space := 0, cell := v, target := v,
              ranges := segRanges segs, parts := [], job := .read ext } [(wb, weightBytes f geom m k)])))))))

/-! ### Engine ports and packets of nodes -/

/-- FLYP (R148, R156, R300, R301): a well formed command, once the accesses that precede it are performed, with a place, leave and
room, is queued behind all but later ranked commands of its tick, and its token gives the promise; what it waits for counts
LEAVE, ORDER, MEM or SPACE in that order; a malformed command faults.

WNGP (R148, R157): a status that is ready is given first, in command order; the first token of a block is kept; the second,
once the accesses that precede the block are performed, with a place, leave and room, queues the block, or keeps the status that
refuses it; a stack or tile the tenant does not hold is a VIOLATION.

SENDN (R148, R158, R350): once the accesses that precede the firing are performed, with quota at the port and a credit of every
receiver, the token leaves as the packets of the class, with the tag of the node; an exchange counts CROSS, other waiting MEM; a
class the tenant does not hold is a VIOLATION. RECVN (R159, R348): with room, the oldest admitted packet becomes a token and one
CREDIT goes to its sender; a payload of another width raises RECV_WIDTH and stays; with none it counts OPERAND. -/
def Obligations.NodePorts : Prop :=
  (∀ (s : State) (n : NodeF),
  let e := s.actEntry
  let r := s.myRegion
  let v := s.copyAt n
  let x := wordAt n.ext 0
  let explicit := x.toNat / 16 % 2 = 1
  let eng := if explicit then r.die * 16 + x.toNat % 16 else r.die * 16 + (r.cell v).site / 36
  let c := cmdOfWords (wordsOfLanes (s.lanes 0))
  let waits := s.leaveWaits r.die s.actor
  let before := r.preceded e s.opsNamed
  let room := s.queueRoom eng
  (NodeReady s → flyMalformed r v c = true → Completes (.flypN n) s (fun t => NodeStopped s t 1 15 s.opsNamed 0)) ∧
  (∀ s1, NodeReady s → flyMalformed r v c = false → waits = false → before = true → room = true →
    s.askLeave r.die s.actor (leaveUnits (flyBytes c)) = (true, s1) →
    let f : FlyCmd := { seq := s1.nextFly, cue := s.actCue, vcell := v, task := false, agent := e, own := decide (¬explicit),
                        c := c, promise := 0, made := s.cyc.toNat, fire := s.myNode.fire }
    let q := (s.fly eng).q
    let ahead := q.take (q.length - (q.reverse.takeWhile f.behind).length)
    let pr := s1.flyPromise r.tenant eng c ahead
    Completes (.flypN n) s (fun t => SameMem s t ∧ t.myNode.fire = s.myNode.fire + 1 ∧ t.myNode.op = s.myNode.op ∧
      (∃ rest, (t.fly eng).q = ahead ++ { f with promise := pr.1, told := pr.1, reff := pr.2 } :: rest ∧
        rest.map (fun g => g.seq) = (q.drop ahead.length).map (fun g => g.seq)) ∧
      t.myRegion.chans.map (fun ch : Chan => (ch.prod, ch.cons, ch.q)) = r.chans.map (fun ch : Chan =>
        (ch.prod, ch.cons, (if r.loses e s.opsNamed ch then ch.q.tail else ch.q) ++
          givenOn e [(0, .data [BitVec.ofNat 32 pr.1, BitVec.ofNat 32 (pr.1 / 2 ^ 32)])] ch.prod)))) ∧
  (r.allData e s.opsNamed = true → flyMalformed r v c = false →
    (waits = true → Completes (.flypN n) s (fun t => Held s t 1)) ∧
    (waits = false → before = false → Completes (.flypN n) s (fun t => Held s t 3)) ∧
    (waits = false → before = true → room = false → Completes (.flypN n) s (fun t => Held s t 5)) ∧
    (waits = false → before = true → room = true → r.outRoom e 1 = false → Completes (.flypN n) s (fun t => Held s t 7))) ∧
  (r.allData e s.opsNamed = false → Completes (.flypN n) s (fun t => Held s t 6))) ∧
  (∀ (s : State) (n : NodeF) (a : List Lane),
  let e := s.actEntry
  let r := s.myRegion
  let o := s.myNode.op
  let v := s.copyAt n
  let x := wordAt n.ext 0
  let named := decide (x.toNat / 16 % 2 = 1)
  let b := wordsOfLanes (o.rows.headD []) ++ wordsOfLanes a
  let stack := if named then x.toNat % 16 else blkStack b
  let out := s.issueBlock s.actCue v false e stack named b s.actor o.n s.myNode.fire
  let waits := s.leaveWaits r.die s.actor
  let before := r.preceded e [0] && (r.preOf e).isEmpty
  let full := s.blockFull r stack named b
  (∀ ts, Tab.get s.myNode.results o.m [] = ts → ts ≠ [] → r.room (.entry e 0) ts.length = true →
    Completes (.wngpN n) s (fun t => NodeStep s t [] (ts.map (fun x => (0, x)))
      { s.myNode with results := Tab.del s.myNode.results o.m, op := { o with m := o.m + 1 } })) ∧
  (Tab.get s.myNode.results o.m [] = [] → r.opHead e 0 = some (.data a) →
    (o.flag = false → r.outRoom e 1 = true →
      Completes (.wngpN n) s (fun t => Fired s t n [0] [] { o with flag := true, rows := [a] })) ∧
    (o.flag = false → r.outRoom e 1 = false → Completes (.wngpN n) s (fun t => Held s t 7)) ∧
    (o.flag = true → waits = false → before = true → full = false → r.outRoom e 1 = true →
      (∀ s1, out = .queued s1 → Completes (.wngpN n) s (fun t =>
        Fired s1 t n [0] [] { o with flag := false, rows := [], n := o.n + 1 } ∧ t.wings = s1.wings)) ∧
      (∀ k, out = .status k → Completes (.wngpN n) s (fun t => SameMem s t ∧ t.myNode.fire = s.myNode.fire + 1 ∧
        t.myNode.op = { o with flag := false, rows := [], n := o.n + 1 } ∧
        Tab.get t.myNode.results o.n [] = [.data [BitVec.ofNat 32 k]])) ∧
      (∀ x right, out = .viol x right → Completes (.wngpN n) s (fun t => NodeStopped s t 2 0 [0] x))) ∧
    (o.flag = true →
      (waits = true → Completes (.wngpN n) s (fun t => Held s t 1)) ∧
      (waits = false → before = false → Completes (.wngpN n) s (fun t => Held s t 3)) ∧
      (waits = false → before = true → full = true → Completes (.wngpN n) s (fun t => Held s t 5)) ∧
      (waits = false → before = true → full = false → r.outRoom e 1 = false →
        Completes (.wngpN n) s (fun t => Held s t 7)))) ∧
  (Tab.get s.myNode.results o.m [] = [] → (∀ ls, r.opHead e 0 ≠ some (.data ls)) →
    Completes (.wngpN n) s (fun t => Held s t 6))) ∧
  (∀ (s : State) (n : NodeF),
  let e := s.actEntry
  let r := s.myRegion
  let o := s.myNode.op
  let cl := n.cfg.toNat % 16
  let v := r.entryCell e
  let w := 2 ^ n.wid.toNat
  let len := dataFlits (s.lanes 0).length
  let lease := s.classLeased s.actCue v cl
  let before := r.preceded e s.opsNamed
  (r.allData e s.opsNamed = true →
    (s.myTenant.classMask.getLsbD cl = false → Completes (.sendnN n) s (fun t => NodeStopped s t 2 0 s.opsNamed cl)) ∧
    (s.myTenant.classMask.getLsbD cl = true → lease = false → before = true →
      s.hasQuota r.die (r.cell v).site len = true → (∀ q ∈ r.classDsts cl, 0 < (r.cls cl).credit v q.recv) →
      Completes (.sendnN n) s (fun t => SameMem s t ∧ t.myNode.fire = s.myNode.fire + 1 ∧ t.myNode.op = { o with m := 0 } ∧
        t.myRegion.chans.map (fun ch : Chan => (ch.prod, ch.cons, ch.q)) = r.chans.map (fun ch : Chan =>
          (ch.prod, ch.cons, if r.loses e s.opsNamed ch then ch.q.tail else ch.q)) ∧
        ∃ ps, t.packets = s.packets ++ ps ∧ ps.map (fun p => p.dsts) = r.sendsLeft cl len o.m ∧
          ∀ p ∈ ps, p.kind = 0 ∧ p.plane = 0 ∧ p.cls = cl ∧ p.tag = (wordAt n.ext 0).toNat % 2 ^ 16 ∧ p.lanes = s.lanes 0 ∧
            p.srcCell = v)) ∧
    (s.myTenant.classMask.getLsbD cl = true →
      (lease = true → Completes (.sendnN n) s (fun t => Held s t 0)) ∧
      (lease = false → before = false → Completes (.sendnN n) s (fun t => Held s t 5)) ∧
      (lease = false → before = true → s.portReady s.actCue v cl len o.m = false →
        Completes (.sendnN n) s (fun t => Held s t 5)))) ∧
  (r.allData e s.opsNamed = false → Completes (.sendnN n) s (fun t => Held s t 6)) ∧
  (∀ i src tag ls, r.recvNext n e = (i, some (src, tag, .data ls)) → s.myNode.curt = false → s.myNode.eos = false →
    (ls.length = w → r.outRoom e 1 = true → Completes (.recvnN n) s (fun t => SameMem s t ∧ t.myNode.fire = s.myNode.fire + 1 ∧
      t.myNode.op = o ∧ ((t.myRegion.cls cl).queue i = ((r.cls cl).queue i).erase (src, tag, .data ls)) ∧
      t.myRegion.chans.map (fun ch : Chan => (ch.prod, ch.cons, ch.q)) = r.chans.map (fun ch : Chan =>
        (ch.prod, ch.cons, ch.q ++ givenOn e [(0, .data ls)] ch.prod)) ∧
      ∃ p, t.packets = s.packets ++ [p] ∧ p.kind = 5 ∧ p.plane = 1 ∧ p.len = 1 ∧ p.cls = cl ∧
        p.dsts.map (fun d => d.recv) = [src])) ∧
    (ls.length = w → r.outRoom e 1 = false → Completes (.recvnN n) s (fun t => Held s t 7)) ∧
    (ls.length ≠ w → Completes (.recvnN n) s (fun t => NodeStopped s t 1 16 [] 0))) ∧
  ((r.recvNext n e).2 = none → Completes (.recvnN n) s (fun t => Held s t 6)))

/-! ### Control tokens -/

/-- R13 at a node: a CFG token on A that names the node is taken and applied, any other CFG token, and an ORDER token on an operand
that does not consume it, is forwarded on each port; EOS on every operand ends the node; CURTAIN on every operand is passed on each
port. Of the nodes with an end of their own: a SNK stores CLOSED and its count (R131), a MERGE ends with A, B and C, a CARRY in INIT
with A (R133, R134), an INV empties HOLD (R135), a window closes first (R110), a CSUM closes its block (R120), a TFILL flips its
part-filled tile (R154), a source-mode load ends with C, a TSEL and a TSWAP with all operands (R144, R165), a SENDN sends a marker on
its class (R158), a RECVN that finds one gives EOS (R159). -/
def Obligations.NodeControl : Prop := ∀ (s : State),
  let e := s.actEntry
  let r := s.myRegion
  let opc := r.opcode e
  let passed (k : Nat) : Node := { s.myNode with faulting := restFaulting [k] s.myNode.faulting }
  let plain := opc ∉ [0x03, 0x05, 0x06, 0x07, 0x55, 0x56, 0x57, 0x58, 0x65, 0x67, 0x81, 0x82, 0x90, 0x91, 0xA1, 0xA3, 0xA4, 0xA5]
    ∧ ¬(0x60 ≤ opc ∧ opc ≤ 0x6A)
  r.outRoom e 1 = true →
  (∀ k kind target ls, opc ≠ 0x65 → opc ≠ 0x81 → r.drains e = false → r.cfgAt e = some k → r.opHead e k = some (.cfg kind target ls) →
    r.quiet e false = true →
    (target ≠ e ∨ k ≠ 0 → Completes .cfgTokenTake s (fun t => NodeStep s t [k]
      [(0, .cfg kind target ls), (1, .cfg kind target ls)] (passed k))) ∧
    (target = e → k = 0 →
      (kind = 0 → Completes .cfgTokenTake s (fun t => NodeStep s t [0] [] { passed 0 with wsc := (List.range 32).map (fun j =>
        ((ls.getD (j / 2) 0).extractLsb' (16 * (j % 2)) 16 : BitVec 16)) })) ∧
      (kind = 3 → Completes .cfgTokenTake s (fun t => SameMem s t ∧ ∀ c, c ≤ (r.fields e).repm1.toNat → ∀ j : Fin 4,
        (t.myNode.elem c).scl.get j =
          if (ls.getD 4 0).getLsbD j.val then ls.getD j.val 0 else (s.myNode.elem c).scl.get j)) ∧
      (kind = 2 → Completes .cfgTokenTake s (fun t => SameMem s t ∧ ∀ c, c ≤ (r.fields e).repm1.toNat →
        (t.myNode.elem c).bsel = !(s.myNode.elem c).bsel ∧ (t.myNode.elem c).tbind = (s.myNode.elem c).tbind)) ∧
      (kind = 1 → Completes .cfgTokenTake s (fun t => SameMem s t ∧ ∀ c, c ≤ (r.fields e).repm1.toNat →
        (t.myNode.elem c).tbind = BitVec.ofNat 5 (16 + (ls.headD 0).toNat % 16))))) ∧
  (∀ k sc, opc ≠ 0x65 → opc ≠ 0x81 → r.drains e = false → r.cfgAt e = some k → r.opHead e k = some (.order sc) →
    r.quiet e false = true → Completes .cfgTokenTake s (fun t => NodeStep s t [k] [(0, .order sc), (1, .order sc)] (passed k))) ∧
  (plain → r.quiet e false = true → s.opsNamed ≠ [] → (∀ k ∈ s.opsNamed, r.opHead e k = some .eos) →
    Completes .eosTokenTake s (fun t => Ended s t s.opsNamed [])) ∧
  (plain → (∃ j ∈ s.opsNamed, r.opHead e j = some .eos) → (∃ j ∈ s.opsNamed, ∃ ls, r.opHead e j = some (.data ls)) →
    Completes .eosTokenTake s (fun t => t.myRegion.freeze.isSome = true ∧ SameMem s t ∧
      (r.freeze = none → ∃ f, t.myRegion.freeze = some f ∧ bits f.incident.w0 15 0 = 0x0101))) ∧
  (plain → opc ≠ 0x0A → r.quiet e true = true → s.opsNamed ≠ [] → (∀ k ∈ s.opsNamed, r.opHead e k = some .curtain) →
    Completes .curtainTokenTake s (fun t => NodeStep s t s.opsNamed [(0, .curtain), (1, .curtain)]
      { s.myNode with curt := true, cause := 6, faulting := restFaulting s.opsNamed s.myNode.faulting })) ∧
  (opc = 0x06 → r.quiet e false = true → s.myNode.eos = false → s.myNode.op.flag = false → s.myNode.op.held = none →
    r.opHead e 0 = some .eos → Completes .eosTokenTake s (fun t => Ended s t [0] [])) ∧
  (let ended := r.quiet e false = true ∧ s.opsNamed ≠ [] ∧ ∀ k ∈ s.opsNamed, r.opHead e k = some .eos
    let n := r.fields e
    let o := s.myNode.op
    let endsWith (op : OpSt) (t : State) : Prop :=
      ∃ u, Ended s u s.opsNamed [] ∧ NodeStep u t [] [] { u.myNode with op := op }
    (opc = 0x03 → s.opsNamed = [0] → ended → n.cfg ≠ 0 ∨ o.flag = true →
      let a : Acc := { r.newAcc n e .store with
        ptrs := [((wordAt n.ext 0).toNat % 2 ^ 56 - 16, 8)], pages := 0, extra := true, closes := true,
        bytes := bytesOf 8 (2 ^ 63 + if n.cfg ≠ 0 then s.myNode.fire else o.n) }
      (∀ cause, s.heldAt a a.ptrs = some cause → Completes .eosTokenTake s (fun t => Held s t cause)) ∧
      (∀ segs u v, s.heldAt a a.ptrs = none → s.accReach s.actCue a = (.ok segs, u) → u.asks a [] = (true, v) →
        Completes .eosTokenTake s (fun t => OnlyRegion v t s.actCue ∧ t.mem = s.mem ∧ t.myNode = passed 0 ∧
          t.myRegion.accs = r.accs ++ stamped s.cyc.toNat r.nextAcc [{ a with segs := segs }] ∧
          t.myRegion.chans.map (fun ch : Chan => (ch.prod, ch.cons, ch.q)) = r.chans.map (fun ch : Chan =>
            (ch.prod, ch.cons, if r.loses e [0] ch then ch.q.tail else ch.q))))) ∧
    (opc = 0x05 → n.ndt = 1 → [0, 1] ⊆ s.opsNamed → ended → Completes .eosTokenTake s (fun t => Ended s t s.opsNamed [])) ∧
    (opc = 0x05 → n.ndt ≠ 1 → 2 ∈ s.opsNamed → ended → Completes .eosTokenTake s (fun t => Ended s t s.opsNamed [])) ∧
    (opc = 0x07 → r.opHead e 1 = some .eos → o.held ≠ none →
      Completes .eosTokenTake s (fun t => NodeStep s t [] [] { s.myNode with op := { o with held := none } })) ∧
    (opc = 0x07 → o.held = none → s.opsNamed = [0, 1] → ended → Completes .eosTokenTake s (fun t => Ended s t [0, 1] [])) ∧
    (opc = 0x90 → ended → Completes .eosTokenTake s (endsWith { o with flag := false })) ∧
    (opc = 0x91 → ended → Completes .eosTokenTake s (fun t => Ended s t s.opsNamed [])) ∧
    (opc = 0x60 ∨ opc = 0x62 → s.opsNamed = [2] → s.myNode.eos = false → orderNeeded opc n s.myNode.fire = true → ended →
      Completes .eosTokenTake s (endsWith { o with flag := true })) ∧
    (let tile := (wordAt n.ext 0).toNat % 2 ^ 12 + o.m
      let v := r.copyCell e 0
      let late := (r.cell v).flipLate s.cyc.toNat (nodeFlipRank e) tile
      let flipped := s.setMyRegion (r.setCell v ((r.cell v).flipTag s.cyc.toNat (nodeFlipRank e) tile 1))
      (opc = 0x67 → s.opsNamed = [0] → ended → o.n = 0 → Completes .eosTokenTake s (fun t => Ended s t s.opsNamed [])) ∧
      (opc = 0x67 → s.opsNamed = [0] → ended → o.n ≠ 0 → (r.cell v).tag tile ≠ 0 ∨ late = true → Completes .eosTokenTake s (fun t => Held s t 4)) ∧
      (opc = 0x67 → s.opsNamed = [0] → ended → o.n ≠ 0 → (r.cell v).tag tile = 0 → late = false → r.outRoom e 2 = true →
        Completes .eosTokenTake s (fun t => ∃ u, Ended flipped u s.opsNamed [.data [BitVec.ofNat 32 tile]] ∧
          NodeStep u t [] [] { u.myNode with
            op := { o with n := 0, m := (o.m + 1) % ((wordAt n.ext 0).toNat / 2 ^ 12 % 2 ^ 12 + 1) } }))) ∧
    (let mode := n.mod.toNat / 16 % 4
      let c := (csumState o).1 ^^^ 0xFFFFFFFF
      let ref := if mode = 2 then (s.lanes 1).headD 0 else (csumState o).2 ^^^ 0xFFFFFFFF
      let ks : List Nat := if mode = 2 then [1] else []
      let closes := mode = 0 ∨ (mode = 1 ∧ r.opHead e 1 = some .eos) ∨ (mode = 2 ∧ ∃ ls, r.opHead e 1 = some (.data ls))
      opc = 0xA1 → r.opHead e 0 = some .eos → o.n ≠ 0 → closes →
        (mode = 0 ∨ c = ref → Completes .eosTokenTake s (fun t =>
          Fired s t n ks [(0, .data [c])] { o with rows := [], n := 0, m := o.m + 1 })) ∧
        (mode ≠ 0 → c ≠ ref → Completes .eosTokenTake s (fun t => NodeStopped s t 1 10 ks c.toNat)))) ∧
  (0x55 ≤ opc → opc ≤ 0x58 → r.quiet e false = true → s.opsNamed ≠ [] → (∀ k ∈ s.opsNamed, r.opHead e k = some .eos) →
    let n := r.fields e
    let red : Red := if opc = 0x55 then .sum else if opc = 0x56 then .max else if opc = 0x57 then .min else .maxa
    let f := redPair red (nFmt n) (nCtl n)
    (s.myNode.op.n = 0 → Completes .eosTokenTake s (fun t => Ended s t s.opsNamed [])) ∧
    (s.myNode.op.n ≠ 0 → r.outRoom e 2 = true → Completes .eosTokenTake s (fun t => ∃ u,
      Ended s u s.opsNamed [.data ((closeTree f s.myNode.op.win).map (redOut red (nFmt n) (nCtl n)))] ∧
      NodeStep u t [] [] { u.myNode with op := { u.myNode.op with win := [], n := 0 } }))) ∧
  (opc = 0xA4 → r.quiet e false = true → s.opsNamed ≠ [] → (∀ k ∈ s.opsNamed, r.opHead e k = some .eos) →
    let cl := (r.fields e).cfg.toNat % 16
    let v := r.entryCell e
    s.myTenant.classMask.getLsbD cl = true → s.classLeased s.actCue v cl = false → s.hasQuota r.die (r.cell v).site 1 = true →
    r.classDsts cl ≠ [] → (∀ q ∈ r.classDsts cl, 0 < (r.cls cl).credit v q.recv) →
    Completes .eosTokenTake s (fun t => SameMem s t ∧ t.myNode.eos = true ∧ t.myNode.fire = s.myNode.fire ∧
      ∃ p, t.packets = s.packets ++ [p] ∧ p.kind = 1 ∧ p.cls = cl ∧ p.dsts = r.classDsts cl)) ∧
  (∀ i src tag, opc = 0xA5 → r.recvNext (r.fields e) e = (i, some (src, tag, .eos)) → s.myNode.eos = false →
    s.myNode.curt = false → Completes .eosTokenTake s (fun t => SameMem s t ∧ t.myNode.eos = true ∧
      t.myRegion.chans.map (fun ch : Chan => (ch.prod, ch.cons, ch.q)) = r.chans.map (fun ch : Chan =>
        (ch.prod, ch.cons, ch.q ++ givenOn e [(0, .eos), (1, .eos)] ch.prod))))

/-! ### The host's commands -/

/-- R397: a command that reaches a BUSY window is discarded and sets LOST; a window-0 command at another window is DENIED; a
bit that the table does not define gives CUE_FIELD; after a failed FWLOAD nothing but FWLOAD is accepted (R405), and
the RESULT of another command is open but not 0 (DESIGN CHOICE, logs 7 and 8); an
unassigned code is UNKNOWN, and a write of another size is no command. None of these changes anything else. -/
def Obligations.CommandWindow : Prop := ∀ (s : State) (w : Nat) (c : Cmd) (bytes : List Byte), w ≤ 15 →
  (∀ p ∈ cmdForms w c ++ (if bytes.length = 64 then [(.callboardOtherWrite w bytes, [])] else []),
    ((s.win w).isBusy = true → Completes p.1 s (fun t =>
      t.win w = { s.win w with lost := true } ∧ (∀ v, v ≠ w → t.win v = s.win v) ∧ { t with windows := s.windows } = s))) ∧
  (∀ p ∈ cmdForms w c, (s.win w).isBusy = false →
    (s.fwOnly = false → 0x10 ≤ bits c.w0 7 0 → w ≠ 0 → Refuses p.1 s w 2) ∧
    (s.fwOnly = false → (bits c.w0 7 0 < 0x10 ∨ w = 0) → bitsClear c p.2 = false → Refuses p.1 s w 3) ∧
    (s.fwOnly = true → bits c.w0 7 0 ≠ 0x19 → Completes p.1 s (fun t => ∃ res, 1 ≤ res ∧ res ≤ 10 ∧ Reports s t w 2 res ∧
      OnlyStatus s t w ∧ { t with windows := s.windows, free := s.free } = s))) ∧
  (bytes.length ≠ 64 → Completes (.callboardOtherWrite w bytes) s (fun t => t = s)) ∧
  (bytes.length = 64 → (s.win w).isBusy = false → s.fwOnly = false → Refuses (.callboardOtherWrite w bytes) s w 1)

/-- R277 to R281: LAUNCH and CUE accept a FREE cue of the window's tenant, which waits with count PREDS or is READY; a cue that
is not FREE is CUE_BUSY, a cue or successor outside the tenant's range CUE_RANGE. CUEREL lowers the count by one, makes READY
the cue whose count reaches 0, and at 0 changes no cue. -/
def Obligations.CueCommands : Prop := ∀ (s : State) (w : Nat) (c : Cmd),
  let n := cmdCue c
  let ten := ((s.win w).tenant).getD 0
  let own : Prop := w ≠ 0 ∧ (s.win w).tenant.isSome = true ∧ ∀ m ∈ n :: succs c, (s.tenant ten).hasCue m = true
  let j := s.jobFor ten (launchJob c) (launchNjreg c)
  let k := cueKind c
  (CmdReady s w c launchBits → nsucc c ≤ 10 → succsClear c = true → 1 ≤ launchNsreg c → launchNsreg c ≤ launchNjreg c →
    c.w1.toNat % 64 = 0 →
    (own → (s.cue n).st = .free → j.njreg = launchNjreg c → j.launched < j.njreg →
      Completes (.launchCmd w c) s (fun t => CmdDone s t w ∧ OnlyStatus s t w ∧
        Accepted s t n {
          tenant := ten, preds := bits c.w0 43 32, rearm := bits c.w0 60 60 == 1, job := launchJob c,
          lrec := c.w1.toNat, succ := succs c, njreg := launchNjreg c, nsreg := launchNsreg c } ∧
        t.job ten (launchJob c) = { j with launched := j.launched + 1, cues := j.cues ++ [n] } ∧
        { t with windows := s.windows, cues := s.cues, readyQ := s.readyQ, jobs := s.jobs, mem := s.mem } = s)) ∧
    (¬own → Refuses (.launchCmd w c) s w 4) ∧
    (own → (s.cue n).st ≠ .free → Refuses (.launchCmd w c) s w 5)) ∧
  (CmdReady s w c cueBits → 1 ≤ k → k ≤ 3 → 1 ≤ nsucc c → nsucc c ≤ 10 → succsClear c = true → c.w1.toNat % 8 = 0 →
    winOf c.w1.toNat = 0 → cueSplit c ≤ nsucc c → (k = 3 → cueSplit c = 0) → (k ≠ 2 → cueRecount c = 0) →
    (own → (s.cue n).st = .free →
      Completes (.cueCmd w c) s (fun t => CmdDone s t w ∧ OnlyStatus s t w ∧
        Accepted s t n {
          kind := k, tenant := ten, preds := bits c.w0 43 32, addr := c.w1.toNat, succ := succs c,
          split := cueSplit c, recount := cueRecount c } ∧
        { t with windows := s.windows, cues := s.cues, readyQ := s.readyQ, mem := s.mem } = s)) ∧
    (¬own → Refuses (.cueCmd w c) s w 4) ∧
    (own → (s.cue n).st ≠ .free → Refuses (.cueCmd w c) s w 5)) ∧
  (CmdReady s w c [span 19 0] →
    (¬MayName s w n → Refuses (.cuerelCmd w c) s w 4) ∧
    (MayName s w n → (s.cue n).st = .free → Refuses (.cuerelCmd w c) s w 5) ∧
    (MayName s w n → (s.cue n).st ≠ .free → Completes (.cuerelCmd w c) s (fun t => CmdDone s t w ∧
      ((s.cue n).count = 0 → t.cues = s.cues ∧ t.readyQ = s.readyQ) ∧
      (2 ≤ (s.cue n).count → OnlyCue s t n ∧ t.cue n = { s.cue n with count := (s.cue n).count - 1 } ∧ OnlyStatus s t w ∧
        { t with windows := s.windows, cues := s.cues } = s) ∧
      ((s.cue n).count = 1 → OnlyCue s t n ∧ OnlyStatus s t w ∧ EntryShows s t n ∧
        t.cue n = { s.cue n with st := .ready, count := 0, updates := ((s.cue n).updates + 1) % 2 ^ 32, readyAt := s.cyc.toNat } ∧
        t.readyQ = readyInsert t.cues s.cyc.toNat n s.readyQ ∧
        { t with windows := s.windows, cues := s.cues, readyQ := s.readyQ, mem := s.mem } = s))))

/-- R378, R381, R382, R398: CURTAIN and BLACKOUT act on a RUNNING cue, RESUME on a FROZEN one whose die has power and whose
tableau is not STALE, RELEASE on a FROZEN or FAILED one; each is refused otherwise. RELEASE frees the region, and a FAILED
cue becomes FREE. -/
def Obligations.RegionCommands : Prop := ∀ (s : State) (w : Nat) (c : Cmd),
  let n := cmdCue c
  let r := s.region n
  CmdReady s w c cmdBits →
  (∀ i ∈ ([.curtainCmd w c, .blackoutCmd w c, .resumeCmd w c, .releaseCmd w c] : List Instr),
    ¬MayName s w n → Refuses i s w 4) ∧
  (MayName s w n →
    ((s.cue n).st ≠ .running → Refuses (.curtainCmd w c) s w 6 ∧ Refuses (.blackoutCmd w c) s w 6) ∧
    (r.freeze.isSome = true → Refuses (.curtainCmd w c) s w 6) ∧
    ((s.cue n).st ≠ .frozen → Refuses (.resumeCmd w c) s w 6) ∧
    ((s.die r.die).power.dead = true → Refuses (.resumeCmd w c) s w 6) ∧
    ((s.cue n).st = .frozen → (s.die r.die).power.dead = false → s.tableauStale n = true → Refuses (.resumeCmd w c) s w 8) ∧
    ((s.cue n).st ≠ .frozen → (s.cue n).st ≠ .failed → Refuses (.releaseCmd w c) s w 6) ∧
    ((s.cue n).st = .running → r.freeze = none →
      Completes (.curtainCmd w c) s (fun t =>
        (t.region n).curtain = true ∧ (r.curtain = true → t.region n = r) ∧
        (r.curtain = false → t.region n = { r with curtain := true, curtFrames := 0 }) ∧
        (∀ d, d ≠ n → t.region d = s.region d) ∧ OnlyStatus s t w ∧
        (t.curtainEntered n = true → CmdDone s t w) ∧ (t.curtainEntered n = false → CmdBusy (.curtainCmd w c) s t w) ∧
        { t with windows := s.windows, regions := s.regions } = s) ∧
      Completes (.blackoutCmd w c) s (fun t => CmdDone s t w ∧ OnlyStatus s t w ∧
        (∃ f, t.region n = { r with freeze := some f } ∧ f.t0 = s.cyc.toNat ∧ f.start = 0 ∧ f.kind = 1 ∧
          bits f.incident.w0 7 0 = 7) ∧
        (∀ d, d ≠ n → t.region d = s.region d) ∧ t.due = s.due ++ [(.blackoutWaveArrive, .cell n 0)] ∧
        { t with windows := s.windows, regions := s.regions, due := s.due } = s)) ∧
    ((s.cue n).st = .frozen → (s.die r.die).power.dead = false → s.tableauStale n = false →
      Completes (.resumeCmd w c) s (fun t => CmdDone s t w ∧ (t.cue n).st = .running ∧ OnlyCue s t n ∧
        (t.region n).tableau = none ∧ (t.region n).frozen = false ∧ (t.region n).holdCount = 0 ∧
        ((r.tkind ≠ 0 ∨ r.tcurt = true) → r.accs = [] → r.parkedFly = [] → r.parkedWings = [] →
          (t.region n).freeze = none ∧ (t.region n).curtain = r.tcurt ∧ (t.region n).nodes = r.nodes ∧
          ∀ v k, (t.region n).slot v k = (r.slot v k).resume))) ∧
    ((s.cue n).st = .frozen → Completes (.releaseCmd w c) s (fun t => CmdDone s t w ∧ (t.cue n).st = .free ∧ OnlyCue s t n ∧
      Tab.has t.regions n = false ∧ ∀ d, d ≠ n → t.region d = s.region d)) ∧
    ((s.cue n).st = .failed → Completes (.releaseCmd w c) s (fun t => CmdDone s t w ∧ OnlyStatus s t w ∧ EntryShows s t n ∧
      t.cue n = { s.cue n with st := .free, updates := ((s.cue n).updates + 1) % 2 ^ 32 } ∧ OnlyCue s t n ∧
      { t with windows := s.windows, cues := s.cues, mem := s.mem } = s)))

/-- R333, R398: REPLACE of a FROZEN region packs, maps and routes it from the anchor; where that fails the record stands in
the cue's entry and the region stays FROZEN, else the region runs on the die named. It waits while that die's engine places
another region, and while its mask is out of reach (R402). The order of the refusals is the model's reading (DEDUCED, log 16). -/
def Obligations.ReplaceCommand : Prop := ∀ (s : State) (w : Nat) (c : Cmd),
  let n := cmdCue c
  let d := replaceDie c
  let anchor := serp (replaceX c) (replaceY c)
  let fieldOk : Prop := cellColumn (replaceX c) = true ∧ replaceY c ≤ 23 ∧ (c.w1 = 0 ∨ hostBuf c.w1.toNat 72 = true)
  let named : Prop := MayName s w n ∧ s.dieInRange w d = true
  let able : Prop := (s.cue n).st = .frozen ∧ (s.region n).tableau.isSome = true ∧ (s.die d).power.dead = false
  let waits : Prop := (s.die d).placing.isSome = true ∨ (c.w1 ≠ 0 ∧ s.inReach c.w1.toNat 72 = false)
  CmdReady s w c replaceBits →
  (¬fieldOk → Refuses (.replaceCmd w c) s w 3) ∧
  (fieldOk → ¬named → Refuses (.replaceCmd w c) s w 4) ∧
  (fieldOk → named → ¬able → Refuses (.replaceCmd w c) s w 6) ∧
  (fieldOk → named → able → (s.tableauPower n).dead = true → Refuses (.replaceCmd w c) s w 9) ∧
  (fieldOk → named → able → (s.tableauPower n).dead = false → s.tableauStale n = true → Refuses (.replaceCmd w c) s w 8) ∧
  (fieldOk → named → able → (s.tableauPower n).dead = false → s.tableauStale n = false →
    (waits → Completes (.replaceCmd w c) s (fun t =>
      CmdBusy (.replaceCmd w c) s t w ∧ OnlyStatus s t w ∧ { t with windows := s.windows } = s)) ∧
    (¬waits →
      (∀ p, s.replan n d anchor c.w1.toNat = .error p → Completes (.replaceCmd w c) s (fun t => CmdDone s t w ∧
        (t.win w).record = p.words d ∧ (t.cue n).st = .frozen ∧ (t.cue n).failure = p.words d ∧ OnlyCue s t n ∧
        t.regions = s.regions)) ∧
      (∀ r, s.replan n d anchor c.w1.toNat = .ok r → Completes (.replaceCmd w c) s (fun t => CmdDone s t w ∧
        (t.cue n).st = .running ∧ OnlyCue s t n ∧ (t.region n).die = r.die ∧ (t.region n).tableau = none ∧
        ∀ m, m ≠ n → t.region m = s.region m))))

/-- R257, R385, R386, R400, R402, R407, R432: UNLOAD is deferred with PINNED while a tableau names the object, and with FORCE
unloads at once and makes those tableaux STALE; TLBINV drops every cached translation of the range, and where no access waits
that is all it does; DEBUG writes 64 bytes of the region's tableau, or of its live state laid out the same (logs 7 and 17), waits
while the stacks that hold them are DARK, and is refused while they are OFF; INCQ starts an empty ring; ATTEST writes the quote.
Each stays BUSY while a buffer it names is out of reach (DEDUCED, log 20); the order of the refusals, and CUE_RANGE for a window
with no tenant, are the model's reading (DEDUCED, log 16). -/
def Obligations.ObjectCommands : Prop := ∀ (s : State) (w : Nat) (c : Cmd) (ten : Nat),
  let q := s.tenant ten
  let image := c.w1.toNat
  let n := cmdCue c
  let lg := bits c.w0 12 8
  let pinned := q.tableaux.any (fun p => p.2.2.2.1.contains image)
  let reached : Prop := ∀ p ∈ q.tableaux, p.2.2.2.1.contains image = true → s.inReach p.1 8 = true
  let waits (i : Instr) : Prop :=
    Completes i s (fun t => CmdBusy i s t w ∧ OnlyStatus s t w ∧ { t with windows := s.windows } = s)
  let onlyTen (t : State) : Prop := (∀ k, k ≠ ten → t.tenant k = s.tenant k) ∧ OnlyStatus s t w
  let aligned : Prop := c.w1.toNat % 65536 = 0 ∧ c.w2.toNat % 65536 = 0
  ((s.win w).tenant = some ten → CmdReady s w c unloadBits →
    (pinned = true → Completes (.unloadCmd w c) s (fun t => Reports s t w 2 7 ∧ onlyTen t ∧
      t.tenant ten = { q with deferred := q.deferred.erase image ++ [image] } ∧
      { t with windows := s.windows, tenants := s.tenants } = s)) ∧
    (pinned = false → Completes (.unloadCmd w c) s (fun t => CmdDone s t w ∧ onlyTen t ∧
      t.tenant ten = { q with unloaded := q.unloaded ++ [image], deferred := q.deferred.erase image } ∧
      { t with windows := s.windows, tenants := s.tenants } = s)) ∧
    (reached → Completes (.unloadForceCmd w c) s (fun t => CmdDone s t w ∧ onlyTen t ∧
      t.tenant ten = { q with unloaded := q.unloaded ++ [image], deferred := q.deferred.erase image,
                              tableaux := q.tableaux.map (staleEntry image) } ∧
      (∀ p ∈ (t.tenant ten).tableaux, p.2.2.2.1.contains image = true → p.2.2.1 = true) ∧
      (∀ x, (∀ p ∈ q.tableaux, p.2.2.2.1.contains image = true → x < p.1 ∨ p.1 + 8 ≤ x) → memGet t.mem x = memGet s.mem x) ∧
      { t with windows := s.windows, tenants := s.tenants, mem := s.mem } = s)) ∧
    (¬reached → waits (.unloadForceCmd w c))) ∧
  ((s.win w).tenant = none → CmdReady s w c unloadBits →
    Refuses (.unloadCmd w c) s w 4 ∧ Refuses (.unloadForceCmd w c) s w 4) ∧
  (CmdReady s w c [span 7 0, allBits, allBits] →
    (¬aligned → Refuses (.tlbinvCmd w c) s w 3) ∧
    (aligned → (w = 0 ∨ (s.win w).tenant = some ten) →
      let who : Option Nat := if w = 0 then none else some ten
      Completes (.tlbinvCmd w c) s (fun t => CmdDone s t w ∧
        ((∀ p ∈ s.regions, (s.region p.1).translated = [] ∧ (s.region p.1).pend = []) →
          (∀ f ∈ s.fetches, f.served = true ∨ f.space ≠ 0) → OnlyStatus s t w ∧
          (∀ e ∈ t.tlb, (w = 0 ∨ e.tenant = ten) → e.va + e.size ≤ c.w1.toNat ∨ c.w1.toNat + c.w2.toNat ≤ e.va) ∧
          t.tlb = s.tlb.filter (fun e => !e.meets who c.w1.toNat c.w2.toNat) ∧
          { t with windows := s.windows, tlb := s.tlb } = s)))) ∧
  (CmdReady s w c [span 19 0, allBits, allBits] → MayName s w n → hostBuf c.w2.toNat 64 = true →
    (Tab.has s.regions n = false → Refuses (.debugCmd w c) s w 6) ∧
    (Tab.has s.regions n = true → s.debugPower n c.w1.toNat = .off → Refuses (.debugCmd w c) s w 9) ∧
    (Tab.has s.regions n = true → s.debugPower n c.w1.toNat ≠ .off →
      (s.debugPower n c.w1.toNat = .dark ∨ s.inReach c.w2.toNat 64 = false) → waits (.debugCmd w c)) ∧
    (Tab.has s.regions n = true → (s.debugPower n c.w1.toNat).dead = false → s.inReach c.w2.toNat 64 = true → Completes (.debugCmd w c) s (fun t =>
      CmdDone s t w ∧ OnlyStatus s t w ∧ Written s t [(c.w2.toNat, s.debugBytes n c.w1.toNat)] ∧
      (∀ a len, (s.region n).tableau = some (a, len) → c.w1.toNat + 64 ≤ len →
        t.read c.w2.toNat 64 = s.read (a + c.w1.toNat) 64) ∧
      { t with windows := s.windows, mem := s.mem, free := s.free } = s))) ∧
  (CmdReady s w c [span 12 0, allBits] →
    let fits : Prop := 4 ≤ lg ∧ lg ≤ 20 ∧ c.w1.toNat % 64 = 0 ∧ hostBuf c.w1.toNat (64 + 64 * 2 ^ lg) = true
    (¬fits → Refuses (.incqCmd w c) s w 3) ∧
    (fits → s.inReach c.w1.toNat (64 + 64 * 2 ^ lg) = false → waits (.incqCmd w c)) ∧
    (fits → s.inReach c.w1.toNat (64 + 64 * 2 ^ lg) = true → Completes (.incqCmd w c) s (fun t => CmdDone s t w ∧ (t.win w).ring = some (c.w1.toNat, lg) ∧
      (∀ v, v ≠ w → t.win v = s.win v) ∧
      ((s.win w).held = [] → (t.win w).prod = 0 ∧ (t.win w).dropped = 0 ∧
        Written s t [(c.w1.toNat, List.replicate 8 0)]) ∧
      { t with windows := s.windows, mem := s.mem } = s))) ∧
  (CmdReady s w c [span 19 0, allBits, allBits] → hostBuf c.w1.toNat 32 = true → hostBuf c.w2.toNat 384 = true →
    ((w = 0 ∨ ¬MayName s w n) → Refuses (.attestCmd w c) s w 4) ∧
    (w ≠ 0 → MayName s w n → (s.cue n).st ≠ .running → (s.cue n).st ≠ .frozen → Refuses (.attestCmd w c) s w 6) ∧
    (w ≠ 0 → MayName s w n → ((s.cue n).st = .running ∨ (s.cue n).st = .frozen) →
      ¬(s.inReach c.w1.toNat 32 = true ∧ s.inReach c.w2.toNat 384 = true) → waits (.attestCmd w c)) ∧
    (w ≠ 0 → MayName s w n → ((s.cue n).st = .running ∨ (s.cue n).st = .frozen) →
      s.inReach c.w1.toNat 32 = true → s.inReach c.w2.toNat 384 = true → Completes (.attestCmd w c) s (fun t =>
      CmdDone s t w ∧ OnlyStatus s t w ∧ Written s t [(c.w2.toNat, s.quote n (s.read c.w1.toNat 32))] ∧
      { t with windows := s.windows, mem := s.mem } = s)))

/-- R290, R353, R354, R428: TENANT binds a tenant whose fields are in their limits and share nothing with another; SHARE, LEAVE
and QUOTA stay BUSY with their value until the next frame boundary, and change no value in use. -/
def Obligations.TenantCommands : Prop := ∀ (s : State) (c : Cmd),
  let ten := cmdTen c
  let old := s.tenant ten
  let new := bindingOf c old
  let w := tenantWin c
  let d := cmdDie c
  let fits : Prop := new.wellBound = true ∧ ∀ p ∈ s.tenants, p.1 ≠ ten → p.2.bound = true → p.2.overlaps new = false
  let free : Prop := (s.winOther ten w).all (fun o => !s.tenantBusy o) = true
  (CmdReady s 0 c tenantBits →
    (¬fits → Refuses (.tenantCmd 0 c) s 0 3) ∧
    (fits → old.bound = true → s.tenantBusy ten = true → new.raisedFrom old = false → Refuses (.tenantCmd 0 c) s 0 6) ∧
    (fits → (old.bound = false ∨ s.tenantBusy ten = false) → ¬free → Refuses (.tenantCmd 0 c) s 0 6) ∧
    (fits → free → (old.bound = false ∨ (s.tenantBusy ten = false ∧ new.raisedFrom old = false)) →
      Completes (.tenantCmd 0 c) s (fun t => CmdDone s t 0 ∧ t.tenant ten = new ∧ (t.win w).tenant = some ten ∧
        (∀ k, k ≠ ten → s.winOther ten w ≠ some k → t.tenant k = s.tenant k) ∧
        (∀ k, s.winOther ten w = some k → t.tenant k = { s.tenant k with win := none }) ∧
        (∀ v, old.win = some v → v ≠ w → (t.win v).tenant = none) ∧
        (∀ v, v ≠ 0 → v ≠ w → old.win ≠ some v → t.win v = s.win v) ∧
        { t with windows := s.windows, tenants := s.tenants } = s)) ∧
    (fits → free → old.bound = true → new.raisedFrom old = true → Completes (.tenantCmd 0 c) s (fun t => CmdDone s t 0 ∧
      OnlyStatus s t 0 ∧ t.tenant ten = { old with arenaLen := c.w4.toNat } ∧ (∀ k, k ≠ ten → t.tenant k = s.tenant k) ∧
      { t with windows := s.windows, tenants := s.tenants, due := s.due } = s))) ∧
  (CmdReady s 0 c [span 13 0, allBits] →
    (shareOk c.w1.toNat = false → Refuses (.shareCmd 0 c) s 0 3) ∧
    (shareOk c.w1.toNat = true → Completes (.shareCmd 0 c) s (fun t => CmdBusy (.shareCmd 0 c) s t 0 ∧ OnlyStatus s t 0 ∧
      t.tenant ten = { old with sharePending := some c.w1.toNat } ∧ (∀ k, k ≠ ten → t.tenant k = s.tenant k) ∧
      { t with windows := s.windows, tenants := s.tenants } = s))) ∧
  (CmdReady s 0 c [span 9 0, span 15 0] →
    Completes (.leaveCmd 0 c) s (fun t => CmdBusy (.leaveCmd 0 c) s t 0 ∧ OnlyStatus s t 0 ∧
      t.die d = { s.die d with lbPending := some (bits c.w1 15 0) } ∧ (∀ k, k ≠ d → t.die k = s.die k) ∧
      { t with windows := s.windows, dies := s.dies } = s) ∧
    (c.w1 = 0 → Refuses (.quotaCmd 0 c) s 0 3) ∧
    (c.w1 ≠ 0 → Completes (.quotaCmd 0 c) s (fun t => CmdBusy (.quotaCmd 0 c) s t 0 ∧ OnlyStatus s t 0 ∧
      t.die d = { s.die d with fqPending := some (bits c.w1 15 0) } ∧ (∀ k, k ≠ d → t.die k = s.die k) ∧
      { t with windows := s.windows, dies := s.dies } = s)))

/-- R262, R332, R394, R401, R405: SOUND changes one bit of a die's map or none, and writes the map where the command names a
buffer and once that is in reach (log 20); EVICT and PODMAP set their registers; FWLOAD of a signed image no older than the fused counter takes it, and otherwise
reports SIG and leaves only FWLOAD; POWER starts a transition, and is DONE at once where the state holds. -/
def Obligations.PackageCommands : Prop := ∀ (s : State) (c : Cmd),
  let d := cmdDie c
  let k := bits c.w0 11 8
  let idx := bits c.w0 25 16
  let map' := setBit (s.die d).sound idx (bits c.w0 26 26 == 1)
  let buf : Prop := c.w1 = 0 ∨ hostBuf c.w1.toNat 72 = true
  let reach : Prop := c.w1 = 0 ∨ s.inReach c.w1.toNat 72 = true
  let waits (i : Instr) : Prop :=
    Completes i s (fun t => CmdBusy i s t 0 ∧ OnlyStatus s t 0 ∧ { t with windows := s.windows } = s)
  let mapWritten (t : State) : Prop :=
    if c.w1 = 0 then SameMem s t else Written s t [(c.w1.toNat, soundBytes (t.die d).sound)]
  let img := s.read c.w1.toNat c.w2.toNat
  let start (i : Instr) (p : Power) : Prop :=
    ((s.die d).power = p → Completes i s (fun t =>
      CmdDone s t 0 ∧ OnlyStatus s t 0 ∧ { t with windows := s.windows } = s)) ∧
    ((s.die d).power ≠ p → Completes i s (fun t => CmdBusy i s t 0 ∧ OnlyStatus s t 0 ∧
      t.die d = { s.die d with target := some p, moving := false } ∧ (∀ j, j ≠ d → t.die j = s.die j) ∧
      { t with windows := s.windows, dies := s.dies } = s))
  (CmdReady s 0 c soundBits →
    ((576 ≤ idx ∨ ¬buf) → Refuses (.soundSetCmd 0 c) s 0 3 ∧ Refuses (.soundQueryCmd 0 c) s 0 3) ∧
    (idx ≤ 575 → buf → ¬reach → waits (.soundSetCmd 0 c) ∧ waits (.soundQueryCmd 0 c)) ∧
    (idx ≤ 575 → buf → reach →
      Completes (.soundSetCmd 0 c) s (fun t => CmdDone s t 0 ∧ OnlyStatus s t 0 ∧ t.die d = { s.die d with sound := map' } ∧
        (t.die d).sound.getLsbD idx = (bits c.w0 26 26 == 1) ∧
        (∀ j, j < 576 → j ≠ idx → (t.die d).sound.getLsbD j = (s.die d).sound.getLsbD j) ∧
        (∀ j, j ≠ d → t.die j = s.die j) ∧ mapWritten t ∧
        { t with windows := s.windows, dies := s.dies, mem := s.mem } = s) ∧
      Completes (.soundQueryCmd 0 c) s (fun t => CmdDone s t 0 ∧ OnlyStatus s t 0 ∧ mapWritten t ∧
        { t with windows := s.windows, mem := s.mem } = s))) ∧
  (CmdReady s 0 c [span 11 0, allBits, allBits] →
    ((12 ≤ k ∨ hostBuf c.w2.toNat 8 = false) → Refuses (.evictCmd 0 c) s 0 3) ∧
    (k ≤ 11 → hostBuf c.w2.toNat 8 = true → Completes (.evictCmd 0 c) s (fun t => CmdDone s t 0 ∧ OnlyStatus s t 0 ∧
      t.wing k = { s.wing k with evlow := c.w1.toNat, freeList := c.w2.toNat, stuck := false } ∧
      (∀ j, j ≠ k → t.wing j = s.wing j) ∧ { t with windows := s.windows, wings := s.wings } = s))) ∧
  (CmdReady s 0 c [span 17 0, allBits] → Completes (.podmapCmd 0 c) s (fun t => CmdDone s t 0 ∧ OnlyStatus s t 0 ∧
    (∀ p, Tab.get t.podmap p 0 = if p = bits c.w0 17 8 then c.w1 else Tab.get s.podmap p 0) ∧
    { t with windows := s.windows, podmap := s.podmap } = s)) ∧
  ((s.win 0).isBusy = false → bits c.w0 7 0 = 0x19 → bitsClear c [span 7 0, allBits, allBits] = true →
    (hostBuf c.w1.toNat c.w2.toNat = false → Refuses (.fwloadCmd 0 c) s 0 3) ∧
    (hostBuf c.w1.toNat c.w2.toNat = true →
      ((∃ p ∈ s.cues, p.2.st ≠ .free) → Refuses (.fwloadCmd 0 c) s 0 6) ∧
      ((∀ p ∈ s.cues, p.2.st = .free) → s.inReach c.w1.toNat c.w2.toNat = false → waits (.fwloadCmd 0 c)) ∧
      ((∀ p ∈ s.cues, p.2.st = .free) → s.inReach c.w1.toNat c.w2.toNat = true →
        Completes (.fwloadCmd 0 c) s (fun t => OnlyStatus s t 0 ∧
          if Config.fwSigned img = true ∧ s.fwVersion ≤ Config.fwVersion img then
            CmdDone s t 0 ∧ t.fwDigest = sha384 img ∧ t.fwOnly = false ∧
            { t with windows := s.windows, fwDigest := s.fwDigest, fwOnly := s.fwOnly } = s
          else
            Reports s t 0 2 10 ∧ t.fwOnly = true ∧ { t with windows := s.windows, fwOnly := s.fwOnly } = s)))) ∧
  (CmdReady s 0 c powerBits →
    (6 ≤ bits c.w0 14 12 → Refuses (.powerRunningCmd 0 c) s 0 3) ∧
    ((s.die d).tripped = true → bits c.w0 14 12 ≤ 5 → Refuses (.powerRunningCmd 0 c) s 0 6) ∧
    ((s.die d).tripped = true → Refuses (.powerDarkCmd 0 c) s 0 6 ∧ Refuses (.powerOffCmd 0 c) s 0 6) ∧
    ((∃ p ∈ s.regions, p.2.die = d) → Refuses (.powerOffCmd 0 c) s 0 6) ∧
    ((s.die d).tripped = false →
      (∀ j p, (j, p) ∈ [(0, Power.full), (1, .even), (2, .low), (3, .dim)] → bits c.w0 14 12 = j →
        start (.powerRunningCmd 0 c) p) ∧
      start (.powerDarkCmd 0 c) .dark ∧
      ((∀ p ∈ s.regions, p.2.die ≠ d) → start (.powerOffCmd 0 c) .off)))

/-- R404: CHECKPOINT saves every byte of HBM and SRAM to its striped place from OFFSET in the memory tier, and restores it
from there; no other byte of memory changes, the register images of frozen regions, which
stand in their pools (R19) as log 17 lays them out (DESIGN CHOICE), aside. It is refused while a cue is not FREE, FROZEN or FAILED or a die is OFF. -/
def Obligations.CheckpointCommands : Prop := ∀ (s : State) (c : Cmd),
  let off := c.w1.toNat
  let fits : Prop := off % 2 ^ 21 = 0 ∧ off + portBytes ≤ 2 ^ 41
  let still : Prop := (∀ p ∈ s.cues, p.2.st = .free ∨ p.2.st = .frozen ∨ p.2.st = .failed) ∧
    ∀ p ∈ s.dies, p.2.power ≠ .off
  let u := s.imagesToPools
  CmdReady s 0 c ckptBits →
  (¬fits → Refuses (.checkpointSaveCmd 0 c) s 0 3 ∧ Refuses (.checkpointRestoreCmd 0 c) s 0 3) ∧
  (fits → ¬still → Refuses (.checkpointSaveCmd 0 c) s 0 6 ∧ Refuses (.checkpointRestoreCmd 0 c) s 0 6) ∧
  (fits → still → s.memOk →
    Completes (.checkpointSaveCmd 0 c) s (fun t => CmdDone s t 0 ∧ OnlyStatus s t 0 ∧
      (∀ b, b < imageBytes → memGet t.mem (stripeKey off b) = memGet u.mem (imageKey b)) ∧
      (∀ x, (∀ b, b < imageBytes → x ≠ stripeKey off b) → memGet t.mem x = memGet u.mem x) ∧
      { t with windows := s.windows, mem := s.mem } = s) ∧
    Completes (.checkpointRestoreCmd 0 c) s (fun t => CmdDone s t 0 ∧ OnlyStatus s t 0 ∧
      (∀ b, b < imageBytes → memGet t.mem (imageKey b) = memGet s.mem (stripeKey off b)) ∧
      (∀ x, (∀ b, b < imageBytes → x ≠ imageKey b) → memGet t.mem x = memGet s.mem x) ∧
      { t with windows := s.windows, mem := s.mem, regions := s.regions } = s))

/-! ### The engines at work -/

/-- R300, R302, R408, R426: the head of a Fly engine's queue starts in a tick after it queued, unless an earlier own-engine command
of its agent is queued at another engine or the die stands still; a piece is read and then written, each as one bucket request,
and an access whose page does not translate holds the command (R299); when every byte is written the tiles the command names flip
to fabric/1, unless a node or slot has flipped one in this tick (DEDUCED, log 25), the flag is stored and the command goes; a promise that
CYC has reached is renewed. -/
def Obligations.FlyEngine : Prop := ∀ (s : State) (e : Nat) (f : FlyCmd) (rest : List FlyCmd),
  let r := s.region f.cue
  let now := s.cyc.toNat
  let put (u : State) (g : FlyCmd) : FlyEng := { q := (u.fly e).q.map (fun h : FlyCmd => if h.seq = g.seq then g else h) }
  let only (u t : State) : Prop := (∀ j, j ≠ e → t.fly j = u.fly j) ∧ { t with flys := u.flys } = u
  let stops (u t : State) (g : FlyCmd) : Prop := t.fly e = put u { g with stopped := true } ∧
    (t.region f.cue).freeze.isSome = true ∧ SameMem u t
  let heldBack : Prop := f.own = true ∧ ∃ p ∈ s.flys, p.1 ≠ e ∧ ∃ g ∈ p.2.q, g.own = true ∧ g.cue = f.cue ∧
    g.vcell = f.vcell ∧ g.task = f.task ∧ g.agent = f.agent ∧ g.seq < f.seq
  let dead := (s.die (e / 16)).power.dead
  let moving : Prop := f.started = true ∧ f.stopped = false ∧ f.withheld = none
  let row := f.done / flyLen f.c
  let off := f.done % flyLen f.c
  let src := (rowStart f.c.w1 (flySs f.c) row).toNat + off
  let dst := (rowStart f.c.w2 (flyDs f.c) row).toNat + off
  let n := min (64 - src % 64) (flyLen f.c - off)
  let tiles := flyTiles r f.c
  let ended : Prop := f.done = flyBytes f.c ∧ f.piece = none
  let late : Prop := f.flipped = false ∧ r.flipsLate now f.vcell tiles = true
  let w : State := if f.flipped then s else s.setRegion f.cue (r.flipTiles now f.vcell tiles)
  let gone (t : State) : Prop := (t.fly e).q = (s.fly e).q.filter (fun g => g.seq != f.seq)
  s.actor = .fly e →
  (Completes .flyPromiseExpiry s (fun t => only s t ∧ (t.fly e).q = (s.fly e).q.map (fun g : FlyCmd =>
    if g.promise ≤ now then
      { g with promise := now + 64 + (flyBytes g.c - g.done + g.reff - 1) / g.reff, late := true } else g))) ∧
  ((s.fly e).q = f :: rest →
    (f.started = false → dead = false → ¬heldBack → f.made < now →
      Completes .flyCommandStart s (fun t => only s t ∧ t.fly e = put s { f with started := true })) ∧
    ((f.started = true ∨ dead = true ∨ heldBack ∨ now ≤ f.made) → Completes .flyCommandStart s (fun t => t = s)) ∧
    (moving → dead = false → f.done < flyBytes f.c →
      (f.piece = none → Completes .flyPiece s (fun t =>
        (∀ segs u v, s.flyReach f src n false = (.ok segs, u) → u.draw r.tenant (.fly e) [n] = (true, v) →
          only v t ∧ t.fly e = put v { f with piece := some (v.readSegs segs) }) ∧
        (∀ segs u v, s.flyReach f src n false = (.ok segs, u) → u.draw r.tenant (.fly e) [n] = (false, v) → t = v) ∧
        (∀ va cause u, s.flyReach f src n false = (.miss va cause, u) → only u t ∧ t.fly e = put u (f.hold now va cause)) ∧
        (∀ x right u, s.flyReach f src n false = (.viol x right, u) → stops u t f))) ∧
      (∀ bs, f.piece = some bs → Completes .flyPiece s (fun t =>
        (∀ segs u v, s.flyReach f dst n true = (.ok segs, u) → u.draw r.tenant (.fly e) [n] = (true, v) →
          Written v t (splitSegs segs bs) ∧ t.fly e = put v { f with piece := none, done := f.done + n } ∧
          t.regions = v.regions) ∧
        (∀ segs u v, s.flyReach f dst n true = (.ok segs, u) → u.draw r.tenant (.fly e) [n] = (false, v) → t = v) ∧
        (∀ va cause u, s.flyReach f dst n true = (.miss va cause, u) → only u t ∧ t.fly e = put u (f.hold now va cause)) ∧
        (∀ x right u, s.flyReach f dst n true = (.viol x right, u) → stops u t f)))) ∧
    ((¬moving ∨ dead = true ∨ flyBytes f.c ≤ f.done) → Completes .flyPiece s (fun t => t = s)) ∧
    (moving → ended → ¬late → Completes .flyCommandComplete s (fun t =>
      (f.flipped = false → (∀ k ∈ tiles, ((w.region f.cue).cell f.vcell).tag k = 1) ∧
        ∀ k, k ∉ tiles → ((w.region f.cue).cell f.vcell).tag k = (r.cell f.vcell).tag k) ∧
      (f.c.w6 = 0 → only w t ∧ gone t) ∧
      (f.c.w6 ≠ 0 →
        let flag := w.flagReach (sliceOf r.die (r.cell f.vcell).site) r.tenant r.die f.c.w6.toNat
        (∀ segs u, flag = (.ok segs, u) →
          Written u t (splitSegs segs (bytesOf 8 f.c.w7.toNat)) ∧ t.regions = w.regions ∧ gone t) ∧
        (∀ va cause u, flag = (.miss va cause, u) →
          only u t ∧ t.fly e = put u ({ f with flipped := true : FlyCmd }.hold now va cause)) ∧
        (∀ x right u, flag = (.viol x right, u) → stops u t { f with flipped := true })))) ∧
    ((¬moving ∨ ¬ended ∨ late) → Completes .flyCommandComplete s (fun t => t = s)))

/-- R305, R416, R429: a free engine takes the first block it may run of the 16 that its queue holds (those that wait behind it are in
no queue yet, log 12), in a tick after the block queued. A piece is one bucket
request: REDUCE reads its buffers and writes one piece of sums; GATHER reads its indices and moves an element, an index beyond
the table stops it or gives zeros; MVM reaches the page of its weights, reads X and the weights, computes, and writes Y. An access
whose page does not translate holds the block, one that breaks a right stops it (R375), and weight pages of mixed format end it with status 2 (DESIGN CHOICE, log 13).
R300, R308: at the end the tiles flip, unless one has been flipped in this tick (DEDUCED, log 25),
the flag is stored and the block goes. -/
def Obligations.WingsEngine : Prop := ∀ (s : State) (k e : Nat) (w : WBlk),
  let u := s.wing k
  let now := s.cyc.toNat
  let b := w.words
  let r := s.region w.cue
  let op (x : WBlk) : Nat := blkOp x.words
  let put (v t : State) (x : WBlk) : Prop :=
    t.wing k = { v.wing k with running := Tab.set (v.wing k).running e x } ∧ ∀ j, j ≠ k → t.wing j = v.wing j
  let reach (va n : Nat) (wr : Bool) : Reach × State := s.reach (wingsUnit k) r.tenant (dieOfStack k) va n (!wr) wr
  let access (va n : Nat) (wr : Bool) (segs : List Seg) (v : State) : Prop :=
    ∃ v1, reach va n wr = (.ok segs, v1) ∧ v1.draw r.tenant (.wings k e) [n] = (true, v)
  let holds (va n : Nat) (wr : Bool) (t : State) : Prop :=
    (∀ a cause v, reach va n wr = (.miss a cause, v) → put v t (w.hold now a cause) ∧ SameMem v t) ∧
    (∀ x right v, reach va n wr = (.viol x right, v) → put v t { w with stopped := true } ∧
      (t.region w.cue).freeze.isSome = true ∧ SameMem v t)
  let runs : Prop := Tab.has u.running e = true ∧ (∀ d, Tab.get u.running e d = w) ∧ w.stopped = false ∧ w.withheld = none
  let n := min 64 (redLen b - w.pos)
  let i := w.pos
  let sz := gatSize b
  let idx := natOf ((w.buf.drop (4 * (i % 16))).take 4)
  let wb := (blkW b 3).toNat
  let flipped : State := if w.flipped || w.call then s else s.setRegion w.cue (r.flipTiles now w.vcell (blkTiles b))
  s.actor = .wings k e → s.wingsStopped k = false →
  (Tab.has u.running e = false →
    let starts (q : State → Prop) : Prop :=
      (w.made < now → Completes .wingsBlockStart s (fun t => { t with wings := s.wings } = s ∧
        (∀ j, j ≠ k → t.wing j = s.wing j) ∧ q t)) ∧
      (now ≤ w.made → Completes .wingsBlockStart s (fun t => t = s))
    (e = 0 → ∀ rest, u.qm = w :: rest → starts (fun t => t.wing k = { u with qm := rest, running := Tab.set u.running 0 w })) ∧
    ((e = 1 ∨ (2 ≤ e ∧ e ≤ 5 ∧ ∀ j, 2 ≤ j → j < e → Tab.has u.running j = true)) →
      ∀ before after, u.qs = before ++ w :: after → op w = (if e = 1 then 2 else 3) → (∀ x ∈ before, op x ≠ op w) →
      (before.length < 16 → starts (fun t => t.wing k = { u with qs := before ++ after, running := Tab.set u.running e w })) ∧
      (16 ≤ before.length → Completes .wingsBlockStart s (fun t => t = s)))) ∧
  (runs → w.finished = false →
    (op w = 2 → Completes .wingsPiece s (fun t =>
      (w.buf.length / n < redNbuf b → holds (redBuf b (w.buf.length / n) + w.pos) n false t ∧
        ∀ segs v, access (redBuf b (w.buf.length / n) + w.pos) n false segs v →
          put v t { w with buf := w.buf ++ v.readSegs segs } ∧ SameMem v t) ∧
      (redNbuf b ≤ w.buf.length / n → holds ((blkW b 4).toNat + w.pos) n true t ∧
        ∀ segs v, access ((blkW b 4).toNat + w.pos) n true segs v →
          put v t { w with pos := w.pos + n, buf := [], finished := decide (redLen b ≤ w.pos + n) } ∧
          Written v t (splitSegs segs (reducePiece (redFmt b) (redNbuf b) n w.buf))))) ∧
    (op w = 3 → Completes .wingsPiece s (fun t =>
      (i % 16 = 0 → w.buf = [] → holds ((blkW b 3).toNat + 4 * i) (4 * min 16 (gatCount b - i)) false t ∧
        ∀ segs v, access ((blkW b 3).toNat + 4 * i) (4 * min 16 (gatCount b - i)) false segs v →
          put v t { w with buf := v.readSegs segs } ∧ SameMem v t) ∧
      ((i % 16 ≠ 0 ∨ w.buf ≠ []) →
        (w.held = none → gatNidx b ≤ idx → gatOob b = 0 → put s t { w with status := 5, finished := true } ∧ SameMem s t) ∧
        (w.held = none → gatNidx b ≤ idx → gatOob b ≠ 0 → put s t { w with held := some (List.replicate sz 0) } ∧ SameMem s t) ∧
        (w.held = none → idx < gatNidx b → holds ((blkW b 5).toNat + idx * (blkW b 6).toNat) sz false t ∧
          ∀ segs v, access ((blkW b 5).toNat + idx * (blkW b 6).toNat) sz false segs v →
            put v t { w with held := some (v.readSegs segs) } ∧ SameMem v t) ∧
        (∀ bs, w.held = some bs → holds ((blkW b 8).toNat + i * sz) sz true t ∧
          ∀ segs v, access ((blkW b 8).toNat + i * sz) sz true segs v →
            put v t { w with pos := i + 1, held := none, finished := decide (gatCount b ≤ i + 1),
                             buf := if (i + 1) % 16 = 0 then [] else w.buf } ∧
            Written v t (splitSegs segs bs))))) ∧
    (op w = 1 → Completes .wingsPiece s (fun t =>
      (w.geo = none → holds wb 1 false t ∧ ∀ segs v, reach wb 1 false = (.ok segs, v) →
        let leaf := (segs.head?.bind (fun g => g.leaf)).getD 0
        let ff := fmtOf (leafFmt leaf)
        let g := leafGeom leaf
        let bad : Prop := weightCheck ff g wb (blkK b) ≠ 0 ∨ 2 ^ 56 < wb + weightExtent ff g (blkN b) (blkK b) ∨
          (v.mixedPage r.tenant wb (weightExtent ff g (blkN b) (blkK b)) ff g).isSome = true
        SameMem v t ∧ (bad → put v t { w with status := 2, finished := true }) ∧
          (¬bad → put v t { w with geo := some (leafFmt leaf, g) })) ∧
      (∀ fmt g, w.geo = some (fmt, g) →
        let ff := fmtOf fmt
        let ps := mvmPieces ff g b w.call
        let ins := (ps.filter MvmPiece.reads).length
        (∀ va m, w.pos < ins → ps[w.pos]? = some (.w va m) → holds va m false t ∧
          ∀ segs v, access va m false segs v → put v t { w with pos := w.pos + 1 } ∧ SameMem v t) ∧
        (∀ at_ m segs v, w.pos < ins → ps[w.pos]? = some (.x at_ m) → s.tileReach r w.vcell at_ m 3 = .ok segs →
          s.draw r.tenant (.wings k e) [m] = (true, v) → put v t { w with pos := w.pos + 1 } ∧ SameMem v t) ∧
        (w.pos = ins → holds wb (weightExtent ff g (blkN b) (blkK b)) false t ∧
          ∀ segs v, reach wb (weightExtent ff g (blkN b) (blkK b)) false = (.ok segs, v) →
            let rows := mvmRows ff g (segsByte v.mem segs) (blkN b) (blkK b) w.scales (blkXfmt b) (blkOfmt b) (blkMod b) (v.blkInputs w)
            put v t { w with rows := rows, res := rows.flatMap (bytesFromLanes (blkOfmt b)), pos := w.pos + 1, finished := w.call } ∧
            SameMem v t) ∧
        (∀ at_ m segs v, ins < w.pos → ps[w.pos - 1]? = some (.y at_ m) → s.tileReach r w.vcell at_ m 3 = .ok segs →
          s.draw r.tenant (.wings k e) [m] = (true, v) →
          put v t { w with pos := w.pos + 1, finished := decide (ps.length ≤ w.pos) } ∧
          Written v t (splitSegs segs ((w.res.drop (at_ - blkYtile b * 4096)).take m))))))) ∧
  (runs → w.finished = true →
    (w.flipped = false → w.call = false → r.flipsLate now w.vcell (blkTiles b) = true →
      Completes .wingsBlockComplete s (fun t => t = s)) ∧
    ((w.flipped = true ∨ w.call = true ∨ r.flipsLate now w.vcell (blkTiles b) = false) → Completes .wingsBlockComplete s (fun t =>
      (w.flipped = false → w.call = false → ∀ j ∈ blkTiles b, ((flipped.region w.cue).cell w.vcell).tag j = 1) ∧
      ((w.call = true ∨ blkW b 1 = 0 ∨ w.status ≠ 0) → SameMem s t ∧ Tab.has (t.wing k).running e = false ∧
        t.region w.cue = (flipped.region w.cue).blockDone w) ∧
      (w.call = false → blkW b 1 ≠ 0 → w.status = 0 →
        let flag := flipped.flagReach (wingsUnit k) r.tenant (dieOfStack k) (blkW b 1).toNat
        (∀ segs v, flag = (.ok segs, v) → Written v t (splitSegs segs (bytesOf 8 (blkW b 2).toNat)) ∧
          Tab.has (t.wing k).running e = false ∧ t.region w.cue = (flipped.region w.cue).blockDone w) ∧
        (∀ a cause v, flag = (.miss a cause, v) → put v t ({ w with flipped := true : WBlk }.hold now a cause) ∧ SameMem v t)))))

/-! ### Memory beside the programs -/

/-- R254, R256: a walk that finds a leaf sets ACC, and DIRTY for a write, and caches it (which entry of a full TLB it takes the place of
is free, log 31); one that finds none changes nothing. R219:
a TLOAD's image stands in its bank. R290: requests are granted from the head while the units left cover them. R392: a host
read changes nothing and a write is performed, in HBM once its stack is in reach and in host memory at once, and another address
stops (DEDUCED, log 20). R400: incidents held enter the
ring, in order, while it has room.

R262, R263: an eviction in progress ends once every access of the old translation is performed: the page is copied and
the leaf written with TIER 1 and the new frame; before that nothing changes. One begins only with EVLOW set, the unit not
stopped and the evictor not stuck: V of the leaf is cleared and MIG set, and no cached translation of the page is left. -/
def Obligations.MemoryAtWork : Prop :=
  (∀ (s : State),
  (∀ u ten va wr, s.actor = .walk u ten va wr → s.tlb.find? (fun x => x.hits u ten va && (!wr || x.dirty)) = none →
    Completes .pageWalk s (fun t =>
      (∀ key leaf level, walk s ten va = .leaf key leaf level →
        t.load key 8 = (leafTouch leaf wr).toNat ∧ SameMemBut s t key 8 ∧ { t with mem := s.mem, tlb := s.tlb, free := s.free } = s ∧
        ∃ x ∈ t.tlb, x.unit = u ∧ x.tenant = ten ∧ x.va = va - va % 2 ^ levelBits level ∧ x.leaf = leafTouch leaf wr) ∧
      ((walk s ten va = .invalid ∨ walk s ten va = .malformed ∨ walk s ten va = .migrating) → t = s))) ∧
  (∀ c v k x, s.actor = .tload c v k →
    let cell := (s.region c).cell v
    cell.tloads.find? (fun y => y.slot == k) = some x → Completes .tloadCopyComplete s (fun t =>
      Written s t [(tableKey (s.region c).die cell.site
        (((s.tenant (s.region c).tenant).tsbase + x.slot) * 8192 + x.bank * 4096), x.bytes)] ∧
      (t.region c).cell v = { cell with tloads := cell.tloads.filter (fun q => q.slot != x.slot) } ∧
      { t with mem := s.mem, regions := s.regions } = s)) ∧
  (∀ d, s.actor = .die d → Completes .leaveGrant s (fun t => { t with dies := s.dies } = s ∧
    (∀ j, j ≠ d → t.die j = s.die j) ∧ ∃ m,
      t.die d = { s.die d with
        leaveQ := (s.die d).leaveQ.drop m, leaveGranted := (s.die d).leaveGranted ++ ((s.die d).leaveQ.take m).map (fun q => q.who),
        left := (s.die d).left - (((s.die d).leaveQ.take m).map (fun q => q.units)).foldl (· + ·) 0 } ∧
      (((s.die d).leaveQ.take m).map (fun q => q.units)).foldl (· + ·) 0 ≤ (s.die d).left ∧
      ∀ q tail, (t.die d).leaveQ = q :: tail → (t.die d).left < q.units)) ∧
  (∀ a n, s.actor = .host (.read a n) →
    (hostRange a n = true → Completes .hostMemoryAccess s (fun t => t = s)) ∧
    (hostRange a n = false → exec .hostMemoryAccess s = .fault (.noSuchHostAddress a))) ∧
  (∀ a bs, s.actor = .host (.write a bs) →
    (hostRange a bs.length = true → s.hbmReady a bs.length = true → Completes .hostMemoryAccess s (fun t =>
      Written s t [(a, bs)] ∧ { t with mem := s.mem } = s)) ∧
    (hostRange a bs.length = true → s.hbmReady a bs.length = false → Completes .hostMemoryAccess s (fun t => t = s)) ∧
    (hostRange a bs.length = false → exec .hostMemoryAccess s = .fault (.noSuchHostAddress a))) ∧
  (∀ w, s.actor = .window w → Completes .incidentQueueRoom s (fun t =>
    { t with windows := s.windows, mem := s.mem } = s ∧ (∀ v, v ≠ w → t.win v = s.win v) ∧ ∃ m, m ≤ (s.win w).held.length ∧
      t.win w = { s.win w with held := (s.win w).held.drop m, prod := (s.win w).prod + BitVec.ofNat 32 m } ∧
      ((t.win w).held ≠ [] → t.ringRoom (t.win w) = false) ∧
      (m = 1 → ∀ q base lg, (s.win w).held = [q] → (s.win w).ring = some (base, lg) →
        t.read (base + 64 + 64 * ((s.win w).prod.toNat % 2 ^ lg)) 64 = bytesOfWords q.words)))) ∧
  (∀ (s : State) (k e : Nat),
  let u := s.wing k
  s.actor = .wings k e →
  (∀ ten key va old new, u.evicting = some (ten, key, va, old, new) →
    ((s.wingsStopped k = true ∨ s.pageInUse old = true) → Completes .eviction s (fun t => t = s)) ∧
    (s.wingsStopped k = false → s.pageInUse old = false → Completes .eviction s (fun t =>
      let leaf : Word := BitVec.ofNat 64 ((s.write new (s.read old 65536)).load key 8)
      Written (s.write new (s.read old 65536)) t [(key, bytesOf 8 (leafEvicted leaf new).toNat)] ∧
      t.wing k = { u with evicting := none } ∧ (∀ j, j ≠ k → t.wing j = s.wing j) ∧
      { t with mem := s.mem, wings := s.wings } = s))) ∧
  (u.evicting = none →
    ((s.wingsStopped k = true ∨ u.evlow = 0 ∨ u.stuck = true) →
      Completes .eviction s (fun t => { t with free := s.free } = s)) ∧
    (s.wingsStopped k = false → u.evlow ≠ 0 → u.stuck = false → Completes .eviction s (fun t =>
      { t with free := s.free } = s ∨
      (∃ v, s.evictChoice k = (v, none) ∧ { t with free := s.free } = { v with free := s.free }) ∨
      (∃ v p, s.evictChoice k = (v, some p) ∧ (t.wing k).stuck = true ∧ (t.wing k).evicting = none) ∨
      (∃ v p pa, s.evictChoice k = (v, some p) ∧ (t.wing k).evicting = some (p.ten, p.at_, p.va, p.frame, pa) ∧
        inTier pa = true ∧
        Written v t [(p.at_, bytesOf 8 (leafMove (BitVec.ofNat 64 (v.load p.at_ 8)) false true).toNat)] ∧
        ∀ x ∈ t.tlb, x.tenant = p.ten → x.va + x.size ≤ p.va ∨ p.va + 65536 ≤ x.va)))))

/-! ### Time -/

/-- R5, R14, R20, R354: TICK waits for what is due and for every task element that has a slot to issue for (DESIGN CHOICE, log 1); then the bucket requests of
the tick are judged, CYC rises by one, and of each node of a running region that did not fire one stall counter of the copy its next
token is dealt to (DEDUCED, log 24) rises, stays at its highest value, and loses the count of the tick in which it was cleared (R202). R290, R353,
R354, R355: at a frame boundary LB and FQ that waited hold, every port has its quota again, or gives it whole to a packet longer than
FQ, every bucket is refilled, and the windows that waited for the boundary are DONE (said while no region has started, no SHARE
waits, and no window waits for a place or for memory). -/
def Obligations.TimeEvents : Prop := ∀ (s : State),
  let u := s.judgeTick
  ((s.due ≠ [] ∨ s.issueOwed = true) → Completes .tick s (fun t => t = s)) ∧
  ((∀ p ∈ s.tenants, p.2.asks = []) → u = s) ∧
  (s.due = [] → s.issueOwed = false → Completes .tick s (fun t => t.cyc = s.cyc + 1 ∧
    { t with cyc := s.cyc, due := s.due, regions := s.regions, tenants := s.tenants, packets := s.packets } = s ∧
    (∀ k, t.tenant k = (s.tenant k).judgeAll) ∧ t.packets = s.packets.filter (fun p => !p.taken) ∧
    (t.cyc.toNat % 1024 = 0 → t.due.head? = some (.frameBoundary, .none)) ∧
    ∀ c, Tab.has s.regions c = true →
      let r := u.region c
      let r' := r.deliverLate
      (∀ v k, (t.region c).slot v k = (s.region c).slot v k) ∧ (r.accs = [] → r' = r ∧ (t.region c).chans = r.chans) ∧
      (r.started = true → (s.die r.die).power.running = true → ∀ e, Tab.has r.nodes e = true →
        let nd := r'.node e
        let copy := nd.fire % nodeRep (r.fields e)
        let why := r'.stallCause r.memWaiters (s.flying c) e
        (r'.nodeHeld e = true → why = 0) ∧ (r.accs = [] → r'.nodeHeld e = false → why = nd.cause) ∧
        ((r'.cell (r.vcellOf e)).frozen = true → (t.region c).node e = { nd with cleared := [] }) ∧
        ((r'.cell (r.vcellOf e)).frozen = false → nd.fired = true → (t.region c).node e = { nd with fired := false, cleared := [] }) ∧
        ((r'.cell (r.vcellOf e)).frozen = false → nd.fired = false →
          { (t.region c).node e with elems := nd.elems, cleared := nd.cleared } = nd ∧ ((t.region c).node e).cleared = [] ∧
          (∀ j, j ≠ copy → ((t.region c).node e).elem j = nd.elem j) ∧
          ∀ x : Fin 8, (((t.region c).node e).elem copy).stall.get x =
            if x.val = why ∧ (copy, why) ∉ nd.cleared then
              (if (nd.elem copy).stall.get x = 0xFFFF then 0xFFFF else (nd.elem copy).stall.get x + 1)
            else (nd.elem copy).stall.get x)))) ∧
  ((s.cyc.toNat % 1024 ≠ 0 ∨ s.framed = s.cyc.toNat / 1024) → Completes .frameBoundary s (fun t => t = s)) ∧
  (s.cyc.toNat % 1024 = 0 → s.framed ≠ s.cyc.toNat / 1024 →
    (∀ p ∈ s.regions, p.2.started = false) → (∀ p ∈ s.tenants, p.2.sharePending = none) →
    (∀ w v c, ∀ i ∈ ([.replaceCmd v c, .debugCmd v c, .attestCmd v c, .incqCmd v c, .soundSetCmd v c, .soundQueryCmd v c,
      .fwloadCmd v c, .unloadForceCmd v c] : List Instr), (s.win w).busy ≠ some i) →
    let busyTill (w : Nat) : Prop := ∃ v c, (s.win w).busy = some (.shareCmd v c) ∨ (s.win w).busy = some (.leaveCmd v c) ∨
      (s.win w).busy = some (.quotaCmd v c)
    let throttled := (s.tenants.map (fun p => p.2)).filter (fun q : Tenant => q.share != 2 ^ 64 - 1)
    let pool := throttled.foldl (fun a q => a + q.bkt.toNat) 0
    let wants := (throttled.filter (fun q => q.demand)).foldl (fun a q => a + q.share) 0
    Completes .frameBoundary s (fun t => t.framed = s.cyc.toNat / 1024 ∧ SameMem s t ∧ t.cues = s.cues ∧
      (∀ d, Tab.has s.dies d = true →
        (t.die d).lb = (s.die d).lbPending.getD (s.die d).lb ∧ (t.die d).lbPending = none ∧
        (t.die d).fq = (s.die d).fqPending.getD (s.die d).fq ∧ (t.die d).fqPending = none ∧
        (t.die d).moving = (s.die d).target.isSome ∧ (t.die d).power = (s.die d).power ∧ (t.die d).sound = (s.die d).sound ∧
        ((s.die d).leaveQ = [] → (t.die d).left = (t.die d).lb)) ∧
      (∀ d site, d ≤ 3 → site < 576 →
        (t.pcell d site).rleft = (s.pcell d site).rleft ∧
        ((∀ p ∈ s.packets, p.len ≤ (t.die p.srcDie).fq) → (t.pcell d site).used = 0)) ∧
      (∀ p ∈ s.packets, p.plane = 0 → p.injected = false → s.portHead p = true → s.injectHeld p = false →
        (t.die p.srcDie).fq < p.len → (∀ q ∈ s.packets, q.plane = 0 → q.srcDie ≤ 3 ∧ q.srcSite < 576) →
        (t.pcell p.srcDie p.srcSite).used = (t.die p.srcDie).fq ∧ ∃ q ∈ t.packets, q.id = p.id ∧ q.long = true) ∧
      (∀ k, Tab.has s.tenants k = true → (s.tenant k).waiters = [] →
        ((s.tenant k).share = 2 ^ 64 - 1 → t.tenant k = s.tenant k) ∧
        ((s.tenant k).share ≠ 2 ^ 64 - 1 → t.tenant k = { s.tenant k with
          demand := false
          bkt := ((s.tenant k).share : Int) +
            (if (s.tenant k).demand = true ∧ 0 < wants then (pool * (s.tenant k).share / wants : Nat) else (0 : Nat)) +
            min (s.tenant k).bkt 0 })) ∧
      (∀ w, w ≤ 15 → busyTill w → (t.win w).state = 2 ∧ (t.win w).result = 0 ∧ (t.win w).busy = none)))

/-! ### Stopping a region -/

/-- R377, R380: the fault hold at FHOLD and the curtain hold at HOLD, while the curtain is not complete, freeze the region from virtual
cell 0, and otherwise nothing happens. R381: when the wave reaches a cell its slots stop in the states they hold, and no other cell's slots do.
R379: a curtain that is complete stops every cell. R381 to R383: a region at rest is FROZEN, and its tableau lies within the
arena, clear of every tableau held there, or waits for room, or for its place to be in reach (R402). -/
def Obligations.StopEvents : Prop := ∀ (s : State) (c : Nat),
  let r := s.region c
  let stopsWith (i : Instr) (code : Nat) : Prop := Completes i s (fun t => SameMem s t ∧ ∃ f, t.region c = { r with freeze := some f } ∧
    f.t0 = s.cyc.toNat ∧ f.start = 0 ∧ f.kind = 1 ∧ bits f.incident.w0 7 0 = code ∧
    (∀ d, d ≠ c → t.region d = s.region d) ∧ t.due = s.due ++ [(.blackoutWaveArrive, .cell c 0)])
  (s.actor = .region c →
    (r.freeze = none → r.started = true → s.withheldList c ≠ [] → r.fhold ≤ r.holdCount → stopsWith .pageHold 4) ∧
    ((r.freeze.isSome = true ∨ r.holdCount < r.fhold ∨ s.withheldList c = []) → Completes .pageHold s (fun t => t = s)) ∧
    (r.curtain = true → r.freeze = none → r.hold ≤ r.curtFrames → s.curtainDone c = false → stopsWith .curtainHold 5) ∧
    ((r.curtain = false ∨ r.freeze.isSome = true ∨ r.curtFrames < r.hold ∨ s.curtainDone c = true) → Completes .curtainHold s (fun t => t = s)) ∧
    (s.curtainDone c = false → Completes .curtainComplete s (fun t => t = s)) ∧
    (s.curtainDone c = true → Completes .curtainComplete s (fun t => SameMem s t ∧ (t.region c).curtain = false ∧
      (∃ f, (t.region c).freeze = some f ∧ f.kind = 0 ∧ f.t0 = s.cyc.toNat ∧ bits f.incident.w0 7 0 = 6) ∧
      (∀ v, v < r.ncells → ((t.region c).cell v).frozen = true ∧ ∀ k, (t.region c).slot v k = (r.slot v k).freeze) ∧
      t.due = s.due ++ [(.tableauReadout, .region c)])) ∧
    (∀ f, r.freeze = some f → r.frozen = false →
      (s.atRest c = false → Completes .tableauReadout s (fun t => t = s)) ∧
      (s.atRest c = true → Completes .tableauReadout s (fun t => (t.cue c).st = .frozen ∧ OnlyCue s t c ∧
        (t.region c).frozen = true ∧ (∀ v k, (t.region c).slot v k = r.slot v k) ∧
        (r.tableau = none → ∀ a n, (t.region c).tableau = some (a, n) →
          (s.tenant r.tenant).arena ≤ a ∧ a + n ≤ (s.tenant r.tenant).arena + (s.tenant r.tenant).arenaLen ∧
          ∀ p ∈ (s.tenant r.tenant).tableaux, a + n ≤ p.1 ∨ p.1 + p.2.1 ≤ a) ∧
        (r.tableau = none → (t.region c).tableau = none → (t.region c).fullPosted = true ∨
          ∃ a n, (s.tenant r.tenant).arena ≤ a ∧ a + n ≤ (s.tenant r.tenant).arena + (s.tenant r.tenant).arenaLen ∧
            s.inReach a n = false))))) ∧
  (∀ v f, s.actor = .cell c v → r.freeze = some f → v < r.ncells →
    (s.cyc.toNat < f.t0 + siteDist (r.cell f.start).site (r.cell v).site →
      Completes .blackoutWaveArrive s (fun t => t = s)) ∧
    ((r.cell v).frozen = false → f.t0 + siteDist (r.cell f.start).site (r.cell v).site ≤ s.cyc.toNat →
      (∀ x ∈ r.exchanges, x.stage ≠ 1) → Completes .blackoutWaveArrive s (fun t => SameMem s t ∧
        ((t.region c).cell v).frozen = true ∧ (∀ k, (t.region c).slot v k = (r.slot v k).freeze) ∧
        (∀ w, w ≠ v → (t.region c).cell w = r.cell w) ∧ (t.region c).exchanges = r.exchanges.filter (fun x => x.stage != 0) ∧
        ∀ d, d ≠ c → t.region d = s.region d)))

/-! ### Crossing -/

/-- R356 to R366: a swap instant clears the traffic counts, is one instant of the die with those of other regions on the same frame
boundary (DEDUCED, logs 9 and 33), which lowers what is left of the cells' rests once, and begins exchanges only of neighbours of which neither rests and one
holds a cell, with the work on sound cells, and none under a curtain or while the cue does not run; a pair that has settled,
with no firing of it still to finish (DEDUCED, log 32), begins its transfer; the commit moves a cell's pool to the other site and gives up the routes at the pair; routing again takes
no token and no other route; a lease ends on a frame boundary two frames or more after the commit. -/
def Obligations.CrossingEvents : Prop := ∀ (s : State) (c : Nat),
  let r := s.region c
  let only (t : State) : Prop := { t with regions := s.regions } = s ∧ ∀ d, d ≠ c → t.region d = s.region d
  let lanes (q : Region) : List (End × End × List Token) := q.chans.map (fun ch : Chan => (ch.prod, ch.cons, ch.q))
  s.actor = .region c →
  (r.atInstant s.cyc.toNat = true → (s.die r.die).power ≠ .dark → Completes .swapInstant s (fun t =>
    (t.region c).instant = s.cyc.toNat / 1024 ∧ (∀ ch ∈ (t.region c).chans, ch.traffic = 0) ∧ lanes (t.region c) = lanes r ∧
    (t.die r.die).instants = (s.die r.die).instants + (if (s.die r.die).instantMark = s.cyc.toNat / 1024 then 0 else 1) ∧
    ((s.die r.die).instantMark = s.cyc.toNat / 1024 → ∀ d site, (t.pcell d site).rleft ≠ (s.pcell d site).rleft →
      ∃ x ∈ (t.region c).exchanges, d * 576 + site = r.die * 576 + x.a ∨ d * 576 + site = r.die * 576 + x.b) ∧
    SameMem s t ∧ (∀ d, d ≠ c → t.region d = s.region d) ∧
    ∃ new, (t.region c).exchanges = r.exchanges ++ new ∧ (((s.cue c).st ≠ .running ∨ r.curtain = true) → new = []) ∧
      ∀ x ∈ new, x.stage = 0 ∧ adjacent x.a x.b = true ∧ (x.va.isSome = true ∨ x.vb.isSome = true) ∧
        (s.pcell r.die x.a).rleft = 0 ∧ (s.pcell r.die x.b).rleft = 0 ∧
        (x.va.isSome = true → (s.die r.die).sound.getLsbD x.b = true) ∧
        (x.vb.isSome = true → (s.die r.die).sound.getLsbD x.a = true))) ∧
  ((r.atInstant s.cyc.toNat = false ∨ (s.die r.die).power = .dark) → Completes .swapInstant s (fun t => t = s)) ∧
  (r.freeze = none → Completes .crossingTransferStart s (fun t => only t ∧
    t.region c = { r with exchanges := r.exchanges.map (fun x : Exchange =>
      if x.stage = 0 ∧ s.pairSettled c x = true ∧ r.pairStopped x = true then
        { x with stage := 1, finish := s.cyc.toNat + (max (s.moveBytes c x.va) (s.moveBytes c x.vb) + 255) / 256 } else x) })) ∧
  (r.freeze.isSome = true → Completes .crossingTransferStart s (fun t => t = s)) ∧
  (∀ x : Exchange, r.exchanges.filter (fun x => x.stage == 1 && decide (x.finish ≤ s.cyc.toNat)) = [x] → x.va ≠ x.vb → x.a ≠ x.b →
    x.a < 576 → x.b < 576 → r.die < 4 → s.memOk → Completes .crossingCommit s (fun t =>
      { t with regions := s.regions, mem := s.mem, fetches := s.fetches } = s ∧
      (∀ v, x.va = some v → ((t.region c).cell v).site = x.b ∧
        ∀ o, o < 2 ^ 21 → memGet t.mem (poolKey r.die x.b o) = memGet s.mem (poolKey r.die x.a o)) ∧
      (∀ v, x.vb = some v → ((t.region c).cell v).site = x.a ∧
        ∀ o, o < 2 ^ 21 → memGet t.mem (poolKey r.die x.a o) = memGet s.mem (poolKey r.die x.b o)) ∧
      (∀ v, x.va ≠ some v → x.vb ≠ some v → (t.region c).cell v = r.cell v) ∧
      (∀ a, a < 2 ^ 52 → memGet t.mem a = memGet s.mem a) ∧ lanes (t.region c) = lanes r ∧
      (t.region c).chans.map (fun ch : Chan => ch.route) =
        r.chans.map (fun ch : Chan => if r.endAt x ch = true then [] else ch.route) ∧
      ∀ d, d ≠ c → t.region d = s.region d)) ∧
  ((s.die r.die).placing.isSome = true → Completes .crossingReroute s (fun t => t = s)) ∧
  ((s.die r.die).placing = none → Completes .crossingReroute s (fun t => only t ∧ lanes (t.region c) = lanes r ∧
    (t.region c).nodes = r.nodes ∧ (t.region c).cells = r.cells ∧
    ∀ (k : Nat) (ch : Chan), r.chans[k]? = some ch → ch.route ≠ [] → ((t.region c).chans[k]?.map (fun q : Chan => q.route)) = some ch.route)) ∧
  (s.cyc.toNat % 1024 ≠ 0 → Completes .leaseEnd s (fun t => t = s)) ∧
  (∀ x : Exchange, s.cyc.toNat % 1024 = 0 → r.exchanges = [x] → x.stage = 2 → x.leaseOver = false →
    (x.finish + 2048 ≤ s.cyc.toNat → s.unanswered c x = false → Completes .leaseEnd s (fun t =>
      (t.region c).exchanges = (if x.routed then [] else [{ x with leaseOver := true }]) ∧
      { t with regions := s.regions, packets := s.packets } = s)) ∧
    ((s.cyc.toNat < x.finish + 2048 ∨ s.unanswered c x = true) → Completes .leaseEnd s (fun t => t = s)))

/-! ### Cues by themselves -/

/-- R283: the first READY control cue reads its word once. COND releases its first SPLIT successors when the word is not 0 and the
others when it is; LOOP releases the first SPLIT and waits again while ITER is below the word, else the others, with ITER 0;
SWITCH releases the successor the word names, the last for a greater one. A word that meets a page fault, a malformed entry or a
violation fails the cue; on a page that migrates, or a stack out of reach, it stays READY (R254, R263; log 30). What a LOOP makes
READY, itself too, stands behind every cue that was READY, in ascending number (R282). -/
def Obligations.ControlCues : Prop := ∀ (s : State) (c : Nat),
  let q := s.cue c
  let released (t : State) (l : List Nat) : Prop :=
    (∀ m, m ∉ l → m ≠ c → t.cue m = s.cue m) ∧
    (l.Nodup → ∀ m ∈ l, m ≠ c → (s.cue m).st ≠ .free →
      (2 ≤ (s.cue m).count → t.cue m = { s.cue m with count := (s.cue m).count - 1 }) ∧
      ((s.cue m).count = 1 → (t.cue m).st = .ready ∧ (t.cue m).count = 0 ∧ m ∈ t.readyQ) ∧
      ((s.cue m).count = 0 → t.cue m = s.cue m))
  let ended (t : State) : Prop := q.rearm = false → (t.cue c).st = .free
  let failed (t : State) : Prop := (t.cue c).st = .failed ∧ t.readyQ = s.readyQ.erase c ∧ ∀ m, m ≠ c → t.cue m = s.cue m
  let outcome (i : Instr) (P : State → Nat → Prop) : Prop := Completes i s (fun t =>
    match s.reach schedulerUnit q.tenant 0 q.addr 8 true false with
    | (.ok segs, u) => P t (natOf (u.readSegs segs))
    | (.viol _ _, _) => failed t
    | (.miss _ cause, u) => (cause ≤ 1 → failed t) ∧ (1 < cause → t = u))
  s.actor = .cue c → s.nextControl = some c → q.st = .ready → c ∉ q.succ →
  (q.kind = 1 → outcome .controlCueCond (fun t v =>
    released t (if v ≠ 0 then q.succ.take q.split else q.succ.drop q.split) ∧ ended t)) ∧
  (q.kind = 2 → outcome .controlCueLoop (fun t v =>
    (q.iter < v → released t (q.succ.take q.split) ∧ (t.cue c).iter = min (q.iter + 1) (2 ^ 32 - 1) ∧
      (t.cue c).count = q.recount ∧ (t.cue c).st = (if q.recount = 0 then .ready else .waiting) ∧
      ∃ new, t.readyQ = s.readyQ.erase c ++ new ∧ new.Pairwise (fun a b => a ≤ b)) ∧
    (v ≤ q.iter → released t (q.succ.drop q.split) ∧ (t.cue c).iter = 0 ∧ ended t))) ∧
  (q.kind = 3 → q.succ ≠ [] → outcome .controlCueSwitch (fun t v =>
    released t [q.succ.getD (min v (q.succ.length - 1)) 0] ∧ ended t))

/-- R285, R320: the next READY graph cue of a die whose engine is free is placed; a launch that cannot be read, fails validation or
does not fit leaves it FAILED with the record of the failure in its entry, and otherwise it holds its cells, which are sound, free of
every other region of the die and of its exchanges, and distinct, in ascending serpentine order from the anchor (R320, R325, R326); while a page
of the launch migrates the cue stays READY and is read again whole (DEDUCED, log 33). R286: at its start the region runs. R287: a completed region's slots are DONE, and then its cells are
freed and its cue is FREE, or waits again with REARM.

R60 to R70, R243, R422: a launch whose record, script or list records break a rule is FAILED with the first failure in order, and
places nothing. In a script that is the first entry, in ascending index, that breaks one: an unassigned opcode is INVALID_OPCODE, and
among what else an entry is rejected for are REP above 1, NDT, ORD, RES or SCOPE where R67 does not allow them, WID above 4, a RATE of 0 or
above 16, bits 63:62 of word 1, an extension count outside the opcode's range, a port without a distance, a distance that leads out of
the script, and a required operand that is absent. -/
def Obligations.RegionLife : Prop :=
  (∀ (s : State) (c : Nat),
  let q := s.cue c
  let d := s.launchDie c
  let r := s.region c
  (s.actor = .cue c → q.st = .ready → s.nextGraph d = some c → (s.die d).placing = none → (s.die d).power.dead = false →
    let u := { s with readyQ := s.readyQ.erase c : State }.moveCue c .placing .word0
    let only (t : State) : Prop := OnlyCue s t c ∧ t.readyQ = s.readyQ.erase c
    let failed (t : State) (p : PlaceFail) (die : Nat) : Prop :=
      only t ∧ (t.cue c).st = .failed ∧ (t.cue c).failure = p.words die ∧ t.regions = s.regions
    Completes .placement s (fun t => match u.takeLaunch c with
      | (.error none, _) => t = s
      | (.error (some p), _) => failed t p d
      | (.ok x, v) => match v.plan c x with
        | .error p => failed t p x.die
        | .ok y => only t ∧ (t.cue c).st = .placing ∧ t.region c = y ∧ (t.die y.die).placing = some c ∧ SameMem v t ∧
          y.die = x.die ∧
          (let anchor := serp (bits (x.lw 0) 23 19) (bits (x.lw 0) 28 24)
            let site (w : Nat) : Nat := (y.cell w).site
            let rank (w : Nat) : Nat := (site w + 576 - anchor % 576) % 576
            (∀ w, w < y.ncells → site w < 576 ∧ (s.die y.die).sound.getLsbD (site w) = true ∧
              ∀ k, k ≠ c → Tab.has s.regions k = true → (s.region k).die = y.die → ¬(s.region k).holdsSite (site w)) ∧
            ∀ w1 w2, w1 < w2 → w2 < y.ncells → rank w1 < rank w2))) ∧
  ((s.actor = .cue c ∧ (q.st ≠ .ready ∨ s.nextGraph d ≠ some c ∨ (s.die d).placing.isSome = true ∨ (s.die d).power.dead = true)) →
    Completes .placement s (fun t => t = s)) ∧
  (s.actor = .region c → q.st = .placing → r.started = false → (s.die r.die).placing = some c → (s.die r.die).power.dead = false →
    (∀ w v b, (s.win w).busy ≠ some (.replaceCmd v b)) →
    Completes .regionStart s (fun t => (t.cue c).st = .running ∧ (t.cue c).startTick = s.cyc.toNat ∧ OnlyCue s t c ∧
      (t.die r.die).placing = none ∧ t.region c = r.begin s.cyc.toNat ∧ ∀ k, k ≠ c → t.region k = s.region k)) ∧
  (s.actor = .region c → s.completes c = false → Completes .regionCompletion s (fun t => t = s)) ∧
  (s.actor = .region c → s.completes c = true →
    (r.isDone = false → (∃ p ∈ r.cells, p.2.slots ≠ []) → Completes .regionCompletion s (fun t =>
      (∀ v k, Tab.has r.cells v = true → (r.slot v k).st ≠ .free → ((t.region c).slot v k).st = .done) ∧
      { t with regions := s.regions, mem := s.mem } = s ∧ ∀ d, d ≠ c → t.region d = s.region d)) ∧
    ((r.isDone = true ∨ ∀ p ∈ r.cells, p.2.slots = []) → q.succ = [] → Completes .regionCompletion s (fun t =>
      Tab.has t.regions c = false ∧ OnlyCue s t c ∧ (t.cue c).doneTick = s.cyc.toNat ∧
      (q.rearm = false → (t.cue c).st = .free) ∧
      (q.rearm = true → (t.cue c).count = q.preds ∧ (t.cue c).st = (if q.preds = 0 then .ready else .waiting)))))) ∧
  ((∀ (s : State) (c : Nat),
    let q := s.cue c
    let d := s.launchDie c
    s.actor = .cue c → q.st = .ready → s.nextGraph d = some c → (s.die d).placing = none → (s.die d).power.dead = false →
    let u := { s with readyQ := s.readyQ.erase c : State }.moveCue c .placing .word0
    let failed (p : PlaceFail) : Prop := Completes .placement s (fun t => OnlyCue s t c ∧ t.readyQ = s.readyQ.erase c ∧
      (t.cue c).st = .failed ∧ (t.cue c).failure = p.words d ∧ t.regions = s.regions)
    ∀ ws u1, u.readWords q.tenant 0 q.lrec 16 = (.ok ws, u1) →
    let r : Region := { tenant := q.tenant, die := bits (wordAt ws 0) 18 17, launch := ws, lrec := q.lrec }
    (∀ p, checkLaunch ws = some p → failed p) ∧
    (∀ es sl en tb cd u2 u3 u4 u5 u6, checkLaunch ws = none →
      u1.readEntries q.tenant r.die r.nent 0 (r.lw 1).toNat [] = (.ok es, u2) →
      u2.readList q.tenant r.die (r.lw 8).toNat r.nslot 4 0x18 = (.ok sl, u3) →
      u3.readList q.tenant r.die (r.lw 12).toNat r.nend 1 0x1C = (.ok en, u4) →
      u4.readList q.tenant r.die (r.lw 10).toNat r.ntab 2 0x1A = (.ok tb, u5) →
      u5.readList q.tenant r.die (r.lw 11).toNat r.ncode 4 0x1B = (.ok cd, u6) →
      let x : Region := { r with
        slotRecs := sl, endRecs := en, tableRecs := tb, codeRecs := cd, image := es.flatten, entries := entriesOf es }
      (∀ p, x.checkScript es = some p → failed p) ∧
      (∀ p, x.checkScript es = none → x.checkRecords (s.tenant q.tenant).tableSlots = some p → failed p))) ∧
  (∀ (r : Region) (es : List (List Word)) (p : PlaceFail), r.checkScript es = some p ↔
    ∃ i, i < es.length ∧ r.checkEntry i (es.getD i []) = some p ∧ ∀ j, j < i → r.checkEntry j (es.getD j []) = none) ∧
  (∀ (r : Region) (e : Nat) (ws : List Word),
    let opc := (wordAt ws 0).toNat / 2 ^ 56
    let n := entryFields (wordAt ws 0) (wordAt ws 1) (ws.drop 2)
    let rejected : Prop := (r.checkEntry e ws).isSome = true
    let operand (k : Nat) : Opnd := if k = 0 then n.sa else if k = 1 then n.sb else n.sc
    (nodeRow opc = none → r.checkEntry e ws = some { code := 1, entry := e, word := 0, bit := 56 }) ∧
    (∀ row, nodeRow opc = some row →
      (row.rep = false → n.repm1 ≠ 0 → rejected) ∧ (4 < n.wid.toNat → rejected) ∧ (n.rate = 0 ∨ 16 < n.rate.toNat → rejected) ∧
      (n.ndt = 1 → opc ≠ 0x05 → rejected) ∧
      (n.ord = 1 → opc ∉ [0x60, 0x61, 0x62, 0x63, 0x64, 0x65, 0x6A] → rejected) ∧
      (n.res = 1 → opc ∉ [0x80, 0x81, 0x82] → rejected) ∧
      (n.scope ≠ 0 → opc ∉ [0x02, 0x03, 0x09, 0x60, 0x61, 0x62, 0x63, 0x64, 0x65, 0x66, 0x6A, 0xA2, 0xA3, 0xA4] → rejected) ∧
      ((wordAt ws 1).toNat / 2 ^ 62 ≠ 0 → rejected) ∧
      (n.ext.length < row.xmin ∨ row.xmax < n.ext.length → rejected) ∧
      (r.opcode e = opc → r.fields e = n → ∀ k, k < 3 →
        ((operand k).dist = 0 → (operand k).port ≠ 0 → rejected) ∧
        (¬(opc = 0x06 ∧ k = 1) → e < (operand k).dist.toNat → rejected) ∧
        (opc = 0x06 → k = 1 → (operand k).dist ≠ 0 → r.nent < e + 1 + (operand k).dist.toNat → rejected) ∧
        (opUse opc n k = .required → (operand k).dist = 0 → r.taskEnds e k = [] → rejected)))))

/-! ### The network -/

/-- R353, R419: a packet at the head of its port enters VC0 of its stop, one of a port and plane in a tick, when the buffer has room, on plane Q drawing quota, which one
longer than FQ took whole at a frame boundary. R340, R346: an MREQ has arrived, an MRSP counts for its access. R420: of the candidates of a stop the only one goes on, unless a better one of another
stop needs its ejection port (R344), and where nothing may go the stop keeps all. R346, R348, R349: at its last flit's tick the
packet is taken in once: a data token joins its receiver's queue with its TAG, VC and FRAME, a credit returns to its sender, and a
marker that completes its set joins the queue as one. -/
def Obligations.NetworkEvents : Prop := ∀ (s : State) (p : Packet),
  let now := s.cyc.toNat
  let ring := siteRing p.srcDie p.srcSite
  let stop := siteStop p.srcSite
  let r := s.region p.cue
  let ent := r.cls p.cls
  let fq := (s.die p.srcDie).fq
  let used := (s.pcell p.srcDie p.srcSite).used
  let room := s.bufferRoom p.plane ring stop 0 now 8 p.len
  let covered : Prop := p.plane ≠ 0 ∨ (p.len ≤ fq ∧ used + p.len ≤ fq) ∨ (fq < p.len ∧ p.long = true)
  (s.actor = .packet p.id → s.packets.find? (fun q => q.id == p.id) = some p →
    (p.injected = false → s.portHead p = true → s.portUsed p now = false → s.injectHeld p = false → room = true → covered →
      Completes .packetInject s (fun t =>
        t.packets = s.packets.map (fun q : Packet => if q.id = p.id then { q with
          injected := true, frame := now / 1024 % 16,
          hops := [{ ring := ring, stop := stop, vc := 0, origin := 1, arrive := now }] } else q) ∧
        { t with packets := s.packets, pcells := s.pcells } = s ∧
        ((p.plane ≠ 0 ∨ p.long = true) → t.pcells = s.pcells) ∧
        (p.plane = 0 → p.long = false → (t.pcell p.srcDie p.srcSite).used = used + p.len))) ∧
    ((p.injected = true ∨ s.portHead p = false ∨ s.portUsed p now = true ∨ s.injectHeld p = true ∨ room = false ∨ ¬covered) →
      Completes .packetInject s (fun t => t = s)) ∧
    ((p.taken = true ∨ p.arrives = none ∨ ∃ a, p.arrives = some a ∧ now < a) → Completes .packetArrive s (fun t => t = s)) ∧
    (∀ a i, p.arrives = some a → a ≤ now → p.taken = false → Tab.has s.regions p.cue = true → p.dsts.map (fun x => x.recv) = [i] →
      Completes .packetArrive s (fun t =>
        let joins (tag : Nat) (x : Token) : Prop :=
          (∀ v k, ent.recvs[i]? = some (.slot v k) → ((t.region p.cue).slot v k) =
            { r.slot v k with queue := (r.slot v k).queue ++ [(p.srcCell, tag, x)] }) ∧
          (∀ e, ent.recvs[i]? = some (.node e) → ((t.region p.cue).cls p.cls).queue i = ent.queue i ++ [(p.srcCell, tag, x)])
        t.packets = s.packets.map (fun q : Packet => if q.id = p.id then { q with taken := true } else q) ∧
        { t with packets := s.packets, regions := s.regions } = s ∧ (∀ d, d ≠ p.cue → t.region d = s.region d) ∧
        (p.kind = 0 → joins p.fullTag (.data p.lanes)) ∧
        (p.kind = 3 → t.region p.cue = r) ∧
        (∀ m, p.kind = 4 → p.mem = some m → t.region p.cue = r.answered m.acc) ∧
        (p.kind = 5 → t.region p.cue = r.setCls p.cls (ent.addCredit i p.tag (fun n => n + 1))) ∧
        (p.kind = 1 ∨ p.kind = 2 →
          let held : Prop := ∀ v ∈ ent.senders, v = p.srcCell ∨ (i, v, p.kind) ∈ ent.marks
          (held → joins 0 (if p.kind = 1 then .eos else .curtain)) ∧
          (¬held → t.region p.cue = r.setCls p.cls { ent with marks := ent.marks ++ [(i, p.srcCell, p.kind)] }))))) ∧
  (∀ plane place at_, s.actor = .stop plane place at_ →
    (s.candidates plane place at_ now = [] → Completes .packetHop s (fun t => t = s)) ∧
    (∀ q, s.candidates plane place at_ now = [q] →
      (s.yields q now = true → Completes .packetHop s (fun t => t = s)) ∧
      (∀ g, s.yields q now = false → q.parts = [g] → Completes .packetHop s (fun t =>
        t.packets = s.packets.map (fun x => if x.id = q.packet.id then q.packet.cross q.hop now g false else x) ∧
        { t with packets := s.packets, due := s.due } = s))))

/-! ### Power, heat and errors -/

/-- R401, R402: a transition goes by steps to adjacent states, and when the commanded state holds the POWER command is DONE; a die
does not enter DARK with a cue RUNNING or PLACING on it. R403: a thermal trip loses the die's regions, fails their cues and
turns the die OFF, which keeps its soundness map. R390: a correctable error is counted; an uncorrectable one in a cell's
memory makes the cell unsound, and one that a task slot reads freezes the slot and its region. R280: after RESET every cue
is FREE, CYC is 0 and memory is as it was (DESIGN CHOICE, logs 2 and 3). The steps of power are read from R401 (DEDUCED, log 23),
and which outcome an error has from R390 (DEDUCED, log 11). -/
def Obligations.PowerEvents : Prop := ∀ (s : State) (d : Nat),
  let die := s.die d
  (s.actor = .die d →
    (∀ p, die.target = some p → die.moving = true → s.mayEnter d p = true →
      (powerStep die.power p ≠ p → Completes .powerStateReached s (fun t =>
        t = s.setDie d { die with power := powerStep die.power p })) ∧
      (powerStep die.power p = p → Completes .powerStateReached s (fun t => (t.die d).power = p ∧ (t.die d).target = none ∧
        (t.die d).sound = die.sound ∧ (∀ j, j ≠ d → t.die j = s.die j) ∧ t.regions = s.regions ∧ t.cues = s.cues ∧
        (p ≠ .off → SameMem s t) ∧
        (p = .off → t.die d = { power := .off, tripped := die.tripped, sound := die.sound }) ∧
        (∀ i v c, (s.win 0).busy = some i → i ∈ ([.powerRunningCmd v c, .powerDarkCmd v c, .powerOffCmd v c] : List Instr) →
          cmdDie c = d → (t.win 0).state = 2 ∧ (t.win 0).result = 0 ∧ (t.win 0).busy = none)))) ∧
    (∀ c, Tab.has s.regions c = true → (s.region c).die = d → (s.cue c).st = .running → die.target = some .dark →
      Completes .powerStateReached s (fun t => t = s)) ∧
    (die.target = none → Completes .powerStateReached s (fun t => t = s)) ∧
    (d ≤ 3 → die.tripped = false → Completes .thermalTrip s (fun t => (t.die d).tripped = true ∧ (t.die d).power = .off ∧
      (t.die d).sound = die.sound ∧ (∀ j, j ≠ d → (t.die j).power = (s.die j).power) ∧
      ∀ p ∈ s.regions, p.2.die = d → Tab.has t.regions p.1 = false ∧ (t.cue p.1).st = .failed)) ∧
    (die.tripped = true → Completes .thermalTrip s (fun t => t = s)) ∧
    (d ≤ 3 → Completes .thermalTripClear s (fun t => t.die d = { die with tripped := false } ∧
      (∀ j, j ≠ d → t.die j = s.die j) ∧ { t with dies := s.dies } = s))) ∧
  (∀ st k b addr, s.actor = .error st k d b addr →
    ((st = 1 ∨ st = 3) → d ≤ 3 → Completes .correctableError s (fun t => { t with dies := s.dies } = s ∧
      (∀ j, j ≠ d → t.die j = s.die j) ∧
      t.die d = { die with errors := Tab.set die.errors st (Tab.get die.errors st 0 + 1) })) ∧
    (st ≠ 1 → st ≠ 3 → Completes .correctableError s (fun t => t = s))) ∧
  (∀ st b addr, (st = 1 ∨ st = 2 ∨ st = 7) → s.actor = .error st 1 d b addr → Tab.has s.regions d = true →
    let r := s.region d
    let sl := r.slot (b / 16) (b % 16)
    r.started = true → sl.st ≠ .free → sl.st ≠ .frozen → sl.st ≠ .done → Completes .uncorrectableError s (fun t => SameMem s t ∧
      (t.region d).slot (b / 16) (b % 16) = { sl with st := .frozen, before := sl.st, waiting := .nothing } ∧
      ∃ f, (t.region d).freeze = some f ∧ (r.freeze = none → f.start = b / 16 ∧ bits f.incident.w0 7 0 = 9))) ∧
  (∀ b addr, s.actor = .error 3 5 d b addr → addr < 2304 → Completes .uncorrectableError s (fun t =>
    (t.die (addr / 576)).sound.getLsbD (addr % 576) = false ∧
    (∀ j, j < 576 → j ≠ addr % 576 → (t.die (addr / 576)).sound.getLsbD j = (s.die (addr / 576)).sound.getLsbD j) ∧
    t.regions = s.regions)) ∧
  Completes .reset s (fun t => (∀ c, t.cue c = {}) ∧ t.regions = [] ∧ t.readyQ = [] ∧ t.cyc = 0 ∧ t.packets = [] ∧
    (∀ j, j ≤ 3 → (t.die j).lb = 64 ∧ (t.die j).fq = 2048) ∧ SameMem s t ∧ t.fwVersion = s.fwVersion ∧
    (t.fwOnly = true ↔ ¬(Config.bootSigned = true ∧ s.fwVersion ≤ Config.bootVersion)))

/-! ### The whole machine -/

/-- A step runs the decoded instruction: a slot whose turn it is (R20) runs what the task decoder reads from the four bytes at its PC, or
ILLEGAL_WORD where the line is data-marked or the word decodes to nothing (R71, R79); a node that may step runs what its tokens
call for; a callboard write runs the command its bytes carry, unless a higher window has taken one in this tick (R397); what is due
runs next. A unit that may not move changes nothing
but who acted. -/
def Obligations.StepRunsDecoded : Prop := ∀ (s : State),
  (∀ c v k, s.pick = some (.slot c v k) →
    let u : State := { s with pick := none, actor := .slot c v k }
    let cell := (s.region c).cell v
    let pc := ((s.region c).slot v k).pc.toNat
    let w : BitVec 32 := BitVec.ofNat 32 (natOf (s.read (storeKey (s.region c).die cell.site pc) 4))
    (s.slotTurn c v k = true →
      (∀ i, lineMarked cell pc = false → decodeTask w = .ok i → step s = exec i (u.takeTurn c v k)) ∧
      ((lineMarked cell pc = true ∨ ∃ x, decodeTask w = .error x) → step s = exec (.illegalWord w) (u.takeTurn c v k))) ∧
    (s.slotTurn c v k = false → step s = .next u)) ∧
  (∀ c e, s.pick = some (.node c e) →
    let u : State := { s with pick := none, actor := .node c e }
    (s.nodeRuns c e = true → ∀ i, (s.region c).nodeInstr e = some i → step s = exec i u) ∧
    (s.nodeRuns c e = false → step s = .next u)) ∧
  (∀ w bs, s.pick = some (.write w bs) →
    let u : State := { s with pick := none, actor := .window w, accepted := some (s.cyc.toNat, w) }
    (s.outOfTurn w = false → (s.win w).isBusy = false → step s = exec (decodeCommand w bs) u) ∧
    (s.outOfTurn w = false → (s.win w).isBusy = true → step s = exec (.callboardOtherWrite w bs) u) ∧
    (s.outOfTurn w = true → step s = .next { s with pick := none })) ∧
  (∀ i a rest, s.pick = none → s.due = (i, a) :: rest → isEvent i = true →
    step s = exec i { s with due := rest, actor := a })

/-- Words and bytes written out from the encodings of R61, R62, R72 to R78 and R277 decode to what they stand for; an all-zero
word is no task instruction. -/
def Obligations.DecodeWords : Prop :=
  decodeTask 0x04642800 = .ok (.add 3 4 5) ∧
  decodeTask 0x5822FFF8 = .ok (.ldd 1 2 0xFFF8) ∧
  decodeTask 0x80E00003 = .ok (.beq 7 0 3) ∧
  decodeTask 0xB0400100 = .ok (.csrr 2 0x010) ∧
  decodeTask 0xC0221806 = .ok (.vadd 1 2 3 .f32) ∧
  decodeTask 0xD0221A86 = .ok (.acas 1 2 3 2 1) ∧
  decodeTask 0xDCA00011 = .ok (.recv 5 17) ∧
  decodeTask 0xF0000000 = .ok .ecall ∧
  decodeTask 0x00000000 = .error .unassignedMajor ∧
  decodeEntry [0x1101A40000000000, 0x0000100002000000] =
    .ok (.addN { fmt := 6, wid := 4, rate := 16, sa := ⟨1, 0⟩, sb := ⟨2, 0⟩ }, []) ∧
  decodeCommand 3 ([0x01, 0x05] ++ List.replicate 62 0) = .launchCmd 3 { w0 := 0x501 }

/-- Right after reset every cue is FREE (R280), LB is 64 (R290), FQ is 2,048 (R353), no region is placed, no packet travels and
nothing is READY; the memory is canonical, and every byte of it reads 0 (the model's choice, log 3). -/
def Obligations.ResetState : Prop :=
  (∀ c, (State.reset.cue c).st = .free) ∧ (∀ d, d ≤ 3 → (State.reset.die d).lb = 64 ∧ (State.reset.die d).fq = 2048) ∧
  State.reset.regions = [] ∧ State.reset.packets = [] ∧ State.reset.readyQ = [] ∧ State.reset.memOk ∧
  ∀ a, memGet State.reset.mem a = 0

/-- Decode and encode agree, for every well-formed instruction: the word of a task instruction decodes to it, the words of a script
entry decode to it and leave the words behind them, the bytes of a callboard command decode to it; and an instruction has at
most one of the three. -/
def Obligations.DecodeEncode : Prop := ∀ (i : Instr), i.wf = true →
  (∀ w, encodeTask i = some w → decodeTask w = .ok i ∧ encodeEntry i = none ∧ commandBytes i = none) ∧
  (∀ ws, encodeEntry i = some ws → (∀ rest, decodeEntry (ws ++ rest) = .ok (i, rest)) ∧ commandBytes i = none) ∧
  (∀ win bs, commandBytes i = some (win, bs) → decodeCommand win bs = i)

/-- Every step keeps the canonical form of memory: addresses strictly rising, and no byte listed that an unlisted address reads
as: the form is the model's own (log 3). -/
def Obligations.MemoryCanonical : Prop := ∀ (s t : State), s.memOk → step s = .next t → t.memOk

/-- R11: no step gives a channel more than the 4 tokens it holds. -/
def Obligations.ChannelBound : Prop := ∀ (s t : State), s.chansFit → step s = .next t → t.chansFit

/-- R19: every step keeps SSBASE ≤ SSP ≤ SSLIM, multiples of 8, and a g0 of 0, in every slot; a region that is being placed has the
stacks of its slot records within the task area. -/
def Obligations.StackBounds : Prop := ∀ (s t : State), s.stacksFit → step s = .next t → t.stacksFit

/-- R320, R326, R363: every step keeps the regions of a die apart: no cell is held, as a cell or as a site of an exchange, by two of
them. -/
def Obligations.CellsApart : Prop := ∀ (s t : State), s.cellsApart → step s = .next t → t.cellsApart

/-- No step is refused, and none stops but a host access to an address that is neither HBM nor host memory (R392; a stop by
the model's reading, log 20): every other
step of every state answers a next state. -/
def Obligations.EveryStepAnswers : Prop := ∀ (s : State),
  (∃ t, step s = .next t) ∨
  (∃ a n, step s = .fault (.noSuchHostAddress a) ∧ hostRange a n = false)

/-- A task instruction reaches no other region: it completes, every other region is as it was, but for the phases of a barrier that
the regions of a job share (R294), and so are the cues, jobs and windows, the READY order, the time and the firmware. -/
def Obligations.TaskIsolation : Prop := ∀ (s : State) (i : Instr),
  ((encodeTask i).isSome = true ∨ ∃ w, i = .illegalWord w) →
  Completes i s (fun t => (∀ c, c ≠ s.actCue →
      ((∀ a r, i ≠ .bara a r ∧ i ≠ .baraw a r) → t.region c = s.region c) ∧
      { t.region c with cells := (s.region c).cells } = s.region c ∧
      ∀ v, { (t.region c).cell v with barriers := ((s.region c).cell v).barriers } = (s.region c).cell v) ∧
    t.cues = s.cues ∧ t.jobs = s.jobs ∧
    t.windows = s.windows ∧ t.readyQ = s.readyQ ∧ t.cyc = s.cyc ∧ t.podmap = s.podmap ∧ t.fwOnly = s.fwOnly)
end

