-- ==== Sys2Proof/Laws/Mem.lean ====
section
/-! SUPPORT. The laws of memory: a read after a write, and that the operations keep the canonical form. -/

namespace Sys2Proof.Machine

theorem memGet_append (m n : Mem) (x : Nat) (h : ∀ p ∈ m, p.1 ≠ x) : memGet (m ++ n) x = memGet n x := by
  induction m with
  | nil => rfl
  | cons p r ih =>
    obtain ⟨k, b⟩ := p
    have hk : k ≠ x := h (k, b) (by simp)
    simp only [List.cons_append, memGet, hk, if_false]
    exact ih (fun q hq => h q (by simp [hq]))

theorem memGet_append_left (m n : Mem) (x : Nat) (h : ∀ p ∈ n, p.1 ≠ x) : memGet (m ++ n) x = memGet m x := by
  induction m with
  | nil =>
    have := memGet_append n [] x h
    simpa [memGet] using this
  | cons p r ih =>
    obtain ⟨k, b⟩ := p
    by_cases hk : k = x
    · simp [memGet, hk]
    · simp only [List.cons_append, memGet, hk, if_false]; exact ih

theorem memGet_none (m : Mem) (x : Nat) (h : ∀ p ∈ m, p.1 ≠ x) : memGet m x = memDefault := by
  simpa [memGet] using memGet_append m [] x h

theorem memGet_filter (m : Mem) (q : Nat → Bool) (x : Nat) (h : q x = true) :
    memGet (m.filter (fun p => q p.1)) x = memGet m x := by
  induction m with
  | nil => rfl
  | cons p r ih =>
    obtain ⟨k, b⟩ := p
    by_cases hq : q k = true
    · by_cases hk : k = x
      · subst hk; simp [hq, memGet]
      · simp [hq, memGet, hk, ih]
    · have hk : k ≠ x := fun e => hq (e ▸ h)
      simp [hq, memGet, hk, ih]

theorem memGet_filter_out (m : Mem) (q : Nat → Bool) (x : Nat) (h : q x = false) :
    memGet (m.filter (fun p => q p.1)) x = memDefault := by
  apply memGet_none
  intro p hp e
  have := (List.mem_filter.mp hp).2
  rw [e, h] at this
  exact Bool.noConfusion this

theorem memPlace_keys (a : Nat) (bs : List Byte) : ∀ p ∈ memPlace a bs, a ≤ p.1 ∧ p.1 < a + bs.length := by
  induction bs generalizing a with
  | nil => simp [memPlace]
  | cons b r ih =>
    intro p hp
    by_cases hb : b = memDefault
    · have := ih (a + 1) p (by simpa [memPlace, hb] using hp)
      simp only [List.length_cons]; omega
    · simp only [memPlace, hb, if_false, List.mem_cons] at hp
      rcases hp with rfl | hp
      · simp
      · have := ih (a + 1) p hp
        simp only [List.length_cons]; omega

theorem memGet_memPlace (a : Nat) (bs : List Byte) (i : Nat) (h : i < bs.length) :
    memGet (memPlace a bs) (a + i) = bs[i] := by
  induction bs generalizing a i with
  | nil => simp at h
  | cons b r ih =>
    cases i with
    | zero =>
      by_cases hb : b = memDefault
      · have : memGet (memPlace (a + 1) r) a = memDefault := by
          apply memGet_none
          intro p hp e
          have := memPlace_keys (a + 1) r p hp
          omega
        simp [memPlace, hb, this]
      · simp [memPlace, hb, memGet]
    | succ j =>
      have hj : j < r.length := by simpa using h
      have e := ih (a + 1) j hj
      have k : a + (j + 1) = a + 1 + j := by omega
      by_cases hb : b = memDefault
      · simp only [memPlace, hb, if_true, k, List.getElem_cons_succ]; exact e
      · have ne : a ≠ a + 1 + j := by omega
        simp only [memPlace, hb, if_false, memGet, k, ne, List.getElem_cons_succ]; exact e

/-- A byte outside the bytes written reads as before. -/
theorem memGet_memSetList_out (m : Mem) (a : Nat) (bs : List Byte) (x : Nat) (h : x < a ∨ a + bs.length ≤ x) :
    memGet (memSetList m a bs) x = memGet m x := by
  unfold memSetList
  by_cases hx : x < a
  · rw [memGet_append_left]
    · exact memGet_filter m (fun k => decide (k < a)) x (by simpa using hx)
    · intro p hp
      rcases List.mem_append.mp hp with hp | hp
      · have := memPlace_keys a bs p hp; omega
      · have := (List.mem_filter.mp hp).2; simp only [decide_eq_true_eq] at this; omega
  · have hx2 : a + bs.length ≤ x := by omega
    rw [memGet_append, memGet_append]
    · exact memGet_filter m (fun k => decide (a + bs.length ≤ k)) x (by simpa using hx2)
    · intro p hp
      have := memPlace_keys a bs p hp; omega
    · intro p hp
      have := (List.mem_filter.mp hp).2; simp only [decide_eq_true_eq] at this; omega

/-- A byte written reads as it was written. -/
theorem memGet_memSetList_in (m : Mem) (a : Nat) (bs : List Byte) (i : Nat) (h : i < bs.length) :
    memGet (memSetList m a bs) (a + i) = bs[i] := by
  unfold memSetList
  rw [memGet_append]
  · rw [memGet_append_left]
    · exact memGet_memPlace a bs i h
    · intro p hp
      have := (List.mem_filter.mp hp).2; simp only [decide_eq_true_eq] at this; omega
  · intro p hp
    have := (List.mem_filter.mp hp).2; simp only [decide_eq_true_eq] at this; omega

/-- Reading the bytes just written. -/
theorem memGetList_memSetList (m : Mem) (a : Nat) (bs : List Byte) : memGetList (memSetList m a bs) a bs.length = bs := by
  have aux : ∀ n j, j + n = bs.length → memGetList (memSetList m a bs) (a + j) n = bs.drop j := by
    intro n
    induction n with
    | zero => intro j hj; simp only [memGetList]; rw [List.drop_eq_nil_of_le]; omega
    | succ n ih =>
      intro j hj
      have lt : j < bs.length := by omega
      have e : a + j + 1 = a + (j + 1) := by omega
      simp only [memGetList]
      rw [memGet_memSetList_in m a bs j lt, e, ih (j + 1) (by omega), List.drop_eq_getElem_cons lt]
  simpa using aux bs.length 0 (by omega)

/-- The last of two writes of one length at one address stands. -/
theorem memSetList_twice (m : Mem) (a : Nat) (bs cs : List Byte) (h : bs.length = cs.length) :
    memSetList (memSetList m a bs) a cs = memSetList m a cs := by
  have f1 : ∀ p ∈ memPlace a bs, ¬ p.1 < a := fun p hp => by have := memPlace_keys a bs p hp; omega
  have f2 : ∀ p ∈ memPlace a bs, ¬ a + cs.length ≤ p.1 := fun p hp => by have := memPlace_keys a bs p hp; omega
  have g1 : (memPlace a bs).filter (fun p => decide (p.1 < a)) = [] := by
    rw [List.filter_eq_nil_iff]; intro p hp; simpa using f1 p hp
  have g2 : (memPlace a bs).filter (fun p => decide (a + cs.length ≤ p.1)) = [] := by
    rw [List.filter_eq_nil_iff]; intro p hp; simpa using f2 p hp
  have g3 : (m.filter (fun p => decide (a + bs.length ≤ p.1))).filter (fun p => decide (p.1 < a)) = [] := by
    rw [List.filter_eq_nil_iff]; intro p hp
    have := (List.mem_filter.mp hp).2; simp only [decide_eq_true_eq] at *; omega
  have g4 : (m.filter (fun p => decide (p.1 < a))).filter (fun p => decide (a + cs.length ≤ p.1)) = [] := by
    rw [List.filter_eq_nil_iff]; intro p hp
    have := (List.mem_filter.mp hp).2; simp only [decide_eq_true_eq] at *; omega
  have g5 : (m.filter (fun p => decide (p.1 < a))).filter (fun p => decide (p.1 < a)) = m.filter (fun p => decide (p.1 < a)) := by
    rw [List.filter_filter]; simp only [Bool.and_self]
  have g6 : (m.filter (fun p => decide (a + cs.length ≤ p.1))).filter (fun p => decide (a + cs.length ≤ p.1)) = m.filter (fun p => decide (a + cs.length ≤ p.1)) := by
    rw [List.filter_filter]; simp only [Bool.and_self]
  unfold memSetList
  rw [h] at g3 ⊢
  simp only [List.filter_append, g1, g2, g3, g4, g5, g6, List.nil_append, List.append_nil]

theorem bytesOf_length (n v : Nat) : (bytesOf n v).length = n := by
  induction n generalizing v with
  | zero => rfl
  | succ n ih => simp [bytesOf, ih]
theorem natOf_bytesOf (n v : Nat) : natOf (bytesOf n v) = v % 2 ^ (8 * n) := by
  induction n generalizing v with
  | zero => simp [bytesOf, natOf, Nat.mod_one]
  | succ n ih =>
    simp only [bytesOf, natOf, ih, BitVec.toNat_ofNat]
    rw [show 8 * (n + 1) = 8 + 8 * n by omega, Nat.pow_add, Nat.mod_mul]

/-! ### The canonical form -/

theorem risingFrom_mono (m : Mem) (lo hi : Nat) (h : lo ≤ hi) (r : risingFrom hi m = true) : risingFrom lo m = true := by
  cases m with
  | nil => rfl
  | cons p t =>
    obtain ⟨k, b⟩ := p
    simp only [risingFrom, Bool.and_eq_true, decide_eq_true_eq] at r ⊢
    exact ⟨by omega, r.2⟩

theorem risingFrom_filter (m : Mem) (lo : Nat) (q : Host.Cell → Bool) (r : risingFrom lo m = true) :
    risingFrom lo (m.filter q) = true := by
  induction m generalizing lo with
  | nil => rfl
  | cons p t ih =>
    obtain ⟨k, b⟩ := p
    simp only [risingFrom, Bool.and_eq_true, decide_eq_true_eq] at r
    by_cases hq : q (k, b) = true
    · simp only [List.filter_cons, hq, if_true, risingFrom, Bool.and_eq_true, decide_eq_true_eq]
      exact ⟨r.1, ih (k + 1) r.2⟩
    · simp only [List.filter_cons, hq]
      exact risingFrom_mono _ lo (k + 1) (by omega) (ih (k + 1) r.2)

theorem risingFrom_lower (m : Mem) (lo : Nat) (r : risingFrom lo m = true) : ∀ p ∈ m, lo ≤ p.1 := by
  induction m generalizing lo with
  | nil => simp
  | cons q t ih =>
    obtain ⟨k, b⟩ := q
    simp only [risingFrom, Bool.and_eq_true, decide_eq_true_eq] at r
    intro p hp
    rcases List.mem_cons.mp hp with rfl | hp
    · exact r.1
    · have := ih (k + 1) r.2 p hp; omega

theorem risingFrom_raise (m : Mem) (lo hi : Nat) (r : risingFrom lo m = true) (h : ∀ p ∈ m, hi ≤ p.1) :
    risingFrom hi m = true := by
  cases m with
  | nil => rfl
  | cons p t =>
    obtain ⟨k, b⟩ := p
    simp only [risingFrom, Bool.and_eq_true, decide_eq_true_eq] at r ⊢
    exact ⟨h (k, b) (by simp), r.2⟩

theorem risingFrom_append (m n : Mem) (lo mid : Nat) (hlo : lo ≤ mid) (rm : risingFrom lo m = true)
    (hm : ∀ p ∈ m, p.1 < mid) (rn : risingFrom mid n = true) : risingFrom lo (m ++ n) = true := by
  induction m generalizing lo with
  | nil => exact risingFrom_mono n lo mid hlo rn
  | cons p t ih =>
    obtain ⟨k, b⟩ := p
    simp only [risingFrom, Bool.and_eq_true, decide_eq_true_eq, List.cons_append] at rm ⊢
    have hk : k < mid := hm (k, b) (by simp)
    exact ⟨rm.1, ih (k + 1) (by omega) rm.2 (fun q hq => hm q (by simp [hq]))⟩

theorem risingFrom_memPlace (a : Nat) (bs : List Byte) : risingFrom a (memPlace a bs) = true := by
  induction bs generalizing a with
  | nil => rfl
  | cons b r ih =>
    by_cases hb : b = memDefault
    · simp only [memPlace, hb, if_true]; exact risingFrom_mono _ a (a + 1) (by omega) (ih (a + 1))
    · simp only [memPlace, hb, if_false, risingFrom, Bool.and_eq_true, decide_eq_true_eq]
      exact ⟨Nat.le_refl a, ih (a + 1)⟩

theorem memPlace_listed (a : Nat) (bs : List Byte) : (memPlace a bs).all (fun p => p.2 != memDefault) = true := by
  induction bs generalizing a with
  | nil => rfl
  | cons b r ih =>
    by_cases hb : b = memDefault
    · simp only [memPlace, hb, if_true]; exact ih (a + 1)
    · simp only [memPlace, hb, if_false, List.all_cons, Bool.and_eq_true]
      exact ⟨by simpa using hb, ih (a + 1)⟩

theorem Mem.wf_filter (m : Mem) (q : Host.Cell → Bool) (h : Mem.wf m = true) : Mem.wf (m.filter q) = true := by
  simp only [Mem.wf, Bool.and_eq_true] at h ⊢
  refine ⟨risingFrom_filter m 0 q h.1, ?_⟩
  rw [List.all_eq_true] at h ⊢
  exact fun p hp => h.2 p (List.mem_filter.mp hp).1

/-- Writing bytes keeps the canonical form. -/
theorem Mem.wf_memSetList (m : Mem) (a : Nat) (bs : List Byte) (h : Mem.wf m = true) : Mem.wf (memSetList m a bs) = true := by
  have lo := Mem.wf_filter m (fun p => decide (p.1 < a)) h
  have hi := Mem.wf_filter m (fun p => decide (a + bs.length ≤ p.1)) h
  simp only [Mem.wf, Bool.and_eq_true] at lo hi ⊢
  refine ⟨?_, ?_⟩
  · unfold memSetList
    apply risingFrom_append _ _ 0 a (Nat.zero_le a) lo.1
    · intro p hp
      have := (List.mem_filter.mp hp).2
      simpa using this
    · apply risingFrom_append _ _ a (a + bs.length) (by omega) (risingFrom_memPlace a bs)
      · intro p hp
        exact (memPlace_keys a bs p hp).2
      · apply risingFrom_raise _ 0 _ hi.1
        intro p hp
        have := (List.mem_filter.mp hp).2
        simpa using this
  · unfold memSetList
    simp only [List.all_append, Bool.and_eq_true]
    exact ⟨lo.2, memPlace_listed a bs, hi.2⟩

end Sys2Proof.Machine
end

