-- ==== Sys2Proof/Laws/Tab.lean ====
section
/-! SUPPORT. The laws of sparse tables: a read after a write. They hold for any table, in order or not. -/

namespace Sys2Proof.Machine

@[simp] theorem Tab.get_nil {α : Type} (k : Nat) (d : α) : Tab.get ([] : Tab α) k d = d := rfl

@[simp] theorem Tab.get_set_same {α : Type} (t : Tab α) (k : Nat) (v d : α) : Tab.get (Tab.set t k v) k d = v := by
  induction t with
  | nil => simp [Tab.set, Tab.get]
  | cons p r ih =>
    obtain ⟨j, w⟩ := p
    by_cases h : k < j
    · simp [Tab.set, Tab.get, h]
    · by_cases e : k = j
      · simp [Tab.set, Tab.get, e]
      · have e' : j ≠ k := fun q => e q.symm
        simp [Tab.set, Tab.get, h, e, e', ih]

theorem Tab.get_set_ne {α : Type} (t : Tab α) (k i : Nat) (v d : α) (h : i ≠ k) :
    Tab.get (Tab.set t k v) i d = Tab.get t i d := by
  induction t with
  | nil => simp [Tab.set, Tab.get, h.symm]
  | cons p r ih =>
    obtain ⟨j, w⟩ := p
    by_cases l : k < j
    · simp [Tab.set, Tab.get, l, h.symm]
    · by_cases e : k = j
      · subst e
        simp [Tab.set, Tab.get, h.symm]
      · by_cases q : j = i
        · subst q; simp [Tab.set, Tab.get, l, e]
        · simp [Tab.set, Tab.get, l, e, q, ih]

theorem Tab.get_set {α : Type} (t : Tab α) (k i : Nat) (v d : α) :
    Tab.get (Tab.set t k v) i d = if i = k then v else Tab.get t i d := by
  by_cases h : i = k
  · subst h; simp
  · simp [h, Tab.get_set_ne t k i v d h]

/-- The last of two writes to one key stands. -/
theorem Tab.set_set {α : Type} (t : Tab α) (k : Nat) (v w : α) : Tab.set (Tab.set t k v) k w = Tab.set t k w := by
  induction t with
  | nil => simp [Tab.set]
  | cons p r ih =>
    obtain ⟨j, x⟩ := p
    by_cases l : k < j
    · simp [Tab.set, l]
    · by_cases e : k = j
      · subst e; simp [Tab.set]
      · simp [Tab.set, l, e, ih]

theorem Tab.has_set_same {α : Type} (t : Tab α) (k : Nat) (v : α) : Tab.has (Tab.set t k v) k = true := by
  induction t with
  | nil => simp [Tab.set, Tab.has]
  | cons p r ih =>
    obtain ⟨j, w⟩ := p
    by_cases l : k < j
    · simp [Tab.set, Tab.has, l]
    · by_cases e : k = j
      · simp [Tab.set, Tab.has, e]
      · have : Tab.has (Tab.set r k v) k = true := ih
        simp only [Tab.has] at this
        simp [Tab.set, Tab.has, l, e, this]

/-- With no entry of the same tick ranked behind it, an entry joins at the end. -/
theorem joinTied_last {α : Type} (behind : α → Bool) (x : α) (l : List α) (h : ∀ y ∈ l.getLast?, behind y = false) :
    joinTied behind x l = l ++ [x] := by
  have e : l.reverse.takeWhile behind = [] := by
    cases hr : l.reverse with
    | nil => rfl
    | cons y r =>
      have : l.getLast? = some y := by rw [List.getLast?_eq_head?_reverse, hr]; rfl
      simp [List.takeWhile, h y this]
  simp [joinTied, e]

/-- Joining adds the one entry and drops none. -/
theorem mem_joinTied {α : Type} (behind : α → Bool) (x y : α) (l : List α) : y ∈ joinTied behind x l ↔ y = x ∨ y ∈ l := by
  simp only [joinTied, List.mem_append, List.mem_cons]
  constructor
  · rintro (h | rfl | h)
    · exact .inr (List.mem_of_mem_take h)
    · exact .inl rfl
    · exact .inr (List.mem_of_mem_drop h)
  · rintro (rfl | h)
    · exact .inr (.inl rfl)
    · rw [← List.take_append_drop (l.length - (l.reverse.takeWhile behind).length) l] at h
      rcases List.mem_append.mp h with h | h
      · exact .inl h
      · exact .inr (.inr h)

end Sys2Proof.Machine
end

