-- ==== Sys2Proof/Laws/State.lean ====
section
/-! SUPPORT. The state's updates, field by field, so that no proof unfolds a record update: what each leaves alone, and
what a read gives after it. -/

namespace Sys2Proof.Machine

/-! ### Fields an update leaves alone -/

@[simp] theorem State.setRegion_cyc (s : State) (c : Nat) (r : Region) : (s.setRegion c r).cyc = s.cyc := rfl
@[simp] theorem State.setRegion_pick (s : State) (c : Nat) (r : Region) : (s.setRegion c r).pick = s.pick := rfl
@[simp] theorem State.setRegion_due (s : State) (c : Nat) (r : Region) : (s.setRegion c r).due = s.due := rfl
@[simp] theorem State.setRegion_actor (s : State) (c : Nat) (r : Region) : (s.setRegion c r).actor = s.actor := rfl
@[simp] theorem State.setRegion_free (s : State) (c : Nat) (r : Region) : (s.setRegion c r).free = s.free := rfl
@[simp] theorem State.setRegion_framed (s : State) (c : Nat) (r : Region) : (s.setRegion c r).framed = s.framed := rfl
@[simp] theorem State.setRegion_mem (s : State) (c : Nat) (r : Region) : (s.setRegion c r).mem = s.mem := rfl
@[simp] theorem State.setRegion_tlb (s : State) (c : Nat) (r : Region) : (s.setRegion c r).tlb = s.tlb := rfl
@[simp] theorem State.setRegion_cues (s : State) (c : Nat) (r : Region) : (s.setRegion c r).cues = s.cues := rfl
@[simp] theorem State.setRegion_readyQ (s : State) (c : Nat) (r : Region) : (s.setRegion c r).readyQ = s.readyQ := rfl
@[simp] theorem State.setRegion_jobs (s : State) (c : Nat) (r : Region) : (s.setRegion c r).jobs = s.jobs := rfl
@[simp] theorem State.setRegion_tenants (s : State) (c : Nat) (r : Region) : (s.setRegion c r).tenants = s.tenants := rfl
@[simp] theorem State.setRegion_windows (s : State) (c : Nat) (r : Region) : (s.setRegion c r).windows = s.windows := rfl
@[simp] theorem State.setRegion_accepted (s : State) (c : Nat) (r : Region) : (s.setRegion c r).accepted = s.accepted := rfl
@[simp] theorem State.setRegion_dies (s : State) (c : Nat) (r : Region) : (s.setRegion c r).dies = s.dies := rfl
@[simp] theorem State.setRegion_pcells (s : State) (c : Nat) (r : Region) : (s.setRegion c r).pcells = s.pcells := rfl
@[simp] theorem State.setRegion_flys (s : State) (c : Nat) (r : Region) : (s.setRegion c r).flys = s.flys := rfl
@[simp] theorem State.setRegion_nextFly (s : State) (c : Nat) (r : Region) : (s.setRegion c r).nextFly = s.nextFly := rfl
@[simp] theorem State.setRegion_wings (s : State) (c : Nat) (r : Region) : (s.setRegion c r).wings = s.wings := rfl
@[simp] theorem State.setRegion_packets (s : State) (c : Nat) (r : Region) : (s.setRegion c r).packets = s.packets := rfl
@[simp] theorem State.setRegion_nextPkt (s : State) (c : Nat) (r : Region) : (s.setRegion c r).nextPkt = s.nextPkt := rfl
@[simp] theorem State.setRegion_fetches (s : State) (c : Nat) (r : Region) : (s.setRegion c r).fetches = s.fetches := rfl
@[simp] theorem State.setRegion_podmap (s : State) (c : Nat) (r : Region) : (s.setRegion c r).podmap = s.podmap := rfl
@[simp] theorem State.setRegion_fwDigest (s : State) (c : Nat) (r : Region) : (s.setRegion c r).fwDigest = s.fwDigest := rfl
@[simp] theorem State.setRegion_fwVersion (s : State) (c : Nat) (r : Region) : (s.setRegion c r).fwVersion = s.fwVersion := rfl
@[simp] theorem State.setRegion_fwOnly (s : State) (c : Nat) (r : Region) : (s.setRegion c r).fwOnly = s.fwOnly := rfl

@[simp] theorem State.setCue_cyc (s : State) (c : Nat) (q : Cue) : (s.setCue c q).cyc = s.cyc := rfl
@[simp] theorem State.setCue_pick (s : State) (c : Nat) (q : Cue) : (s.setCue c q).pick = s.pick := rfl
@[simp] theorem State.setCue_due (s : State) (c : Nat) (q : Cue) : (s.setCue c q).due = s.due := rfl
@[simp] theorem State.setCue_actor (s : State) (c : Nat) (q : Cue) : (s.setCue c q).actor = s.actor := rfl
@[simp] theorem State.setCue_free (s : State) (c : Nat) (q : Cue) : (s.setCue c q).free = s.free := rfl
@[simp] theorem State.setCue_framed (s : State) (c : Nat) (q : Cue) : (s.setCue c q).framed = s.framed := rfl
@[simp] theorem State.setCue_mem (s : State) (c : Nat) (q : Cue) : (s.setCue c q).mem = s.mem := rfl
@[simp] theorem State.setCue_tlb (s : State) (c : Nat) (q : Cue) : (s.setCue c q).tlb = s.tlb := rfl
@[simp] theorem State.setCue_readyQ (s : State) (c : Nat) (q : Cue) : (s.setCue c q).readyQ = s.readyQ := rfl
@[simp] theorem State.setCue_jobs (s : State) (c : Nat) (q : Cue) : (s.setCue c q).jobs = s.jobs := rfl
@[simp] theorem State.setCue_regions (s : State) (c : Nat) (q : Cue) : (s.setCue c q).regions = s.regions := rfl
@[simp] theorem State.setCue_tenants (s : State) (c : Nat) (q : Cue) : (s.setCue c q).tenants = s.tenants := rfl
@[simp] theorem State.setCue_windows (s : State) (c : Nat) (q : Cue) : (s.setCue c q).windows = s.windows := rfl
@[simp] theorem State.setCue_accepted (s : State) (c : Nat) (q : Cue) : (s.setCue c q).accepted = s.accepted := rfl
@[simp] theorem State.setCue_dies (s : State) (c : Nat) (q : Cue) : (s.setCue c q).dies = s.dies := rfl
@[simp] theorem State.setCue_pcells (s : State) (c : Nat) (q : Cue) : (s.setCue c q).pcells = s.pcells := rfl
@[simp] theorem State.setCue_flys (s : State) (c : Nat) (q : Cue) : (s.setCue c q).flys = s.flys := rfl
@[simp] theorem State.setCue_nextFly (s : State) (c : Nat) (q : Cue) : (s.setCue c q).nextFly = s.nextFly := rfl
@[simp] theorem State.setCue_wings (s : State) (c : Nat) (q : Cue) : (s.setCue c q).wings = s.wings := rfl
@[simp] theorem State.setCue_packets (s : State) (c : Nat) (q : Cue) : (s.setCue c q).packets = s.packets := rfl
@[simp] theorem State.setCue_nextPkt (s : State) (c : Nat) (q : Cue) : (s.setCue c q).nextPkt = s.nextPkt := rfl
@[simp] theorem State.setCue_fetches (s : State) (c : Nat) (q : Cue) : (s.setCue c q).fetches = s.fetches := rfl
@[simp] theorem State.setCue_podmap (s : State) (c : Nat) (q : Cue) : (s.setCue c q).podmap = s.podmap := rfl
@[simp] theorem State.setCue_fwDigest (s : State) (c : Nat) (q : Cue) : (s.setCue c q).fwDigest = s.fwDigest := rfl
@[simp] theorem State.setCue_fwVersion (s : State) (c : Nat) (q : Cue) : (s.setCue c q).fwVersion = s.fwVersion := rfl
@[simp] theorem State.setCue_fwOnly (s : State) (c : Nat) (q : Cue) : (s.setCue c q).fwOnly = s.fwOnly := rfl

@[simp] theorem State.setTenant_cyc (s : State) (t : Nat) (q : Tenant) : (s.setTenant t q).cyc = s.cyc := rfl
@[simp] theorem State.setTenant_pick (s : State) (t : Nat) (q : Tenant) : (s.setTenant t q).pick = s.pick := rfl
@[simp] theorem State.setTenant_due (s : State) (t : Nat) (q : Tenant) : (s.setTenant t q).due = s.due := rfl
@[simp] theorem State.setTenant_actor (s : State) (t : Nat) (q : Tenant) : (s.setTenant t q).actor = s.actor := rfl
@[simp] theorem State.setTenant_free (s : State) (t : Nat) (q : Tenant) : (s.setTenant t q).free = s.free := rfl
@[simp] theorem State.setTenant_framed (s : State) (t : Nat) (q : Tenant) : (s.setTenant t q).framed = s.framed := rfl
@[simp] theorem State.setTenant_mem (s : State) (t : Nat) (q : Tenant) : (s.setTenant t q).mem = s.mem := rfl
@[simp] theorem State.setTenant_tlb (s : State) (t : Nat) (q : Tenant) : (s.setTenant t q).tlb = s.tlb := rfl
@[simp] theorem State.setTenant_cues (s : State) (t : Nat) (q : Tenant) : (s.setTenant t q).cues = s.cues := rfl
@[simp] theorem State.setTenant_readyQ (s : State) (t : Nat) (q : Tenant) : (s.setTenant t q).readyQ = s.readyQ := rfl
@[simp] theorem State.setTenant_jobs (s : State) (t : Nat) (q : Tenant) : (s.setTenant t q).jobs = s.jobs := rfl
@[simp] theorem State.setTenant_regions (s : State) (t : Nat) (q : Tenant) : (s.setTenant t q).regions = s.regions := rfl
@[simp] theorem State.setTenant_windows (s : State) (t : Nat) (q : Tenant) : (s.setTenant t q).windows = s.windows := rfl
@[simp] theorem State.setTenant_accepted (s : State) (t : Nat) (q : Tenant) : (s.setTenant t q).accepted = s.accepted := rfl
@[simp] theorem State.setTenant_dies (s : State) (t : Nat) (q : Tenant) : (s.setTenant t q).dies = s.dies := rfl
@[simp] theorem State.setTenant_pcells (s : State) (t : Nat) (q : Tenant) : (s.setTenant t q).pcells = s.pcells := rfl
@[simp] theorem State.setTenant_flys (s : State) (t : Nat) (q : Tenant) : (s.setTenant t q).flys = s.flys := rfl
@[simp] theorem State.setTenant_nextFly (s : State) (t : Nat) (q : Tenant) : (s.setTenant t q).nextFly = s.nextFly := rfl
@[simp] theorem State.setTenant_wings (s : State) (t : Nat) (q : Tenant) : (s.setTenant t q).wings = s.wings := rfl
@[simp] theorem State.setTenant_packets (s : State) (t : Nat) (q : Tenant) : (s.setTenant t q).packets = s.packets := rfl
@[simp] theorem State.setTenant_nextPkt (s : State) (t : Nat) (q : Tenant) : (s.setTenant t q).nextPkt = s.nextPkt := rfl
@[simp] theorem State.setTenant_fetches (s : State) (t : Nat) (q : Tenant) : (s.setTenant t q).fetches = s.fetches := rfl
@[simp] theorem State.setTenant_podmap (s : State) (t : Nat) (q : Tenant) : (s.setTenant t q).podmap = s.podmap := rfl
@[simp] theorem State.setTenant_fwDigest (s : State) (t : Nat) (q : Tenant) : (s.setTenant t q).fwDigest = s.fwDigest := rfl
@[simp] theorem State.setTenant_fwVersion (s : State) (t : Nat) (q : Tenant) : (s.setTenant t q).fwVersion = s.fwVersion := rfl
@[simp] theorem State.setTenant_fwOnly (s : State) (t : Nat) (q : Tenant) : (s.setTenant t q).fwOnly = s.fwOnly := rfl

@[simp] theorem State.setWin_cyc (s : State) (w : Nat) (q : Win) : (s.setWin w q).cyc = s.cyc := rfl
@[simp] theorem State.setWin_pick (s : State) (w : Nat) (q : Win) : (s.setWin w q).pick = s.pick := rfl
@[simp] theorem State.setWin_due (s : State) (w : Nat) (q : Win) : (s.setWin w q).due = s.due := rfl
@[simp] theorem State.setWin_actor (s : State) (w : Nat) (q : Win) : (s.setWin w q).actor = s.actor := rfl
@[simp] theorem State.setWin_free (s : State) (w : Nat) (q : Win) : (s.setWin w q).free = s.free := rfl
@[simp] theorem State.setWin_framed (s : State) (w : Nat) (q : Win) : (s.setWin w q).framed = s.framed := rfl
@[simp] theorem State.setWin_mem (s : State) (w : Nat) (q : Win) : (s.setWin w q).mem = s.mem := rfl
@[simp] theorem State.setWin_tlb (s : State) (w : Nat) (q : Win) : (s.setWin w q).tlb = s.tlb := rfl
@[simp] theorem State.setWin_cues (s : State) (w : Nat) (q : Win) : (s.setWin w q).cues = s.cues := rfl
@[simp] theorem State.setWin_readyQ (s : State) (w : Nat) (q : Win) : (s.setWin w q).readyQ = s.readyQ := rfl
@[simp] theorem State.setWin_jobs (s : State) (w : Nat) (q : Win) : (s.setWin w q).jobs = s.jobs := rfl
@[simp] theorem State.setWin_regions (s : State) (w : Nat) (q : Win) : (s.setWin w q).regions = s.regions := rfl
@[simp] theorem State.setWin_tenants (s : State) (w : Nat) (q : Win) : (s.setWin w q).tenants = s.tenants := rfl
@[simp] theorem State.setWin_accepted (s : State) (w : Nat) (q : Win) : (s.setWin w q).accepted = s.accepted := rfl
@[simp] theorem State.setWin_dies (s : State) (w : Nat) (q : Win) : (s.setWin w q).dies = s.dies := rfl
@[simp] theorem State.setWin_pcells (s : State) (w : Nat) (q : Win) : (s.setWin w q).pcells = s.pcells := rfl
@[simp] theorem State.setWin_flys (s : State) (w : Nat) (q : Win) : (s.setWin w q).flys = s.flys := rfl
@[simp] theorem State.setWin_nextFly (s : State) (w : Nat) (q : Win) : (s.setWin w q).nextFly = s.nextFly := rfl
@[simp] theorem State.setWin_wings (s : State) (w : Nat) (q : Win) : (s.setWin w q).wings = s.wings := rfl
@[simp] theorem State.setWin_packets (s : State) (w : Nat) (q : Win) : (s.setWin w q).packets = s.packets := rfl
@[simp] theorem State.setWin_nextPkt (s : State) (w : Nat) (q : Win) : (s.setWin w q).nextPkt = s.nextPkt := rfl
@[simp] theorem State.setWin_fetches (s : State) (w : Nat) (q : Win) : (s.setWin w q).fetches = s.fetches := rfl
@[simp] theorem State.setWin_podmap (s : State) (w : Nat) (q : Win) : (s.setWin w q).podmap = s.podmap := rfl
@[simp] theorem State.setWin_fwDigest (s : State) (w : Nat) (q : Win) : (s.setWin w q).fwDigest = s.fwDigest := rfl
@[simp] theorem State.setWin_fwVersion (s : State) (w : Nat) (q : Win) : (s.setWin w q).fwVersion = s.fwVersion := rfl
@[simp] theorem State.setWin_fwOnly (s : State) (w : Nat) (q : Win) : (s.setWin w q).fwOnly = s.fwOnly := rfl

@[simp] theorem State.setDie_cyc (s : State) (d : Nat) (q : Die) : (s.setDie d q).cyc = s.cyc := rfl
@[simp] theorem State.setDie_pick (s : State) (d : Nat) (q : Die) : (s.setDie d q).pick = s.pick := rfl
@[simp] theorem State.setDie_due (s : State) (d : Nat) (q : Die) : (s.setDie d q).due = s.due := rfl
@[simp] theorem State.setDie_actor (s : State) (d : Nat) (q : Die) : (s.setDie d q).actor = s.actor := rfl
@[simp] theorem State.setDie_free (s : State) (d : Nat) (q : Die) : (s.setDie d q).free = s.free := rfl
@[simp] theorem State.setDie_framed (s : State) (d : Nat) (q : Die) : (s.setDie d q).framed = s.framed := rfl
@[simp] theorem State.setDie_mem (s : State) (d : Nat) (q : Die) : (s.setDie d q).mem = s.mem := rfl
@[simp] theorem State.setDie_tlb (s : State) (d : Nat) (q : Die) : (s.setDie d q).tlb = s.tlb := rfl
@[simp] theorem State.setDie_cues (s : State) (d : Nat) (q : Die) : (s.setDie d q).cues = s.cues := rfl
@[simp] theorem State.setDie_readyQ (s : State) (d : Nat) (q : Die) : (s.setDie d q).readyQ = s.readyQ := rfl
@[simp] theorem State.setDie_jobs (s : State) (d : Nat) (q : Die) : (s.setDie d q).jobs = s.jobs := rfl
@[simp] theorem State.setDie_regions (s : State) (d : Nat) (q : Die) : (s.setDie d q).regions = s.regions := rfl
@[simp] theorem State.setDie_tenants (s : State) (d : Nat) (q : Die) : (s.setDie d q).tenants = s.tenants := rfl
@[simp] theorem State.setDie_windows (s : State) (d : Nat) (q : Die) : (s.setDie d q).windows = s.windows := rfl
@[simp] theorem State.setDie_accepted (s : State) (d : Nat) (q : Die) : (s.setDie d q).accepted = s.accepted := rfl
@[simp] theorem State.setDie_pcells (s : State) (d : Nat) (q : Die) : (s.setDie d q).pcells = s.pcells := rfl
@[simp] theorem State.setDie_flys (s : State) (d : Nat) (q : Die) : (s.setDie d q).flys = s.flys := rfl
@[simp] theorem State.setDie_nextFly (s : State) (d : Nat) (q : Die) : (s.setDie d q).nextFly = s.nextFly := rfl
@[simp] theorem State.setDie_wings (s : State) (d : Nat) (q : Die) : (s.setDie d q).wings = s.wings := rfl
@[simp] theorem State.setDie_packets (s : State) (d : Nat) (q : Die) : (s.setDie d q).packets = s.packets := rfl
@[simp] theorem State.setDie_nextPkt (s : State) (d : Nat) (q : Die) : (s.setDie d q).nextPkt = s.nextPkt := rfl
@[simp] theorem State.setDie_fetches (s : State) (d : Nat) (q : Die) : (s.setDie d q).fetches = s.fetches := rfl
@[simp] theorem State.setDie_podmap (s : State) (d : Nat) (q : Die) : (s.setDie d q).podmap = s.podmap := rfl
@[simp] theorem State.setDie_fwDigest (s : State) (d : Nat) (q : Die) : (s.setDie d q).fwDigest = s.fwDigest := rfl
@[simp] theorem State.setDie_fwVersion (s : State) (d : Nat) (q : Die) : (s.setDie d q).fwVersion = s.fwVersion := rfl
@[simp] theorem State.setDie_fwOnly (s : State) (d : Nat) (q : Die) : (s.setDie d q).fwOnly = s.fwOnly := rfl

@[simp] theorem State.setPcell_cyc (s : State) (d p : Nat) (q : PCell) : (s.setPcell d p q).cyc = s.cyc := rfl
@[simp] theorem State.setPcell_pick (s : State) (d p : Nat) (q : PCell) : (s.setPcell d p q).pick = s.pick := rfl
@[simp] theorem State.setPcell_due (s : State) (d p : Nat) (q : PCell) : (s.setPcell d p q).due = s.due := rfl
@[simp] theorem State.setPcell_actor (s : State) (d p : Nat) (q : PCell) : (s.setPcell d p q).actor = s.actor := rfl
@[simp] theorem State.setPcell_free (s : State) (d p : Nat) (q : PCell) : (s.setPcell d p q).free = s.free := rfl
@[simp] theorem State.setPcell_framed (s : State) (d p : Nat) (q : PCell) : (s.setPcell d p q).framed = s.framed := rfl
@[simp] theorem State.setPcell_mem (s : State) (d p : Nat) (q : PCell) : (s.setPcell d p q).mem = s.mem := rfl
@[simp] theorem State.setPcell_tlb (s : State) (d p : Nat) (q : PCell) : (s.setPcell d p q).tlb = s.tlb := rfl
@[simp] theorem State.setPcell_cues (s : State) (d p : Nat) (q : PCell) : (s.setPcell d p q).cues = s.cues := rfl
@[simp] theorem State.setPcell_readyQ (s : State) (d p : Nat) (q : PCell) : (s.setPcell d p q).readyQ = s.readyQ := rfl
@[simp] theorem State.setPcell_jobs (s : State) (d p : Nat) (q : PCell) : (s.setPcell d p q).jobs = s.jobs := rfl
@[simp] theorem State.setPcell_regions (s : State) (d p : Nat) (q : PCell) : (s.setPcell d p q).regions = s.regions := rfl
@[simp] theorem State.setPcell_tenants (s : State) (d p : Nat) (q : PCell) : (s.setPcell d p q).tenants = s.tenants := rfl
@[simp] theorem State.setPcell_windows (s : State) (d p : Nat) (q : PCell) : (s.setPcell d p q).windows = s.windows := rfl
@[simp] theorem State.setPcell_accepted (s : State) (d p : Nat) (q : PCell) : (s.setPcell d p q).accepted = s.accepted := rfl
@[simp] theorem State.setPcell_dies (s : State) (d p : Nat) (q : PCell) : (s.setPcell d p q).dies = s.dies := rfl
@[simp] theorem State.setPcell_flys (s : State) (d p : Nat) (q : PCell) : (s.setPcell d p q).flys = s.flys := rfl
@[simp] theorem State.setPcell_nextFly (s : State) (d p : Nat) (q : PCell) : (s.setPcell d p q).nextFly = s.nextFly := rfl
@[simp] theorem State.setPcell_wings (s : State) (d p : Nat) (q : PCell) : (s.setPcell d p q).wings = s.wings := rfl
@[simp] theorem State.setPcell_packets (s : State) (d p : Nat) (q : PCell) : (s.setPcell d p q).packets = s.packets := rfl
@[simp] theorem State.setPcell_nextPkt (s : State) (d p : Nat) (q : PCell) : (s.setPcell d p q).nextPkt = s.nextPkt := rfl
@[simp] theorem State.setPcell_fetches (s : State) (d p : Nat) (q : PCell) : (s.setPcell d p q).fetches = s.fetches := rfl
@[simp] theorem State.setPcell_podmap (s : State) (d p : Nat) (q : PCell) : (s.setPcell d p q).podmap = s.podmap := rfl
@[simp] theorem State.setPcell_fwDigest (s : State) (d p : Nat) (q : PCell) : (s.setPcell d p q).fwDigest = s.fwDigest := rfl
@[simp] theorem State.setPcell_fwVersion (s : State) (d p : Nat) (q : PCell) : (s.setPcell d p q).fwVersion = s.fwVersion := rfl
@[simp] theorem State.setPcell_fwOnly (s : State) (d p : Nat) (q : PCell) : (s.setPcell d p q).fwOnly = s.fwOnly := rfl

@[simp] theorem State.setFly_cyc (s : State) (e : Nat) (q : FlyEng) : (s.setFly e q).cyc = s.cyc := rfl
@[simp] theorem State.setFly_pick (s : State) (e : Nat) (q : FlyEng) : (s.setFly e q).pick = s.pick := rfl
@[simp] theorem State.setFly_due (s : State) (e : Nat) (q : FlyEng) : (s.setFly e q).due = s.due := rfl
@[simp] theorem State.setFly_actor (s : State) (e : Nat) (q : FlyEng) : (s.setFly e q).actor = s.actor := rfl
@[simp] theorem State.setFly_free (s : State) (e : Nat) (q : FlyEng) : (s.setFly e q).free = s.free := rfl
@[simp] theorem State.setFly_framed (s : State) (e : Nat) (q : FlyEng) : (s.setFly e q).framed = s.framed := rfl
@[simp] theorem State.setFly_mem (s : State) (e : Nat) (q : FlyEng) : (s.setFly e q).mem = s.mem := rfl
@[simp] theorem State.setFly_tlb (s : State) (e : Nat) (q : FlyEng) : (s.setFly e q).tlb = s.tlb := rfl
@[simp] theorem State.setFly_cues (s : State) (e : Nat) (q : FlyEng) : (s.setFly e q).cues = s.cues := rfl
@[simp] theorem State.setFly_readyQ (s : State) (e : Nat) (q : FlyEng) : (s.setFly e q).readyQ = s.readyQ := rfl
@[simp] theorem State.setFly_jobs (s : State) (e : Nat) (q : FlyEng) : (s.setFly e q).jobs = s.jobs := rfl
@[simp] theorem State.setFly_regions (s : State) (e : Nat) (q : FlyEng) : (s.setFly e q).regions = s.regions := rfl
@[simp] theorem State.setFly_tenants (s : State) (e : Nat) (q : FlyEng) : (s.setFly e q).tenants = s.tenants := rfl
@[simp] theorem State.setFly_windows (s : State) (e : Nat) (q : FlyEng) : (s.setFly e q).windows = s.windows := rfl
@[simp] theorem State.setFly_accepted (s : State) (e : Nat) (q : FlyEng) : (s.setFly e q).accepted = s.accepted := rfl
@[simp] theorem State.setFly_dies (s : State) (e : Nat) (q : FlyEng) : (s.setFly e q).dies = s.dies := rfl
@[simp] theorem State.setFly_pcells (s : State) (e : Nat) (q : FlyEng) : (s.setFly e q).pcells = s.pcells := rfl
@[simp] theorem State.setFly_nextFly (s : State) (e : Nat) (q : FlyEng) : (s.setFly e q).nextFly = s.nextFly := rfl
@[simp] theorem State.setFly_wings (s : State) (e : Nat) (q : FlyEng) : (s.setFly e q).wings = s.wings := rfl
@[simp] theorem State.setFly_packets (s : State) (e : Nat) (q : FlyEng) : (s.setFly e q).packets = s.packets := rfl
@[simp] theorem State.setFly_nextPkt (s : State) (e : Nat) (q : FlyEng) : (s.setFly e q).nextPkt = s.nextPkt := rfl
@[simp] theorem State.setFly_fetches (s : State) (e : Nat) (q : FlyEng) : (s.setFly e q).fetches = s.fetches := rfl
@[simp] theorem State.setFly_podmap (s : State) (e : Nat) (q : FlyEng) : (s.setFly e q).podmap = s.podmap := rfl
@[simp] theorem State.setFly_fwDigest (s : State) (e : Nat) (q : FlyEng) : (s.setFly e q).fwDigest = s.fwDigest := rfl
@[simp] theorem State.setFly_fwVersion (s : State) (e : Nat) (q : FlyEng) : (s.setFly e q).fwVersion = s.fwVersion := rfl
@[simp] theorem State.setFly_fwOnly (s : State) (e : Nat) (q : FlyEng) : (s.setFly e q).fwOnly = s.fwOnly := rfl

@[simp] theorem State.setWing_cyc (s : State) (k : Nat) (q : Wings) : (s.setWing k q).cyc = s.cyc := rfl
@[simp] theorem State.setWing_pick (s : State) (k : Nat) (q : Wings) : (s.setWing k q).pick = s.pick := rfl
@[simp] theorem State.setWing_due (s : State) (k : Nat) (q : Wings) : (s.setWing k q).due = s.due := rfl
@[simp] theorem State.setWing_actor (s : State) (k : Nat) (q : Wings) : (s.setWing k q).actor = s.actor := rfl
@[simp] theorem State.setWing_free (s : State) (k : Nat) (q : Wings) : (s.setWing k q).free = s.free := rfl
@[simp] theorem State.setWing_framed (s : State) (k : Nat) (q : Wings) : (s.setWing k q).framed = s.framed := rfl
@[simp] theorem State.setWing_mem (s : State) (k : Nat) (q : Wings) : (s.setWing k q).mem = s.mem := rfl
@[simp] theorem State.setWing_tlb (s : State) (k : Nat) (q : Wings) : (s.setWing k q).tlb = s.tlb := rfl
@[simp] theorem State.setWing_cues (s : State) (k : Nat) (q : Wings) : (s.setWing k q).cues = s.cues := rfl
@[simp] theorem State.setWing_readyQ (s : State) (k : Nat) (q : Wings) : (s.setWing k q).readyQ = s.readyQ := rfl
@[simp] theorem State.setWing_jobs (s : State) (k : Nat) (q : Wings) : (s.setWing k q).jobs = s.jobs := rfl
@[simp] theorem State.setWing_regions (s : State) (k : Nat) (q : Wings) : (s.setWing k q).regions = s.regions := rfl
@[simp] theorem State.setWing_tenants (s : State) (k : Nat) (q : Wings) : (s.setWing k q).tenants = s.tenants := rfl
@[simp] theorem State.setWing_windows (s : State) (k : Nat) (q : Wings) : (s.setWing k q).windows = s.windows := rfl
@[simp] theorem State.setWing_accepted (s : State) (k : Nat) (q : Wings) : (s.setWing k q).accepted = s.accepted := rfl
@[simp] theorem State.setWing_dies (s : State) (k : Nat) (q : Wings) : (s.setWing k q).dies = s.dies := rfl
@[simp] theorem State.setWing_pcells (s : State) (k : Nat) (q : Wings) : (s.setWing k q).pcells = s.pcells := rfl
@[simp] theorem State.setWing_flys (s : State) (k : Nat) (q : Wings) : (s.setWing k q).flys = s.flys := rfl
@[simp] theorem State.setWing_nextFly (s : State) (k : Nat) (q : Wings) : (s.setWing k q).nextFly = s.nextFly := rfl
@[simp] theorem State.setWing_packets (s : State) (k : Nat) (q : Wings) : (s.setWing k q).packets = s.packets := rfl
@[simp] theorem State.setWing_nextPkt (s : State) (k : Nat) (q : Wings) : (s.setWing k q).nextPkt = s.nextPkt := rfl
@[simp] theorem State.setWing_fetches (s : State) (k : Nat) (q : Wings) : (s.setWing k q).fetches = s.fetches := rfl
@[simp] theorem State.setWing_podmap (s : State) (k : Nat) (q : Wings) : (s.setWing k q).podmap = s.podmap := rfl
@[simp] theorem State.setWing_fwDigest (s : State) (k : Nat) (q : Wings) : (s.setWing k q).fwDigest = s.fwDigest := rfl
@[simp] theorem State.setWing_fwVersion (s : State) (k : Nat) (q : Wings) : (s.setWing k q).fwVersion = s.fwVersion := rfl
@[simp] theorem State.setWing_fwOnly (s : State) (k : Nat) (q : Wings) : (s.setWing k q).fwOnly = s.fwOnly := rfl

@[simp] theorem State.write_cyc (s : State) (a : Nat) (bs : List Byte) : (s.write a bs).cyc = s.cyc := rfl
@[simp] theorem State.write_pick (s : State) (a : Nat) (bs : List Byte) : (s.write a bs).pick = s.pick := rfl
@[simp] theorem State.write_due (s : State) (a : Nat) (bs : List Byte) : (s.write a bs).due = s.due := rfl
@[simp] theorem State.write_actor (s : State) (a : Nat) (bs : List Byte) : (s.write a bs).actor = s.actor := rfl
@[simp] theorem State.write_free (s : State) (a : Nat) (bs : List Byte) : (s.write a bs).free = s.free := rfl
@[simp] theorem State.write_framed (s : State) (a : Nat) (bs : List Byte) : (s.write a bs).framed = s.framed := rfl
@[simp] theorem State.write_tlb (s : State) (a : Nat) (bs : List Byte) : (s.write a bs).tlb = s.tlb := rfl
@[simp] theorem State.write_cues (s : State) (a : Nat) (bs : List Byte) : (s.write a bs).cues = s.cues := rfl
@[simp] theorem State.write_readyQ (s : State) (a : Nat) (bs : List Byte) : (s.write a bs).readyQ = s.readyQ := rfl
@[simp] theorem State.write_jobs (s : State) (a : Nat) (bs : List Byte) : (s.write a bs).jobs = s.jobs := rfl
@[simp] theorem State.write_regions (s : State) (a : Nat) (bs : List Byte) : (s.write a bs).regions = s.regions := rfl
@[simp] theorem State.write_tenants (s : State) (a : Nat) (bs : List Byte) : (s.write a bs).tenants = s.tenants := rfl
@[simp] theorem State.write_windows (s : State) (a : Nat) (bs : List Byte) : (s.write a bs).windows = s.windows := rfl
@[simp] theorem State.write_accepted (s : State) (a : Nat) (bs : List Byte) : (s.write a bs).accepted = s.accepted := rfl
@[simp] theorem State.write_dies (s : State) (a : Nat) (bs : List Byte) : (s.write a bs).dies = s.dies := rfl
@[simp] theorem State.write_pcells (s : State) (a : Nat) (bs : List Byte) : (s.write a bs).pcells = s.pcells := rfl
@[simp] theorem State.write_flys (s : State) (a : Nat) (bs : List Byte) : (s.write a bs).flys = s.flys := rfl
@[simp] theorem State.write_nextFly (s : State) (a : Nat) (bs : List Byte) : (s.write a bs).nextFly = s.nextFly := rfl
@[simp] theorem State.write_wings (s : State) (a : Nat) (bs : List Byte) : (s.write a bs).wings = s.wings := rfl
@[simp] theorem State.write_packets (s : State) (a : Nat) (bs : List Byte) : (s.write a bs).packets = s.packets := rfl
@[simp] theorem State.write_nextPkt (s : State) (a : Nat) (bs : List Byte) : (s.write a bs).nextPkt = s.nextPkt := rfl
@[simp] theorem State.write_fetches (s : State) (a : Nat) (bs : List Byte) : (s.write a bs).fetches = s.fetches := rfl
@[simp] theorem State.write_podmap (s : State) (a : Nat) (bs : List Byte) : (s.write a bs).podmap = s.podmap := rfl
@[simp] theorem State.write_fwDigest (s : State) (a : Nat) (bs : List Byte) : (s.write a bs).fwDigest = s.fwDigest := rfl
@[simp] theorem State.write_fwVersion (s : State) (a : Nat) (bs : List Byte) : (s.write a bs).fwVersion = s.fwVersion := rfl
@[simp] theorem State.write_fwOnly (s : State) (a : Nat) (bs : List Byte) : (s.write a bs).fwOnly = s.fwOnly := rfl

@[simp] theorem State.tickFree_cyc (s : State) : (s.tickFree).cyc = s.cyc := rfl
@[simp] theorem State.tickFree_pick (s : State) : (s.tickFree).pick = s.pick := rfl
@[simp] theorem State.tickFree_due (s : State) : (s.tickFree).due = s.due := rfl
@[simp] theorem State.tickFree_actor (s : State) : (s.tickFree).actor = s.actor := rfl
@[simp] theorem State.tickFree_framed (s : State) : (s.tickFree).framed = s.framed := rfl
@[simp] theorem State.tickFree_mem (s : State) : (s.tickFree).mem = s.mem := rfl
@[simp] theorem State.tickFree_tlb (s : State) : (s.tickFree).tlb = s.tlb := rfl
@[simp] theorem State.tickFree_cues (s : State) : (s.tickFree).cues = s.cues := rfl
@[simp] theorem State.tickFree_readyQ (s : State) : (s.tickFree).readyQ = s.readyQ := rfl
@[simp] theorem State.tickFree_jobs (s : State) : (s.tickFree).jobs = s.jobs := rfl
@[simp] theorem State.tickFree_regions (s : State) : (s.tickFree).regions = s.regions := rfl
@[simp] theorem State.tickFree_tenants (s : State) : (s.tickFree).tenants = s.tenants := rfl
@[simp] theorem State.tickFree_windows (s : State) : (s.tickFree).windows = s.windows := rfl
@[simp] theorem State.tickFree_accepted (s : State) : (s.tickFree).accepted = s.accepted := rfl
@[simp] theorem State.tickFree_dies (s : State) : (s.tickFree).dies = s.dies := rfl
@[simp] theorem State.tickFree_pcells (s : State) : (s.tickFree).pcells = s.pcells := rfl
@[simp] theorem State.tickFree_flys (s : State) : (s.tickFree).flys = s.flys := rfl
@[simp] theorem State.tickFree_nextFly (s : State) : (s.tickFree).nextFly = s.nextFly := rfl
@[simp] theorem State.tickFree_wings (s : State) : (s.tickFree).wings = s.wings := rfl
@[simp] theorem State.tickFree_packets (s : State) : (s.tickFree).packets = s.packets := rfl
@[simp] theorem State.tickFree_nextPkt (s : State) : (s.tickFree).nextPkt = s.nextPkt := rfl
@[simp] theorem State.tickFree_fetches (s : State) : (s.tickFree).fetches = s.fetches := rfl
@[simp] theorem State.tickFree_podmap (s : State) : (s.tickFree).podmap = s.podmap := rfl
@[simp] theorem State.tickFree_fwDigest (s : State) : (s.tickFree).fwDigest = s.fwDigest := rfl
@[simp] theorem State.tickFree_fwVersion (s : State) : (s.tickFree).fwVersion = s.fwVersion := rfl
@[simp] theorem State.tickFree_fwOnly (s : State) : (s.tickFree).fwOnly = s.fwOnly := rfl

@[simp] theorem State.skipFree_cyc (s : State) (n : Nat) : (s.skipFree n).cyc = s.cyc := rfl
@[simp] theorem State.skipFree_pick (s : State) (n : Nat) : (s.skipFree n).pick = s.pick := rfl
@[simp] theorem State.skipFree_due (s : State) (n : Nat) : (s.skipFree n).due = s.due := rfl
@[simp] theorem State.skipFree_actor (s : State) (n : Nat) : (s.skipFree n).actor = s.actor := rfl
@[simp] theorem State.skipFree_framed (s : State) (n : Nat) : (s.skipFree n).framed = s.framed := rfl
@[simp] theorem State.skipFree_mem (s : State) (n : Nat) : (s.skipFree n).mem = s.mem := rfl
@[simp] theorem State.skipFree_tlb (s : State) (n : Nat) : (s.skipFree n).tlb = s.tlb := rfl
@[simp] theorem State.skipFree_cues (s : State) (n : Nat) : (s.skipFree n).cues = s.cues := rfl
@[simp] theorem State.skipFree_readyQ (s : State) (n : Nat) : (s.skipFree n).readyQ = s.readyQ := rfl
@[simp] theorem State.skipFree_jobs (s : State) (n : Nat) : (s.skipFree n).jobs = s.jobs := rfl
@[simp] theorem State.skipFree_regions (s : State) (n : Nat) : (s.skipFree n).regions = s.regions := rfl
@[simp] theorem State.skipFree_tenants (s : State) (n : Nat) : (s.skipFree n).tenants = s.tenants := rfl
@[simp] theorem State.skipFree_windows (s : State) (n : Nat) : (s.skipFree n).windows = s.windows := rfl
@[simp] theorem State.skipFree_accepted (s : State) (n : Nat) : (s.skipFree n).accepted = s.accepted := rfl
@[simp] theorem State.skipFree_dies (s : State) (n : Nat) : (s.skipFree n).dies = s.dies := rfl
@[simp] theorem State.skipFree_pcells (s : State) (n : Nat) : (s.skipFree n).pcells = s.pcells := rfl
@[simp] theorem State.skipFree_flys (s : State) (n : Nat) : (s.skipFree n).flys = s.flys := rfl
@[simp] theorem State.skipFree_nextFly (s : State) (n : Nat) : (s.skipFree n).nextFly = s.nextFly := rfl
@[simp] theorem State.skipFree_wings (s : State) (n : Nat) : (s.skipFree n).wings = s.wings := rfl
@[simp] theorem State.skipFree_packets (s : State) (n : Nat) : (s.skipFree n).packets = s.packets := rfl
@[simp] theorem State.skipFree_nextPkt (s : State) (n : Nat) : (s.skipFree n).nextPkt = s.nextPkt := rfl
@[simp] theorem State.skipFree_fetches (s : State) (n : Nat) : (s.skipFree n).fetches = s.fetches := rfl
@[simp] theorem State.skipFree_podmap (s : State) (n : Nat) : (s.skipFree n).podmap = s.podmap := rfl
@[simp] theorem State.skipFree_fwDigest (s : State) (n : Nat) : (s.skipFree n).fwDigest = s.fwDigest := rfl
@[simp] theorem State.skipFree_fwVersion (s : State) (n : Nat) : (s.skipFree n).fwVersion = s.fwVersion := rfl
@[simp] theorem State.skipFree_fwOnly (s : State) (n : Nat) : (s.skipFree n).fwOnly = s.fwOnly := rfl

@[simp] theorem State.setSlotAt_cyc (s : State) (c v k : Nat) (x : Slot) : (s.setSlotAt c v k x).cyc = s.cyc := rfl
@[simp] theorem State.setSlotAt_pick (s : State) (c v k : Nat) (x : Slot) : (s.setSlotAt c v k x).pick = s.pick := rfl
@[simp] theorem State.setSlotAt_due (s : State) (c v k : Nat) (x : Slot) : (s.setSlotAt c v k x).due = s.due := rfl
@[simp] theorem State.setSlotAt_actor (s : State) (c v k : Nat) (x : Slot) : (s.setSlotAt c v k x).actor = s.actor := rfl
@[simp] theorem State.setSlotAt_free (s : State) (c v k : Nat) (x : Slot) : (s.setSlotAt c v k x).free = s.free := rfl
@[simp] theorem State.setSlotAt_framed (s : State) (c v k : Nat) (x : Slot) : (s.setSlotAt c v k x).framed = s.framed := rfl
@[simp] theorem State.setSlotAt_mem (s : State) (c v k : Nat) (x : Slot) : (s.setSlotAt c v k x).mem = s.mem := rfl
@[simp] theorem State.setSlotAt_tlb (s : State) (c v k : Nat) (x : Slot) : (s.setSlotAt c v k x).tlb = s.tlb := rfl
@[simp] theorem State.setSlotAt_cues (s : State) (c v k : Nat) (x : Slot) : (s.setSlotAt c v k x).cues = s.cues := rfl
@[simp] theorem State.setSlotAt_readyQ (s : State) (c v k : Nat) (x : Slot) : (s.setSlotAt c v k x).readyQ = s.readyQ := rfl
@[simp] theorem State.setSlotAt_jobs (s : State) (c v k : Nat) (x : Slot) : (s.setSlotAt c v k x).jobs = s.jobs := rfl
@[simp] theorem State.setSlotAt_tenants (s : State) (c v k : Nat) (x : Slot) : (s.setSlotAt c v k x).tenants = s.tenants := rfl
@[simp] theorem State.setSlotAt_windows (s : State) (c v k : Nat) (x : Slot) : (s.setSlotAt c v k x).windows = s.windows := rfl
@[simp] theorem State.setSlotAt_accepted (s : State) (c v k : Nat) (x : Slot) : (s.setSlotAt c v k x).accepted = s.accepted := rfl
@[simp] theorem State.setSlotAt_dies (s : State) (c v k : Nat) (x : Slot) : (s.setSlotAt c v k x).dies = s.dies := rfl
@[simp] theorem State.setSlotAt_pcells (s : State) (c v k : Nat) (x : Slot) : (s.setSlotAt c v k x).pcells = s.pcells := rfl
@[simp] theorem State.setSlotAt_flys (s : State) (c v k : Nat) (x : Slot) : (s.setSlotAt c v k x).flys = s.flys := rfl
@[simp] theorem State.setSlotAt_nextFly (s : State) (c v k : Nat) (x : Slot) : (s.setSlotAt c v k x).nextFly = s.nextFly := rfl
@[simp] theorem State.setSlotAt_wings (s : State) (c v k : Nat) (x : Slot) : (s.setSlotAt c v k x).wings = s.wings := rfl
@[simp] theorem State.setSlotAt_packets (s : State) (c v k : Nat) (x : Slot) : (s.setSlotAt c v k x).packets = s.packets := rfl
@[simp] theorem State.setSlotAt_nextPkt (s : State) (c v k : Nat) (x : Slot) : (s.setSlotAt c v k x).nextPkt = s.nextPkt := rfl
@[simp] theorem State.setSlotAt_fetches (s : State) (c v k : Nat) (x : Slot) : (s.setSlotAt c v k x).fetches = s.fetches := rfl
@[simp] theorem State.setSlotAt_podmap (s : State) (c v k : Nat) (x : Slot) : (s.setSlotAt c v k x).podmap = s.podmap := rfl
@[simp] theorem State.setSlotAt_fwDigest (s : State) (c v k : Nat) (x : Slot) : (s.setSlotAt c v k x).fwDigest = s.fwDigest := rfl
@[simp] theorem State.setSlotAt_fwVersion (s : State) (c v k : Nat) (x : Slot) : (s.setSlotAt c v k x).fwVersion = s.fwVersion := rfl
@[simp] theorem State.setSlotAt_fwOnly (s : State) (c v k : Nat) (x : Slot) : (s.setSlotAt c v k x).fwOnly = s.fwOnly := rfl

@[simp] theorem State.setMe_cyc (s : State) (x : Slot) : (s.setMe x).cyc = s.cyc := rfl
@[simp] theorem State.setMe_pick (s : State) (x : Slot) : (s.setMe x).pick = s.pick := rfl
@[simp] theorem State.setMe_due (s : State) (x : Slot) : (s.setMe x).due = s.due := rfl
@[simp] theorem State.setMe_actor (s : State) (x : Slot) : (s.setMe x).actor = s.actor := rfl
@[simp] theorem State.setMe_free (s : State) (x : Slot) : (s.setMe x).free = s.free := rfl
@[simp] theorem State.setMe_framed (s : State) (x : Slot) : (s.setMe x).framed = s.framed := rfl
@[simp] theorem State.setMe_mem (s : State) (x : Slot) : (s.setMe x).mem = s.mem := rfl
@[simp] theorem State.setMe_tlb (s : State) (x : Slot) : (s.setMe x).tlb = s.tlb := rfl
@[simp] theorem State.setMe_cues (s : State) (x : Slot) : (s.setMe x).cues = s.cues := rfl
@[simp] theorem State.setMe_readyQ (s : State) (x : Slot) : (s.setMe x).readyQ = s.readyQ := rfl
@[simp] theorem State.setMe_jobs (s : State) (x : Slot) : (s.setMe x).jobs = s.jobs := rfl
@[simp] theorem State.setMe_tenants (s : State) (x : Slot) : (s.setMe x).tenants = s.tenants := rfl
@[simp] theorem State.setMe_windows (s : State) (x : Slot) : (s.setMe x).windows = s.windows := rfl
@[simp] theorem State.setMe_accepted (s : State) (x : Slot) : (s.setMe x).accepted = s.accepted := rfl
@[simp] theorem State.setMe_dies (s : State) (x : Slot) : (s.setMe x).dies = s.dies := rfl
@[simp] theorem State.setMe_pcells (s : State) (x : Slot) : (s.setMe x).pcells = s.pcells := rfl
@[simp] theorem State.setMe_flys (s : State) (x : Slot) : (s.setMe x).flys = s.flys := rfl
@[simp] theorem State.setMe_nextFly (s : State) (x : Slot) : (s.setMe x).nextFly = s.nextFly := rfl
@[simp] theorem State.setMe_wings (s : State) (x : Slot) : (s.setMe x).wings = s.wings := rfl
@[simp] theorem State.setMe_packets (s : State) (x : Slot) : (s.setMe x).packets = s.packets := rfl
@[simp] theorem State.setMe_nextPkt (s : State) (x : Slot) : (s.setMe x).nextPkt = s.nextPkt := rfl
@[simp] theorem State.setMe_fetches (s : State) (x : Slot) : (s.setMe x).fetches = s.fetches := rfl
@[simp] theorem State.setMe_podmap (s : State) (x : Slot) : (s.setMe x).podmap = s.podmap := rfl
@[simp] theorem State.setMe_fwDigest (s : State) (x : Slot) : (s.setMe x).fwDigest = s.fwDigest := rfl
@[simp] theorem State.setMe_fwVersion (s : State) (x : Slot) : (s.setMe x).fwVersion = s.fwVersion := rfl
@[simp] theorem State.setMe_fwOnly (s : State) (x : Slot) : (s.setMe x).fwOnly = s.fwOnly := rfl

@[simp] theorem State.setMyRegion_cyc (s : State) (r : Region) : (s.setMyRegion r).cyc = s.cyc := rfl
@[simp] theorem State.setMyRegion_pick (s : State) (r : Region) : (s.setMyRegion r).pick = s.pick := rfl
@[simp] theorem State.setMyRegion_due (s : State) (r : Region) : (s.setMyRegion r).due = s.due := rfl
@[simp] theorem State.setMyRegion_actor (s : State) (r : Region) : (s.setMyRegion r).actor = s.actor := rfl
@[simp] theorem State.setMyRegion_free (s : State) (r : Region) : (s.setMyRegion r).free = s.free := rfl
@[simp] theorem State.setMyRegion_framed (s : State) (r : Region) : (s.setMyRegion r).framed = s.framed := rfl
@[simp] theorem State.setMyRegion_mem (s : State) (r : Region) : (s.setMyRegion r).mem = s.mem := rfl
@[simp] theorem State.setMyRegion_tlb (s : State) (r : Region) : (s.setMyRegion r).tlb = s.tlb := rfl
@[simp] theorem State.setMyRegion_cues (s : State) (r : Region) : (s.setMyRegion r).cues = s.cues := rfl
@[simp] theorem State.setMyRegion_readyQ (s : State) (r : Region) : (s.setMyRegion r).readyQ = s.readyQ := rfl
@[simp] theorem State.setMyRegion_jobs (s : State) (r : Region) : (s.setMyRegion r).jobs = s.jobs := rfl
@[simp] theorem State.setMyRegion_tenants (s : State) (r : Region) : (s.setMyRegion r).tenants = s.tenants := rfl
@[simp] theorem State.setMyRegion_windows (s : State) (r : Region) : (s.setMyRegion r).windows = s.windows := rfl
@[simp] theorem State.setMyRegion_accepted (s : State) (r : Region) : (s.setMyRegion r).accepted = s.accepted := rfl
@[simp] theorem State.setMyRegion_dies (s : State) (r : Region) : (s.setMyRegion r).dies = s.dies := rfl
@[simp] theorem State.setMyRegion_pcells (s : State) (r : Region) : (s.setMyRegion r).pcells = s.pcells := rfl
@[simp] theorem State.setMyRegion_flys (s : State) (r : Region) : (s.setMyRegion r).flys = s.flys := rfl
@[simp] theorem State.setMyRegion_nextFly (s : State) (r : Region) : (s.setMyRegion r).nextFly = s.nextFly := rfl
@[simp] theorem State.setMyRegion_wings (s : State) (r : Region) : (s.setMyRegion r).wings = s.wings := rfl
@[simp] theorem State.setMyRegion_packets (s : State) (r : Region) : (s.setMyRegion r).packets = s.packets := rfl
@[simp] theorem State.setMyRegion_nextPkt (s : State) (r : Region) : (s.setMyRegion r).nextPkt = s.nextPkt := rfl
@[simp] theorem State.setMyRegion_fetches (s : State) (r : Region) : (s.setMyRegion r).fetches = s.fetches := rfl
@[simp] theorem State.setMyRegion_podmap (s : State) (r : Region) : (s.setMyRegion r).podmap = s.podmap := rfl
@[simp] theorem State.setMyRegion_fwDigest (s : State) (r : Region) : (s.setMyRegion r).fwDigest = s.fwDigest := rfl
@[simp] theorem State.setMyRegion_fwVersion (s : State) (r : Region) : (s.setMyRegion r).fwVersion = s.fwVersion := rfl
@[simp] theorem State.setMyRegion_fwOnly (s : State) (r : Region) : (s.setMyRegion r).fwOnly = s.fwOnly := rfl

@[simp] theorem State.setMyCell_cyc (s : State) (x : VCell) : (s.setMyCell x).cyc = s.cyc := rfl
@[simp] theorem State.setMyCell_pick (s : State) (x : VCell) : (s.setMyCell x).pick = s.pick := rfl
@[simp] theorem State.setMyCell_due (s : State) (x : VCell) : (s.setMyCell x).due = s.due := rfl
@[simp] theorem State.setMyCell_actor (s : State) (x : VCell) : (s.setMyCell x).actor = s.actor := rfl
@[simp] theorem State.setMyCell_free (s : State) (x : VCell) : (s.setMyCell x).free = s.free := rfl
@[simp] theorem State.setMyCell_framed (s : State) (x : VCell) : (s.setMyCell x).framed = s.framed := rfl
@[simp] theorem State.setMyCell_mem (s : State) (x : VCell) : (s.setMyCell x).mem = s.mem := rfl
@[simp] theorem State.setMyCell_tlb (s : State) (x : VCell) : (s.setMyCell x).tlb = s.tlb := rfl
@[simp] theorem State.setMyCell_cues (s : State) (x : VCell) : (s.setMyCell x).cues = s.cues := rfl
@[simp] theorem State.setMyCell_readyQ (s : State) (x : VCell) : (s.setMyCell x).readyQ = s.readyQ := rfl
@[simp] theorem State.setMyCell_jobs (s : State) (x : VCell) : (s.setMyCell x).jobs = s.jobs := rfl
@[simp] theorem State.setMyCell_tenants (s : State) (x : VCell) : (s.setMyCell x).tenants = s.tenants := rfl
@[simp] theorem State.setMyCell_windows (s : State) (x : VCell) : (s.setMyCell x).windows = s.windows := rfl
@[simp] theorem State.setMyCell_accepted (s : State) (x : VCell) : (s.setMyCell x).accepted = s.accepted := rfl
@[simp] theorem State.setMyCell_dies (s : State) (x : VCell) : (s.setMyCell x).dies = s.dies := rfl
@[simp] theorem State.setMyCell_pcells (s : State) (x : VCell) : (s.setMyCell x).pcells = s.pcells := rfl
@[simp] theorem State.setMyCell_flys (s : State) (x : VCell) : (s.setMyCell x).flys = s.flys := rfl
@[simp] theorem State.setMyCell_nextFly (s : State) (x : VCell) : (s.setMyCell x).nextFly = s.nextFly := rfl
@[simp] theorem State.setMyCell_wings (s : State) (x : VCell) : (s.setMyCell x).wings = s.wings := rfl
@[simp] theorem State.setMyCell_packets (s : State) (x : VCell) : (s.setMyCell x).packets = s.packets := rfl
@[simp] theorem State.setMyCell_nextPkt (s : State) (x : VCell) : (s.setMyCell x).nextPkt = s.nextPkt := rfl
@[simp] theorem State.setMyCell_fetches (s : State) (x : VCell) : (s.setMyCell x).fetches = s.fetches := rfl
@[simp] theorem State.setMyCell_podmap (s : State) (x : VCell) : (s.setMyCell x).podmap = s.podmap := rfl
@[simp] theorem State.setMyCell_fwDigest (s : State) (x : VCell) : (s.setMyCell x).fwDigest = s.fwDigest := rfl
@[simp] theorem State.setMyCell_fwVersion (s : State) (x : VCell) : (s.setMyCell x).fwVersion = s.fwVersion := rfl
@[simp] theorem State.setMyCell_fwOnly (s : State) (x : VCell) : (s.setMyCell x).fwOnly = s.fwOnly := rfl

/-! ### What an update writes -/

@[simp] theorem State.setRegion_region (s : State) (c : Nat) (r : Region) : (s.setRegion c r).region c = r := Tab.get_set_same _ _ _ _
theorem State.setRegion_region_ne (s : State) (c : Nat) (r : Region) (i : Nat) (h : i ≠ c) : (s.setRegion c r).region i = s.region i :=
  Tab.get_set_ne _ _ _ _ _ h
@[simp] theorem State.setCue_cue (s : State) (c : Nat) (q : Cue) : (s.setCue c q).cue c = q := Tab.get_set_same _ _ _ _
theorem State.setCue_cue_ne (s : State) (c : Nat) (q : Cue) (i : Nat) (h : i ≠ c) : (s.setCue c q).cue i = s.cue i :=
  Tab.get_set_ne _ _ _ _ _ h
@[simp] theorem State.setTenant_tenant (s : State) (t : Nat) (q : Tenant) : (s.setTenant t q).tenant t = q := Tab.get_set_same _ _ _ _
theorem State.setTenant_tenant_ne (s : State) (t : Nat) (q : Tenant) (i : Nat) (h : i ≠ t) : (s.setTenant t q).tenant i = s.tenant i :=
  Tab.get_set_ne _ _ _ _ _ h
@[simp] theorem State.setWin_win (s : State) (w : Nat) (q : Win) : (s.setWin w q).win w = q := Tab.get_set_same _ _ _ _
theorem State.setWin_win_ne (s : State) (w : Nat) (q : Win) (i : Nat) (h : i ≠ w) : (s.setWin w q).win i = s.win i :=
  Tab.get_set_ne _ _ _ _ _ h
@[simp] theorem State.setDie_die (s : State) (d : Nat) (q : Die) : (s.setDie d q).die d = q := Tab.get_set_same _ _ _ _
theorem State.setDie_die_ne (s : State) (d : Nat) (q : Die) (i : Nat) (h : i ≠ d) : (s.setDie d q).die i = s.die i :=
  Tab.get_set_ne _ _ _ _ _ h
@[simp] theorem State.setFly_fly (s : State) (e : Nat) (q : FlyEng) : (s.setFly e q).fly e = q := Tab.get_set_same _ _ _ _
theorem State.setFly_fly_ne (s : State) (e : Nat) (q : FlyEng) (i : Nat) (h : i ≠ e) : (s.setFly e q).fly i = s.fly i :=
  Tab.get_set_ne _ _ _ _ _ h
@[simp] theorem State.setWing_wing (s : State) (k : Nat) (q : Wings) : (s.setWing k q).wing k = q := Tab.get_set_same _ _ _ _
theorem State.setWing_wing_ne (s : State) (k : Nat) (q : Wings) (i : Nat) (h : i ≠ k) : (s.setWing k q).wing i = s.wing i :=
  Tab.get_set_ne _ _ _ _ _ h

@[simp] theorem State.setRegion_cue_of (s : State) (c : Nat) (r : Region) (i : Nat) : (s.setRegion c r).cue i = s.cue i := rfl
@[simp] theorem State.setRegion_tenant_of (s : State) (c : Nat) (r : Region) (i : Nat) : (s.setRegion c r).tenant i = s.tenant i := rfl
@[simp] theorem State.setRegion_win_of (s : State) (c : Nat) (r : Region) (i : Nat) : (s.setRegion c r).win i = s.win i := rfl
@[simp] theorem State.setRegion_die_of (s : State) (c : Nat) (r : Region) (i : Nat) : (s.setRegion c r).die i = s.die i := rfl
@[simp] theorem State.setRegion_fly_of (s : State) (c : Nat) (r : Region) (i : Nat) : (s.setRegion c r).fly i = s.fly i := rfl
@[simp] theorem State.setRegion_wing_of (s : State) (c : Nat) (r : Region) (i : Nat) : (s.setRegion c r).wing i = s.wing i := rfl
@[simp] theorem State.setCue_region_of (s : State) (c : Nat) (q : Cue) (i : Nat) : (s.setCue c q).region i = s.region i := rfl
@[simp] theorem State.setCue_tenant_of (s : State) (c : Nat) (q : Cue) (i : Nat) : (s.setCue c q).tenant i = s.tenant i := rfl
@[simp] theorem State.setCue_win_of (s : State) (c : Nat) (q : Cue) (i : Nat) : (s.setCue c q).win i = s.win i := rfl
@[simp] theorem State.setCue_die_of (s : State) (c : Nat) (q : Cue) (i : Nat) : (s.setCue c q).die i = s.die i := rfl
@[simp] theorem State.setCue_fly_of (s : State) (c : Nat) (q : Cue) (i : Nat) : (s.setCue c q).fly i = s.fly i := rfl
@[simp] theorem State.setCue_wing_of (s : State) (c : Nat) (q : Cue) (i : Nat) : (s.setCue c q).wing i = s.wing i := rfl
@[simp] theorem State.setTenant_region_of (s : State) (t : Nat) (q : Tenant) (i : Nat) : (s.setTenant t q).region i = s.region i := rfl
@[simp] theorem State.setTenant_cue_of (s : State) (t : Nat) (q : Tenant) (i : Nat) : (s.setTenant t q).cue i = s.cue i := rfl
@[simp] theorem State.setTenant_win_of (s : State) (t : Nat) (q : Tenant) (i : Nat) : (s.setTenant t q).win i = s.win i := rfl
@[simp] theorem State.setTenant_die_of (s : State) (t : Nat) (q : Tenant) (i : Nat) : (s.setTenant t q).die i = s.die i := rfl
@[simp] theorem State.setTenant_fly_of (s : State) (t : Nat) (q : Tenant) (i : Nat) : (s.setTenant t q).fly i = s.fly i := rfl
@[simp] theorem State.setTenant_wing_of (s : State) (t : Nat) (q : Tenant) (i : Nat) : (s.setTenant t q).wing i = s.wing i := rfl
@[simp] theorem State.setWin_region_of (s : State) (w : Nat) (q : Win) (i : Nat) : (s.setWin w q).region i = s.region i := rfl
@[simp] theorem State.setWin_cue_of (s : State) (w : Nat) (q : Win) (i : Nat) : (s.setWin w q).cue i = s.cue i := rfl
@[simp] theorem State.setWin_tenant_of (s : State) (w : Nat) (q : Win) (i : Nat) : (s.setWin w q).tenant i = s.tenant i := rfl
@[simp] theorem State.setWin_die_of (s : State) (w : Nat) (q : Win) (i : Nat) : (s.setWin w q).die i = s.die i := rfl
@[simp] theorem State.setWin_fly_of (s : State) (w : Nat) (q : Win) (i : Nat) : (s.setWin w q).fly i = s.fly i := rfl
@[simp] theorem State.setWin_wing_of (s : State) (w : Nat) (q : Win) (i : Nat) : (s.setWin w q).wing i = s.wing i := rfl
@[simp] theorem State.setDie_region_of (s : State) (d : Nat) (q : Die) (i : Nat) : (s.setDie d q).region i = s.region i := rfl
@[simp] theorem State.setDie_cue_of (s : State) (d : Nat) (q : Die) (i : Nat) : (s.setDie d q).cue i = s.cue i := rfl
@[simp] theorem State.setDie_tenant_of (s : State) (d : Nat) (q : Die) (i : Nat) : (s.setDie d q).tenant i = s.tenant i := rfl
@[simp] theorem State.setDie_win_of (s : State) (d : Nat) (q : Die) (i : Nat) : (s.setDie d q).win i = s.win i := rfl
@[simp] theorem State.setDie_fly_of (s : State) (d : Nat) (q : Die) (i : Nat) : (s.setDie d q).fly i = s.fly i := rfl
@[simp] theorem State.setDie_wing_of (s : State) (d : Nat) (q : Die) (i : Nat) : (s.setDie d q).wing i = s.wing i := rfl
@[simp] theorem State.setPcell_region_of (s : State) (d p : Nat) (q : PCell) (i : Nat) : (s.setPcell d p q).region i = s.region i := rfl
@[simp] theorem State.setPcell_cue_of (s : State) (d p : Nat) (q : PCell) (i : Nat) : (s.setPcell d p q).cue i = s.cue i := rfl
@[simp] theorem State.setPcell_tenant_of (s : State) (d p : Nat) (q : PCell) (i : Nat) : (s.setPcell d p q).tenant i = s.tenant i := rfl
@[simp] theorem State.setPcell_win_of (s : State) (d p : Nat) (q : PCell) (i : Nat) : (s.setPcell d p q).win i = s.win i := rfl
@[simp] theorem State.setPcell_die_of (s : State) (d p : Nat) (q : PCell) (i : Nat) : (s.setPcell d p q).die i = s.die i := rfl
@[simp] theorem State.setPcell_fly_of (s : State) (d p : Nat) (q : PCell) (i : Nat) : (s.setPcell d p q).fly i = s.fly i := rfl
@[simp] theorem State.setPcell_wing_of (s : State) (d p : Nat) (q : PCell) (i : Nat) : (s.setPcell d p q).wing i = s.wing i := rfl
@[simp] theorem State.setFly_region_of (s : State) (e : Nat) (q : FlyEng) (i : Nat) : (s.setFly e q).region i = s.region i := rfl
@[simp] theorem State.setFly_cue_of (s : State) (e : Nat) (q : FlyEng) (i : Nat) : (s.setFly e q).cue i = s.cue i := rfl
@[simp] theorem State.setFly_tenant_of (s : State) (e : Nat) (q : FlyEng) (i : Nat) : (s.setFly e q).tenant i = s.tenant i := rfl
@[simp] theorem State.setFly_win_of (s : State) (e : Nat) (q : FlyEng) (i : Nat) : (s.setFly e q).win i = s.win i := rfl
@[simp] theorem State.setFly_die_of (s : State) (e : Nat) (q : FlyEng) (i : Nat) : (s.setFly e q).die i = s.die i := rfl
@[simp] theorem State.setFly_wing_of (s : State) (e : Nat) (q : FlyEng) (i : Nat) : (s.setFly e q).wing i = s.wing i := rfl
@[simp] theorem State.setWing_region_of (s : State) (k : Nat) (q : Wings) (i : Nat) : (s.setWing k q).region i = s.region i := rfl
@[simp] theorem State.setWing_cue_of (s : State) (k : Nat) (q : Wings) (i : Nat) : (s.setWing k q).cue i = s.cue i := rfl
@[simp] theorem State.setWing_tenant_of (s : State) (k : Nat) (q : Wings) (i : Nat) : (s.setWing k q).tenant i = s.tenant i := rfl
@[simp] theorem State.setWing_win_of (s : State) (k : Nat) (q : Wings) (i : Nat) : (s.setWing k q).win i = s.win i := rfl
@[simp] theorem State.setWing_die_of (s : State) (k : Nat) (q : Wings) (i : Nat) : (s.setWing k q).die i = s.die i := rfl
@[simp] theorem State.setWing_fly_of (s : State) (k : Nat) (q : Wings) (i : Nat) : (s.setWing k q).fly i = s.fly i := rfl
@[simp] theorem State.write_region_of (s : State) (a : Nat) (bs : List Byte) (i : Nat) : (s.write a bs).region i = s.region i := rfl
@[simp] theorem State.write_cue_of (s : State) (a : Nat) (bs : List Byte) (i : Nat) : (s.write a bs).cue i = s.cue i := rfl
@[simp] theorem State.write_tenant_of (s : State) (a : Nat) (bs : List Byte) (i : Nat) : (s.write a bs).tenant i = s.tenant i := rfl
@[simp] theorem State.write_win_of (s : State) (a : Nat) (bs : List Byte) (i : Nat) : (s.write a bs).win i = s.win i := rfl
@[simp] theorem State.write_die_of (s : State) (a : Nat) (bs : List Byte) (i : Nat) : (s.write a bs).die i = s.die i := rfl
@[simp] theorem State.write_fly_of (s : State) (a : Nat) (bs : List Byte) (i : Nat) : (s.write a bs).fly i = s.fly i := rfl
@[simp] theorem State.write_wing_of (s : State) (a : Nat) (bs : List Byte) (i : Nat) : (s.write a bs).wing i = s.wing i := rfl
@[simp] theorem State.tickFree_region_of (s : State) (i : Nat) : (s.tickFree).region i = s.region i := rfl
@[simp] theorem State.tickFree_cue_of (s : State) (i : Nat) : (s.tickFree).cue i = s.cue i := rfl
@[simp] theorem State.tickFree_tenant_of (s : State) (i : Nat) : (s.tickFree).tenant i = s.tenant i := rfl
@[simp] theorem State.tickFree_win_of (s : State) (i : Nat) : (s.tickFree).win i = s.win i := rfl
@[simp] theorem State.tickFree_die_of (s : State) (i : Nat) : (s.tickFree).die i = s.die i := rfl
@[simp] theorem State.tickFree_fly_of (s : State) (i : Nat) : (s.tickFree).fly i = s.fly i := rfl
@[simp] theorem State.tickFree_wing_of (s : State) (i : Nat) : (s.tickFree).wing i = s.wing i := rfl
@[simp] theorem State.skipFree_region_of (s : State) (n : Nat) (i : Nat) : (s.skipFree n).region i = s.region i := rfl
@[simp] theorem State.skipFree_cue_of (s : State) (n : Nat) (i : Nat) : (s.skipFree n).cue i = s.cue i := rfl
@[simp] theorem State.skipFree_tenant_of (s : State) (n : Nat) (i : Nat) : (s.skipFree n).tenant i = s.tenant i := rfl
@[simp] theorem State.skipFree_win_of (s : State) (n : Nat) (i : Nat) : (s.skipFree n).win i = s.win i := rfl
@[simp] theorem State.skipFree_die_of (s : State) (n : Nat) (i : Nat) : (s.skipFree n).die i = s.die i := rfl
@[simp] theorem State.skipFree_fly_of (s : State) (n : Nat) (i : Nat) : (s.skipFree n).fly i = s.fly i := rfl
@[simp] theorem State.skipFree_wing_of (s : State) (n : Nat) (i : Nat) : (s.skipFree n).wing i = s.wing i := rfl
@[simp] theorem State.setSlotAt_cue_of (s : State) (c v k : Nat) (x : Slot) (i : Nat) : (s.setSlotAt c v k x).cue i = s.cue i := rfl
@[simp] theorem State.setSlotAt_tenant_of (s : State) (c v k : Nat) (x : Slot) (i : Nat) : (s.setSlotAt c v k x).tenant i = s.tenant i := rfl
@[simp] theorem State.setSlotAt_win_of (s : State) (c v k : Nat) (x : Slot) (i : Nat) : (s.setSlotAt c v k x).win i = s.win i := rfl
@[simp] theorem State.setSlotAt_die_of (s : State) (c v k : Nat) (x : Slot) (i : Nat) : (s.setSlotAt c v k x).die i = s.die i := rfl
@[simp] theorem State.setSlotAt_fly_of (s : State) (c v k : Nat) (x : Slot) (i : Nat) : (s.setSlotAt c v k x).fly i = s.fly i := rfl
@[simp] theorem State.setSlotAt_wing_of (s : State) (c v k : Nat) (x : Slot) (i : Nat) : (s.setSlotAt c v k x).wing i = s.wing i := rfl
@[simp] theorem State.setMe_cue_of (s : State) (x : Slot) (i : Nat) : (s.setMe x).cue i = s.cue i := rfl
@[simp] theorem State.setMe_tenant_of (s : State) (x : Slot) (i : Nat) : (s.setMe x).tenant i = s.tenant i := rfl
@[simp] theorem State.setMe_win_of (s : State) (x : Slot) (i : Nat) : (s.setMe x).win i = s.win i := rfl
@[simp] theorem State.setMe_die_of (s : State) (x : Slot) (i : Nat) : (s.setMe x).die i = s.die i := rfl
@[simp] theorem State.setMe_fly_of (s : State) (x : Slot) (i : Nat) : (s.setMe x).fly i = s.fly i := rfl
@[simp] theorem State.setMe_wing_of (s : State) (x : Slot) (i : Nat) : (s.setMe x).wing i = s.wing i := rfl
@[simp] theorem State.setMyRegion_cue_of (s : State) (r : Region) (i : Nat) : (s.setMyRegion r).cue i = s.cue i := rfl
@[simp] theorem State.setMyRegion_tenant_of (s : State) (r : Region) (i : Nat) : (s.setMyRegion r).tenant i = s.tenant i := rfl
@[simp] theorem State.setMyRegion_win_of (s : State) (r : Region) (i : Nat) : (s.setMyRegion r).win i = s.win i := rfl
@[simp] theorem State.setMyRegion_die_of (s : State) (r : Region) (i : Nat) : (s.setMyRegion r).die i = s.die i := rfl
@[simp] theorem State.setMyRegion_fly_of (s : State) (r : Region) (i : Nat) : (s.setMyRegion r).fly i = s.fly i := rfl
@[simp] theorem State.setMyRegion_wing_of (s : State) (r : Region) (i : Nat) : (s.setMyRegion r).wing i = s.wing i := rfl
@[simp] theorem State.setMyCell_cue_of (s : State) (x : VCell) (i : Nat) : (s.setMyCell x).cue i = s.cue i := rfl
@[simp] theorem State.setMyCell_tenant_of (s : State) (x : VCell) (i : Nat) : (s.setMyCell x).tenant i = s.tenant i := rfl
@[simp] theorem State.setMyCell_win_of (s : State) (x : VCell) (i : Nat) : (s.setMyCell x).win i = s.win i := rfl
@[simp] theorem State.setMyCell_die_of (s : State) (x : VCell) (i : Nat) : (s.setMyCell x).die i = s.die i := rfl
@[simp] theorem State.setMyCell_fly_of (s : State) (x : VCell) (i : Nat) : (s.setMyCell x).fly i = s.fly i := rfl
@[simp] theorem State.setMyCell_wing_of (s : State) (x : VCell) (i : Nat) : (s.setMyCell x).wing i = s.wing i := rfl

@[simp] theorem State.setPcell_pcell (s : State) (d i : Nat) (q : PCell) : (s.setPcell d i q).pcell d i = q :=
  Tab.get_set_same _ _ _ _
@[simp] theorem State.tickFree_free (s : State) : s.tickFree.free = s.free + 1 := rfl
@[simp] theorem State.write_mem (s : State) (a : Nat) (bs : List Byte) : (s.write a bs).mem = memSetList s.mem a bs := rfl

/-! ### Regions, cells, nodes and slots -/

@[simp] theorem Region.setCell_tenant (r : Region) (v : Nat) (c : VCell) : (r.setCell v c).tenant = r.tenant := rfl
@[simp] theorem Region.setCell_die (r : Region) (v : Nat) (c : VCell) : (r.setCell v c).die = r.die := rfl
@[simp] theorem Region.setCell_launch (r : Region) (v : Nat) (c : VCell) : (r.setCell v c).launch = r.launch := rfl
@[simp] theorem Region.setCell_slotRecs (r : Region) (v : Nat) (c : VCell) : (r.setCell v c).slotRecs = r.slotRecs := rfl
@[simp] theorem Region.setCell_endRecs (r : Region) (v : Nat) (c : VCell) : (r.setCell v c).endRecs = r.endRecs := rfl
@[simp] theorem Region.setCell_tableRecs (r : Region) (v : Nat) (c : VCell) : (r.setCell v c).tableRecs = r.tableRecs := rfl
@[simp] theorem Region.setCell_codeRecs (r : Region) (v : Nat) (c : VCell) : (r.setCell v c).codeRecs = r.codeRecs := rfl
@[simp] theorem Region.setCell_image (r : Region) (v : Nat) (c : VCell) : (r.setCell v c).image = r.image := rfl
@[simp] theorem Region.setCell_tableImages (r : Region) (v : Nat) (c : VCell) : (r.setCell v c).tableImages = r.tableImages := rfl
@[simp] theorem Region.setCell_codeImages (r : Region) (v : Nat) (c : VCell) : (r.setCell v c).codeImages = r.codeImages := rfl
@[simp] theorem Region.setCell_lrec (r : Region) (v : Nat) (c : VCell) : (r.setCell v c).lrec = r.lrec := rfl
@[simp] theorem Region.setCell_entries (r : Region) (v : Nat) (c : VCell) : (r.setCell v c).entries = r.entries := rfl
@[simp] theorem Region.setCell_cellOf (r : Region) (v : Nat) (c : VCell) : (r.setCell v c).cellOf = r.cellOf := rfl
@[simp] theorem Region.setCell_ncells (r : Region) (v : Nat) (c : VCell) : (r.setCell v c).ncells = r.ncells := rfl
@[simp] theorem Region.setCell_nodes (r : Region) (v : Nat) (c : VCell) : (r.setCell v c).nodes = r.nodes := rfl
@[simp] theorem Region.setCell_chans (r : Region) (v : Nat) (c : VCell) : (r.setCell v c).chans = r.chans := rfl
@[simp] theorem Region.setCell_accs (r : Region) (v : Nat) (c : VCell) : (r.setCell v c).accs = r.accs := rfl
@[simp] theorem Region.setCell_nextAcc (r : Region) (v : Nat) (c : VCell) : (r.setCell v c).nextAcc = r.nextAcc := rfl
@[simp] theorem Region.setCell_pend (r : Region) (v : Nat) (c : VCell) : (r.setCell v c).pend = r.pend := rfl
@[simp] theorem Region.setCell_classes (r : Region) (v : Nat) (c : VCell) : (r.setCell v c).classes = r.classes := rfl
@[simp] theorem Region.setCell_loaded (r : Region) (v : Nat) (c : VCell) : (r.setCell v c).loaded = r.loaded := rfl
@[simp] theorem Region.setCell_started (r : Region) (v : Nat) (c : VCell) : (r.setCell v c).started = r.started := rfl
@[simp] theorem Region.setCell_startTick (r : Region) (v : Nat) (c : VCell) : (r.setCell v c).startTick = r.startTick := rfl
@[simp] theorem Region.setCell_now (r : Region) (v : Nat) (c : VCell) : (r.setCell v c).now = r.now := rfl
@[simp] theorem Region.setCell_winBase (r : Region) (v : Nat) (c : VCell) : (r.setCell v c).winBase = r.winBase := rfl
@[simp] theorem Region.setCell_holdCount (r : Region) (v : Nat) (c : VCell) : (r.setCell v c).holdCount = r.holdCount := rfl
@[simp] theorem Region.setCell_curtain (r : Region) (v : Nat) (c : VCell) : (r.setCell v c).curtain = r.curtain := rfl
@[simp] theorem Region.setCell_curtFrames (r : Region) (v : Nat) (c : VCell) : (r.setCell v c).curtFrames = r.curtFrames := rfl
@[simp] theorem Region.setCell_freeze (r : Region) (v : Nat) (c : VCell) : (r.setCell v c).freeze = r.freeze := rfl
@[simp] theorem Region.setCell_faults (r : Region) (v : Nat) (c : VCell) : (r.setCell v c).faults = r.faults := rfl
@[simp] theorem Region.setCell_xfaults (r : Region) (v : Nat) (c : VCell) : (r.setCell v c).xfaults = r.xfaults := rfl
@[simp] theorem Region.setCell_frozen (r : Region) (v : Nat) (c : VCell) : (r.setCell v c).frozen = r.frozen := rfl
@[simp] theorem Region.setCell_fullPosted (r : Region) (v : Nat) (c : VCell) : (r.setCell v c).fullPosted = r.fullPosted := rfl
@[simp] theorem Region.setCell_tableau (r : Region) (v : Nat) (c : VCell) : (r.setCell v c).tableau = r.tableau := rfl
@[simp] theorem Region.setCell_tkind (r : Region) (v : Nat) (c : VCell) : (r.setCell v c).tkind = r.tkind := rfl
@[simp] theorem Region.setCell_tcurt (r : Region) (v : Nat) (c : VCell) : (r.setCell v c).tcurt = r.tcurt := rfl
@[simp] theorem Region.setCell_darkPosted (r : Region) (v : Nat) (c : VCell) : (r.setCell v c).darkPosted = r.darkPosted := rfl
@[simp] theorem Region.setCell_parkedFly (r : Region) (v : Nat) (c : VCell) : (r.setCell v c).parkedFly = r.parkedFly := rfl
@[simp] theorem Region.setCell_parkedWings (r : Region) (v : Nat) (c : VCell) : (r.setCell v c).parkedWings = r.parkedWings := rfl
@[simp] theorem Region.setCell_exchanges (r : Region) (v : Nat) (c : VCell) : (r.setCell v c).exchanges = r.exchanges := rfl
@[simp] theorem Region.setCell_instant (r : Region) (v : Nat) (c : VCell) : (r.setCell v c).instant = r.instant := rfl

@[simp] theorem Region.setNode_tenant (r : Region) (e : Nat) (n : Node) : (r.setNode e n).tenant = r.tenant := rfl
@[simp] theorem Region.setNode_die (r : Region) (e : Nat) (n : Node) : (r.setNode e n).die = r.die := rfl
@[simp] theorem Region.setNode_launch (r : Region) (e : Nat) (n : Node) : (r.setNode e n).launch = r.launch := rfl
@[simp] theorem Region.setNode_slotRecs (r : Region) (e : Nat) (n : Node) : (r.setNode e n).slotRecs = r.slotRecs := rfl
@[simp] theorem Region.setNode_endRecs (r : Region) (e : Nat) (n : Node) : (r.setNode e n).endRecs = r.endRecs := rfl
@[simp] theorem Region.setNode_tableRecs (r : Region) (e : Nat) (n : Node) : (r.setNode e n).tableRecs = r.tableRecs := rfl
@[simp] theorem Region.setNode_codeRecs (r : Region) (e : Nat) (n : Node) : (r.setNode e n).codeRecs = r.codeRecs := rfl
@[simp] theorem Region.setNode_image (r : Region) (e : Nat) (n : Node) : (r.setNode e n).image = r.image := rfl
@[simp] theorem Region.setNode_tableImages (r : Region) (e : Nat) (n : Node) : (r.setNode e n).tableImages = r.tableImages := rfl
@[simp] theorem Region.setNode_codeImages (r : Region) (e : Nat) (n : Node) : (r.setNode e n).codeImages = r.codeImages := rfl
@[simp] theorem Region.setNode_lrec (r : Region) (e : Nat) (n : Node) : (r.setNode e n).lrec = r.lrec := rfl
@[simp] theorem Region.setNode_entries (r : Region) (e : Nat) (n : Node) : (r.setNode e n).entries = r.entries := rfl
@[simp] theorem Region.setNode_cellOf (r : Region) (e : Nat) (n : Node) : (r.setNode e n).cellOf = r.cellOf := rfl
@[simp] theorem Region.setNode_cells (r : Region) (e : Nat) (n : Node) : (r.setNode e n).cells = r.cells := rfl
@[simp] theorem Region.setNode_ncells (r : Region) (e : Nat) (n : Node) : (r.setNode e n).ncells = r.ncells := rfl
@[simp] theorem Region.setNode_chans (r : Region) (e : Nat) (n : Node) : (r.setNode e n).chans = r.chans := rfl
@[simp] theorem Region.setNode_accs (r : Region) (e : Nat) (n : Node) : (r.setNode e n).accs = r.accs := rfl
@[simp] theorem Region.setNode_nextAcc (r : Region) (e : Nat) (n : Node) : (r.setNode e n).nextAcc = r.nextAcc := rfl
@[simp] theorem Region.setNode_pend (r : Region) (e : Nat) (n : Node) : (r.setNode e n).pend = r.pend := rfl
@[simp] theorem Region.setNode_classes (r : Region) (e : Nat) (n : Node) : (r.setNode e n).classes = r.classes := rfl
@[simp] theorem Region.setNode_loaded (r : Region) (e : Nat) (n : Node) : (r.setNode e n).loaded = r.loaded := rfl
@[simp] theorem Region.setNode_started (r : Region) (e : Nat) (n : Node) : (r.setNode e n).started = r.started := rfl
@[simp] theorem Region.setNode_startTick (r : Region) (e : Nat) (n : Node) : (r.setNode e n).startTick = r.startTick := rfl
@[simp] theorem Region.setNode_now (r : Region) (e : Nat) (n : Node) : (r.setNode e n).now = r.now := rfl
@[simp] theorem Region.setNode_winBase (r : Region) (e : Nat) (n : Node) : (r.setNode e n).winBase = r.winBase := rfl
@[simp] theorem Region.setNode_holdCount (r : Region) (e : Nat) (n : Node) : (r.setNode e n).holdCount = r.holdCount := rfl
@[simp] theorem Region.setNode_curtain (r : Region) (e : Nat) (n : Node) : (r.setNode e n).curtain = r.curtain := rfl
@[simp] theorem Region.setNode_curtFrames (r : Region) (e : Nat) (n : Node) : (r.setNode e n).curtFrames = r.curtFrames := rfl
@[simp] theorem Region.setNode_freeze (r : Region) (e : Nat) (n : Node) : (r.setNode e n).freeze = r.freeze := rfl
@[simp] theorem Region.setNode_faults (r : Region) (e : Nat) (n : Node) : (r.setNode e n).faults = r.faults := rfl
@[simp] theorem Region.setNode_xfaults (r : Region) (e : Nat) (n : Node) : (r.setNode e n).xfaults = r.xfaults := rfl
@[simp] theorem Region.setNode_frozen (r : Region) (e : Nat) (n : Node) : (r.setNode e n).frozen = r.frozen := rfl
@[simp] theorem Region.setNode_fullPosted (r : Region) (e : Nat) (n : Node) : (r.setNode e n).fullPosted = r.fullPosted := rfl
@[simp] theorem Region.setNode_tableau (r : Region) (e : Nat) (n : Node) : (r.setNode e n).tableau = r.tableau := rfl
@[simp] theorem Region.setNode_tkind (r : Region) (e : Nat) (n : Node) : (r.setNode e n).tkind = r.tkind := rfl
@[simp] theorem Region.setNode_tcurt (r : Region) (e : Nat) (n : Node) : (r.setNode e n).tcurt = r.tcurt := rfl
@[simp] theorem Region.setNode_darkPosted (r : Region) (e : Nat) (n : Node) : (r.setNode e n).darkPosted = r.darkPosted := rfl
@[simp] theorem Region.setNode_parkedFly (r : Region) (e : Nat) (n : Node) : (r.setNode e n).parkedFly = r.parkedFly := rfl
@[simp] theorem Region.setNode_parkedWings (r : Region) (e : Nat) (n : Node) : (r.setNode e n).parkedWings = r.parkedWings := rfl
@[simp] theorem Region.setNode_exchanges (r : Region) (e : Nat) (n : Node) : (r.setNode e n).exchanges = r.exchanges := rfl
@[simp] theorem Region.setNode_instant (r : Region) (e : Nat) (n : Node) : (r.setNode e n).instant = r.instant := rfl

@[simp] theorem Region.setSlot_tenant (r : Region) (v k : Nat) (x : Slot) : (r.setSlot v k x).tenant = r.tenant := rfl
@[simp] theorem Region.setSlot_die (r : Region) (v k : Nat) (x : Slot) : (r.setSlot v k x).die = r.die := rfl
@[simp] theorem Region.setSlot_launch (r : Region) (v k : Nat) (x : Slot) : (r.setSlot v k x).launch = r.launch := rfl
@[simp] theorem Region.setSlot_slotRecs (r : Region) (v k : Nat) (x : Slot) : (r.setSlot v k x).slotRecs = r.slotRecs := rfl
@[simp] theorem Region.setSlot_endRecs (r : Region) (v k : Nat) (x : Slot) : (r.setSlot v k x).endRecs = r.endRecs := rfl
@[simp] theorem Region.setSlot_tableRecs (r : Region) (v k : Nat) (x : Slot) : (r.setSlot v k x).tableRecs = r.tableRecs := rfl
@[simp] theorem Region.setSlot_codeRecs (r : Region) (v k : Nat) (x : Slot) : (r.setSlot v k x).codeRecs = r.codeRecs := rfl
@[simp] theorem Region.setSlot_image (r : Region) (v k : Nat) (x : Slot) : (r.setSlot v k x).image = r.image := rfl
@[simp] theorem Region.setSlot_tableImages (r : Region) (v k : Nat) (x : Slot) : (r.setSlot v k x).tableImages = r.tableImages := rfl
@[simp] theorem Region.setSlot_codeImages (r : Region) (v k : Nat) (x : Slot) : (r.setSlot v k x).codeImages = r.codeImages := rfl
@[simp] theorem Region.setSlot_lrec (r : Region) (v k : Nat) (x : Slot) : (r.setSlot v k x).lrec = r.lrec := rfl
@[simp] theorem Region.setSlot_entries (r : Region) (v k : Nat) (x : Slot) : (r.setSlot v k x).entries = r.entries := rfl
@[simp] theorem Region.setSlot_cellOf (r : Region) (v k : Nat) (x : Slot) : (r.setSlot v k x).cellOf = r.cellOf := rfl
@[simp] theorem Region.setSlot_ncells (r : Region) (v k : Nat) (x : Slot) : (r.setSlot v k x).ncells = r.ncells := rfl
@[simp] theorem Region.setSlot_nodes (r : Region) (v k : Nat) (x : Slot) : (r.setSlot v k x).nodes = r.nodes := rfl
@[simp] theorem Region.setSlot_chans (r : Region) (v k : Nat) (x : Slot) : (r.setSlot v k x).chans = r.chans := rfl
@[simp] theorem Region.setSlot_accs (r : Region) (v k : Nat) (x : Slot) : (r.setSlot v k x).accs = r.accs := rfl
@[simp] theorem Region.setSlot_nextAcc (r : Region) (v k : Nat) (x : Slot) : (r.setSlot v k x).nextAcc = r.nextAcc := rfl
@[simp] theorem Region.setSlot_pend (r : Region) (v k : Nat) (x : Slot) : (r.setSlot v k x).pend = r.pend := rfl
@[simp] theorem Region.setSlot_classes (r : Region) (v k : Nat) (x : Slot) : (r.setSlot v k x).classes = r.classes := rfl
@[simp] theorem Region.setSlot_loaded (r : Region) (v k : Nat) (x : Slot) : (r.setSlot v k x).loaded = r.loaded := rfl
@[simp] theorem Region.setSlot_started (r : Region) (v k : Nat) (x : Slot) : (r.setSlot v k x).started = r.started := rfl
@[simp] theorem Region.setSlot_startTick (r : Region) (v k : Nat) (x : Slot) : (r.setSlot v k x).startTick = r.startTick := rfl
@[simp] theorem Region.setSlot_now (r : Region) (v k : Nat) (x : Slot) : (r.setSlot v k x).now = r.now := rfl
@[simp] theorem Region.setSlot_winBase (r : Region) (v k : Nat) (x : Slot) : (r.setSlot v k x).winBase = r.winBase := rfl
@[simp] theorem Region.setSlot_holdCount (r : Region) (v k : Nat) (x : Slot) : (r.setSlot v k x).holdCount = r.holdCount := rfl
@[simp] theorem Region.setSlot_curtain (r : Region) (v k : Nat) (x : Slot) : (r.setSlot v k x).curtain = r.curtain := rfl
@[simp] theorem Region.setSlot_curtFrames (r : Region) (v k : Nat) (x : Slot) : (r.setSlot v k x).curtFrames = r.curtFrames := rfl
@[simp] theorem Region.setSlot_freeze (r : Region) (v k : Nat) (x : Slot) : (r.setSlot v k x).freeze = r.freeze := rfl
@[simp] theorem Region.setSlot_faults (r : Region) (v k : Nat) (x : Slot) : (r.setSlot v k x).faults = r.faults := rfl
@[simp] theorem Region.setSlot_xfaults (r : Region) (v k : Nat) (x : Slot) : (r.setSlot v k x).xfaults = r.xfaults := rfl
@[simp] theorem Region.setSlot_frozen (r : Region) (v k : Nat) (x : Slot) : (r.setSlot v k x).frozen = r.frozen := rfl
@[simp] theorem Region.setSlot_fullPosted (r : Region) (v k : Nat) (x : Slot) : (r.setSlot v k x).fullPosted = r.fullPosted := rfl
@[simp] theorem Region.setSlot_tableau (r : Region) (v k : Nat) (x : Slot) : (r.setSlot v k x).tableau = r.tableau := rfl
@[simp] theorem Region.setSlot_tkind (r : Region) (v k : Nat) (x : Slot) : (r.setSlot v k x).tkind = r.tkind := rfl
@[simp] theorem Region.setSlot_tcurt (r : Region) (v k : Nat) (x : Slot) : (r.setSlot v k x).tcurt = r.tcurt := rfl
@[simp] theorem Region.setSlot_darkPosted (r : Region) (v k : Nat) (x : Slot) : (r.setSlot v k x).darkPosted = r.darkPosted := rfl
@[simp] theorem Region.setSlot_parkedFly (r : Region) (v k : Nat) (x : Slot) : (r.setSlot v k x).parkedFly = r.parkedFly := rfl
@[simp] theorem Region.setSlot_parkedWings (r : Region) (v k : Nat) (x : Slot) : (r.setSlot v k x).parkedWings = r.parkedWings := rfl
@[simp] theorem Region.setSlot_exchanges (r : Region) (v k : Nat) (x : Slot) : (r.setSlot v k x).exchanges = r.exchanges := rfl
@[simp] theorem Region.setSlot_instant (r : Region) (v k : Nat) (x : Slot) : (r.setSlot v k x).instant = r.instant := rfl

@[simp] theorem VCell.setSlot_site (c : VCell) (k : Nat) (x : Slot) : (c.setSlot k x).site = c.site := rfl
@[simp] theorem VCell.setSlot_tags (c : VCell) (k : Nat) (x : Slot) : (c.setSlot k x).tags = c.tags := rfl
@[simp] theorem VCell.setSlot_front (c : VCell) (k : Nat) (x : Slot) : (c.setSlot k x).front = c.front := rfl
@[simp] theorem VCell.setSlot_tloads (c : VCell) (k : Nat) (x : Slot) : (c.setSlot k x).tloads = c.tloads := rfl
@[simp] theorem VCell.setSlot_marked (c : VCell) (k : Nat) (x : Slot) : (c.setSlot k x).marked = c.marked := rfl
@[simp] theorem VCell.setSlot_barriers (c : VCell) (k : Nat) (x : Slot) : (c.setSlot k x).barriers = c.barriers := rfl
@[simp] theorem VCell.setSlot_frozen (c : VCell) (k : Nat) (x : Slot) : (c.setSlot k x).frozen = c.frozen := rfl

@[simp] theorem VCell.setTag_site (c : VCell) (t : Nat) (x : BitVec 3) : (c.setTag t x).site = c.site := rfl
@[simp] theorem VCell.setTag_slots (c : VCell) (t : Nat) (x : BitVec 3) : (c.setTag t x).slots = c.slots := rfl
@[simp] theorem VCell.setTag_front (c : VCell) (t : Nat) (x : BitVec 3) : (c.setTag t x).front = c.front := rfl
@[simp] theorem VCell.setTag_tloads (c : VCell) (t : Nat) (x : BitVec 3) : (c.setTag t x).tloads = c.tloads := rfl
@[simp] theorem VCell.setTag_marked (c : VCell) (t : Nat) (x : BitVec 3) : (c.setTag t x).marked = c.marked := rfl
@[simp] theorem VCell.setTag_barriers (c : VCell) (t : Nat) (x : BitVec 3) : (c.setTag t x).barriers = c.barriers := rfl
@[simp] theorem VCell.setTag_frozen (c : VCell) (t : Nat) (x : BitVec 3) : (c.setTag t x).frozen = c.frozen := rfl

@[simp] theorem Node.setElem_fire (n : Node) (k : Nat) (e : Elem) : (n.setElem k e).fire = n.fire := rfl
@[simp] theorem Node.setElem_op (n : Node) (k : Nat) (e : Elem) : (n.setElem k e).op = n.op := rfl
@[simp] theorem Node.setElem_eos (n : Node) (k : Nat) (e : Elem) : (n.setElem k e).eos = n.eos := rfl
@[simp] theorem Node.setElem_curt (n : Node) (k : Nat) (e : Elem) : (n.setElem k e).curt = n.curt := rfl
@[simp] theorem Node.setElem_fired (n : Node) (k : Nat) (e : Elem) : (n.setElem k e).fired = n.fired := rfl
@[simp] theorem Node.setElem_cause (n : Node) (k : Nat) (e : Elem) : (n.setElem k e).cause = n.cause := rfl
@[simp] theorem Node.setElem_faulting (n : Node) (k : Nat) (e : Elem) : (n.setElem k e).faulting = n.faulting := rfl
@[simp] theorem Node.setElem_wsc (n : Node) (k : Nat) (e : Elem) : (n.setElem k e).wsc = n.wsc := rfl
@[simp] theorem Node.setElem_results (n : Node) (k : Nat) (e : Elem) : (n.setElem k e).results = n.results := rfl

@[simp] theorem Slot.setReg_v (x : Slot) (r : Reg) (w : Word) : (x.setReg r w).v = x.v := by
  unfold Slot.setReg; split <;> rfl
@[simp] theorem Slot.setReg_pc (x : Slot) (r : Reg) (w : Word) : (x.setReg r w).pc = x.pc := by
  unfold Slot.setReg; split <;> rfl
@[simp] theorem Slot.setReg_st (x : Slot) (r : Reg) (w : Word) : (x.setReg r w).st = x.st := by
  unfold Slot.setReg; split <;> rfl
@[simp] theorem Slot.setReg_bind (x : Slot) (r : Reg) (w : Word) : (x.setReg r w).bind = x.bind := by
  unfold Slot.setReg; split <;> rfl
@[simp] theorem Slot.setReg_ssp (x : Slot) (r : Reg) (w : Word) : (x.setReg r w).ssp = x.ssp := by
  unfold Slot.setReg; split <;> rfl
@[simp] theorem Slot.setReg_ssbase (x : Slot) (r : Reg) (w : Word) : (x.setReg r w).ssbase = x.ssbase := by
  unfold Slot.setReg; split <;> rfl
@[simp] theorem Slot.setReg_sslim (x : Slot) (r : Reg) (w : Word) : (x.setReg r w).sslim = x.sslim := by
  unfold Slot.setReg; split <;> rfl
@[simp] theorem Slot.setReg_tvec (x : Slot) (r : Reg) (w : Word) : (x.setReg r w).tvec = x.tvec := by
  unfold Slot.setReg; split <;> rfl
@[simp] theorem Slot.setReg_tcause (x : Slot) (r : Reg) (w : Word) : (x.setReg r w).tcause = x.tcause := by
  unfold Slot.setReg; split <;> rfl
@[simp] theorem Slot.setReg_trapval (x : Slot) (r : Reg) (w : Word) : (x.setReg r w).trapval = x.trapval := by
  unfold Slot.setReg; split <;> rfl
@[simp] theorem Slot.setReg_tepc (x : Slot) (r : Reg) (w : Word) : (x.setReg r w).tepc = x.tepc := by
  unfold Slot.setReg; split <;> rfl
@[simp] theorem Slot.setReg_tstat (x : Slot) (r : Reg) (w : Word) : (x.setReg r w).tstat = x.tstat := by
  unfold Slot.setReg; split <;> rfl
@[simp] theorem Slot.setReg_cmask (x : Slot) (r : Reg) (w : Word) : (x.setReg r w).cmask = x.cmask := by
  unfold Slot.setReg; split <;> rfl
@[simp] theorem Slot.setReg_sleepTill (x : Slot) (r : Reg) (w : Word) : (x.setReg r w).sleepTill = x.sleepTill := by
  unfold Slot.setReg; split <;> rfl
@[simp] theorem Slot.setReg_waiting (x : Slot) (r : Reg) (w : Word) : (x.setReg r w).waiting = x.waiting := by
  unfold Slot.setReg; split <;> rfl
@[simp] theorem Slot.setReg_before (x : Slot) (r : Reg) (w : Word) : (x.setReg r w).before = x.before := by
  unfold Slot.setReg; split <;> rfl
@[simp] theorem Slot.setReg_host (x : Slot) (r : Reg) (w : Word) : (x.setReg r w).host = x.host := by
  unfold Slot.setReg; split <;> rfl
@[simp] theorem Slot.setReg_sends (x : Slot) (r : Reg) (w : Word) : (x.setReg r w).sends = x.sends := by
  unfold Slot.setReg; split <;> rfl
@[simp] theorem Slot.setReg_code (x : Slot) (r : Reg) (w : Word) : (x.setReg r w).code = x.code := by
  unfold Slot.setReg; split <;> rfl
@[simp] theorem Slot.setReg_entryPc (x : Slot) (r : Reg) (w : Word) : (x.setReg r w).entryPc = x.entryPc := by
  unfold Slot.setReg; split <;> rfl
@[simp] theorem Slot.setReg_ended (x : Slot) (r : Reg) (w : Word) : (x.setReg r w).ended = x.ended := by
  unfold Slot.setReg; split <;> rfl
@[simp] theorem Slot.setReg_endedOnce (x : Slot) (r : Reg) (w : Word) : (x.setReg r w).endedOnce = x.endedOnce := by
  unfold Slot.setReg; split <;> rfl
@[simp] theorem Slot.setReg_stopped (x : Slot) (r : Reg) (w : Word) : (x.setReg r w).stopped = x.stopped := by
  unfold Slot.setReg; split <;> rfl
@[simp] theorem Slot.setReg_queue (x : Slot) (r : Reg) (w : Word) : (x.setReg r w).queue = x.queue := by
  unfold Slot.setReg; split <;> rfl
@[simp] theorem Slot.setReg_markers (x : Slot) (r : Reg) (w : Word) : (x.setReg r w).markers = x.markers := by
  unfold Slot.setReg; split <;> rfl
@[simp] theorem Slot.setReg_arrived (x : Slot) (r : Reg) (w : Word) : (x.setReg r w).arrived = x.arrived := by
  unfold Slot.setReg; split <;> rfl
@[simp] theorem Slot.setVec_g (x : Slot) (r : VReg) (w : Vector Lane 16) : (x.setVec r w).g = x.g := rfl
@[simp] theorem Slot.setVec_pc (x : Slot) (r : VReg) (w : Vector Lane 16) : (x.setVec r w).pc = x.pc := rfl
@[simp] theorem Slot.setVec_st (x : Slot) (r : VReg) (w : Vector Lane 16) : (x.setVec r w).st = x.st := rfl
@[simp] theorem Slot.setVec_bind (x : Slot) (r : VReg) (w : Vector Lane 16) : (x.setVec r w).bind = x.bind := rfl
@[simp] theorem Slot.setVec_ssp (x : Slot) (r : VReg) (w : Vector Lane 16) : (x.setVec r w).ssp = x.ssp := rfl
@[simp] theorem Slot.setVec_ssbase (x : Slot) (r : VReg) (w : Vector Lane 16) : (x.setVec r w).ssbase = x.ssbase := rfl
@[simp] theorem Slot.setVec_sslim (x : Slot) (r : VReg) (w : Vector Lane 16) : (x.setVec r w).sslim = x.sslim := rfl
@[simp] theorem Slot.setVec_tvec (x : Slot) (r : VReg) (w : Vector Lane 16) : (x.setVec r w).tvec = x.tvec := rfl
@[simp] theorem Slot.setVec_tcause (x : Slot) (r : VReg) (w : Vector Lane 16) : (x.setVec r w).tcause = x.tcause := rfl
@[simp] theorem Slot.setVec_trapval (x : Slot) (r : VReg) (w : Vector Lane 16) : (x.setVec r w).trapval = x.trapval := rfl
@[simp] theorem Slot.setVec_tepc (x : Slot) (r : VReg) (w : Vector Lane 16) : (x.setVec r w).tepc = x.tepc := rfl
@[simp] theorem Slot.setVec_tstat (x : Slot) (r : VReg) (w : Vector Lane 16) : (x.setVec r w).tstat = x.tstat := rfl
@[simp] theorem Slot.setVec_cmask (x : Slot) (r : VReg) (w : Vector Lane 16) : (x.setVec r w).cmask = x.cmask := rfl
@[simp] theorem Slot.setVec_sleepTill (x : Slot) (r : VReg) (w : Vector Lane 16) : (x.setVec r w).sleepTill = x.sleepTill := rfl
@[simp] theorem Slot.setVec_waiting (x : Slot) (r : VReg) (w : Vector Lane 16) : (x.setVec r w).waiting = x.waiting := rfl
@[simp] theorem Slot.setVec_before (x : Slot) (r : VReg) (w : Vector Lane 16) : (x.setVec r w).before = x.before := rfl
@[simp] theorem Slot.setVec_host (x : Slot) (r : VReg) (w : Vector Lane 16) : (x.setVec r w).host = x.host := rfl
@[simp] theorem Slot.setVec_sends (x : Slot) (r : VReg) (w : Vector Lane 16) : (x.setVec r w).sends = x.sends := rfl
@[simp] theorem Slot.setVec_code (x : Slot) (r : VReg) (w : Vector Lane 16) : (x.setVec r w).code = x.code := rfl
@[simp] theorem Slot.setVec_entryPc (x : Slot) (r : VReg) (w : Vector Lane 16) : (x.setVec r w).entryPc = x.entryPc := rfl
@[simp] theorem Slot.setVec_ended (x : Slot) (r : VReg) (w : Vector Lane 16) : (x.setVec r w).ended = x.ended := rfl
@[simp] theorem Slot.setVec_endedOnce (x : Slot) (r : VReg) (w : Vector Lane 16) : (x.setVec r w).endedOnce = x.endedOnce := rfl
@[simp] theorem Slot.setVec_stopped (x : Slot) (r : VReg) (w : Vector Lane 16) : (x.setVec r w).stopped = x.stopped := rfl
@[simp] theorem Slot.setVec_queue (x : Slot) (r : VReg) (w : Vector Lane 16) : (x.setVec r w).queue = x.queue := rfl
@[simp] theorem Slot.setVec_markers (x : Slot) (r : VReg) (w : Vector Lane 16) : (x.setVec r w).markers = x.markers := rfl
@[simp] theorem Slot.setVec_arrived (x : Slot) (r : VReg) (w : Vector Lane 16) : (x.setVec r w).arrived = x.arrived := rfl
@[simp] theorem Slot.next_g (x : Slot) : x.next.g = x.g := rfl
@[simp] theorem Slot.next_v (x : Slot) : x.next.v = x.v := rfl
@[simp] theorem Slot.next_st (x : Slot) : x.next.st = x.st := rfl
@[simp] theorem Slot.next_bind (x : Slot) : x.next.bind = x.bind := rfl
@[simp] theorem Slot.next_ssp (x : Slot) : x.next.ssp = x.ssp := rfl
@[simp] theorem Slot.next_ssbase (x : Slot) : x.next.ssbase = x.ssbase := rfl
@[simp] theorem Slot.next_sslim (x : Slot) : x.next.sslim = x.sslim := rfl
@[simp] theorem Slot.next_tvec (x : Slot) : x.next.tvec = x.tvec := rfl
@[simp] theorem Slot.next_tcause (x : Slot) : x.next.tcause = x.tcause := rfl
@[simp] theorem Slot.next_trapval (x : Slot) : x.next.trapval = x.trapval := rfl
@[simp] theorem Slot.next_tepc (x : Slot) : x.next.tepc = x.tepc := rfl
@[simp] theorem Slot.next_tstat (x : Slot) : x.next.tstat = x.tstat := rfl
@[simp] theorem Slot.next_cmask (x : Slot) : x.next.cmask = x.cmask := rfl
@[simp] theorem Slot.next_sleepTill (x : Slot) : x.next.sleepTill = x.sleepTill := rfl
@[simp] theorem Slot.next_waiting (x : Slot) : x.next.waiting = x.waiting := rfl
@[simp] theorem Slot.next_before (x : Slot) : x.next.before = x.before := rfl
@[simp] theorem Slot.next_host (x : Slot) : x.next.host = x.host := rfl
@[simp] theorem Slot.next_sends (x : Slot) : x.next.sends = x.sends := rfl
@[simp] theorem Slot.next_code (x : Slot) : x.next.code = x.code := rfl
@[simp] theorem Slot.next_entryPc (x : Slot) : x.next.entryPc = x.entryPc := rfl
@[simp] theorem Slot.next_ended (x : Slot) : x.next.ended = x.ended := rfl
@[simp] theorem Slot.next_endedOnce (x : Slot) : x.next.endedOnce = x.endedOnce := rfl
@[simp] theorem Slot.next_stopped (x : Slot) : x.next.stopped = x.stopped := rfl
@[simp] theorem Slot.next_queue (x : Slot) : x.next.queue = x.queue := rfl
@[simp] theorem Slot.next_markers (x : Slot) : x.next.markers = x.markers := rfl
@[simp] theorem Slot.next_arrived (x : Slot) : x.next.arrived = x.arrived := rfl
@[simp] theorem Slot.next_pc (x : Slot) : x.next.pc = x.pc + 4 := rfl
@[simp] theorem Slot.next_reg (x : Slot) (r : Reg) : x.next.reg r = x.reg r := rfl
@[simp] theorem Slot.next_vec (x : Slot) (r : VReg) : x.next.vec r = x.vec r := rfl
@[simp] theorem Slot.setVec_reg (x : Slot) (d : VReg) (w : Vector Lane 16) (r : Reg) : (x.setVec d w).reg r = x.reg r := rfl
@[simp] theorem Slot.setReg_vec (x : Slot) (d : Reg) (w : Word) (r : VReg) : (x.setReg d w).vec r = x.vec r := by
  simp [Slot.vec]

theorem vector_get_set {α : Type} {n : Nat} (v : Vector α n) (i j : Fin n) (x : α) :
    (v.set i x).get j = if j = i then x else v.get j := by
  show (v.set i.val x)[j.val] = if j = i then x else v[j.val]
  by_cases e : j = i
  · subst e; simp
  · have n : i.val ≠ j.val := fun q => e (Fin.ext q.symm)
    simp [e, Vector.getElem_set_ne _ _ n]

/-- A register after a write (R19): g0 reads 0 whatever is written. -/
theorem Slot.setReg_reg (x : Slot) (d : Reg) (w : Word) (r : Reg) :
    (x.setReg d w).reg r = if r = 0 then 0 else if r = d then w else x.reg r := by
  unfold Slot.setReg Slot.reg
  by_cases hr : r = 0
  · rw [if_pos hr, if_pos hr]
  · by_cases hd : d = 0
    · have : r ≠ d := fun e => hr (e.trans hd)
      rw [if_neg hr, if_pos hd, if_neg hr, if_neg this, if_neg hr]
    · rw [if_neg hr, if_neg hd, if_neg hr, if_neg hr]
      have k : (r.toFin = d.toFin) = (r = d) := propext ⟨BitVec.eq_of_toFin_eq, fun e => e ▸ rfl⟩
      show (x.g.set d.toFin w).get r.toFin = _
      rw [vector_get_set]
      simp only [k]

theorem Slot.setVec_vec (x : Slot) (d : VReg) (w : Vector Lane 16) (r : VReg) :
    (x.setVec d w).vec r = if r = d then w else x.vec r := by
  have k : (r.toFin = d.toFin) = (r = d) := propext ⟨BitVec.eq_of_toFin_eq, fun e => e ▸ rfl⟩
  show (x.v.set d.toFin w).get r.toFin = _
  rw [vector_get_set]
  simp only [k]
  rfl

@[simp] theorem Region.setCell_cell (r : Region) (v : Nat) (c : VCell) : (r.setCell v c).cell v = c :=
  Tab.get_set_same _ _ _ _
theorem Region.setCell_cell_ne (r : Region) (v : Nat) (c : VCell) (i : Nat) (h : i ≠ v) : (r.setCell v c).cell i = r.cell i :=
  Tab.get_set_ne _ _ _ _ _ h
@[simp] theorem Region.setNode_node (r : Region) (e : Nat) (n : Node) : (r.setNode e n).node e = n :=
  Tab.get_set_same _ _ _ _
theorem Region.setNode_node_ne (r : Region) (e : Nat) (n : Node) (i : Nat) (h : i ≠ e) : (r.setNode e n).node i = r.node i :=
  Tab.get_set_ne _ _ _ _ _ h
@[simp] theorem Region.setNode_cell (r : Region) (e : Nat) (n : Node) (v : Nat) : (r.setNode e n).cell v = r.cell v := rfl
@[simp] theorem Region.setCell_node (r : Region) (v : Nat) (c : VCell) (e : Nat) : (r.setCell v c).node e = r.node e := rfl
@[simp] theorem VCell.setSlot_slot (c : VCell) (k : Nat) (x : Slot) : (c.setSlot k x).slot k = x :=
  Tab.get_set_same _ _ _ _
theorem VCell.setSlot_slot_ne (c : VCell) (k : Nat) (x : Slot) (i : Nat) (h : i ≠ k) : (c.setSlot k x).slot i = c.slot i :=
  Tab.get_set_ne _ _ _ _ _ h
@[simp] theorem VCell.setTag_tag (c : VCell) (t : Nat) (x : BitVec 3) : (c.setTag t x).tag t = x :=
  Tab.get_set_same _ _ _ _
theorem VCell.setTag_tag_ne (c : VCell) (t : Nat) (x : BitVec 3) (i : Nat) (h : i ≠ t) : (c.setTag t x).tag i = c.tag i :=
  Tab.get_set_ne _ _ _ _ _ h
@[simp] theorem Node.setElem_elem (n : Node) (k : Nat) (e : Elem) : (n.setElem k e).elem k = e :=
  Tab.get_set_same _ _ _ _
theorem Node.setElem_elem_ne (n : Node) (k : Nat) (e : Elem) (i : Nat) (h : i ≠ k) : (n.setElem k e).elem i = n.elem i :=
  Tab.get_set_ne _ _ _ _ _ h
@[simp] theorem Region.setSlot_slot (r : Region) (v k : Nat) (x : Slot) : (r.setSlot v k x).slot v k = x := by
  simp [Region.slot, Region.setSlot]
@[simp] theorem Region.setSlot_node (r : Region) (v k : Nat) (x : Slot) (e : Nat) : (r.setSlot v k x).node e = r.node e := rfl

/-! ### The unit that acts -/

@[simp] theorem State.setRegion_actCue (s : State) (c : Nat) (r : Region) : (s.setRegion c r).actCue = s.actCue := rfl
@[simp] theorem State.setRegion_actCell (s : State) (c : Nat) (r : Region) : (s.setRegion c r).actCell = s.actCell := rfl
@[simp] theorem State.setRegion_actSlot (s : State) (c : Nat) (r : Region) : (s.setRegion c r).actSlot = s.actSlot := rfl
@[simp] theorem State.setCue_actCue (s : State) (c : Nat) (q : Cue) : (s.setCue c q).actCue = s.actCue := rfl
@[simp] theorem State.setCue_actCell (s : State) (c : Nat) (q : Cue) : (s.setCue c q).actCell = s.actCell := rfl
@[simp] theorem State.setCue_actSlot (s : State) (c : Nat) (q : Cue) : (s.setCue c q).actSlot = s.actSlot := rfl
@[simp] theorem State.setTenant_actCue (s : State) (t : Nat) (q : Tenant) : (s.setTenant t q).actCue = s.actCue := rfl
@[simp] theorem State.setTenant_actCell (s : State) (t : Nat) (q : Tenant) : (s.setTenant t q).actCell = s.actCell := rfl
@[simp] theorem State.setTenant_actSlot (s : State) (t : Nat) (q : Tenant) : (s.setTenant t q).actSlot = s.actSlot := rfl
@[simp] theorem State.setWin_actCue (s : State) (w : Nat) (q : Win) : (s.setWin w q).actCue = s.actCue := rfl
@[simp] theorem State.setWin_actCell (s : State) (w : Nat) (q : Win) : (s.setWin w q).actCell = s.actCell := rfl
@[simp] theorem State.setWin_actSlot (s : State) (w : Nat) (q : Win) : (s.setWin w q).actSlot = s.actSlot := rfl
@[simp] theorem State.setDie_actCue (s : State) (d : Nat) (q : Die) : (s.setDie d q).actCue = s.actCue := rfl
@[simp] theorem State.setDie_actCell (s : State) (d : Nat) (q : Die) : (s.setDie d q).actCell = s.actCell := rfl
@[simp] theorem State.setDie_actSlot (s : State) (d : Nat) (q : Die) : (s.setDie d q).actSlot = s.actSlot := rfl
@[simp] theorem State.setPcell_actCue (s : State) (d p : Nat) (q : PCell) : (s.setPcell d p q).actCue = s.actCue := rfl
@[simp] theorem State.setPcell_actCell (s : State) (d p : Nat) (q : PCell) : (s.setPcell d p q).actCell = s.actCell := rfl
@[simp] theorem State.setPcell_actSlot (s : State) (d p : Nat) (q : PCell) : (s.setPcell d p q).actSlot = s.actSlot := rfl
@[simp] theorem State.setFly_actCue (s : State) (e : Nat) (q : FlyEng) : (s.setFly e q).actCue = s.actCue := rfl
@[simp] theorem State.setFly_actCell (s : State) (e : Nat) (q : FlyEng) : (s.setFly e q).actCell = s.actCell := rfl
@[simp] theorem State.setFly_actSlot (s : State) (e : Nat) (q : FlyEng) : (s.setFly e q).actSlot = s.actSlot := rfl
@[simp] theorem State.setWing_actCue (s : State) (k : Nat) (q : Wings) : (s.setWing k q).actCue = s.actCue := rfl
@[simp] theorem State.setWing_actCell (s : State) (k : Nat) (q : Wings) : (s.setWing k q).actCell = s.actCell := rfl
@[simp] theorem State.setWing_actSlot (s : State) (k : Nat) (q : Wings) : (s.setWing k q).actSlot = s.actSlot := rfl
@[simp] theorem State.write_actCue (s : State) (a : Nat) (bs : List Byte) : (s.write a bs).actCue = s.actCue := rfl
@[simp] theorem State.write_actCell (s : State) (a : Nat) (bs : List Byte) : (s.write a bs).actCell = s.actCell := rfl
@[simp] theorem State.write_actSlot (s : State) (a : Nat) (bs : List Byte) : (s.write a bs).actSlot = s.actSlot := rfl
@[simp] theorem State.tickFree_actCue (s : State) : (s.tickFree).actCue = s.actCue := rfl
@[simp] theorem State.tickFree_actCell (s : State) : (s.tickFree).actCell = s.actCell := rfl
@[simp] theorem State.tickFree_actSlot (s : State) : (s.tickFree).actSlot = s.actSlot := rfl
@[simp] theorem State.skipFree_actCue (s : State) (n : Nat) : (s.skipFree n).actCue = s.actCue := rfl
@[simp] theorem State.skipFree_actCell (s : State) (n : Nat) : (s.skipFree n).actCell = s.actCell := rfl
@[simp] theorem State.skipFree_actSlot (s : State) (n : Nat) : (s.skipFree n).actSlot = s.actSlot := rfl
@[simp] theorem State.setSlotAt_actCue (s : State) (c v k : Nat) (x : Slot) : (s.setSlotAt c v k x).actCue = s.actCue := rfl
@[simp] theorem State.setSlotAt_actCell (s : State) (c v k : Nat) (x : Slot) : (s.setSlotAt c v k x).actCell = s.actCell := rfl
@[simp] theorem State.setSlotAt_actSlot (s : State) (c v k : Nat) (x : Slot) : (s.setSlotAt c v k x).actSlot = s.actSlot := rfl
@[simp] theorem State.setMe_actCue (s : State) (x : Slot) : (s.setMe x).actCue = s.actCue := rfl
@[simp] theorem State.setMe_actCell (s : State) (x : Slot) : (s.setMe x).actCell = s.actCell := rfl
@[simp] theorem State.setMe_actSlot (s : State) (x : Slot) : (s.setMe x).actSlot = s.actSlot := rfl
@[simp] theorem State.setMyRegion_actCue (s : State) (r : Region) : (s.setMyRegion r).actCue = s.actCue := rfl
@[simp] theorem State.setMyRegion_actCell (s : State) (r : Region) : (s.setMyRegion r).actCell = s.actCell := rfl
@[simp] theorem State.setMyRegion_actSlot (s : State) (r : Region) : (s.setMyRegion r).actSlot = s.actSlot := rfl
@[simp] theorem State.setMyCell_actCue (s : State) (x : VCell) : (s.setMyCell x).actCue = s.actCue := rfl
@[simp] theorem State.setMyCell_actCell (s : State) (x : VCell) : (s.setMyCell x).actCell = s.actCell := rfl
@[simp] theorem State.setMyCell_actSlot (s : State) (x : VCell) : (s.setMyCell x).actSlot = s.actSlot := rfl

@[simp] theorem State.setSlotAt_slotAt (s : State) (c v k : Nat) (x : Slot) : (s.setSlotAt c v k x).slotAt c v k = x := by
  simp [State.slotAt, State.setSlotAt]
@[simp] theorem State.setMe_me (s : State) (x : Slot) : (s.setMe x).me = x := by
  simp [State.me, State.setMe]
@[simp] theorem State.setMyRegion_myRegion (s : State) (r : Region) : (s.setMyRegion r).myRegion = r := by
  simp [State.myRegion, State.setMyRegion]
@[simp] theorem State.setMyCell_myCell (s : State) (x : VCell) : (s.setMyCell x).myCell = x := by
  simp [State.myCell, State.setMyCell]
theorem State.setMyRegion_region_ne (s : State) (r : Region) (c : Nat) (h : c ≠ s.actCue) :
    (s.setMyRegion r).region c = s.region c :=
  State.setRegion_region_ne _ _ _ _ h

theorem reset_mem_wf : State.reset.mem.wf = true := by decide

end Sys2Proof.Machine
end

