-- ==== Sys2Proof/Laws/Frame.lean ====
section
/-! SUPPORT. What the shared operations leave alone: the reach of each update of the executing slot. -/

namespace Sys2Proof.Machine

theorem onlyRegion_setRegion (s : State) (c : Nat) (r : Region) : OnlyRegion s (s.setRegion c r) c :=
  ⟨rfl, fun d h => State.setRegion_region_ne s c r d h⟩

theorem onlyCell_setCell (s : State) (c v : Nat) (x : VCell) : OnlyCell s (s.setRegion c ((s.region c).setCell v x)) c v := by
  refine ⟨onlyRegion_setRegion _ _ _, ?_, ?_⟩
  · rw [State.setRegion_region]; rfl
  · intro u h
    rw [State.setRegion_region]
    exact Region.setCell_cell_ne _ _ _ _ h

theorem onlySlot_setSlotAt (s : State) (c v k : Nat) (x : Slot) : OnlySlot s (s.setSlotAt c v k x) c v k := by
  refine ⟨onlyCell_setCell s c v _, ?_, ?_⟩
  · simp only [State.setSlotAt, State.setRegion_region, Region.setSlot, Region.setCell_cell]; rfl
  · intro j h
    simp only [State.setSlotAt, State.setRegion_region, Region.setSlot, Region.slot, Region.setCell_cell]
    exact VCell.setSlot_slot_ne _ _ _ _ h

theorem onlyMe_setMe (s : State) (x : Slot) : OnlyMe s (s.setMe x) := onlySlot_setSlotAt _ _ _ _ _

theorem OnlyMe.sameMem {s t : State} (h : OnlyMe s t) : SameMem s t := by
  intro a
  have e : t.mem = s.mem := by
    have := congrArg State.mem h.1.1.1
    exact this
  rw [e]

/-- A register instruction completes (R19). -/
theorem regDone_writeReg (s : State) (d : Reg) (x : Word) : RegDone s (s.writeReg d x) d x := by
  refine ⟨onlyMe_setMe _ _, ?_, ?_, ?_, ?_, ?_⟩
  · intro h
    simp only [State.writeReg, State.rg, State.setMe_me, Slot.next_reg, Slot.setReg_reg, if_neg h, if_true]
  · intro r h
    simp only [State.writeReg, State.rg, State.setMe_me, Slot.next_reg, Slot.setReg_reg]
    by_cases z : r = 0
    · rw [if_pos z, z]; rfl
    · rw [if_neg z, if_neg h]
  · rfl
  · simp [State.writeReg]
  · simp only [State.writeReg, State.setMe_me]
    unfold Slot.setReg Slot.next
    split <;> rfl

theorem vecDone_writeVec (s : State) (d : VReg) (x : Vector Lane 16) : VecDone s (s.writeVec d x) d x := by
  refine ⟨onlyMe_setMe _ _, ?_, ?_, ?_, ?_⟩
  · simp [State.writeVec, State.rv, Slot.setVec_vec]
  · intro r h; simp [State.writeVec, State.rv, Slot.setVec_vec, h]
  · simp [State.writeVec]
  · simp only [State.writeVec, State.setMe_me]; rfl

theorem jumpDone_setMe (s : State) (pc : BitVec 16) : JumpDone s (s.setMe { s.me with pc := pc }) pc := by
  refine ⟨onlyMe_setMe _ _, ?_, ?_⟩
  · simp
  · simp

theorem jumpDone_advance (s : State) : JumpDone s s.advance (s.me.pc + 4) := jumpDone_setMe s (s.me.pc + 4)

/-! ### What holds a firing (R12, R14) -/

@[simp] theorem State.held_nil (s : State) (k : State → State) : s.held [] k = k s := rfl
@[simp] theorem State.held_cons (s : State) (b : Bool) (c : Nat) (hs : List (Bool × Nat)) (k : State → State) :
    s.held ((b, c) :: hs) k = if b then s.hold c else s.held hs k := by
  cases b <;> rfl

/-- The firing goes on exactly as it would without the holds, or only a cause is recorded. -/
theorem held_cases (s : State) (hs : List (Bool × Nat)) (k : State → State) :
    (hs.any (fun h => h.1) = false ∧ s.held hs k = k s) ∨ ∃ h ∈ hs, h.1 = true ∧ s.held hs k = s.hold h.2 := by
  induction hs with
  | nil => exact .inl ⟨rfl, rfl⟩
  | cons h hs ih =>
    obtain ⟨b, c⟩ := h
    cases b with
    | true => exact .inr ⟨_, List.mem_cons_self, rfl, rfl⟩
    | false =>
      obtain ⟨e, g⟩ | ⟨h, m, e, g⟩ := ih
      · exact .inl ⟨e, g⟩
      · exact .inr ⟨h, List.mem_cons_of_mem _ m, e, g⟩

@[simp] theorem State.roomed_free (s : State) (n : Nat) (k : State → State) (h : s.myRegion.outRoom s.actEntry n = true) :
    s.roomed n k = k s := by
  unfold State.roomed; rw [h]; rfl
theorem State.roomed_full (s : State) (n : Nat) (k : State → State) (h : s.myRegion.outRoom s.actEntry n = false) :
    s.roomed n k = s.hold 7 := by
  unfold State.roomed; rw [h]; rfl

end Sys2Proof.Machine
end

