-- ==== Sys2Proof/Laws/Trap.lean ====
section
/-! SUPPORT. What taking a trap does (R370, R372) and what starting a freeze leaves alone (R376, R381). -/

namespace Sys2Proof.Machine

theorem trap_fresh (s : State) (c : Cause) (v : Word) (h : Fresh s) : s.trap c v = s.setMe (s.me.trapEntry c v) := by
  have h' : s.me.nested = false := h
  simp [State.trap, h']

theorem trap_nested (s : State) (c : Cause) (v : Word) (h : ¬Fresh s) : s.trap c v = s.doubleTrap c v := by
  have h' : s.me.nested = true := by
    cases e : s.me.nested with
    | true => rfl
    | false => exact absurd e h
  simp [State.trap, h']

/-- A trap with the nesting bit clear. -/
theorem trapDone_trap (s : State) (c : Cause) (v : Word) (h : Fresh s) : TrapDone s (s.trap c v) (causeCode c) v := by
  rw [trap_fresh s c v h]
  refine ⟨onlyMe_setMe _ _, ?_, ?_, ?_, ?_, ?_, ?_, ?_, ?_⟩
  all_goals simp only [State.setMe_me, Slot.trapEntry]
  · cases c <;> decide
  · cases c <;> decide

@[simp] theorem Region.keepFault_cells (r : Region) (q : Rec) : (r.keepFault q).cells = r.cells := by
  unfold Region.keepFault; split <;> rfl
@[simp] theorem Region.keepFault_nodes (r : Region) (q : Rec) : (r.keepFault q).nodes = r.nodes := by
  unfold Region.keepFault; split <;> rfl
@[simp] theorem Region.keepFault_chans (r : Region) (q : Rec) : (r.keepFault q).chans = r.chans := by
  unfold Region.keepFault; split <;> rfl
@[simp] theorem Region.keepFault_freeze (r : Region) (q : Rec) : (r.keepFault q).freeze = r.freeze := by
  unfold Region.keepFault; split <;> rfl

/-- What starting a freeze may write: State.due, and the freeze and fault lists of the region. -/
def FreezeOnly (s t : State) (c : Nat) : Prop :=
  t.mem = s.mem ∧ t.actor = s.actor ∧ (t.region c).cells = (s.region c).cells ∧ (t.region c).nodes = (s.region c).nodes ∧
  (t.region c).chans = (s.region c).chans ∧ (t.region c).freeze.isSome = true ∧ ∀ d, d ≠ c → t.region d = s.region d

theorem freezeOnly_set (s : State) (c : Nat) (r : Region) (due : List (Instr × Actor)) (h1 : r.cells = (s.region c).cells)
    (h2 : r.nodes = (s.region c).nodes) (h3 : r.chans = (s.region c).chans) (h4 : r.freeze.isSome = true) :
    FreezeOnly s { s.setRegion c r with due := due } c := by
  have reg : ∀ d : Nat, State.region { s.setRegion c r with due := due } d = (s.setRegion c r).region d := fun _ => rfl
  refine ⟨rfl, rfl, ?_, ?_, ?_, ?_, ?_⟩
  · rw [reg, State.setRegion_region, h1]
  · rw [reg, State.setRegion_region, h2]
  · rw [reg, State.setRegion_region, h3]
  · rw [reg, State.setRegion_region, h4]
  · intro d hd; rw [reg]; exact State.setRegion_region_ne _ _ _ _ hd

/-- Starting a freeze leaves memory, the acting unit, and the region's cells, nodes and channels alone; the region
freezes. -/
theorem startFreeze_effect (s : State) (c start kind : Nat) (f : Bool) (q : Rec) :
    FreezeOnly s (s.startFreeze c start kind f q) c := by
  unfold State.startFreeze
  dsimp only
  split
  · exact freezeOnly_set _ _ _ _ rfl rfl rfl rfl
  · next fz h =>
    split
    · split
      · exact freezeOnly_set _ _ _ _ (by simp) (by simp) (by simp) rfl
      · exact freezeOnly_set _ _ _ s.due (by simp) (by simp) (by simp) (by simp [h])
    · exact ⟨rfl, rfl, rfl, rfl, rfl, by simp [h], fun _ _ => rfl⟩

theorem me_of_cells {s t : State} (ha : t.actor = s.actor) (hc : (t.region s.actCue).cells = (s.region s.actCue).cells) :
    t.me = s.me := by
  have e1 : t.actCue = s.actCue := by unfold State.actCue; rw [ha]
  have e2 : t.actCell = s.actCell := by unfold State.actCell; rw [ha]
  have e3 : t.actSlot = s.actSlot := by unfold State.actSlot; rw [ha]
  unfold State.me State.slotAt Region.slot Region.cell
  rw [e1, e2, e3, hc]

/-- A double trap (R372). -/
theorem doubleTrapDone (s : State) (c : Cause) (v : Word) : DoubleTrapDone s (s.doubleTrap c v) := by
  have e := startFreeze_effect (s.setMe { s.me with st := .frozen, before := .supv, waiting := .nothing })
    s.actCue s.actCell 2 true (s.slotRec 0x03 (causeCode c) v.toNat (s.me.tepc.toNat + field (s.me.tcause.toNat % 256) 16))
  obtain ⟨hm, ha, hc, -, -, hf, -⟩ := e
  have m : (s.doubleTrap c v).me = { s.me with st := .frozen, before := .supv, waiting := .nothing } := by
    have := me_of_cells (s := s.setMe { s.me with st := .frozen, before := .supv, waiting := .nothing }) (t := s.doubleTrap c v) ha hc
    rw [this]; exact State.setMe_me _ _
  have ac : (s.doubleTrap c v).actCue = s.actCue := by
    unfold State.actCue
    have : (s.doubleTrap c v).actor = s.actor := ha
    rw [this]
  refine ⟨?_, ?_, ?_, ?_, ?_, ?_, ?_, ?_, ?_, ?_⟩
  all_goals try (rw [m])
  · unfold State.myRegion; rw [ac]; exact hf
  · intro a
    have : (s.doubleTrap c v).mem = s.mem := hm
    rw [this]

theorem doubleTrapDone_trap (s : State) (c : Cause) (v : Word) (h : ¬Fresh s) : DoubleTrapDone s (s.trap c v) := by
  rw [trap_nested s c v h]; exact doubleTrapDone s c v

end Sys2Proof.Machine
end

