-- ==== Sys2Proof/Laws/Task.lean ====
section
/-! SUPPORT. What the shared operations of a task slot do: going to a target, the course of an access. -/

namespace Sys2Proof.Machine

theorem goTo_in (s : State) (t : Int) (link : Slot → Slot) (h : inStore t) :
    s.goTo t link = s.setMe { link s.me with pc := BitVec.ofInt 16 t } := by
  have : ¬(t < 0 ∨ 0xFFFC < t) := by unfold inStore at h; omega
  simp only [State.goTo, if_neg this]

theorem goTo_out (s : State) (t : Int) (link : Slot → Slot) (h : ¬inStore t) :
    s.goTo t link = s.trap .bounds (BitVec.ofInt 64 t) := by
  have : t < 0 ∨ 0xFFFC < t := by unfold inStore at h; omega
  simp only [State.goTo, if_pos this]

theorem linkDone_goTo (s : State) (t : Int) (d : Reg) (h : inStore t) :
    LinkDone s (s.goTo t (fun x => x.setReg d s.linkValue)) d (BitVec.ofInt 16 t) := by
  rw [goTo_in s t _ h]
  refine ⟨onlyMe_setMe _ _, by simp, ?_, ?_, ?_⟩
  · intro hd
    have : (s.setMe { s.me.setReg d s.linkValue with pc := BitVec.ofInt 16 t }).rg d = (s.me.setReg d s.linkValue).reg d := by
      simp only [State.rg, State.setMe_me]; rfl
    rw [this, Slot.setReg_reg, if_neg hd, if_pos rfl]; rfl
  · intro r hr
    have : (s.setMe { s.me.setReg d s.linkValue with pc := BitVec.ofInt 16 t }).rg r = (s.me.setReg d s.linkValue).reg r := by
      simp only [State.rg, State.setMe_me]; rfl
    rw [this, Slot.setReg_reg]
    by_cases z : r = 0
    · rw [if_pos z, z]; rfl
    · rw [if_neg z, if_neg hr]; rfl
  · simp only [State.setMe_me]
    unfold Slot.setReg
    split <;> rfl

/-- What a task access has to go on with: its segments and the bytes there. -/
def Got.direct (s : State) (segs : List Seg) : Got := { segs := segs, bytes := s.viewSegs segs }

/-- A task access whose checks and requests pass goes on with its segments. -/
theorem withAccess_admits {s s' : State} {ea : Word} {align : Nat} {job : MemJob} {segs : List Seg} (k : Got → State → State)
    (h : Admits s ea align job segs s') : s.withAccess ea align job k = k (.direct s' segs) s' := by
  obtain ⟨s1, ⟨hf, h1⟩, h2, h3⟩ := h
  simp only [State.withAccess, hf, h1, State.askAccess, h2, h3, Got.direct]

/-- One that has been answered goes on with what the answer brought. -/
theorem withAccess_answered {s s' : State} {ea : Word} {align : Nat} {job : MemJob} {bs : List Byte} (k : Got → State → State)
    (h : Answered s ea job bs s') :
    ∃ f, s.fetchOf ea.toNat job = some f ∧ s.withAccess ea align job k = k { bytes := bs, done := true, fetch := [f] } s' := by
  obtain ⟨f, hf, ha, rfl, rfl⟩ := h
  refine ⟨f, hf, ?_⟩
  simp only [State.withAccess, hf, ha, if_true]

/-- One that pends leaves its slot in WAIT. -/
theorem withAccess_pends {s s' : State} {ea : Word} {align : Nat} {job : MemJob} (k : Got → State → State)
    (h : Pends s ea align job s') : ∃ w, s.withAccess ea align job k = s'.wait w := by
  rcases h with ⟨f, hf, ha, rfl⟩ | ⟨w, hf, h⟩ | ⟨segs, w, ⟨hf, h⟩, hw⟩ | ⟨segs, w, s1, ⟨hf, h⟩, hn, hq⟩
  · exact ⟨.answer, by simp [State.withAccess, hf, ha]⟩
  · exact ⟨w, by simp only [State.withAccess, hf, h]⟩
  · exact ⟨w, by simp only [State.withAccess, hf, h, State.askAccess, hw]⟩
  · exact ⟨w, by simp only [State.withAccess, hf, h, State.askAccess, hn, hq]⟩

theorem withAccess_trap {s s1 : State} {ea : Word} {align : Nat} {job : MemJob} {c : Cause} {v : Word} (k : Got → State → State)
    (h : Checks s ea align job (.trap c v) s1) : s.withAccess ea align job k = s1.trap c v := by
  simp only [State.withAccess, h.1, h.2]

theorem withAccess_viol {s s1 : State} {ea : Word} {align : Nat} {job : MemJob} {a right : Nat} (k : Got → State → State)
    (h : Checks s ea align job (.viol a right) s1) : s.withAccess ea align job k = s1.violation a right := by
  simp only [State.withAccess, h.1, h.2]

end Sys2Proof.Machine
end

