-- ==== Sys2Proof/Laws/Access.lean ====
section
/-! SUPPORT. What the stores of a task slot do to memory, and what the checks and requests of an access leave alone (R198, R199,
R266, R353, R354). -/

namespace Sys2Proof.Machine

theorem writeSegs_regions (s : State) (ps : List (Nat × List Byte)) : (s.writeSegs ps).regions = s.regions := by
  induction ps generalizing s with
  | nil => rfl
  | cons p r ih => obtain ⟨k, bs⟩ := p; exact (ih (s.write k bs)).trans rfl

theorem writeSegs_actor (s : State) (ps : List (Nat × List Byte)) : (s.writeSegs ps).actor = s.actor := by
  induction ps generalizing s with
  | nil => rfl
  | cons p r ih => obtain ⟨k, bs⟩ := p; exact (ih (s.write k bs)).trans rfl

/-- Writing segments changes nothing but memory. -/
theorem writeSegs_only (s : State) (ps : List (Nat × List Byte)) : { s.writeSegs ps with mem := s.mem } = s := by
  induction ps generalizing s with
  | nil => rfl
  | cons p r ih =>
    obtain ⟨k, bs⟩ := p
    have := ih (s.write k bs)
    have e : { s.write k bs with mem := s.mem } = s := rfl
    calc { (s.write k bs).writeSegs r with mem := s.mem }
        = { { (s.write k bs).writeSegs r with mem := (s.write k bs).mem } with mem := s.mem } := rfl
      _ = { s.write k bs with mem := s.mem } := by rw [this]
      _ = s := e

theorem partByte_cons (k : Nat) (bs : List Byte) (r : List (Nat × List Byte)) (x : Nat) :
    partByte ((k, bs) :: r) x = (partByte r x).or (if k ≤ x ∧ x < k + bs.length then some (bs.getD (x - k) 0) else none) := by
  simp only [partByte, List.reverse_cons, List.find?_append, List.find?_cons, List.find?_nil]
  cases r.reverse.find? (fun p => decide (p.1 ≤ x ∧ x < p.1 + p.2.length)) with
  | some q => rfl
  | none =>
    by_cases h : k ≤ x ∧ x < k + bs.length
    · simp [h]
    · simp [h]

/-- A byte after segments are written: what the last of them that holds it stores, else as before. -/
theorem memGet_writeSegs (s : State) (ps : List (Nat × List Byte)) (x : Nat) :
    memGet (s.writeSegs ps).mem x = (partByte ps x).getD (memGet s.mem x) := by
  induction ps generalizing s with
  | nil => rfl
  | cons p r ih =>
    obtain ⟨k, bs⟩ := p
    show memGet ((s.write k bs).writeSegs r).mem x = _
    rw [ih (s.write k bs), State.write_mem, partByte_cons]
    cases partByte r x with
    | some b => rfl
    | none =>
      simp only [Option.getD_none, Option.none_or]
      by_cases hx : k ≤ x ∧ x < k + bs.length
      · have lt : x - k < bs.length := by omega
        have := memGet_memSetList_in s.mem k bs (x - k) lt
        rw [show k + (x - k) = x by omega] at this
        rw [if_pos hx, this]
        simp [lt]
      · rw [if_neg hx, memGet_memSetList_out]
        · rfl
        · omega

/-- Memory keeps its form over written segments. -/
theorem writeSegs_wf (s : State) (ps : List (Nat × List Byte)) (h : s.mem.wf = true) : (s.writeSegs ps).mem.wf = true := by
  induction ps generalizing s with
  | nil => exact h
  | cons p r ih => obtain ⟨k, bs⟩ := p; exact ih (s.write k bs) (Mem.wf_memSetList _ _ _ h)

/-- An instruction that releases goes on where the slot owes nothing, and waits where it does. -/
theorem released_settled {s : State} (k : State → State) (h : Settled s) : s.released k = k s := by
  unfold State.released; rw [h]; rfl
theorem released_waits {s : State} (k : State → State) (h : ¬Settled s) : s.released k = s.wait .own := by
  unfold State.released
  rw [if_neg]
  intro q
  exact h (List.isEmpty_iff.mp q)

/-! ### What the checks and requests of an access leave alone -/

/-- A translation writes ACC and DIRTY, caches, and may use up a free value; nothing else. -/
def CheckOnly (s t : State) : Prop := { t with mem := s.mem, tlb := s.tlb, free := s.free } = s

theorem CheckOnly.refl (s : State) : CheckOnly s s := rfl
theorem CheckOnly.trans {s t u : State} (h : CheckOnly s t) (k : CheckOnly t u) : CheckOnly s u := by
  unfold CheckOnly at *
  rw [← h, ← k]
theorem CheckOnly.regions {s t : State} (h : CheckOnly s t) : t.regions = s.regions := by
  have := congrArg State.regions h; exact this
theorem CheckOnly.actor {s t : State} (h : CheckOnly s t) : t.actor = s.actor := by
  have := congrArg State.actor h; exact this

theorem tlbRoom_only (s : State) (unit : Nat) : CheckOnly s (s.tlbRoom unit) := by
  unfold State.tlbRoom
  dsimp only
  split
  · split <;> rfl
  · rfl

theorem walkIn_only (s : State) (unit ten va : Nat) (w : Bool) (a : Nat) (e : Word) (l : Nat) :
    CheckOnly s (s.walkIn unit ten va w a e l) := by
  have put : ∀ (u : State) (t : List TlbEnt) (x : TlbEnt),
      CheckOnly u { (({ u with tlb := t } : State).tlbRoom unit) with tlb := (({ u with tlb := t } : State).tlbRoom unit).tlb ++ [x] } := by
    intro u t x
    have h := tlbRoom_only { u with tlb := t } unit
    have h0 : CheckOnly u { u with tlb := t } := rfl
    exact (h0.trans h).trans rfl
  unfold State.walkIn
  dsimp only
  split
  · split
    · rfl
    · exact put _ _ _
  · split
    · rfl
    · exact CheckOnly.trans (t := s.store a 8 (leafTouch e w).toNat) rfl (put _ _ _)

theorem translate_only (s : State) (unit ten va : Nat) (w : Bool) : CheckOnly s (translate s unit ten va w).2 := by
  have fresh : ∀ x : Walk, CheckOnly s (match x with
      | .leaf at_ e level => (Trans.ok (leafTouch e w) (leafPa e level va), s.walkIn unit ten va w at_ e level)
      | .invalid => (.invalid, s)
      | .malformed => (.malformed, s)
      | .migrating => (.migrating, s)
      | .dark pa => (.dark pa, s)).2 := by
    intro x
    cases x
    · exact walkIn_only _ _ _ _ _ _ _ _
    all_goals exact CheckOnly.refl s
  have key : ∀ fr : Trans × State, CheckOnly s fr.2 → ∀ o : Option TlbEnt, CheckOnly s (match o with
      | none => fr
      | some t =>
        if sameTrans fr.1 t.leaf (leafFrame t.leaf * 65536 + va % t.size) then
          (Trans.ok t.leaf (leafFrame t.leaf * 65536 + va % t.size), s)
        else if Config.freeBool s.free then (Trans.ok t.leaf (leafFrame t.leaf * 65536 + va % t.size), s.tickFree)
        else (fr.1, fr.2.tickFree)).2 := by
    intro fr h o
    cases o with
    | none => exact h
    | some t =>
      dsimp only
      split
      · rfl
      · split
        · rfl
        · exact h.trans rfl
  exact key _ (fresh _) _

theorem walkParts_only (ea : Word) (ten unit : Nat) (wr : Bool) (ps : List (Nat × Nat)) (acc : List Seg) (s : State) :
    CheckOnly s (walkParts ea ten unit wr ps acc s).2 := by
  induction ps generalizing acc s with
  | nil => rfl
  | cons p r ih =>
    obtain ⟨va, n⟩ := p
    have t := translate_only s unit ten va wr
    unfold walkParts
    split
    · next h => rw [h] at t; exact t.trans (ih _ _)
    all_goals next h => rw [h] at t; exact t

theorem checkParts_only (ea : Word) (ten die unit : Nat) (rd wr : Bool) (ps : List (Nat × Nat)) (s : State) :
    CheckOnly s (checkParts ea ten die unit rd wr ps s).2 := by
  have t := walkParts_only ea ten unit wr ps [] s
  unfold checkParts
  split
  · next h => rw [h] at t; split <;> exact t
  · exact t

/-- The checks of a task access change nothing but the page table's ACC and DIRTY bits and the cached translations. -/
theorem checkAccess_only (s : State) (ea : Word) (n align : Nat) (rd wr : Bool) :
    CheckOnly s (checkAccess s ea n align rd wr).2 := by
  unfold checkAccess
  split
  · rfl
  · unfold checkWindow
    dsimp only
    repeat' split
    all_goals first
      | rfl
      | exact checkParts_only _ _ _ _ _ _ _ _

/-- What requests that are met may write: the tenants' buckets, the packets at the ports and the fetches. -/
def RequestOnly (s t : State) : Prop :=
  { t with tenants := s.tenants, packets := s.packets, nextPkt := s.nextPkt, due := s.due, fetches := s.fetches } = s

theorem RequestOnly.trans {s t u : State} (h : RequestOnly s t) (k : RequestOnly t u) : RequestOnly s u := by
  unfold RequestOnly at *
  rw [← h, ← k]

theorem draw_only (s : State) (ten : Nat) (who : Actor) (ns : List Nat) : RequestOnly s (s.draw ten who ns).2 := rfl

theorem sendReqs_only (s : State) (v id : Nat) (dst : Dst) (wr : Bool) (parts : List (Nat × Nat)) :
    RequestOnly s (s.sendReqs v id dst wr parts) := rfl

/-- The MREQs of accesses change nothing but the tenant's bucket and the packets at the port. -/
theorem portRequest_only (s : State) (v : Nat) (dst : Dst) (accs : List (List (Nat × Nat) × Bool)) (glob : Bool) :
    RequestOnly s (s.portRequest v dst accs glob).2 := by
  have fold : ∀ (ps : List ((List (Nat × Nat) × Bool) × Nat)) (k : Nat) (t : State),
      RequestOnly t (ps.foldl (fun s p => s.sendReqs v (k + p.2) dst p.1.2 p.1.1) t) := by
    intro ps k
    induction ps with
    | nil => intro t; rfl
    | cons p ps ih => intro t; exact (sendReqs_only t _ _ _ _ _).trans (ih _)
  unfold State.portRequest
  dsimp only
  generalize (if glob = true then _ else _) = ns
  have d := draw_only s s.myRegion.tenant s.actor ns
  split
  · rfl
  · split
    · rfl
    · split
      · next h => rw [h] at d; exact d
      · next h => rw [h] at d; exact d.trans (fold _ _ _)

/-- Taking an answer off changes the fetches only. -/
theorem dropFetches_only (s : State) : RequestOnly s s.dropFetches := rfl

theorem request_only (s s' : State) (ea : Word) (segs : List Seg) (job : MemJob) (h : s.request ea segs job = (none, s')) :
    RequestOnly s s' := by
  unfold State.request at h
  dsimp only at h
  generalize (if (spaceOf ea == 0 || spaceOf ea == 2) = true then segRuns ea.toNat segs else []) = runs at h
  split at h
  · split at h
    · cases h
    · cases h; rfl
  · split at h
    · cases h
    · split at h
      · cases h
      · split at h
        · cases h
        · split at h
          · next q =>
            cases h
            have o := portRequest_only s s.actCell (s.myRegion.fetchDst (spaceOf ea) s.actCell (spadTarget ea s.actCell))
              [(runs, true)] (spaceOf ea == 0)
            rw [q] at o; exact o
          · cases h

theorem admits_regions {s s' : State} {ea : Word} {align : Nat} {job : MemJob} {segs : List Seg}
    (h : Admits s ea align job segs s') : s'.regions = s.regions ∧ s'.actor = s.actor := by
  obtain ⟨s1, ⟨_, h1⟩, _, h2⟩ := h
  have a := checkAccess_only s ea job.size align job.reads job.writes
  rw [h1] at a
  have b := request_only s1 s' ea segs job h2
  exact ⟨(congrArg State.regions b).trans a.regions, (congrArg State.actor b).trans a.actor⟩

theorem answered_regions {s s' : State} {ea : Word} {job : MemJob} {bs : List Byte} (h : Answered s ea job bs s') :
    s'.regions = s.regions ∧ s'.actor = s.actor := by
  obtain ⟨f, _, _, _, rfl⟩ := h
  exact ⟨rfl, rfl⟩

theorem checks_misaligned (s : State) (ea : Word) (align : Nat) (job : MemJob) (u : Unasked s ea job) (h : ea.toNat % align ≠ 0) :
    Checks s ea align job (.trap .misalign ea) s := by
  refine ⟨u, ?_⟩
  simp only [checkAccess, if_pos h]

end Sys2Proof.Machine
end

