-- ==== Sys2Proof/Laws/Command.lean ====
section
/-! SUPPORT. The laws of the callboard: what taking a command, posting an incident and moving a cue can do. -/

namespace Sys2Proof.Machine

/-! ### Taking a command (R396, R397) -/

/-- The state after a window has counted a command. -/
def State.took (s : State) (w : Nat) : State :=
  s.setWin w { (if (s.win w).counted then s.win w else (s.win w).accept) with counted := false }

theorem accepted_windows (s : State) (w : Nat) : { s.took w with windows := s.windows } = s := rfl
theorem accepted_win_ne (s : State) (w v : Nat) (h : v ≠ w) : (s.took w).win v = s.win v := State.setWin_win_ne _ _ _ _ h
theorem accepted_win (s : State) (w : Nat) : (s.took w).win w =
    { (if (s.win w).counted then s.win w else (s.win w).accept) with counted := false } := State.setWin_win _ _ _
@[simp] theorem accepted_cue (s : State) (w n : Nat) : (s.took w).cue n = s.cue n := rfl
@[simp] theorem accepted_region (s : State) (w n : Nat) : (s.took w).region n = s.region n := rfl
@[simp] theorem accepted_tenant (s : State) (w n : Nat) : (s.took w).tenant n = s.tenant n := rfl
@[simp] theorem accepted_die (s : State) (w n : Nat) : (s.took w).die n = s.die n := rfl
@[simp] theorem accepted_wing (s : State) (w n : Nat) : (s.took w).wing n = s.wing n := rfl
@[simp] theorem accepted_cues (s : State) (w : Nat) : (s.took w).cues = s.cues := rfl
@[simp] theorem accepted_regions (s : State) (w : Nat) : (s.took w).regions = s.regions := rfl
@[simp] theorem accepted_tenants (s : State) (w : Nat) : (s.took w).tenants = s.tenants := rfl
@[simp] theorem accepted_jobs (s : State) (w : Nat) : (s.took w).jobs = s.jobs := rfl
@[simp] theorem accepted_mem (s : State) (w : Nat) : (s.took w).mem = s.mem := rfl
@[simp] theorem accepted_readyQ (s : State) (w : Nat) : (s.took w).readyQ = s.readyQ := rfl
@[simp] theorem accepted_cyc (s : State) (w : Nat) : (s.took w).cyc = s.cyc := rfl
@[simp] theorem accepted_dies (s : State) (w : Nat) : (s.took w).dies = s.dies := rfl

@[simp] theorem accepted_winTenant (s : State) (w v : Nat) : (s.took w).winTenant v = s.winTenant v := by
  unfold State.winTenant
  by_cases e : v = w
  · subst e; rw [accepted_win]; split <;> rfl
  · rw [accepted_win_ne _ _ _ e]
@[simp] theorem accepted_cueInRange (s : State) (w v n : Nat) : (s.took w).cueInRange v n = s.cueInRange v n := by
  simp only [State.cueInRange, accepted_winTenant, accepted_tenant]

/-- A window may name the cues of its tenant, window 0 all (R434). -/
theorem cueInRange_iff (s : State) (w n : Nat) : s.cueInRange w n = true ↔ MayName s w n := by
  unfold State.cueInRange MayName State.winTenant
  by_cases e : w = 0
  · simp [e]
  · simp only [e, false_or, Bool.or_eq_true, beq_iff_eq]
    cases h : (s.win w).tenant <;> simp

/-- A window that may take a command does what the command says, and reports it. -/
theorem command_ready {s : State} {w : Nat} {c : Cmd} {fields : List Nat} (h : CmdReady s w c fields) (i : Instr)
    (body : State → CmdOut) :
    s.command w i c fields body = match body (s.took w) with
      | .done s => s.finish w resOk
      | .report code s => s.finish w code
      | .refuse code => (s.took w).finish w code
      | .busy s => s.setWin w { s.win w with state := 1, busy := some i } := by
  obtain ⟨h1, h2, h3, h4, h5⟩ := h
  have e1 : ¬ 15 < w := by omega
  have e3 : (windowZeroOnly (bits c.w0 7 0) && w != 0) = false := by
    rcases h4 with h4 | h4
    · have : ¬ 0x10 ≤ bits c.w0 7 0 := by omega
      simp [windowZeroOnly, this]
    · simp [h4]
  unfold State.command
  simp only [if_neg e1, h2, Bool.false_eq_true, if_false]
  show (if (s.fwOnly && bits c.w0 7 0 != 25) = true then _ else _) = _
  simp only [h3, Bool.false_and, Bool.false_eq_true, if_false, e3, h5, Bool.not_true]
  rfl

/-! ### Its report -/

theorem finish_windows (u : State) (w code : Nat) (W : Tab Win) :
    { u.finish w code with windows := W } = { u with windows := W } := rfl

theorem reports_finish {s u : State} {w code : Nat} (h : u.win w = (s.took w).win w) :
    Reports s (u.finish w code) w 2 code := by
  refine ⟨by simp [State.finish], by simp [State.finish], ?_, ?_⟩ <;>
    simp only [State.finish, State.setWin_win, h, accepted_win] <;>
    by_cases e : (s.win w).counted <;> simp [e, Win.accept]

theorem cmdDone_finish {s u : State} {w : Nat} (h : u.win w = (s.took w).win w) : CmdDone s (u.finish w 0) w :=
  ⟨reports_finish h, by simp [State.finish]⟩

theorem onlyStatus_setWin {s u : State} {w st res : Nat} {b : Option Instr} (h : ∀ v, u.win v = (s.took w).win v) :
    OnlyStatus s (u.setWin w { u.win w with state := st, result := res, busy := b }) w := by
  refine ⟨fun v hv => ?_, ?_⟩
  · rw [State.setWin_win_ne _ _ _ _ hv, h, accepted_win_ne _ _ _ hv]
  · simp only [State.setWin_win, h, accepted_win]
    generalize s.win w = q
    obtain ⟨_, _, _, _, _, _, _, _, k, _, _, _, _⟩ := q
    cases k <;> rfl

theorem onlyStatus_finish {s u : State} {w code : Nat} (h : ∀ v, u.win v = (s.took w).win v) :
    OnlyStatus s (u.finish w code) w := onlyStatus_setWin h

theorem onlyStatus_busy {s u : State} {w : Nat} {i : Instr} (h : ∀ v, u.win v = (s.took w).win v) :
    OnlyStatus s (u.setWin w { u.win w with state := 1, busy := some i }) w := onlyStatus_setWin h

theorem cmdBusy_setWin {s u : State} {w : Nat} {i : Instr} (h : u.win w = (s.took w).win w) :
    CmdBusy i s (u.setWin w { u.win w with state := 1, busy := some i }) w := by
  refine ⟨⟨?_, ?_, ?_, ?_⟩, ?_⟩ <;> simp only [State.setWin_win, h, accepted_win] <;>
    by_cases e : (s.win w).counted <;> simp [e, Win.accept]

theorem refuses_of {s : State} {w code : Nat} {i : Instr} (h : exec i s = .next ((s.took w).finish w code)) :
    Refuses i s w code :=
  ⟨_, h, reports_finish rfl, onlyStatus_finish (fun _ => rfl), rfl⟩

/-! The same of a command that leaves the windows to its report. -/

theorem onlyStatus_of_win {s u : State} {w code : Nat} (h : u.windows = (s.took w).windows) : OnlyStatus s (u.finish w code) w :=
  onlyStatus_finish (fun v => by show Tab.get u.windows v {} = _; rw [h]; rfl)
theorem done_of_win {s u : State} {w : Nat} (h : u.windows = (s.took w).windows) : CmdDone s (u.finish w 0) w :=
  cmdDone_finish (by show Tab.get u.windows w {} = _; rw [h]; rfl)
theorem reports_of_win {s u : State} {w n : Nat} (h : u.windows = (s.took w).windows) : Reports s (u.finish w n) w 2 n :=
  reports_finish (by show Tab.get u.windows w {} = _; rw [h]; rfl)
theorem busy_of_win {s u : State} {w : Nat} {i : Instr} (h : u.windows = (s.took w).windows) :
   CmdBusy i s (u.setWin w { u.win w with state := 1, busy := some i }) w ∧ OnlyStatus s (u.setWin w { u.win w with state := 1, busy := some i }) w := by
  have e : ∀ v, u.win v = (s.took w).win v := fun v => by show Tab.get u.windows v {} = _; rw [h]; rfl
  exact ⟨cmdBusy_setWin (e w), onlyStatus_busy e⟩

/-! What the four ends of a command come to. -/

theorem ready_done {s u : State} {w : Nat} {c : Cmd} {f : List Nat} {i : Instr} {body : State → CmdOut}
    (h : CmdReady s w c f) (e : exec i s = .next (s.command w i c f body)) (b : body (s.took w) = .done u) :
    exec i s = .next (u.finish w 0) := by
  rw [e, command_ready h, b]; rfl
theorem ready_report {s u : State} {w n : Nat} {c : Cmd} {f : List Nat} {i : Instr} {body : State → CmdOut}
    (h : CmdReady s w c f) (e : exec i s = .next (s.command w i c f body)) (b : body (s.took w) = .report n u) :
    exec i s = .next (u.finish w n) := by
  rw [e, command_ready h, b]
theorem ready_busy {s u : State} {w : Nat} {c : Cmd} {f : List Nat} {i : Instr} {body : State → CmdOut}
    (h : CmdReady s w c f) (e : exec i s = .next (s.command w i c f body)) (b : body (s.took w) = .busy u) :
    exec i s = .next (u.setWin w { u.win w with state := 1, busy := some i }) := by
  rw [e, command_ready h, b]
theorem ready_refuse {s : State} {w n : Nat} {c : Cmd} {f : List Nat} {i : Instr} {body : State → CmdOut}
    (h : CmdReady s w c f) (e : exec i s = .next (s.command w i c f body)) (b : body (s.took w) = .refuse n) :
    Refuses i s w n := by
  apply refuses_of; rw [e, command_ready h, b]

@[simp] theorem refusals_nil (k : Unit → CmdOut) : refusals [] k = k () := rfl
@[simp] theorem refusals_true (n : Nat) (cs : List (Bool × Nat)) (k : Unit → CmdOut) :
    refusals ((true, n) :: cs) k = .refuse n := rfl
@[simp] theorem refusals_false (n : Nat) (cs : List (Bool × Nat)) (k : Unit → CmdOut) :
    refusals ((false, n) :: cs) k = refusals cs k := rfl

/-! ### Posting an incident (R388, R400) -/

/-- What posting incidents may write: memory, and of the windows only their incident rings. -/
def PostOnly (s t : State) : Prop :=
  { t with mem := s.mem, windows := s.windows } = s ∧
  ∀ w, { t.win w with prod := (s.win w).prod, dropped := (s.win w).dropped, held := (s.win w).held } = s.win w

theorem PostOnly.refl (s : State) : PostOnly s s := ⟨rfl, fun _ => rfl⟩
theorem PostOnly.trans {s t u : State} (h : PostOnly s t) (k : PostOnly t u) : PostOnly s u := by
  refine ⟨?_, fun w => ?_⟩
  · rw [← h.1, ← k.1]
  · rw [← h.2 w, ← k.2 w]

theorem postOnly_setWin (s : State) (w : Nat) (p d : BitVec 32) (h : List Rec) :
    PostOnly s (s.setWin w { s.win w with prod := p, dropped := d, held := h }) := by
  refine ⟨rfl, fun v => ?_⟩
  by_cases e : v = w
  · subst e; rw [State.setWin_win]
  · rw [State.setWin_win_ne _ _ _ _ e]

theorem postOnly_write (s : State) (a : Nat) (bs : List Byte) : PostOnly s (s.write a bs) := ⟨rfl, fun _ => rfl⟩

theorem postOnly_ringWrite (s : State) (w : Nat) (q : Rec) : PostOnly s (s.ringWrite w q) := by
  unfold State.ringWrite
  simp only
  split
  · exact .refl s
  · exact ((postOnly_write s _ _).trans (postOnly_write _ _ _)).trans (postOnly_setWin _ _ _ _ _)

theorem postOnly_postTo (s : State) (w : Nat) (q : Rec) : PostOnly s (s.postTo w q) := by
  unfold State.postTo
  simp only
  split
  · exact postOnly_ringWrite s w q
  · split
    · exact postOnly_setWin _ _ _ _ _
    · split
      · exact postOnly_setWin _ _ _ _ _
      · split
        · exact (postOnly_setWin s w _ _ _).trans (postOnly_write _ _ _)
        · exact postOnly_setWin _ _ _ _ _

/-- Posting changes nothing but memory and the rings. -/
theorem postOnly_postRec (s : State) (q : Rec) : PostOnly s (s.postRec q) := by
  unfold State.postRec State.post
  refine .trans ?_ (postOnly_postTo _ _ _)
  split
  · split
    · exact .refl s
    · exact postOnly_postTo s _ _
  · exact .refl s

theorem postOnly_cueIncident (s : State) (code c die v1 ten : Nat) : PostOnly s (s.cueIncident code c die v1 ten) :=
  postOnly_postRec _ _

theorem postOnly_flushHeld (s : State) (w : Nat) (l : List Rec) : PostOnly s (s.flushHeld w l) := by
  induction l generalizing s with
  | nil => exact .refl s
  | cons q rest ih =>
    unfold State.flushHeld
    split
    · exact ((postOnly_ringWrite s w q).trans (postOnly_setWin _ w _ _ rest)).trans (ih _)
    · exact .refl s

theorem PostOnly.cues {s t : State} (h : PostOnly s t) : t.cues = s.cues := by
  have := congrArg State.cues h.1; exact this
theorem PostOnly.regions {s t : State} (h : PostOnly s t) : t.regions = s.regions := by
  have := congrArg State.regions h.1; exact this
theorem PostOnly.tenants {s t : State} (h : PostOnly s t) : t.tenants = s.tenants := by
  have := congrArg State.tenants h.1; exact this
theorem PostOnly.readyQ {s t : State} (h : PostOnly s t) : t.readyQ = s.readyQ := by
  have := congrArg State.readyQ h.1; exact this
theorem PostOnly.cyc {s t : State} (h : PostOnly s t) : t.cyc = s.cyc := by
  have := congrArg State.cyc h.1; exact this
theorem PostOnly.dies {s t : State} (h : PostOnly s t) : t.dies = s.dies := by
  have := congrArg State.dies h.1; exact this
theorem PostOnly.wings {s t : State} (h : PostOnly s t) : t.wings = s.wings := by
  have := congrArg State.wings h.1; exact this
theorem PostOnly.flys {s t : State} (h : PostOnly s t) : t.flys = s.flys := by
  have := congrArg State.flys h.1; exact this
theorem PostOnly.packets {s t : State} (h : PostOnly s t) : t.packets = s.packets := by
  have := congrArg State.packets h.1; exact this
theorem PostOnly.due {s t : State} (h : PostOnly s t) : t.due = s.due := by
  have := congrArg State.due h.1; exact this
theorem PostOnly.cue {s t : State} (h : PostOnly s t) (n : Nat) : t.cue n = s.cue n := by unfold State.cue; rw [h.cues]
theorem PostOnly.region {s t : State} (h : PostOnly s t) (n : Nat) : t.region n = s.region n := by unfold State.region; rw [h.regions]
theorem PostOnly.tenant {s t : State} (h : PostOnly s t) (n : Nat) : t.tenant n = s.tenant n := by unfold State.tenant; rw [h.tenants]
theorem PostOnly.die {s t : State} (h : PostOnly s t) (n : Nat) : t.die n = s.die n := by unfold State.die; rw [h.dies]

theorem cmdDone_post {s u : State} {w : Nat} (h : PostOnly (s.took w) u) : CmdDone s (u.finish w 0) w := by
  have e := h.2 w
  refine ⟨⟨by simp [State.finish], by simp [State.finish], ?_, ?_⟩, by simp [State.finish]⟩
  · simp only [State.finish, State.setWin_win]
    have e' : (u.win w).lost = ((s.took w).win w).lost := by have := congrArg Win.lost e; exact this
    rw [e', accepted_win]
    by_cases k : (s.win w).counted <;> simp [k, Win.accept]
  · simp only [State.finish, State.setWin_win]
    have e' : (u.win w).seq = ((s.took w).win w).seq := by have := congrArg Win.seq e; exact this
    rw [e', accepted_win]
    by_cases k : (s.win w).counted <;> simp [k, Win.accept]

/-! ### A cue and word 0 of its status entry (R280, R399) -/

/-- The cue in a state, its update counted. -/
def Cue.moved (q : Cue) (st : CueSt) : Cue := { q with st := st, updates := (q.updates + 1) % 2 ^ 32 }

/-- Word 0 of the status entry. -/
def Cue.word0 (q : Cue) : List Byte := bytesOf 8 (cueCode q.st + q.updates * 2 ^ 32)

/-- Cue n holds q and its entry shows it. -/
def State.putCue (s : State) (n : Nat) (q : Cue) : State :=
  { s with cues := Tab.set s.cues n q, mem := memSetList s.mem (statusAt s q.tenant n) q.word0 }

theorem moveCue_word0 (s : State) (n : Nat) (st : CueSt) : s.moveCue n st .word0 = s.putCue n ((s.cue n).moved st) := by
  simp only [State.moveCue, State.writeEntry, State.setCue_cue, State.setCue_tenant_of, field]
  rfl

theorem putCue_putCue (s : State) (n : Nat) (p q : Cue) (h : p.tenant = q.tenant) :
    (s.putCue n p).putCue n q = s.putCue n q := by
  have : statusAt (s.putCue n p) q.tenant n = statusAt s q.tenant n := rfl
  unfold State.putCue at *
  rw [this, Tab.set_set, h, memSetList_twice]
  simp only [Cue.word0, bytesOf_length]
@[simp] theorem putCue_setCue (s : State) (n : Nat) (p q : Cue) : (s.setCue n p).putCue n q = s.putCue n q := by
  unfold State.putCue State.setCue; simp only [Tab.set_set]; rfl
theorem putCue_setCue_putCue (s : State) (n : Nat) (p q r : Cue) (h : p.tenant = r.tenant) :
    ((s.putCue n p).setCue n q).putCue n r = s.putCue n r := by
  rw [putCue_setCue, putCue_putCue _ _ _ _ h]
@[simp] theorem putCue_cue (s : State) (n : Nat) (q : Cue) : (s.putCue n q).cue n = q := Tab.get_set_same _ _ _ _
theorem putCue_cue_ne (s : State) (n m : Nat) (q : Cue) (h : m ≠ n) : (s.putCue n q).cue m = s.cue m :=
  Tab.get_set_ne _ _ _ _ _ h

theorem putCue_shows (s : State) (n : Nat) (q : Cue) (h : q.updates < 2 ^ 32) : EntryShows s (s.putCue n q) n := by
  have e := putCue_cue s n q
  unfold EntryShows
  rw [e]
  refine ⟨?_, ?_⟩
  · have : cueCode q.st ≤ 6 := by cases q.st <;> decide
    show natOf (memGetList (memSetList s.mem _ q.word0) _ 8) = _
    have h8 : q.word0.length = 8 := bytesOf_length _ _
    have := memGetList_memSetList s.mem (statusAt s q.tenant n) q.word0
    rw [h8] at this
    rw [this, Cue.word0, natOf_bytesOf]
    apply Nat.mod_eq_of_lt; omega
  · intro x hx
    exact memGet_memSetList_out _ _ _ _ (by rw [Cue.word0, bytesOf_length]; omega)

/-! ### READY and WAITING (R280 to R282) -/

theorem makeReady_eq (s : State) (b : Bool) (n : Nat) :
    s.makeReady b n =
      let t := s.putCue n (Cue.moved { s.cue n with readyAt := s.cyc.toNat } .ready)
      { t with readyQ := if b then s.readyQ ++ [n] else readyInsert t.cues s.cyc.toNat n s.readyQ } := by
  unfold State.makeReady
  simp only [moveCue_word0, putCue_setCue, State.setCue_cue]
  rfl

/-- Releasing one cue that is not FREE. -/
theorem releaseAll_one (s : State) (b : Bool) (n : Nat) (h : (s.cue n).st ≠ .free) : s.releaseAll b [n] =
    if (s.cue n).count = 0 then s.cueIncident 0x0E n 0 0 (s.cue n).tenant
    else if (s.cue n).count = 1 then (s.setCue n { s.cue n with count := (s.cue n).count - 1 }).makeReady b n
    else s.setCue n { s.cue n with count := (s.cue n).count - 1 } := by
  unfold State.releaseAll
  simp only [List.foldl_cons, List.foldl_nil, State.releaseOne, if_neg h]
  by_cases z0 : (s.cue n).count = 0
  · simp only [if_pos z0]; rfl
  · by_cases z1 : (s.cue n).count = 1
    · simp only [if_neg z0, if_pos z1]; rfl
    · simp only [if_neg z0, if_neg z1]; rfl

/-- A cue that went to WAITING with count 0 and so is READY. -/
def State.readiedCue (s : State) (n : Nat) : Cue :=
  { s.cue n with st := .ready, count := 0, updates := ((s.cue n).updates + 2) % 2 ^ 32, readyAt := s.cyc.toNat }

theorem toWaiting_zero (s : State) (n : Nat) : s.toWaiting n 0 .word0 =
    { s.putCue n (s.readiedCue n) with readyQ := readyInsert (s.putCue n (s.readiedCue n)).cues s.cyc.toNat n s.readyQ } := by
  unfold State.toWaiting
  simp only [if_true, makeReady_eq, moveCue_word0, State.setCue_cue, putCue_setCue, putCue_cue, Cue.moved]
  rw [putCue_putCue]
  · have z : ((((s.cue n).updates + 1) % 2 ^ 32) + 1) % 2 ^ 32 = ((s.cue n).updates + 2) % 2 ^ 32 := by omega
    have h : (s.putCue n (Cue.moved { s.cue n with count := 0 } .waiting)).cyc = s.cyc := rfl
    simp only [Cue.moved] at h
    simp only [h, z]
    rfl
  · rfl

theorem toWaiting_pos (s : State) (n k : Nat) (h : k ≠ 0) : s.toWaiting n k .word0 =
    s.putCue n { s.cue n with st := .waiting, count := k, updates := ((s.cue n).updates + 1) % 2 ^ 32 } := by
  unfold State.toWaiting
  simp only [if_neg h, moveCue_word0, State.setCue_cue, putCue_setCue, Cue.moved]

/-- A cue accepted over a state that differs only in windows and jobs. -/
theorem accepted_acceptCue (s u : State) (n : Nat) (q : Cue) (h1 : u.cues = s.cues) (h2 : u.mem = s.mem)
    (h3 : u.tenants = s.tenants) (h4 : u.cyc = s.cyc) (h5 : u.readyQ = s.readyQ) : Accepted s (u.acceptCue n q) n q := by
  have ec : ∀ m, u.cue m = s.cue m := fun m => by show Tab.get u.cues m {} = _; rw [h1]; rfl
  have es : ∀ k m, statusAt u k m = statusAt s k m := fun k m => by unfold statusAt State.tenant; rw [h3]
  have sh : ∀ t, EntryShows u t n → EntryShows s t n := fun t h => by
    unfold EntryShows SameMemBut at *; simp only [es, h2] at h; exact h
  by_cases hp : q.preds = 0
  · have e : u.acceptCue n q =
        let t := u.putCue n { q with
          st := .ready, count := 0, updates := ((s.cue n).updates + 2) % 2 ^ 32, readyAt := s.cyc.toNat }
        { t with readyQ := readyInsert t.cues s.cyc.toNat n s.readyQ } := by
      unfold State.acceptCue
      simp only [hp, toWaiting_zero, State.readiedCue, State.setCue_cue, putCue_setCue, State.setCue_cyc, State.setCue_readyQ,
        ec, h4, h5]
    rw [e]
    exact ⟨fun m hm => (putCue_cue_ne _ _ _ _ hm).trans (ec m), sh _ (putCue_shows _ _ _ (Nat.mod_lt _ (by omega))),
      fun h => absurd hp h, fun _ => ⟨putCue_cue _ _ _, rfl⟩⟩
  · have e : u.acceptCue n q =
        u.putCue n { q with st := .waiting, count := q.preds, updates := ((s.cue n).updates + 1) % 2 ^ 32 } := by
      unfold State.acceptCue
      simp only [toWaiting_pos _ _ _ hp, State.setCue_cue, putCue_setCue, ec]
    rw [e]
    exact ⟨fun m hm => (putCue_cue_ne _ _ _ _ hm).trans (ec m), sh _ (putCue_shows _ _ _ (Nat.mod_lt _ (by omega))),
      fun _ => ⟨putCue_cue _ _ _, h5⟩, fun h => absurd h hp⟩

theorem acceptCue_frame (u : State) (n : Nat) (q : Cue) :
    { u.acceptCue n q with cues := u.cues, readyQ := u.readyQ, mem := u.mem } = u := by
  unfold State.acceptCue
  by_cases hp : q.preds = 0
  · simp only [hp, toWaiting_zero]; rfl
  · simp only [toWaiting_pos _ _ _ hp]; rfl

end Sys2Proof.Machine
end

