-- ==== Sys2Proof/Laws/Fire.lean ====
section
/-! SUPPORT. What a node's firing does (R12, R16, R17): `fired_fire` says all of it once, for every opcode. -/

namespace Sys2Proof.Machine

/-- A channel as claims see it. -/
abbrev chanView (ch : Chan) : End × End × List Token := (ch.prod, ch.cons, ch.q)

theorem direct_setNode (r : Region) (e : Nat) (n : Node) (k : Nat) :
    (r.setNode e n).direct e k = !n.faulting.any (fun p => p.1 == k) := by
  unfold Region.direct; rw [Region.setNode_node]

theorem opTake_cases (r : Region) (e k : Nat) :
    (r.direct e k = true ∧ r.opTake e k = r.take (.entry e k)) ∨
    (r.direct e k = false ∧ ∃ p, (r.node e).faulting.find? (fun p => p.1 == k) = some p ∧
      r.opTake e k = r.setNode e { r.node e with faulting := (r.node e).faulting.erase p }) := by
  unfold Region.opTake Region.direct
  dsimp only
  cases h : (r.node e).faulting.find? (fun p => p.1 == k) with
  | none =>
    left
    rw [List.find?_eq_none] at h
    refine ⟨?_, rfl⟩
    simp only [Bool.not_eq_true', List.any_eq_false]
    exact h
  | some p =>
    right
    refine ⟨?_, p, rfl, rfl⟩
    have := List.find?_some h
    have m := List.mem_of_find?_eq_some h
    simp only [Bool.not_eq_false', List.any_eq_true]
    exact ⟨p, m, this⟩

/-- Erasing the first faulting token of operand k. -/
theorem erase_find (f : List (Nat × Token)) (k : Nat) (p : Nat × Token) (h : f.find? (fun p => p.1 == k) = some p) :
    f.erase p = f.eraseP (fun p => p.1 == k) := by
  induction f with
  | nil => simp at h
  | cons q r ih =>
    by_cases hq : (q.1 == k) = true
    · have : q = p := by simpa [List.find?_cons, hq] using h
      subst this
      simp [hq]
    · have hq' : (q.1 == k) = false := by simpa using hq
      have h' : r.find? (fun p => p.1 == k) = some p := by simpa [List.find?_cons, hq'] using h
      have pk := List.find?_some h'
      have ne : q ≠ p := by
        intro e; rw [e] at hq; exact hq pk
      rw [List.erase_cons_tail (by simpa using ne), ih h']
      simp [hq']

theorem eraseP_any_ne (f : List (Nat × Token)) (k j : Nat) (h : j ≠ k) :
    (f.eraseP (fun p => p.1 == k)).any (fun p => p.1 == j) = f.any (fun p => p.1 == j) := by
  induction f with
  | nil => rfl
  | cons q r ih =>
    by_cases hq : (q.1 == k) = true
    · have : q.1 = k := by simpa using hq
      have nj : (q.1 == j) = false := by simp [this, h.symm]
      simp [hq, nj]
    · have hq' : (q.1 == k) = false := by simpa using hq
      simp [hq', ih]

theorem eraseP_none (f : List (Nat × Token)) (k : Nat) (h : f.any (fun p => p.1 == k) = false) :
    f.eraseP (fun p => p.1 == k) = f := by
  induction f with
  | nil => rfl
  | cons q r ih =>
    simp only [List.any_cons, Bool.or_eq_false_iff] at h
    simp [h.1, ih h.2]

theorem any_congr_mem {α : Type} (l : List α) (f g : α → Bool) (h : ∀ a ∈ l, f a = g a) : l.any f = l.any g := by
  induction l with
  | nil => rfl
  | cons a r ih => simp only [List.any_cons, h a (by simp), ih (fun b hb => h b (by simp [hb]))]

/-- What a region keeps while operands are taken and tokens given. -/
def ChansOnly (r r' : Region) : Prop := { r' with chans := r.chans, nodes := r.nodes } = r

theorem ChansOnly.refl (r : Region) : ChansOnly r r := rfl
theorem ChansOnly.trans {a b c : Region} (h : ChansOnly a b) (k : ChansOnly b c) : ChansOnly a c := by
  unfold ChansOnly at *
  rw [← h, ← k]

theorem loses_cons (r : Region) (e k : Nat) (ks : List Nat) (ch : Chan) :
    r.loses e (k :: ks) ch = ((ch.cons == .entry e k && r.direct e k) || r.loses e ks ch) := rfl

/-- Taking operands one after the other. -/
def Region.takeEach (r : Region) (e : Nat) (ks : List Nat) : Region := ks.foldl (fun r k => r.opTake e k) r

theorem takeEach_effect (ks : List Nat) (r : Region) (e : Nat) (hn : ks.Nodup) :
    ChansOnly r (r.takeEach e ks) ∧ (∀ j, j ≠ e → (r.takeEach e ks).node j = r.node j) ∧
    (r.takeEach e ks).node e = { r.node e with faulting := restFaulting ks (r.node e).faulting } ∧
    (r.takeEach e ks).chans.map chanView =
      r.chans.map (fun ch => (ch.prod, ch.cons, if r.loses e ks ch then ch.q.tail else ch.q)) := by
  induction ks generalizing r with
  | nil => exact ⟨rfl, fun _ _ => rfl, rfl, rfl⟩
  | cons k ks ih =>
    obtain ⟨hk, hn'⟩ := List.nodup_cons.mp hn
    have step := ih (r.opTake e k) hn'
    have unfolded : r.takeEach e (k :: ks) = (r.opTake e k).takeEach e ks := rfl
    rw [unfolded]
    obtain ⟨h1, h2, h3, h4⟩ := step
    rcases opTake_cases r e k with ⟨d, eq⟩ | ⟨d, p, hf, eq⟩
    · rw [eq] at h1 h2 h3 h4 ⊢
      have nodes : (r.take (.entry e k)).nodes = r.nodes := rfl
      have node : ∀ j, (r.take (.entry e k)).node j = r.node j := fun j => rfl
      refine ⟨ChansOnly.trans (b := r.take (.entry e k)) rfl h1, ?_, ?_, ?_⟩
      · intro j hj; rw [h2 j hj, node]
      · rw [h3, node]
        have : restFaulting (k :: ks) (r.node e).faulting = restFaulting ks (r.node e).faulting := by
          show restFaulting ks ((r.node e).faulting.eraseP _) = _
          rw [eraseP_none]
          simpa [Region.direct] using d
        rw [this]
      · rw [h4]
        have dir : ∀ j, (r.take (.entry e k)).direct e j = r.direct e j := fun j => rfl
        unfold Region.take
        rw [List.map_map]
        apply List.map_congr_left
        intro ch _
        simp only [Function.comp]
        by_cases hc : ch.cons = .entry e k
        · rw [if_pos hc]
          have l : r.loses e (k :: ks) ch = true := by rw [loses_cons]; simp [hc, d]
          have nl : (r.take (.entry e k)).loses e ks { ch with q := ch.q.tail, headAt := r.now, pre := ch.pre.tail, cur := ch.cur ++ ch.pre.headD [] } = false := by
            unfold Region.loses
            rw [List.any_eq_false]
            intro j hj
            have : j ≠ k := fun q => hk (q ▸ hj)
            simp [hc, this.symm]
          rw [if_pos l]
          have nl' : Region.loses { r with chans := r.chans.map (fun ch => if ch.cons = .entry e k then { ch with q := ch.q.tail, headAt := r.now, pre := ch.pre.tail, cur := ch.cur ++ ch.pre.headD [] } else ch) } e ks { ch with q := ch.q.tail, headAt := r.now, pre := ch.pre.tail, cur := ch.cur ++ ch.pre.headD [] } = false := nl
          rw [nl']; rfl
        · rw [if_neg hc]
          have l : r.loses e (k :: ks) ch = r.loses e ks ch := by rw [loses_cons]; simp [hc]
          rw [l]; rfl
    · rw [eq] at h1 h2 h3 h4 ⊢
      refine ⟨ChansOnly.trans (b := r.setNode e { r.node e with faulting := (r.node e).faulting.erase p }) rfl h1, ?_, ?_, ?_⟩
      · intro j hj; rw [h2 j hj]; exact Region.setNode_node_ne _ _ _ _ hj
      · rw [h3, Region.setNode_node]
        show _ = { r.node e with faulting := restFaulting ks ((r.node e).faulting.eraseP (fun p => p.1 == k)) }
        rw [← erase_find _ k p hf]
      · rw [h4]
        show r.chans.map _ = _
        apply List.map_congr_left
        intro ch _
        have l : (r.setNode e { r.node e with faulting := (r.node e).faulting.erase p }).loses e ks ch = r.loses e (k :: ks) ch := by
          rw [loses_cons]
          have z : (ch.cons == End.entry e k && r.direct e k) = false := by rw [d]; simp
          rw [z, Bool.false_or]
          unfold Region.loses
          apply any_congr_mem
          intro j hj
          have jk : j ≠ k := fun q => hk (q ▸ hj)
          rw [direct_setNode, erase_find _ k p hf]
          show (_ && !_) = (_ && !_)
          rw [eraseP_any_ne _ _ _ jk]
        rw [l]

theorem opTakeAll_effect (ks : List Nat) (r : Region) (e : Nat) (hn : ks.Nodup) :
    ChansOnly r (r.opTakeAll e ks) ∧ (∀ j, j ≠ e → (r.opTakeAll e ks).node j = r.node j) ∧
    (r.opTakeAll e ks).node e = { r.node e with faulting := restFaulting ks (r.node e).faulting } ∧
    (r.opTakeAll e ks).chans.map chanView =
      r.chans.map (fun ch => (ch.prod, ch.cons, if r.loses e ks ch then ch.q.tail else ch.q)) := by
  obtain ⟨h1, h2, h3, h4⟩ := takeEach_effect ks (r.forget e) e hn
  refine ⟨ChansOnly.trans (b := r.forget e) rfl h1, h2, h3, ?_⟩
  show ((r.forget e).takeEach e ks).chans.map chanView = _
  rw [h4]
  unfold Region.forget
  rw [List.map_map]
  apply List.map_congr_left
  intro ch _
  simp only [Function.comp]
  split <;> rfl

theorem out_one (r : Region) (e p : Nat) (t : Token) :
    ChansOnly r (r.out e p [t]) ∧ (r.out e p [t]).nodes = r.nodes ∧
    (r.out e p [t]).chans.map chanView =
      r.chans.map (fun ch => (ch.prod, ch.cons, ch.q ++ (if ch.prod = .entry e p then [t] else []))) := by
  refine ⟨rfl, rfl, ?_⟩
  show (r.chans.map _).map _ = _
  rw [List.map_map]
  apply List.map_congr_left
  intro ch _
  simp only [Function.comp]
  by_cases h : ch.prod = .entry e p
  · simp only [if_pos h]; rfl
  · simp only [if_neg h, List.append_nil]

theorem gives_effect (e : Nat) (gives : List (Nat × Token)) (r : Region) :
    ChansOnly r (gives.foldl (fun r g => r.out e g.1 [g.2]) r) ∧ (gives.foldl (fun r g => r.out e g.1 [g.2]) r).nodes = r.nodes ∧
    (gives.foldl (fun r g => r.out e g.1 [g.2]) r).chans.map chanView =
      r.chans.map (fun ch => (ch.prod, ch.cons, ch.q ++ givenOn e gives ch.prod)) := by
  induction gives generalizing r with
  | nil =>
    refine ⟨rfl, rfl, ?_⟩
    apply List.map_congr_left
    intro ch _
    simp [givenOn]
  | cons g gs ih =>
    obtain ⟨h1, h2, h3⟩ := ih (r.out e g.1 [g.2])
    obtain ⟨k1, k2, k3⟩ := out_one r e g.1 g.2
    refine ⟨k1.trans h1, h2.trans k2, ?_⟩
    show (gs.foldl _ (r.out e g.1 [g.2])).chans.map _ = _
    rw [h3]
    have : (r.out e g.1 [g.2]).chans.map (fun ch => (ch.prod, ch.cons, ch.q ++ givenOn e gs ch.prod)) =
        ((r.out e g.1 [g.2]).chans.map chanView).map (fun v => (v.1, v.2.1, v.2.2 ++ givenOn e gs v.1)) := by
      rw [List.map_map]; rfl
    rw [this, k3, List.map_map]
    apply List.map_congr_left
    intro ch _
    simp only [Function.comp, givenOn, List.filterMap_cons]
    by_cases h : ch.prod = .entry e g.1
    · simp [h]
    · simp [h]

theorem setP_frame (n : Node) (copy : Nat) (ps : List (List Lane)) :
    { n.setP copy ps with elems := n.elems } = n ∧ (∀ j, j ≠ copy → (n.setP copy ps).elem j = n.elem j) ∧
    { (n.setP copy ps).elem copy with p := (n.elem copy).p } = n.elem copy ∧
    ∀ j : Fin 6, ((n.setP copy ps).elem copy).p.get j = pReg (ps.getD j.val (ps.getLastD [])) := by
  refine ⟨rfl, fun j h => Node.setElem_elem_ne _ _ _ _ h, ?_, ?_⟩
  · unfold Node.setP; rw [Node.setElem_elem]
  · intro j; unfold Node.setP; rw [Node.setElem_elem]
    show (Vector.ofFn _)[j.val] = _
    simp

theorem region_eq_of {r r' : Region} (h : ChansOnly r r') : { r' with nodes := r.nodes, chans := r.chans } = r := h

/-- A firing with distinct operands (R12, R16, R17): everything `State.fire` does. -/
theorem fired_fire (s : State) (n : NodeF) (ks : List Nat) (gives : List (Nat × Token)) (ps : List (List Lane))
    (hn : ks.Nodup) : Fired s (s.fire n ks gives ps) n ks gives s.myNode.op := by
  obtain ⟨a1, a2, a3, a4⟩ := opTakeAll_effect ks s.myRegion s.actEntry hn
  obtain ⟨b1, b2, b3⟩ := gives_effect s.actEntry gives (s.myRegion.opTakeAll s.actEntry ks)
  have nb : ∀ j, (gives.foldl (fun r g => r.out s.actEntry g.1 [g.2]) (s.myRegion.opTakeAll s.actEntry ks)).node j =
      (s.myRegion.opTakeAll s.actEntry ks).node j := by
    intro j; unfold Region.node; rw [b2]
  generalize hr : gives.foldl (fun r g => r.out s.actEntry g.1 [g.2]) (s.myRegion.opTakeAll s.actEntry ks) = r2 at b1 b2 b3 nb
  have shape : s.fire n ks gives ps = s.setMyRegion (r2.setNode s.actEntry
      (if isSbox (r2.opcode s.actEntry) then r2.node s.actEntry
        else (r2.node s.actEntry).setP (copyOf n (r2.node s.actEntry).fire) ps).count) := by
    unfold State.fire
    dsimp only
    rw [hr]
  have node0 : r2.node s.actEntry = { s.myNode with faulting := restFaulting ks s.myNode.faulting } := by
    rw [nb, a3]; rfl
  have fire0 : copyOf n (r2.node s.actEntry).fire = s.myNode.fire % (n.repm1.toNat + 1) := by rw [node0]; rfl
  have mr : (s.fire n ks gives ps).myRegion = r2.setNode s.actEntry
      (if isSbox (r2.opcode s.actEntry) then r2.node s.actEntry
        else (r2.node s.actEntry).setP (copyOf n (r2.node s.actEntry).fire) ps).count := by
    rw [shape]; exact State.setMyRegion_myRegion _ _
  have ae : (s.fire n ks gives ps).actEntry = s.actEntry := by rw [shape]; rfl
  have mn : (s.fire n ks gives ps).myNode = (if isSbox (r2.opcode s.actEntry) then r2.node s.actEntry
        else (r2.node s.actEntry).setP (copyOf n (r2.node s.actEntry).fire) ps).count := by
    unfold State.myNode; rw [mr, ae, Region.setNode_node]
  refine ⟨?_, ?_, ?_, ?_, ?_, ?_, ?_⟩
  · rw [shape]; exact onlyRegion_setRegion _ _ _
  · rw [mr]; exact region_eq_of (a1.trans b1)
  · intro j hj
    rw [mr, Region.setNode_node_ne _ _ _ _ hj, nb, a2 j hj]
  · rw [mr]
    show r2.chans.map chanView = _
    rw [b3]
    have : (s.myRegion.opTakeAll s.actEntry ks).chans.map (fun ch => (ch.prod, ch.cons, ch.q ++ givenOn s.actEntry gives ch.prod)) =
        ((s.myRegion.opTakeAll s.actEntry ks).chans.map chanView).map (fun v => (v.1, v.2.1, v.2.2 ++ givenOn s.actEntry gives v.1)) := by
      rw [List.map_map]; rfl
    rw [this, a4, List.map_map]
    rfl
  · rw [mn]
    by_cases hb : isSbox (r2.opcode s.actEntry) = true
    · rw [if_pos hb, node0]; rfl
    · rw [if_neg hb, node0]; rfl
  · intro j hj
    rw [mn]
    by_cases hb : isSbox (r2.opcode s.actEntry) = true
    · rw [if_pos hb, node0]; rfl
    · rw [if_neg hb]
      show ((r2.node s.actEntry).setP _ ps).elem j = _
      rw [fire0, (setP_frame _ _ _).2.1 j hj, node0]; rfl
  · rw [mn]
    by_cases hb : isSbox (r2.opcode s.actEntry) = true
    · rw [if_pos hb, node0]; rfl
    · rw [if_neg hb]
      have := (setP_frame (r2.node s.actEntry) (s.myNode.fire % (n.repm1.toNat + 1)) ps).2.2.1
      rw [fire0]
      have e : (r2.node s.actEntry).elem (s.myNode.fire % (n.repm1.toNat + 1)) = s.myNode.elem (s.myNode.fire % (n.repm1.toNat + 1)) := by
        rw [node0]; rfl
      rw [e] at this
      exact this

/-- The pipeline registers after a firing, of a node that stands in no switch box (R16, R319). -/
theorem firedP_fire (s : State) (n : NodeF) (ks : List Nat) (gives : List (Nat × Token)) (ls : List Lane) (hn : ks.Nodup)
    (hb : isSbox (s.myRegion.opcode s.actEntry) = false) : FiredP s (s.fire n ks gives [ls]) n ls := by
  obtain ⟨a1, a2, a3, a4⟩ := opTakeAll_effect ks s.myRegion s.actEntry hn
  obtain ⟨b1, b2, b3⟩ := gives_effect s.actEntry gives (s.myRegion.opTakeAll s.actEntry ks)
  have nb : ∀ j, (gives.foldl (fun r g => r.out s.actEntry g.1 [g.2]) (s.myRegion.opTakeAll s.actEntry ks)).node j =
      (s.myRegion.opTakeAll s.actEntry ks).node j := by
    intro j; unfold Region.node; rw [b2]
  generalize hr : gives.foldl (fun r g => r.out s.actEntry g.1 [g.2]) (s.myRegion.opTakeAll s.actEntry ks) = r2 at b1 b2 b3 nb
  have oc : r2.opcode s.actEntry = s.myRegion.opcode s.actEntry := by
    have e : r2.entries = s.myRegion.entries := by
      have := congrArg Region.entries (a1.trans b1); exact this
    unfold Region.opcode Region.entryOp; rw [e]
  have mn : (s.fire n ks gives [ls]).myNode = ((r2.node s.actEntry).setP (copyOf n (r2.node s.actEntry).fire) [ls]).count := by
    have shape : s.fire n ks gives [ls] = s.setMyRegion (r2.setNode s.actEntry
        ((r2.node s.actEntry).setP (copyOf n (r2.node s.actEntry).fire) [ls]).count) := by
      unfold State.fire
      dsimp only
      rw [hr, oc, hb]; rfl
    rw [shape]
    unfold State.myNode
    rw [State.setMyRegion_myRegion]
    exact Region.setNode_node _ _ _
  have fire0 : copyOf n (r2.node s.actEntry).fire = s.myNode.fire % (n.repm1.toNat + 1) := by rw [nb, a3]; rfl
  intro j
  rw [mn, fire0]
  show (((r2.node s.actEntry).setP _ [ls]).elem _).p.get j = _
  rw [(setP_frame _ _ _).2.2.2 j]
  unfold pReg
  have : ([ls] : List (List Lane)).getD j.val (([ls] : List (List Lane)).getLastD []) = ls := by
    cases h : j.val <;> simp
  rw [this]

/-- Rewriting the opcode state after a firing. -/
theorem fired_setOp (s t : State) (n : NodeF) (ks : List Nat) (gives : List (Nat × Token)) (op : OpSt) (f : OpSt → OpSt)
    (h : Fired s t n ks gives op) : Fired s (t.setOp f) n ks gives (f op) := by
  obtain ⟨h1, h2, h3, h4, h5, h6, h7⟩ := h
  have ac : t.actor = s.actor := by have := congrArg State.actor h1.1; exact this
  have e1 : t.actCue = s.actCue := by unfold State.actCue; rw [ac]
  have e2 : t.actEntry = s.actEntry := by unfold State.actEntry; rw [ac]
  have shape : t.setOp f = t.setMyRegion (t.myRegion.setNode t.actEntry { t.myNode with op := f t.myNode.op }) := rfl
  have mr : (t.setOp f).myRegion = t.myRegion.setNode t.actEntry { t.myNode with op := f t.myNode.op } := by
    rw [shape]; exact State.setMyRegion_myRegion _ _
  have ae : (t.setOp f).actEntry = t.actEntry := rfl
  have mn : (t.setOp f).myNode = { t.myNode with op := f t.myNode.op } := by
    unfold State.myNode; rw [mr, ae, Region.setNode_node]; rfl
  have opv : t.myNode.op = op := by have := congrArg Node.op h5; exact this
  refine ⟨?_, ?_, ?_, ?_, ?_, ?_, ?_⟩
  · constructor
    · have := h1.1
      rw [shape]
      exact this
    · intro d hd
      rw [shape, ← h1.2 d hd]
      exact State.setMyRegion_region_ne _ _ _ (by rw [e1]; exact hd)
  · rw [mr]; exact h2
  · intro j hj
    rw [mr, Region.setNode_node_ne _ _ _ _ (by rw [e2]; exact hj)]
    exact h3 j hj
  · rw [mr]; exact h4
  · rw [mn, opv]
    have := congrArg (fun q : Node => { q with op := f op }) h5
    exact this
  · intro j hj; rw [mn]; exact h6 j hj
  · rw [mn]; exact h7

end Sys2Proof.Machine
end

