-- ==== Sys2Proof/Laws/Retry.lean ====
section
/-! SUPPORT. What a walk over pages, a retried access, a posted refusal of a dark stack and a freeze leave as it was. -/

namespace Sys2Proof.Machine

/-- A walk only sets page bits, lookaside entries and free values used. -/
theorem reachParts_only (unit ten die : Nat) (rd wr : Bool) (ps : List (Nat × Nat)) (acc : List Seg) (s : State) :
    CheckOnly s (reachParts unit ten die rd wr ps acc s).2 := by
  induction ps generalizing acc s with
  | nil => rfl
  | cons p r ih =>
    obtain ⟨va, n⟩ := p
    have t := translate_only s unit ten va wr
    unfold reachParts
    split
    · next s' h => rw [h] at t; exact t
    · next s' h => rw [h] at t; exact t
    · next s' h => rw [h] at t; exact t
    · next pa s' h => rw [h] at t; exact t
    · next e pa s' h =>
      rw [h] at t
      split
      · exact t
      · split
        · split
          · exact t.trans (ih _ _)
          · exact t
        · exact t
        · exact t.trans (ih _ _)
theorem reach_only (s : State) (unit ten die va n : Nat) (rd wr : Bool) : CheckOnly s (s.reach unit ten die va n rd wr).2 :=
  reachParts_only _ _ _ _ _ _ _ _

theorem reachRuns_only (unit ten die : Nat) (rd wr : Bool) (pages fmt : Nat) (rs : List (Nat × Nat))
    (a : List (List Seg)) (s : State) : CheckOnly s (reachRuns unit ten die rd wr pages fmt rs a s).2 := by
  induction rs generalizing a s with
  | nil => rfl
  | cons p r ih =>
    obtain ⟨x, n⟩ := p
    unfold reachRuns
    split
    · exact ih _ _
    · have t := reach_only s unit ten die x n rd wr
      split
      · next h => rw [h] at t; exact t
      · next h => rw [h] at t; exact t
      · next h =>
        rw [h] at t
        split
        · exact t.trans (ih _ _)
        · exact t
theorem accReach_only (s : State) (c : Nat) (a : Acc) : CheckOnly s (s.accReach c a).2 := reachRuns_only _ _ _ _ _ _ _ _ _ _

/-- What retrying the accesses of cue c keeps: cues, tenants, dies, the other regions, the rings but for what is posted,
and the region's tableau, freeze, holds and die. -/
def Kept (s t : State) (c : Nat) : Prop :=
  t.cues = s.cues ∧ t.tenants = s.tenants ∧ t.dies = s.dies ∧ t.actor = s.actor ∧ t.cyc = s.cyc ∧ (∀ d, d ≠ c → t.region d = s.region d) ∧
  (∀ w, { t.win w with prod := (s.win w).prod, dropped := (s.win w).dropped, held := (s.win w).held } = s.win w) ∧
  (t.region c).tableau = (s.region c).tableau ∧ (t.region c).frozen = (s.region c).frozen ∧ (t.region c).holdCount = (s.region c).holdCount ∧
  (t.region c).die = (s.region c).die

theorem Kept.refl (s : State) (c : Nat) : Kept s s c := ⟨rfl, rfl, rfl, rfl, rfl, fun _ _ => rfl, fun _ => rfl, rfl, rfl, rfl, rfl⟩
theorem Kept.trans {s t u : State} {c : Nat} (h : Kept s t c) (k : Kept t u c) : Kept s u c := by
  obtain ⟨a1, a2, a3, a4, a5, a6, a7, a8, a9, a10, a11⟩ := h
  obtain ⟨b1, b2, b3, b4, b5, b6, b7, b8, b9, b10, b11⟩ := k
  refine ⟨b1.trans a1, b2.trans a2, b3.trans a3, b4.trans a4, b5.trans a5, fun d hd => (b6 d hd).trans (a6 d hd), fun w => ?_, b8.trans a8, b9.trans a9, b10.trans a10, b11.trans a11⟩
  rw [← a7 w, ← b7 w]
theorem kept_check {s t : State} (h : CheckOnly s t) (c : Nat) : Kept s t c := by
  have f : ∀ {α : Type} (g : State → α), g { t with mem := s.mem, tlb := s.tlb, free := s.free } = g s := fun g => congrArg g h
  have r : t.regions = s.regions := f State.regions
  have w : t.windows = s.windows := f State.windows
  have e : ∀ d, t.region d = s.region d := fun d => by unfold State.region; rw [r]
  have ew : ∀ d, t.win d = s.win d := fun d => by unfold State.win; rw [w]
  exact ⟨f State.cues, f State.tenants, f State.dies, f State.actor, f State.cyc, fun d _ => e d, fun v => by rw [ew], by rw [e], by rw [e], by rw [e], by rw [e]⟩
theorem kept_post {s t : State} (h : PostOnly s t) (c : Nat) : Kept s t c := by
  have f : ∀ {α : Type} (g : State → α), g { t with mem := s.mem, windows := s.windows } = g s := fun g => congrArg g h.1
  exact ⟨h.cues, h.tenants, h.dies, f State.actor, f State.cyc, fun d _ => h.region d, h.2, by rw [h.region], by rw [h.region], by rw [h.region], by rw [h.region]⟩
theorem kept_set (s : State) (c : Nat) (r : Region) (due : List (Instr × Actor)) (h1 : r.tableau = (s.region c).tableau) (h2 : r.frozen = (s.region c).frozen)
   (h3 : r.holdCount = (s.region c).holdCount) (h4 : r.die = (s.region c).die) : Kept s { s.setRegion c r with due := due } c := by
  have reg : ∀ d : Nat, State.region { s.setRegion c r with due := due } d = (s.setRegion c r).region d := fun _ => rfl
  refine ⟨rfl, rfl, rfl, rfl, rfl, fun d hd => ?_, fun _ => rfl, ?_, ?_, ?_, ?_⟩
  · rw [reg]; exact State.setRegion_region_ne _ _ _ _ hd
  all_goals rw [reg, State.setRegion_region]; assumption
theorem kept_setR (s : State) (c : Nat) (r : Region) (h1 : r.tableau = (s.region c).tableau) (h2 : r.frozen = (s.region c).frozen)
   (h3 : r.holdCount = (s.region c).holdCount) (h4 : r.die = (s.region c).die) : Kept s (s.setRegion c r) c := kept_set s c r s.due h1 h2 h3 h4
theorem kept_startFreeze (s : State) (c start kind : Nat) (f : Bool) (q : Rec) : Kept s (s.startFreeze c start kind f q) c := by
  have kf : ∀ (r : Region) (q : Rec), (r.keepFault q).tableau = r.tableau ∧ (r.keepFault q).frozen = r.frozen ∧ (r.keepFault q).holdCount = r.holdCount ∧ (r.keepFault q).die = r.die := by
    intro r q; unfold Region.keepFault; split <;> exact ⟨rfl, rfl, rfl, rfl⟩
  unfold State.startFreeze
  dsimp only
  split
  · exact kept_set _ _ _ _ rfl rfl rfl rfl
  · next fz h =>
    split
    · split
      · have := kf (s.region c) fz.incident
        exact kept_set _ _ _ _ this.1 this.2.1 this.2.2.1 this.2.2.2
      · have := kf (s.region c) q
        exact kept_set _ _ _ s.due this.1 this.2.1 this.2.2.1 this.2.2.2
    · exact .refl _ _
theorem kept_postDark (s : State) (c va cause : Nat) : Kept s (s.postDark c va cause) c := by
  unfold State.postDark
  dsimp only
  split
  · exact .refl _ _
  · split
    · next pa h =>
      generalize (if (s.die (dieOfStack (stackOf pa))).power = Power.off then 0x0B else 0x0A) = code
      split
      · exact .refl _ _
      · exact (kept_setR s c _ (by exact rfl) (by exact rfl) (by exact rfl) (by exact rfl)).trans (kept_post (postOnly_postRec _ _) c)
    · exact .refl _ _
theorem kept_accStop (s : State) (c : Nat) (a : Acc) (code sub v0 v1 : Nat) : Kept s (s.accStop c a code sub v0 v1) c := by
  unfold State.accStop
  cases a.extra
  all_goals exact (kept_setR s c _ (by exact rfl) (by exact rfl) (by exact rfl) (by exact rfl)).trans (kept_startFreeze _ _ _ _ _ _)
theorem kept_retryAcc (s : State) (c : Nat) (a : Acc) : Kept s (s.retryAcc c a) c := by
  have t := accReach_only s c a
  unfold State.retryAcc
  dsimp only
  split
  · next segs s' h =>
    rw [h] at t
    split
    · exact (kept_check t c).trans (kept_setR s' c _ (by exact rfl) (by exact rfl) (by exact rfl) (by exact rfl))
    · exact (kept_check t c).trans (kept_setR s' c _ (by exact rfl) (by exact rfl) (by exact rfl) (by exact rfl))
  · next va cause s' h =>
    rw [h] at t
    exact ((kept_check t c).trans (kept_postDark s' c va cause)).trans (kept_setR _ c _ (by exact rfl) (by exact rfl) (by exact rfl) (by exact rfl))
  · next s' h =>
    rw [h] at t
    exact (kept_check t c).trans (kept_accStop _ _ _ _ _ _ _)
  · next s' h =>
    rw [h] at t
    exact (kept_check t c).trans (kept_accStop _ _ _ _ _ _ _)
theorem kept_foldl {α : Type} (f : State → α → State) (c : Nat) (h : ∀ s a, Kept s (f s a) c) (l : List α) (s : State) : Kept s (l.foldl f s) c := by
  induction l generalizing s with
  | nil => exact .refl _ _
  | cons a r ih => exact (h s a).trans (ih _)
/-- Retrying every access of a region. -/
theorem kept_retryAccs (s : State) (c : Nat) : Kept s (s.retryAccs c) c := kept_foldl _ c (fun s a => kept_retryAcc s c a) _ _
end Sys2Proof.Machine
end

