-- ==== Sys2Proof/Tests/Slice0.lean ====
section
/-! SUPPORT. The package's own tests: words written out from the encodings of spec/, an ill-formed term for each check of
WellFormed, and for each statement of Certificates/Slice0 a state that meets its hypotheses. -/

namespace Sys2Proof.Tests

open Sys2Proof Sys2Proof.Machine

/-! ### Small states -/

/-- A request or query answered with true leaves some state. -/
theorem some_true {α : Type} {p : Bool × α} (h : p.1 = true) : ∃ s, p = (true, s) := ⟨p.2, by rw [← h]⟩

/-- Launch words: PARTW with TASKG 1, SPADG 2, ACCG 1 in word 2, HOLD and FHOLD 4 in word 3, NBAR 4 in word 4. -/
def launchOf : List Word := [0, 0x2000, 0x0001020100000000, 0x0000000400000004, 4, 0, 0, 0]

/-- A slot in RUN with the given registers, its spill stack at 0x80 to 0x180, TVEC 0x200. -/
def slotOf (g : Tab Word) : Slot :=
  { g := Vector.ofFn (fun k => Tab.get g k.val 0), st := .run, pc := 0x40, ssp := 0x100, ssbase := 0x80, sslim := 0x180,
    tvec := 0x200, entryPc := 0x20, sends := 1 }

/-- A page table at 0x2000: virtual addresses below 2^36 are stack 0, readable and writable, with FMT I32; those from 2^36 to
2^37 are the same bytes, readable only. -/
def pages : Mem := [(0x2000, 0x01), (0x2001, 0x40), (0x4000, 0x0F), (0x4008, 0x07)]

/-- Tenant 0 with classes 0 and 1, every stack, Table Store slots 0 to 3, and the page table above. -/
def tenantOf : Tenant := { bound := true, win := some 1, ncue := 8, tslim := 3, classMask := 3, stackMask := 0xFFF, troot := 0x2000 }

/-- What a requester of cue 0 asked for at an address has been done, and its answer has come with the given bytes. -/
def fed (who : Actor) (key : Nat) (job : MemJob) (bs : List Byte) : Fetch :=
  { who := who, cue := 0, id := 0, key := key, space := 0, cell := 0, target := 0, ranges := [], parts := [], job := job,
    served := true, bytes := bs }

/-- A started region of cue 0 with one cell at site 0, its slot 0 as given, and what else is given. -/
def taskSt (sl : Slot) (f : Region → Region) : State :=
  { State.reset with
    actor := .slot 0 0 0, mem := pages, tenants := [(0, tenantOf)]
    cues := [(0, { st := .running, njreg := 1, nsreg := 1 })]
    regions := [(0, f { launch := launchOf, started := true, loaded := true, ncells := 1, cells := [(0, { slots := [(0, sl)] })] })] }

/-- The channels that feed operands of entry 0 with the given queues, and one channel on each of its ports. -/
def chansOf (qs : List (Nat × List Token)) (out : List Token) : List Chan :=
  qs.map (fun p => { prod := .entry (2 + p.1) 0, cons := .entry 0 p.1, q := p.2 }) ++
    [{ prod := .entry 0 0, cons := .entry 1 0, q := out }, { prod := .entry 0 1, cons := .entry 1 1 }]

/-- The region of `taskSt` with the node i as entry 0 on element 0 of cell 0, what its operands hold, and what else is given. -/
def nodeSt (i : Instr) (nd : Node) (qs : List (Nat × List Token)) (f : Region → Region) : State :=
  { taskSt (slotOf []) (fun r => f { r with
      entries := [i], cellOf := [(0, 0)], nodes := [(0, nd)], chans := chansOf qs [] }) with actor := .node 0 0 }
/-- The same with port 0 full. -/
def fullSt (i : Instr) (nd : Node) (qs : List (Nat × List Token)) : State :=
  nodeSt i nd qs (fun r => { r with chans := chansOf qs [.eos, .eos, .eos, .eos] })

/-! ### Hypotheses of the statements about tasks -/

/-- g1 = 5, g2 = 0, g3 the most negative number, g4 = -1. -/
def sA : State := taskSt (slotOf [(1, 5), (3, 0x8000000000000000), (4, 0xFFFFFFFFFFFFFFFF)]) id
/-- The same with the nesting bit set. -/
def sN : State := taskSt { slotOf [(1, 5)] with tstat := 1, st := .supv } id

theorem witness_TaskDivide : sA.rg 1 ≠ 0 ∧ sA.rg 2 = 0 ∧ Fresh sA ∧ (sN.rg 2 = 0 ∧ ¬Fresh sN) ∧
    sA.rg 3 = 0x8000000000000000 ∧ sA.rg 4 = 0xFFFFFFFFFFFFFFFF := by unfold Fresh; decide +kernel

/-- Lanes 0 and 15, and lane numbers 16 and above. -/
theorem witness_TaskVector : (sA.rg 2).toNat = (0 : Fin 16).val ∧
    ((taskSt (slotOf [(1, 15)]) id).rg 1).toNat = (15 : Fin 16).val ∧
    (16 ≤ ((taskSt (slotOf [(1, 16)]) id).rg 1).toNat ∧ Fresh (taskSt (slotOf [(1, 16)]) id)) ∧
    16 ≤ (sA.rg 4).toNat := by unfold Fresh; decide +kernel

/-- Targets at both ends of the instruction store and beyond them, and JALR addresses 0, 0xFFFC, 2 and 0x10000. -/
theorem witness_TaskBranches : decide (sA.rg 1 = sA.rg 2) = false ∧ decide (sA.rg 1 = sA.rg 1) = true ∧ Fresh sA ∧
    inStore (sA.me.pc.toNat + 4 * (0xFFF0 : BitVec 16).toInt) ∧ sA.me.pc.toNat + 4 * (0xFFF0 : BitVec 16).toInt = 0 ∧
    ¬inStore (sA.me.pc.toNat + 4 * (0xFFEF : BitVec 16).toInt) ∧
    inStore (sA.me.pc.toNat + 4 * (0x3FEF : BitVec 16).toInt) ∧ ¬inStore (sA.me.pc.toNat + 4 * (0x3FF0 : BitVec 16).toInt) ∧
    (sA.rg 2 + (0xFFFC : BitVec 16).signExtend 64).toNat % 4 = 0 ∧ 0xFFFC < (sA.rg 2 + (0xFFFC : BitVec 16).signExtend 64).toNat ∧
    (sA.rg 2 + (0 : BitVec 16).signExtend 64).toNat ≤ 0xFFFC ∧ (sA.rg 1 + (0 : BitVec 16).signExtend 64).toNat % 4 ≠ 0 := by
  unfold Fresh inStore; decide +kernel

theorem witness_TaskSystem : Fresh sA ∧ sA.me.st ≠ .supv ∧ ¬Fresh sN ∧ sN.me.st = .supv ∧
    (¬Fresh (taskSt { slotOf [] with tstat := 1 } id) ∧ (taskSt { slotOf [] with tstat := 1 } id).me.st ≠ .supv) ∧
    (∃ p ∈ (taskSt (slotOf []) (fun r => r.setCell 0 { r.cell 0 with marked := [(1, 2)] })).myCell.marked,
      p.1 ≤ sA.me.pc.toNat / 64 ∧ sA.me.pc.toNat / 64 < p.1 + p.2) ∧ sA.myCell.marked = [] := by
  unfold Fresh; decide +kernel

theorem witness_DoubleTrap : ¬Fresh sN ∧ sN.myRegion.freeze = none := by unfold Fresh; decide +kernel

/-- An unassigned address, a write to CYC, and the trap vector outside SUPV, with the nesting bit clear and set. -/
theorem witness_CsrFaults : ¬csrAssigned 0x004 ∧ ¬csrAssigned 0x1A0 ∧ ¬csrAssigned 0xFFF ∧ csrReadOnly 0x000 ∧
    (csrSupv 0x020 false ∧ sA.me.st ≠ .supv) ∧ (Fresh sA ∧ ¬Fresh sN) := by
  refine ⟨?_, ?_, ?_, ?_, ?_, ?_⟩ <;> first
    | (unfold csrAssigned; omega) | (unfold csrReadOnly; decide +kernel) | (unfold csrSupv; decide +kernel) | (unfold Fresh; decide +kernel)

/-- A region with a NEG node on element 0 of cell 0: entry 0, copy 0. -/
def sE : State := taskSt { slotOf [(1, 0x100), (2, 0x60), (3, 0x200), (4, 2)] with st := .supv } (fun r => { r with
  entries := [.negN {}], cellOf := [(0, 0)] })

theorem witness_CsrAccess : sE.me.st = .supv ∧ sE.myRegion.elemOwner sE.actCell 0 = some (0, 0) ∧
    ((sE.rg 1).toNat % 8 = 0 ∧ sE.me.ssbase.toNat ≤ (sE.rg 1).toNat ∧ (sE.rg 1).toNat ≤ sE.me.sslim.toNat) ∧
    (sE.me.ssp.setWidth 64 ||| sE.rg 2).toNat = 0x160 ∧ (sE.me.ssp.setWidth 64 &&& ~~~(sE.rg 2)).toNat = 0x100 ∧
    ((sE.rg 3).toNat % 4 = 0 ∧ (sE.rg 3).toNat ≤ 0xFFFC) ∧ (sE.rg 4).toNat ≤ 3 ∧
    (sE.myRegion.elemOwner sE.actCell 15 = none ∧ (sE.myRegion.boxNodes sE.actCell)[0]? = none ∧
      ((nodeSt (.mergeN {}) {} [] id).myRegion.boxNodes 0)[0]? = some 0) ∧
    (csrAssigned 0x200 ∧ ¬csrSupv 0x200 false) ∧
    ((sE.rg 1).toNat ≤ sE.me.ssp.toNat ∧ sE.me.ssp.toNat ≤ (sE.rg 1).toNat ∧ (sE.rg 1).toNat ≤ sE.myRegion.taskBytes) := by
  unfold csrAssigned csrSupv; decide +kernel

/-- Values one past each limit: an odd one, SSBASE above SSP, SSLIM below it and past the task area, TVEC past the store, TSTAT 4. -/
theorem witness_CsrAccess_limits :
    let s := taskSt { slotOf [(1, 0x101), (2, 0x108), (3, 0xF8), (4, 0x40008), (5, 0x10000), (6, 4)] with st := .supv } id
    s.me.st = .supv ∧ Fresh s ∧ (s.rg 1).toNat % 8 ≠ 0 ∧ s.me.ssp.toNat < (s.rg 2).toNat ∧ (s.rg 3).toNat < s.me.ssp.toNat ∧
    s.myRegion.taskBytes < (s.rg 4).toNat ∧ 0xFFFC < (s.rg 5).toNat ∧ 3 < (s.rg 6).toNat := by unfold Fresh; decide +kernel

/-- The same slot with its stack above the register images. -/
def sHi : State := taskSt { slotOf [(1, 5)] with ssp := 0x8100, ssbase := 0x8080, sslim := 0x8180 } id

/-- A push of 16 registers just fits, of 17 does not; the same for pops; SSP writes below, above and off 8; a stack above the
register images and one among them. -/
theorem witness_SpillStack : (sHi.me.ssbase.toNat + 8 * (16 + 1 - 1) ≤ sHi.me.ssp.toNat ∧
      32768 ≤ sHi.me.ssp.toNat - 8 * (16 + 1 - 1) ∧ sHi.me.ssp.toNat + 8 * (16 + 1 - 1) ≤ sHi.me.sslim.toNat ∧
      32768 ≤ sHi.me.ssp.toNat) ∧ sA.me.ssp.toNat < 32768 ∧ (1 : Reg).toNat ≤ (16 : Reg).toNat ∧
    sA.me.ssbase.toNat + 8 * (16 + 1 - 1) ≤ sA.me.ssp.toNat ∧ sA.me.ssp.toNat < sA.me.ssbase.toNat + 8 * (17 + 1 - 1) ∧
    sA.me.ssp.toNat + 8 * (16 + 1 - 1) ≤ sA.me.sslim.toNat ∧ sA.me.sslim.toNat < sA.me.ssp.toNat + 8 * (17 + 1 - 1) ∧
    (sA.rg 1).toNat % 8 ≠ 0 ∧ (sA.rg 2).toNat < sA.me.ssbase.toNat ∧ sA.me.sslim.toNat < (sA.rg 3).toNat ∧ Fresh sA ∧
    (¬Fresh sN ∧ sN.me.ssp.toNat < sN.me.ssbase.toNat + 8 * (17 + 1 - 1)) := by unfold Fresh; decide +kernel

/-- What a task access comes to at once: its ranges and the state after it, where its checks and requests pass. -/
def admitted (s : State) (ea : Word) (align : Nat) (job : MemJob) : Option (List Seg × State) :=
  if (s.fetchOf ea.toNat job).isSome then none
  else
    let p := checkAccess s ea job.size align job.reads job.writes
    match p.1 with
    | .ok segs => if (p.2.accessWait ea segs job).isNone && (p.2.request ea segs job).1.isNone
        then some (segs, (p.2.request ea segs job).2) else none
    | _ => none
theorem admitted_spec {s : State} {ea : Word} {align : Nat} {job : MemJob} {q : List Seg × State}
    (h : admitted s ea align job = some q) : Admits s ea align job q.1 q.2 := by
  unfold admitted at h
  split at h
  · cases h
  · rename_i hf
    dsimp only at h
    split at h
    · rename_i segs hc
      split at h
      · rename_i hw
        simp only [Bool.and_eq_true, Option.isNone_iff_eq_none] at hw
        cases h
        exact ⟨_, ⟨by simpa using hf, Prod.ext hc rfl⟩, hw.1, Prod.ext hw.2 rfl⟩
      · cases h
    · cases h
def admits (s : State) (ea : Word) (align : Nat) (job : MemJob) (P : List Seg → State → Bool := fun _ _ => true) : Bool :=
  match admitted s ea align job with
  | some q => P q.1 q.2
  | none => false
theorem admits_spec {s : State} {ea : Word} {align : Nat} {job : MemJob} {P : List Seg → State → Bool}
    (h : admits s ea align job P = true) : ∃ segs s', Admits s ea align job segs s' ∧ P segs s' = true := by
  unfold admits at h
  split at h
  · rename_i q hq; exact ⟨_, _, admitted_spec hq, h⟩
  · cases h

/-- What it gets: at once, or with its answer. -/
def gets (s : State) (ea : Word) (align : Nat) (job : MemJob) (P : Got → State → Bool := fun _ _ => true) : Bool :=
  match s.fetchOf ea.toNat job with
  | some f => s.fetched f && P { bytes := f.bytes, done := true, fetch := [f] } s.dropFetches
  | none => admits s ea align job (fun segs s' => P { segs := segs, bytes := s'.viewSegs segs } s')
theorem gets_spec {s : State} {ea : Word} {align : Nat} {job : MemJob} {P : Got → State → Bool}
    (h : gets s ea align job P = true) : ∃ g s', Gets s ea align job g s' ∧ P g s' = true := by
  unfold gets at h
  split at h
  · rename_i f hf
    simp only [Bool.and_eq_true] at h
    exact ⟨_, _, .inr ⟨f, hf, h.1, rfl, rfl⟩, h.2⟩
  · obtain ⟨segs, s', ha, hp⟩ := admits_spec h
    exact ⟨_, s', .inl ⟨segs, ha, rfl⟩, hp⟩
theorem answered_spec {s : State} {ea : Word} {job : MemJob} {f : Fetch} (h : s.fetchOf ea.toNat job = some f)
    (hf : s.fetched f = true) : ∃ bs s', Answered s ea job bs s' := ⟨_, _, f, h, hf, rfl, rfl⟩

/-- It waits: for its answer, for its tiles, before it asks, or once it has asked. -/
def pends (s : State) (ea : Word) (align : Nat) (job : MemJob) : Nat :=
  match s.fetchOf ea.toNat job with
  | some f => if s.fetched f then 0 else 1
  | none =>
    let p := checkAccess s ea job.size align job.reads job.writes
    match p.1 with
    | .wait _ => 2
    | .ok segs => if (p.2.accessWait ea segs job).isSome then 3 else if (p.2.request ea segs job).1.isSome then 4 else 0
    | _ => 0
theorem pends_spec {s : State} {ea : Word} {align : Nat} {job : MemJob} (h : pends s ea align job ≠ 0) :
    ∃ s', Pends s ea align job s' := by
  unfold pends at h
  split at h
  · rename_i f hf
    split at h
    · exact absurd rfl h
    · rename_i hn; exact ⟨s, .inl ⟨f, hf, by simpa using hn, rfl⟩⟩
  · rename_i hf
    dsimp only at h
    split at h
    · rename_i w hc; exact ⟨_, .inr (.inl ⟨w, hf, Prod.ext hc rfl⟩)⟩
    · rename_i segs hc
      split at h
      · rename_i hw
        obtain ⟨w, hw⟩ := Option.isSome_iff_exists.mp hw
        exact ⟨_, .inr (.inr (.inl ⟨segs, w, ⟨hf, Prod.ext hc rfl⟩, hw⟩))⟩
      · rename_i hw
        split at h
        · rename_i hr
          obtain ⟨w, hr⟩ := Option.isSome_iff_exists.mp hr
          exact ⟨_, .inr (.inr (.inr ⟨segs, w, _, ⟨hf, Prod.ext hc rfl⟩, by simpa using hw, Prod.ext hr rfl⟩))⟩
        · exact absurd rfl h
    · exact absurd rfl h

/-- g1 in HBM, g2 at the last word of the scratchpad, g3 in the spill stack, g4 in another cell's window, g5 odd. -/
def sM : State := taskSt (slotOf [(1, 0x8000), (2, 0xF00000000001FFF8), (3, 0xF300000000000080), (4, 0xF100000000000040), (5, 0x8001)]) id
/-- The same with what has been asked for. -/
def sG (fs : List Fetch) : State := { sM with fetches := fs }

/-- The same with a store of the slot still to be performed at the bytes that g2 names. -/
def sQ : State := taskSt (slotOf [(1, 0x8000), (2, 0xF00000000001FFF8), (3, 5), (5, 0x8001)]) (fun r => { r with
  pend := [{ id := 0, vcell := 0, slot := 0, space := 1, segs := [(ownKey sM 0xF00000000001FFF8, [1, 2])], target := 0, banks := [31] }] })

/-- Loads that go on at once, from the scratchpad and the stack, and one whose answer has come; and each wait: for the answer, for
a tile in an engine's hands, for the slot's own store, for the request just made. -/
theorem witness_TaskLoadsStores_loads :
    (∃ g s', Gets sM (sM.rg 2 + (0 : BitVec 16).signExtend 64) 8 (.read 8) g s' ∧ g.done = false) ∧
    (∃ g s', Gets sM (sM.rg 3 + (0 : BitVec 16).signExtend 64) 4 (.read 64) g s' ∧ g.done = false) ∧
    (let s := sG [fed (.slot 0 0 0) 0x8000 (.read 8) [1, 2, 3, 4, 5, 6, 7, 8]];
      ∃ g s', Gets s (s.rg 1 + (0 : BitVec 16).signExtend 64) 8 (.read 8) g s' ∧ (g.done && g.bytes.length == 8) = true) ∧
    (∃ s', Pends (sG [{ fed (.slot 0 0 0) 0x8000 (.read 8) [] with served := false }]) (sM.rg 1 + (0 : BitVec 16).signExtend 64) 8 (.read 8) s') ∧
    (∃ s', Pends (taskSt (slotOf [(2, 0xF000000000000000)]) (fun r => r.setCell 0 ((r.cell 0).setTag 0 4)))
      (0xF000000000000000 + (0 : BitVec 16).signExtend 64) 8 (.read 8) s') ∧
    (∃ s', Pends sQ (sQ.rg 2 + (0 : BitVec 16).signExtend 64) 8 (.read 8) s') ∧
    (∃ s', Pends sM (sM.rg 1 + (0 : BitVec 16).signExtend 64) 4 (.read 64) s') ∧
    (∃ s', Pends sM (sM.rg 4 + (0 : BitVec 16).signExtend 64) 4 (.read 64) s') := by
  refine ⟨?_, ?_, ?_, ?_, ?_, ?_, ?_, ?_⟩
  · exact (gets_spec (P := fun g _ => g.done == false) (by decide +kernel)).imp fun g => Exists.imp fun _ h => ⟨h.1, by simpa using h.2⟩
  · exact (gets_spec (P := fun g _ => g.done == false) (by decide +kernel)).imp fun g => Exists.imp fun _ h => ⟨h.1, by simpa using h.2⟩
  · exact gets_spec (P := fun g _ => g.done && g.bytes.length == 8) (by decide +kernel)
  all_goals exact pends_spec (by decide +kernel)

/-- Where a store goes: the register images, the stack above them, the scratchpad, another cell's, a weak page (at once), a strong
page (asked for, then answered). -/
theorem witness_TaskLoadsStores_stores :
    ((∃ segs s', Admits sM (sM.rg 3) 8 (.write (leBytes 8 (sM.rg 1))) segs s') ∧ (sM.rg 3).toNat / 2 ^ 56 = 0xF3 ∧
      (sM.rg 3).toNat % 2 ^ 56 < 32768) ∧
    ((∃ segs s', Admits sHi 0xF300000000008080 8 (.write (leBytes 8 (sHi.rg 1))) segs s') ∧
      32768 ≤ (0xF300000000008080 : Word).toNat % 2 ^ 56) ∧
    ((∃ segs s', Admits sM (sM.rg 2) 8 (.write (leBytes 8 (sM.rg 1))) segs s') ∧ (sM.rg 2).toNat / 2 ^ 56 ≠ 0xF3) ∧
    (∃ segs s', Admits sM (sM.rg 4) 8 (.write (leBytes 8 (sM.rg 1))) segs s') ∧
    (let s := { sM with mem := memSetList pages 0x4000 [0x4F] };
      (∃ segs s', Admits s (s.rg 1) 8 (.write (leBytes 8 (s.rg 1))) segs s' ∧ (strongest segs != 0) = true)) ∧
    (∃ s', Pends sM (sM.rg 1) 8 (.write (leBytes 8 (sM.rg 1))) s') ∧
    (let job : MemJob := .write (leBytes 8 (sM.rg 1)); ∃ bs s', Answered (sG [fed (.slot 0 0 0) 0x8000 job []]) (sM.rg 1) job bs s') := by
  refine ⟨⟨?_, by decide +kernel⟩, ⟨?_, by decide +kernel⟩, ⟨?_, by decide +kernel⟩, ?_, ?_, pends_spec (by decide +kernel),
    answered_spec (f := fed (.slot 0 0 0) 0x8000 (.write (leBytes 8 (sM.rg 1))) []) (by decide +kernel) (by decide +kernel)⟩
  · exact (admits_spec (P := fun _ _ => true) (by decide +kernel)).imp fun _ => Exists.imp fun _ h => h.1
  · exact (admits_spec (P := fun _ _ => true) (by decide +kernel)).imp fun _ => Exists.imp fun _ h => h.1
  · exact (admits_spec (P := fun _ _ => true) (by decide +kernel)).imp fun _ => Exists.imp fun _ h => h.1
  · exact (admits_spec (P := fun _ _ => true) (by decide +kernel)).imp fun _ => Exists.imp fun _ h => h.1
  · exact admits_spec (P := fun segs _ => strongest segs != 0) (by decide +kernel)

/-- Each check that a load or a store may fail, and no request made: an odd address; no window; one past the end of its window; a
store to a table, bytes past the scratchpad, another cell's number and offset at their bounds, the tables' end, the stack's bounds. -/
theorem witness_TaskLoadsStores_windows :
    Unasked sM (sM.rg 5) (.read 2) ∧ Fresh sM ∧ (sM.rg 5).toNat % 2 ≠ 0 ∧
    (0x0100000000000000 : Word).toNat / 2 ^ 56 = 1 ∧
    ((0xF0FFFFFFFFFFFFFC : Word).toNat + 64 - 1) % 2 ^ 64 / 2 ^ 56 ≠ 0xF0 ∧ (0x00FFFFFFFFFFFFFC : Word).toNat + 64 - 1 < 2 ^ 64 ∧
    sM.myRegion.spadBytes = 0x20000 ∧ sM.myRegion.ncells = 1 ∧
    sM.myRegion.spadBytes < (0xF00000000001FFF9 : Word).toNat % 2 ^ 56 + 8 ∧
    2 ^ 52 ≤ (0xF110000000000000 : Word).toNat % 2 ^ 56 ∧ sM.myRegion.ncells ≤ (0xF100010000000000 : Word).toNat % 2 ^ 56 / 2 ^ 40 ∧
    sM.myRegion.spadBytes < (0xF10000000001FFFC : Word).toNat % 2 ^ 40 + 8 ∧
    (sM.myTenant.tslim + 1 - sM.myTenant.tsbase) * 8192 < (0xF200000000007FFC : Word).toNat % 2 ^ 56 + 8 ∧
    (0xF300000000000078 : Word).toNat % 2 ^ 56 < sM.me.ssbase.toNat ∧ sM.me.sslim.toNat < (0xF300000000000180 : Word).toNat % 2 ^ 56 + 8 := by
  unfold Unasked Fresh; decide +kernel

/-- A region of die 1 whose page table stands in a stack of that die, with a leaf as given for the pages of stack 0 and the power
of die 0 and of die 1. -/
def sT (leaf : Byte) (mig : Byte) (p q : Power) : State :=
  let s := taskSt (slotOf [(1, 0x8000), (2, 0xFFFC)]) (fun r => { r with die := 1 })
  { s with mem := memSetList (memSetList [] 0x3000002000 [0x01, 0x40, 0, 0, 0x30]) 0x3000004000 [leaf, 0, mig]
           tenants := [(0, { tenantOf with troot := 0x3000002000 })]
           dies := [(0, { power := p }), (1, { power := q })] }
/-- A page that does not translate; one whose table is out of reach; one that migrates; one without the right; one whose stack is
off, and one whose stack is dark; and a range over two pages. -/
theorem witness_TaskLoadsStores_pages :
    let u := sliceOf 1 0
    (translate sM (sliceOf 0 0) 0 (2 ^ 46) false).1 = .invalid ∧
    ((translate (sT 0x0F 0 .full .off) u 0 0x8000 false).1 = .dark 0x3000002000 ∧ (sT 0x0F 0 .full .off).powerAt 0x3000002000 = .off ∧
      (sT 0x0F 0 .full .dark).powerAt 0x3000002000 = .dark) ∧
    (translate (sT 0x0E 2 .full .full) u 0 0x8000 false).1 = .migrating ∧
    (let x := translate (sT 0x07 0 .full .full) u 0 0x8000 true; x.1 = .ok 0x18007 0x8000 ∧ rights 0x18007 0 false true = some 1) ∧
    (let x := translate (sT 0x0F 0 .off .full) u 0 0x8000 false; x.1 = .ok 0x800F 0x8000 ∧ rights 0x800F 0 true false = none ∧
      x.2.powerAt 0x8000 = .off) ∧
    (let x := translate (sT 0x0F 0 .dark .full) u 0 0x8000 false; x.1 = .ok 0x800F 0x8000 ∧
      x.2.powerAt 0x8000 = .dark ∧ dieOfStack (stackOf 0x8000) ≠ 1) ∧
    (65536 < 0xFFFC % 65536 + 64 ∧ (translate (sT 0x0F 0 .full .full) u 0 0xFFFC false).1 = .ok 0x800F 0xFFFC ∧
      (translate (translate (sT 0x07 0 .full .full) u 0 0xFFFC false).2 u 0 0x10000 true).1 = .ok 0x18007 0x10000 ∧
      (translate (sT 0x0F 0 .full .full) u 0 (2 ^ 36 - 4) false).1 = .ok 0x800F (2 ^ 36 - 4) ∧
      (translate (translate (sT 0x0F 0 .full .full) u 0 (2 ^ 36 - 4) false).2 u 0 (2 ^ 36) false).1 = .invalid) := by
  decide +kernel

theorem witness_TaskLoadsStores_own : OwnRange sM (sM.rg 2) 8 ∧ StackRange sM (sM.rg 3) 8 ∧
    (∀ job ∈ ([.read 8, .write (leBytes 8 (sM.rg 1))] : List MemJob), Unasked sM (sM.rg 2) job ∧ Unasked sM (sM.rg 3) job ∧
      sM.accessWait (sM.rg 2) [⟨ownKey sM (sM.rg 2), 8, none⟩] job = none ∧
      sM.accessWait (sM.rg 3) [⟨stackKey sM (sM.rg 3), 8, none⟩] job = none) ∧
    sM.queuesOwn (sM.rg 2) [⟨ownKey sM (sM.rg 2), 8, none⟩] (.read 8) = false ∧
    sM.queuesOwn (sM.rg 3) [⟨stackKey sM (sM.rg 3), 8, none⟩] (.read 8) = false ∧
    (StackRange sHi 0xF300000000008080 8 ∧ 32768 ≤ (0xF300000000008080 : Word).toNat % 2 ^ 56) ∧
    (sM.rg 3).toNat % 2 ^ 56 < 32768 := by unfold OwnRange StackRange Unasked; decide +kernel

/-- An atomic at once in the scratchpad, one answered from HBM, one that waits for the slot's store and one for its answer. -/
theorem witness_TaskAtomics :
    (∃ segs s', Admits sM (sM.rg 2) 8 (.atom .add 8 0 0) segs s') ∧ (sM.rg 2).toNat % 8 = 0 ∧ (sM.rg 2).toNat / 2 ^ 56 = 0xF0 ∧
    (∃ bs s', Answered (sG [fed (.slot 0 0 0) 0x8000 (.atom .add 8 0 0) [1, 0, 0, 0, 0, 0, 0, 0]]) (sM.rg 1) (.atom .add 8 0 0) bs s') ∧
    (sM.rg 1).toNat % 8 = 0 ∧ (sM.rg 1).toNat / 2 ^ 56 = 0 ∧
    (∃ s', Pends sQ (sQ.rg 2) 8 (.atom .add 8 0 0) s') ∧ (∃ s', Pends sM (sM.rg 1) 8 (.atom .add 8 0 0) s') ∧
    (∃ s', Pends sM (sM.rg 4) 4 (.atom .maxa 4 0 0) s') ∧
    (Fresh sM ∧ (sM.rg 5).toNat % 4 ≠ 0) ∧ ((sM.rg 3).toNat % 8 = 0 ∧ (sM.rg 3).toNat / 2 ^ 56 = 0xF3) :=
  ⟨(admits_spec (P := fun _ _ => true) (by decide +kernel)).imp fun _ => Exists.imp fun _ h => h.1, by decide +kernel, by decide +kernel,
    answered_spec (f := fed (.slot 0 0 0) 0x8000 (.atom .add 8 0 0) [1, 0, 0, 0, 0, 0, 0, 0]) (by decide +kernel) (by decide +kernel),
    by decide +kernel, by decide +kernel, pends_spec (by decide +kernel), pends_spec (by decide +kernel), pends_spec (by decide +kernel),
    by unfold Fresh; decide +kernel⟩

/-- Stores still to be performed and none; a time to come and a time that is there; a sleeper whose time has come; a waiter whose
cause is ready. -/
theorem witness_TaskOrder : Settled sA ∧ ¬Settled sQ ∧ sA.cyc.toNat < (sA.rg 1).toNat ∧ (sA.rg 2).toNat ≤ sA.cyc.toNat ∧
    (let s := taskSt { slotOf [] with st := .sleep } id; s.me.st = .sleep ∧ s.me.sleepTill.toNat ≤ s.cyc.toNat ∧
      s.slotRuns s.actCue s.actCell = true) ∧
    (let s := taskSt { slotOf [] with st := .wait } id; s.me.st = .wait ∧ s.waitReady s.actCue s.actCell s.actSlot = true ∧
      s.slotRuns s.actCue s.actCell = true) ∧
    sA.myTenant.classMask.getLsbD (1 : BitVec 4).toNat = true ∧ sA.myTenant.classMask.getLsbD (2 : BitVec 4).toNat = false := by
  unfold Settled; decide +kernel

/-- A Fly command of slot 0 that writes tile 5, its promise 0. -/
def flyW : Cmd := { w0 := 0x0000004000000201, w1 := 0x8000, w2 := 0xF000000000005000 }
def sF : State := { taskSt (slotOf [(1, 5), (2, 31), (3, 32)]) id with
  flys := [(0, { q := [{ seq := 0, cue := 0, vcell := 0, task := true, agent := 0, own := true, c := flyW, promise := 0 }] })] }

theorem witness_TaskTileTags : Fresh sF ∧ (sF.rg 1).toNat < sF.myRegion.spadg * 16 ∧
    ((sF.lateCmd sF.actCue sF.actCell sF.actSlot (sF.rg 1).toNat).map (fun p => p.1) = some 0) ∧
    ((sF.rg 2).toNat < sF.myRegion.spadg * 16 ∧ sF.lateCmd sF.actCue sF.actCell sF.actSlot (sF.rg 2).toNat = none ∧
      sF.myCell.tag (sF.rg 2).toNat = 0 ∧ sF.myCell.tag (sF.rg 2).toNat ≠ 1) ∧
    sF.myCell.flipLate sF.cyc.toNat (slotFlipRank sF.actSlot) (sF.rg 2).toNat = false ∧
    (taskSt (slotOf []) (fun r => r.setCell 0 { r.cell 0 with flips := [(0, 0, slotFlipRank 1)] })).myCell.flipLate 0
      (slotFlipRank 0) 0 = true ∧
    (Settled sF ∧ ¬Settled sQ ∧ sQ.lateCmd sQ.actCue sQ.actCell sQ.actSlot (sQ.rg 3).toNat = none ∧ sQ.myCell.tag (sQ.rg 3).toNat = 0) ∧ sF.myRegion.spadg * 16 ≤ (sF.rg 3).toNat := by
  unfold Fresh Settled; decide +kernel

/-- Slot 0 with an input end 3 holding the token given and an output end 4. -/
def sC (t : Token) (sl : Slot) : State := taskSt sl (fun r => { r with
  chans := [{ prod := .entry 1 0, cons := .task 0 0 3, q := [t] }, { prod := .task 0 0 4, cons := .entry 2 0, wid := 2 }]
  classes := [(0, { recvs := [.slot 0 0], senders := [0], credits := [(0, 1)] })] })

theorem witness_TaskChannels_recv :
    (let s := sC (.data [7]) (slotOf []); s.me.bindClass = none ∧ s.myRegion.head (.task 0 0 3) = some (.data [7]) ∧
      s.myRegion.chanTo (.task 0 0 5) = none ∧ Fresh s) ∧
    (let s := sC .eos { slotOf [] with bind := 0x20, queue := [(0, 9, .data [7])] };
      s.me.bindClass = some 0 ∧ s.me.cmask.getLsbD 0 = false ∧ s.me.queue = (0, 9, .data [7]) :: []) ∧
    (let s := sC .eos (slotOf []); s.me.bindClass = none ∧ s.myRegion.head (.task 0 0 3) = some .eos ∧
      s.myRegion.outsRoom 0 0 = none) := by unfold Fresh; decide +kernel

theorem witness_TaskChannels_send :
    (let s := sC .eos (slotOf []);
      (s.myRegion.chans.find? (fun c => c.prod == .task 0 0 4)).isSome = true ∧ s.myRegion.room (.task 0 0 4) 1 = true ∧
      (Fresh s ∧ ∀ ch ∈ s.myRegion.chans, ch.prod ≠ .task 0 0 5)) ∧
    (let s := sC (.data [7]) { slotOf [] with st := .idle, bind := 3 };
      s.me.st = .idle ∧ s.inHead 0 0 0 s.me.boundEnd = some (0, 0, .data [7])) ∧
    (let s := sC .eos { slotOf [] with markers := [(0, .eos)] };
      s.me.markers = [(0, .eos)] ∧ s.me.markersAt ≤ s.cyc.toNat ∧ s.classLeased 0 0 0 = false ∧ s.myRegion.classDsts 0 ≠ [] ∧
        ∀ q ∈ s.myRegion.classDsts 0, 0 < (s.myRegion.cls 0).credit s.actCell q.recv) := by
  unfold Fresh; decide +kernel

/-- A slot whose markers are due in the next tick; CFG and CURTAIN at the head, and nothing; a full output end; a class whose receiver has given no credit. -/
theorem witness_TaskChannels_waits :
    (let s := taskSt { slotOf [] with markers := [(0, .eos)], markersAt := 1 } id; s.cyc.toNat < s.me.markersAt) ∧
    (let s := sC (.order 2) (slotOf []); s.me.bindClass = none ∧ s.myRegion.head (.task 0 0 3) = some (.order 2)) ∧
    (let s := sC .eos { slotOf [] with bind := 0x20, cmask := 1 }; s.me.bindClass = some 0 ∧ s.me.cmask.getLsbD 0 = true) ∧
    (let s := sC (.cfg 0 0 [1]) (slotOf []); s.me.bindClass = none ∧ s.myRegion.head (.task 0 0 3) = some (.cfg 0 0 [1])) ∧
    (let s := sC .curtain { slotOf [] with bind := 3 }; s.me.bindClass = none ∧ s.myRegion.head (.task 0 0 3) = some .curtain ∧
      s.me.stopped = false ∧ s.myRegion.outsRoom s.actCell s.actSlot = none ∧
      s.inHead s.actCue s.actCell s.actSlot s.me.boundEnd = some (0, 0, .curtain) ∧ s.slotRuns s.actCue s.actCell = true) ∧
    (let s := taskSt (slotOf []) (fun r => { r with chans := [{ prod := .entry 1 0, cons := .task 0 0 3, q := [] },
        { prod := .task 0 0 4, cons := .entry 2 0, q := [.eos, .eos, .eos, .eos] }] });
      s.myRegion.chanTo (.task 0 0 3) ≠ none ∧ s.myRegion.head (.task 0 0 3) = none ∧ s.myRegion.room (.task 0 0 4) 1 = false) ∧
    (let s := taskSt { slotOf [] with markers := [(0, .eos)] } (fun r => { r with
        classes := [(0, { recvs := [.slot 0 0], senders := [0] })] });
      s.classLeased s.actCue s.actCell 0 = false ∧
        ∃ q ∈ s.myRegion.classDsts 0, (s.myRegion.cls 0).credit s.actCell q.recv = 0) := by decide +kernel

/-- SENDP of one lane from the scratchpad on class 0; class 2 is not the tenant's, class 1 not in the slot's mask. -/
theorem witness_TaskChannels_sendp :
    let s := sC .eos (slotOf [(1, 0xF000000000000000), (2, 0x100000), (3, 0xF100000000000000)])
    s.myTenant.classMask.getLsbD 0 = true ∧ s.me.sends.getLsbD 0 = true ∧ (s.rg 4).toNat / 2 ^ 20 = 0 ∧
    (s.rg 1).toNat / 2 ^ 56 = 0xF0 ∧ gets s (s.rg 1) 4 (.read 4) = true ∧ s.hasQuota s.myRegion.die s.myCell.site (dataFlits 1) = true ∧
    (∀ q ∈ s.myRegion.classDsts 0, 0 < (s.myRegion.cls 0).credit s.actCell q.recv) ∧
    s.classLeased s.actCue s.actCell 0 = false ∧ s.portReady 0 0 0 (dataFlits 1) 0 = true ∧
    s.myTenant.classMask.getLsbD 2 = false ∧ (s.myTenant.classMask.getLsbD 1 = true ∧ s.me.sends.getLsbD 1 = false) ∧
    (s.rg 2).toNat / 2 ^ 20 ≠ 0 ∧ (s.rg 3).toNat / 2 ^ 56 ≠ 0xF0 ∧ Fresh s := by unfold Fresh; decide +kernel

/-- A slot whose g1 names words in memory at 0x8000 that it has been given: n bytes of them. -/
def sW (n : Nat) (ws : List Word) : State :=
  { taskSt (slotOf [(1, 0x8000), (2, 0x8001), (3, 0xF100000000000000)]) id with
    fetches := [fed (.slot 0 0 0) 0x8000 (.read n) ((bytesOfWords ws ++ List.replicate n 0).take n)] }
/-- A REDUCE block of one buffer of 64 bytes, and a block of no operation. -/
def redW : List Word := [0x160002, 0, 0, 64, 0x9000, 0xA000, 64, 0, 0, 0, 0, 0, 0, 0, 0, 0]
def queues : Issue → Bool
  | .queued _ => true
  | _ => false
def statusOf : Issue → Nat
  | .status n => n
  | _ => 0

/-- A command that is read, released and finds its place; one without a destination. -/
theorem witness_TaskEngines_fly :
    (let s := sW 64 [flyW.w0, flyW.w1, flyW.w2];
      Settled s ∧ (s.rg 1).toNat % 64 = 0 ∧ (s.rg 1).toNat / 2 ^ 56 = 0 ∧ ∃ g s', Gets s (s.rg 1) 64 (.read 64) g s' ∧
      (let c := cmdOfWords (wordsOfBytes g.bytes); !flyMalformed s.myRegion s.actCell c && (s'.queueRoom 0 &&
        (s'.askLeave s.myRegion.die s.actor (leaveUnits (flyBytes c))).1)) = true) ∧
    (let s := sW 64 []; Fresh s ∧ ∃ g s', Gets s (s.rg 1) 64 (.read 64) g s' ∧
      flyMalformed s.myRegion s.actCell (cmdOfWords (wordsOfBytes g.bytes)) = true) :=
  ⟨⟨by unfold Settled; decide +kernel, by decide +kernel, by decide +kernel, gets_spec (P := fun g s' =>
      let c := cmdOfWords (wordsOfBytes g.bytes); !flyMalformed _ _ c && (s'.queueRoom 0 && (s'.askLeave _ _ (leaveUnits (flyBytes c))).1))
      (by decide +kernel)⟩,
    ⟨by unfold Fresh; decide +kernel, gets_spec (P := fun g _ => flyMalformed _ _ (cmdOfWords (wordsOfBytes g.bytes))) (by decide +kernel)⟩⟩

/-- A store of the slot is still to be performed; the own engine's queue is full; a class without credit. -/
theorem witness_TaskEngines_waits :
    (let s := { sW 64 [flyW.w0, flyW.w1, flyW.w2] with regions := [(0, { sQ.region 0 with
        cells := [(0, { slots := [(0, slotOf [(1, 0x8000)])] })] })] };
      ¬Settled s ∧ ∃ g s', Gets s (s.rg 1) 64 (.read 64) g s' ∧ true = true) ∧
    (let s := { sW 128 redW with regions := [(0, { sQ.region 0 with
        cells := [(0, { slots := [(0, slotOf [(1, 0x8000)])] })] })] };
      ¬Settled s ∧ ∃ g s', Gets s (s.rg 1) 128 (.read 128) g s' ∧ true = true) ∧
    (let s := { sW 64 [flyW.w0, flyW.w1, flyW.w2] with flys := [(0, { q := (List.range 16).map (fun k =>
        { seq := k, cue := 0, vcell := 0, task := true, agent := 0, own := true, c := flyW, promise := 0 }) })] };
      Settled s ∧ ∃ g s', Gets s (s.rg 1) 64 (.read 64) g s' ∧ s'.queueRoom 0 = false) ∧
    (let s := taskSt { slotOf [(1, 0xF000000000000000), (2, 0)] with sends := 1 } (fun r => { r with
        classes := [(0, { recvs := [.slot 0 0], senders := [0] })] });
      ∃ g s', Gets s (s.rg 1) 4 (.read 4) g s' ∧ (!s'.portReady 0 0 0 (dataFlits 1) 0) = true) := by
  refine ⟨⟨by unfold Settled; decide +kernel, gets_spec (P := fun _ _ => true) (by decide +kernel)⟩,
    ⟨by unfold Settled; decide +kernel, gets_spec (P := fun _ _ => true) (by decide +kernel)⟩,
    ⟨by unfold Settled; decide +kernel, ?_⟩, ?_⟩
  · exact (gets_spec (P := fun _ s' => !s'.queueRoom 0) (by decide +kernel)).imp fun _ => Exists.imp fun _ h => ⟨h.1, by simpa using h.2⟩
  · exact gets_spec (P := fun _ s' => !s'.portReady 0 0 0 (dataFlits 1) 0) (by decide +kernel)

theorem witness_TaskEngines_wings :
    (let s := sW 128 redW; (s.rg 1).toNat % 128 = 0 ∧ ∃ g s', Gets s (s.rg 1) 128 (.read 128) g s' ∧
      (let w := wordsOfBytes g.bytes;
        queues (s'.issueBlock s.actCue s.actCell true s.actSlot (blkStack w) false w s.actor 0 s.me.pc.toNat)) = true) ∧
    (let s := sW 128 []; ∃ g s', Gets s (s.rg 1) 128 (.read 128) g s' ∧ (let w := wordsOfBytes g.bytes;
        statusOf (s'.issueBlock s.actCue s.actCell true s.actSlot (blkStack w) false w s.actor 0 s.me.pc.toNat) == 1) = true) :=
  ⟨⟨by decide +kernel, gets_spec (P := fun g s' => let w := wordsOfBytes g.bytes; queues (s'.issueBlock _ _ true _ (blkStack w) false w _ 0 _))
      (by decide +kernel)⟩,
    gets_spec (P := fun g s' => let w := wordsOfBytes g.bytes; statusOf (s'.issueBlock _ _ true _ (blkStack w) false w _ 0 _) == 1)
      (by decide +kernel)⟩

theorem witness_TaskEngines_tload :
    let s := sW 4096 []
    (∃ g s', Gets s (s.rg 1) 64 (.read 4096) g s' ∧ true = true) ∧ (s.rg 0).toNat ≤ s.myTenant.tslim - s.myTenant.tsbase ∧
    s.myRegion.frontBanks s.actCell 0 = [0] ∧ s.myCell.tloads.any (fun q => q.slot == 0) = false ∧
    (Fresh s ∧ (s.rg 2).toNat % 64 ≠ 0) ∧ ((s.rg 3).toNat % 64 = 0 ∧ (s.rg 3).toNat / 2 ^ 56 ∉ [0, 0xF0, 0xF3]) :=
  ⟨gets_spec (P := fun _ _ => true) (by decide +kernel), by unfold Fresh; decide +kernel⟩

/-- A region whose code is the word of BARA g0 at a rung (maj 0x3B, R77); n phases of barrier 0 are complete, slot 0 has
arrived once; g2 = 4 is no barrier. -/
def sB (n rung : Nat) (q : Option (Nat × Nat)) : State := taskSt (slotOf []) (fun r => { r with
  codeRecs := [0, 0, 0x10000, 0], codeImages := [bytesOf 4 (0xEC000000 + rung * 256)]
  cells := [(0, { slots := [(0, { slotOf [(2, 4)] with arrived := q })], barriers := [(0, { phase := n, arrivals := [(0, 1)] })] })] })

theorem witness_NodeSync_task :
    (let s := sB 1 3 none; 0 < s.myRegion.nbar ∧ s.myRegion.barRung 0 = some 3 ∧ s.me.arrived = none ∧ Fresh s ∧
      (s.rg 2).toNat = s.myRegion.nbar) ∧
    (let s := sB 1 3 (some (0, 0)); s.me.arrived = some (0, 0) ∧ 0 < s.myRegion.phaseOf 0 3 (.slot 0 0)) ∧
    (let s := sB 0 3 (some (0, 0)); s.me.arrived = some (0, 0) ∧ s.myRegion.phaseOf 0 3 (.slot 0 0) ≤ 0 ∧ Settled s) ∧
    (let s := { sB 0 3 none with regions := [(0, { (sB 0 3 none).region 0 with pend := (sQ.region 0).pend })] };
      ¬Settled s ∧ s.me.arrived = none ∧ s.myRegion.barRung 0 = some 3) := by
  unfold Fresh Settled; decide +kernel

/-- Slot 0, the one member of the domain, has arrived at phase 0: at rung 3, and at rung 1 in a job of one region. -/
theorem witness_NodeSync_phase :
    (let s := { sB 0 3 none with actor := .barrier 0 0 0 }; (s.region 0).barRung 0 = some 3 ∧ s.phaseReady 0 0 0 = true) ∧
    (let s := { sB 0 1 none with actor := .barrier 0 0 0, jobs := [(0, { placed := [{ cue := 0, script := 0x2000, launch := 0, nsreg := 1, started := true }] })] };
      (s.region 0).barRung 0 = some 1 ∧ s.phaseReady 0 0 0 = true ∧ ((s.peers 0 1).map (fun p => p.cue)).Nodup ∧
      (s.peers 0 1).map (fun p => p.completed) = [false]) := by decide +kernel

/-! ### Hypotheses of the statements about nodes -/

/-- One lane on each operand; one operand empty; port 0 full. -/
def s3 (i : Instr) : State := nodeSt i {} [(0, [.data [5]]), (1, [.data [1]]), (2, [.data [0]])] id
theorem witness_NodeArith : NodeReady (s3 (.fmaN {})) ∧
    ((s3 (.fmaN {})).lanes 0).length = ((s3 (.fmaN {})).lanes 1).length ∧
    ((s3 (.fmaN {})).lanes 1).length = ((s3 (.fmaN {})).lanes 2).length ∧
    (let s := nodeSt (.negN {}) {} [(0, [])] id; s.myRegion.allData s.actEntry s.opsNamed = false) ∧
    (let s := fullSt (.negN {}) {} [(0, [.data [5]])];
      s.myRegion.allData s.actEntry s.opsNamed = true ∧ s.myRegion.outRoom s.actEntry 1 = false) := by
  unfold NodeReady; decide +kernel

/-- The first and the last integer format. -/
theorem witness_IntegerLanes : fmtIsInt .i32 = true ∧ fmtIsInt .n8 = true := by decide +kernel

theorem witness_NodeLanes : NodeReady (nodeSt (.rsumN {}) {} [(0, [.data [5, 6]])] id) := by unfold NodeReady; decide +kernel

/-- QUANT with and without SOUT and room for two tokens; the last token of a window and an earlier one; an associative
pairing of rows of one length. -/
theorem witness_NodeScaleWindows :
    (let s := nodeSt (.quantN {}) {} [(0, [.data [5]])] id; s.myRegion.allData s.actEntry s.opsNamed = true ∧
      s.myRegion.outRoom s.actEntry 1 = true ∧ s.myRegion.outRoom s.actEntry 2 = true) ∧
    ({ mod := 0x10 } : NodeF).mod.toNat / 16 % 2 = 1 ∧ ({} : NodeF).mod.toNat / 16 % 2 = 0 ∧
    (let s := nodeSt (.wsumN { ext := [1] }) { op := { n := 1 } } [(0, [.data [5]])] id;
      NodeReady s ∧ s.myNode.op.n = (wordAt [1] 0).toNat % 2 ^ 16) ∧
    (let s := nodeSt (.wsumN { ext := [1] }) {} [(0, [.data [5]])] id; NodeReady s ∧ s.myNode.op.n ≠ (wordAt [1] 0).toNat % 2 ^ 16) := by
  unfold NodeReady; decide +kernel
theorem witness_NodeScaleWindows_pairing : (∀ a b c : Lane, (a ||| b) ||| c = a ||| (b ||| c)) ∧
    ∀ y ∈ ([[1], [2]] : List (List Lane)), y.length = ([3] : List Lane).length :=
  ⟨BitVec.or_assoc, by decide⟩

/-- CONST and IOTA before and after their last token. -/
theorem witness_NodeRoutes_sources :
    (let s := nodeSt (.iotaN { cfg := 1 }) {} [] id; SourceReady s ∧ s.myNode.fire ≤ 1) ∧
    (let s := nodeSt (.iotaN { cfg := 1 }) { fire := 2 } [] id; SourceReady s ∧ 1 < s.myNode.fire) := by
  unfold SourceReady; decide +kernel

/-- The states of STEER, MERGE, CARRY and INV that the clauses name. -/
theorem witness_NodeRoutes_switches :
    (let s := s3 (.steerN {}); s.myRegion.opHead 0 0 = some (.data [5]) ∧ s.myRegion.opHead 0 1 = some (.data [1]) ∧
      s.myRegion.opHead 0 2 = some (.data [0]) ∧ ([1] : List Lane).headD 0 ≠ 0 ∧ ([0] : List Lane).headD 0 = 0 ∧
      s.myRegion.room (.entry 0 0) 1 = true ∧ s.myRegion.room (.entry 0 1) 1 = true ∧ s.myNode.eos = false ∧ s.myNode.curt = false ∧
      s.myNode.op.held = none ∧ s.myNode.op.flag = false ∧
      (((s.myRegion.chanTo (.entry 0 0)).map (fun ch => ch.headAt)).getD 0 ≤
        ((s.myRegion.chanTo (.entry 0 1)).map (fun ch => ch.headAt)).getD 0)) ∧
    (let s := nodeSt (.carryN {}) { op := { flag := true } } [(0, []), (1, [.data [1]]), (2, [.data [1]])] id;
      s.myRegion.opHead 0 0 ≠ some .curtain ∧ s.myNode.op.flag = true ∧ s.myRegion.opHead 0 2 = some (.data [1])) ∧
    (let s := nodeSt (.carryN {}) { op := { held := some (.data [4]) } } [(0, []), (1, [.data [1]])] id;
      s.myNode.op.held = some (.data [4]) ∧ s.myRegion.room (.entry 0 0) 1 = true) ∧
    (let s := nodeSt (.mergeN { ndt := 1 }) {} [(0, []), (1, [.data [1]])] id;
      s.myRegion.opHead 0 1 = some (.data [1]) ∧ s.myRegion.opHead 0 0 = none) := by decide +kernel

/-- A BAR node that is about to arrive, one that waits for an access that precedes its token, one with a full port, one whose
phase is complete, and one whose phase is open. -/
theorem witness_NodeSync_bar :
    (let s := nodeSt (.barN {}) {} [(0, [.data [5]])] id; s.myNode.op.held = none ∧ s.myRegion.opHead 0 0 = some (.data [5]) ∧
      s.myRegion.preceded 0 [0] = true ∧ s.myRegion.outRoom 0 1 = true) ∧
    (let s := nodeSt (.barN {}) {} [(0, [.data [5]])] (fun r => { r with
        accs := [{ id := 3, entry := 1 }], chans := r.chans.map (fun c => { c with pre := [[3]] }) });
      s.myRegion.opHead 0 0 = some (.data [5]) ∧ s.myRegion.preceded 0 [0] = false) ∧
    (let s := fullSt (.barN {}) {} [(0, [.data [5]])]; s.myRegion.opHead 0 0 = some (.data [5]) ∧
      s.myRegion.preceded 0 [0] = true ∧ s.myRegion.outRoom 0 1 = false) ∧
    (let s := nodeSt (.barN { scope := 3 }) { op := { held := some (.data [5]) } } [(0, [])] (fun r =>
        r.setCell 0 { r.cell 0 with barriers := [(0, { phase := 1 })] });
      s.myRegion.barRung 0 = some 3 ∧ s.myNode.op.held = some (.data [5]) ∧ s.myNode.op.phase < s.myRegion.phaseOf 0 3 (.node 0) ∧
      s.myRegion.outRoom 0 1 = true) ∧
    (let s := nodeSt (.barN { scope := 3 }) { op := { held := some (.data [5]) } } [(0, [])] id;
      s.myRegion.phaseOf 0 3 (.node 0) ≤ s.myNode.op.phase) := by decide +kernel

/-- FENCEN with each kind of token at its operand; ORDJ with an ORDER and a DATA token. -/
theorem witness_NodeSync_order :
    (∀ x ∈ ([.data [5], .order 2, .cfg 0 7 [1], .eos, .curtain] : List Token),
      let s := nodeSt (.fencenN {}) {} [(0, [x])] id
      s.myRegion.outRoom 0 1 = true ∧ s.myRegion.opHead 0 0 = some x ∧ s.myRegion.accs = []) ∧
    (let s := nodeSt (.ordjN {}) {} [(0, [.order 2]), (1, [.data [5]])] id;
      s.myRegion.outRoom 0 1 = true ∧ s.opsNamed = [0, 1] ∧ s.myRegion.opHead 0 0 = some (.order 2) ∧
      s.myRegion.opHead 0 1 = some (.data [5])) := by decide +kernel


/-- The ranges an access reaches, and whether its port then admits it. -/
def runsOf (o : RunOut) : List (List Seg) :=
  match o with
  | .ok segs => segs
  | _ => []
def asks (s : State) (a : Acc) : Bool := ((s.accReach s.actCue a).2.asks a []).1
def reaches (s : State) (a : Acc) : Bool :=
  s.heldAt a a.ptrs == none && ((s.accReach s.actCue a).1 == .ok (runsOf (s.accReach s.actCue a).1) && asks s a)
theorem reaches_spec {s : State} {a : Acc} (h : reaches s a = true) : s.heldAt a a.ptrs = none ∧
    ∃ segs u v, s.accReach s.actCue a = (.ok segs, u) ∧ u.asks a [] = (true, v) := by
  simp only [reaches, Bool.and_eq_true, beq_iff_eq] at h
  exact ⟨h.1, _, _, _, Prod.ext h.2.1 rfl, Prod.ext h.2.2 rfl⟩

/-- A load or store of one I32 lane with base and window in its first extension word; operand A offset or data, B offset. -/
def memN (x : Word) : NodeF := { wid := 0, cfg := 1, ext := [x, 0, 0] }
def ldsS (x : Word) : State := nodeSt (.ldsN (memN x)) {} [] id
def stsS (x off : Word) : State := nodeSt (.stsN (memN x)) {} [(0, [.data [5]]), (1, [.data [off.setWidth 32]]), (2, [.order 1])] id

/-- LDS at the scratchpad's last word; STS with an offset operand and an order input at that word, past it, below 0 and off its
boundary; a tile in an engine's hands; LDS past its pattern, with nothing on C, with something left there, and with C's end taken. -/
theorem witness_NodeMemory_own :
    (let s := ldsS 0x1FFFC;
      MemReady s [] false ∧ s.myRegion.named 0 0 = false ∧ s.myNode.eos = false ∧ s.myNode.curt = false ∧ s.myRegion.curtain = false ∧
      (ownPat (memN 0x1FFFC)).addr 0 (offsetOf (s.lanes 0)) = 0x1FFFC ∧ s.myRegion.busyTiles 0 0x1FFFC 4 = []) ∧
    (let s := stsS 0x1FFFC 0; let p := ownPat (memN 0x1FFFC);
      MemReady s [0, 1] true ∧ s.memOps [0, 1] true = [0, 1, 2] ∧ s.myRegion.spadBytes = 0x20000 ∧
      p.addr 0 (offsetOf (s.lanes 1)) = 0x1FFFC ∧ p.addr 0 (offsetOf ((stsS 0x1FFFC 4).lanes 1)) = 0x20000 ∧
      p.addr 0 (offsetOf ((stsS 0x1FFFC 2).lanes 1)) % 4 ≠ 0 ∧
      p.addr 0 (offsetOf ((stsS 0x1FFFC 0xFFF00000).lanes 1)) < 0) ∧
    (let s := nodeSt (.ldsN (memN 0)) {} [] (fun r => r.setCell 0 ((r.cell 0).setTag 0 4)); s.myRegion.busyTiles 0 0 4 ≠ []) ∧
    (let s := nodeSt (.ldsN (memN 0)) { fire := 1 } [] id; let p := ownPat (memN 0);
      p.l0 * p.l1 * p.l2 * p.l3 ≤ s.myNode.fire ∧ s.myRegion.named 0 2 = false ∧ s.myRegion.accsOf 0 = [] ∧
      s.myRegion.outRoom 0 1 = true) ∧
    (∀ x ∈ ([.order 1, .data [5], .eos] : List Token), let s := nodeSt (.ldsN (memN 0)) { fire := 1 } [(2, [x])] id;
      s.myRegion.named 0 0 = false ∧ s.myRegion.named 0 2 = true ∧ s.myNode.op.flag = false ∧ s.myRegion.opHead 0 2 = some x) ∧
    (let s := nodeSt (.ldsN (memN 0)) { fire := 1, op := { flag := true } } [(2, [.order 1])] id;
      s.myRegion.named 0 2 = true ∧ s.myNode.op.flag = true) := by
  unfold MemReady; decide +kernel

def ldgS (x : Word) : State := nodeSt (.ldgN (memN x)) {} [] id
def ldgA (x : Word) (addr : Nat) : Acc :=
  (ldgS x).carried [] { (ldgS x).myRegion.moveAcc (memN x) 0 false [] with ptrs := [(addr, 4)] }
/-- The same in a tenant with a share, with the requests that wait for its bucket. -/
def ldgB (waiters : List (Actor × List Nat)) : State :=
  { ldgS 0x8000 with tenants := [(0, { tenantOf with share := 4, waiters := waiters })] }

/-- LDG from memory that a page maps, from memory that none maps, from a page of another FMT, and from another cell; STG to
memory that may only be read; addresses at the end of the address space and beyond it. -/
theorem witness_NodeMemory_global :
    ((ldgS 0x8000).heldAt (ldgA 0x8000 0x8000) [(0x8000, 4)] = none ∧ ∃ segs u v,
      (ldgS 0x8000).accReach 0 (ldgA 0x8000 0x8000) = (.ok segs, u) ∧ u.asks (ldgA 0x8000 0x8000) [] = (true, v)) ∧
    (MemReady (ldgS 0x8000) [] false ∧ (globPat (memN 0x8000)).addr 0 0 = 0x8000 ∧
      ((ldgS (2 ^ 46)).accReach 0 (ldgA (2 ^ 46) (2 ^ 46))).1 = .miss (2 ^ 46) 0 ∧ asks (ldgS (2 ^ 46)) (ldgA (2 ^ 46) (2 ^ 46)) = true ∧
      ((ldgS 0x8000).accReach 0 { ldgA 0x8000 0x8000 with fmt := 6 }).1 = .badFmt 0x8000) ∧
    (let n := memN 0x1000000000; let s := nodeSt (.stgN n) {} [(0, [.data [5]])] id;
      MemReady s [0] true ∧
      (s.accReach 0 { s.myRegion.moveAcc n 0 true (s.lanes 0) with ptrs := [(2 ^ 36, 4)] }).1 = .viol (2 ^ 36) 1) ∧
    ((globPat (memN (2 ^ 56 - 4))).addr 0 0 + 4 = 2 ^ 56 ∧ (globPat (memN (2 ^ 56 - 4))).addr 0 4 + 4 > 2 ^ 56) ∧
    (let x : Word := 0xF10000000001FFFC; (wordAt (memN x).ext 0).toNat / 2 ^ 56 = 0xF1 ∧ (globPat (memN x)).addr 0 0 = 0x1FFFC ∧
      (wordAt (memN x).ext 0).toNat / 2 ^ 40 % 4096 = 0 ∧ (ldgS x).leased 0 0 = false ∧
      (wordAt (memN x).ext 0).toNat / 2 ^ 52 % 16 = 0 ∧
      (ldgS x).heldAt (ldgA x 0x1FFFC) [(0x1FFFC, 4)] = none ∧ ((ldgS x).asks { ldgA x 0x1FFFC with space := 2 } []).1 = true ∧
      (wordAt (memN 0xF110000000000000).ext 0).toNat / 2 ^ 52 % 16 ≠ 0) :=
  ⟨reaches_spec (s := ldgS 0x8000) (a := ldgA 0x8000 0x8000) (by decide +kernel), by unfold MemReady; decide +kernel,
    by unfold MemReady; decide +kernel, by decide +kernel, by decide +kernel⟩

/-- What a global access comes to at its port: its request is made and not yet granted; it waits for the bucket. -/
theorem witness_NodeMemory_presents : ((ldgB []).heldAt (ldgA 0x8000 0x8000) [(0x8000, 4)] = none ∧ ∃ segs u v,
      (ldgB []).accReach 0 (ldgA 0x8000 0x8000) = (.ok segs, u) ∧ u.asks (ldgA 0x8000 0x8000) [] = (false, v)) ∧
    (ldgB [(.node 0 0, [4])]).heldAt (ldgA 0x8000 0x8000) [(0x8000, 4)] = some 5 :=
  ⟨⟨by decide +kernel, runsOf ((ldgB []).accReach 0 (ldgA 0x8000 0x8000)).1, _, _, Prod.ext (by decide +kernel) rfl,
    Prod.ext (by decide +kernel) rfl⟩, by decide +kernel⟩

/-- An own access at a full port; another cell's in an exchange; each hold of a memory node: ORDER, a withheld access, an operand. -/
theorem witness_NodeMemory_holds :
    (let s := nodeSt (.ldsN (memN 0)) {} [] (fun r => { r with accs := (List.range 8).map (fun k => ({ id := k, entry := 1, space := 1, banks := [0] } : Acc)) });
      MemReady s [] false ∧ s.myRegion.busyTiles 0 0 4 = [] ∧ s.myRegion.portFull 0 (s.myRegion.portOf 0 0) = true) ∧
    (let s := nodeSt (.ldgN (memN 0xF10000000001FFFC)) {} [] (fun r => { r with exchanges := [{ a := 0, b := 1 }] });
      s.leased 0 0 = true) ∧
    (let s := nodeSt (.stsN (memN 0)) {} [(0, [.data [5]]), (1, [.data [0]]), (2, [])] id;
      s.myRegion.allData 0 [0, 1] = true ∧ s.myRegion.orderWaits 0 true = true) ∧
    (let s := nodeSt (.stsN (memN 0)) {} [(0, [.data [5]])] (fun r => { r with accs := [{ entry := 0, withheld := some (0, 0) }] });
      s.myRegion.orderWaits 0 true = false ∧ s.myRegion.withheldAt 0 = true) ∧
    (let s := nodeSt (.stsN (memN 0)) {} [(0, [])] id;
      s.myRegion.orderWaits 0 true = false ∧ s.myRegion.withheldAt 0 = false ∧ s.myRegion.allData 0 [0] = false) ∧
    (let s := nodeSt (.ldsN (memN 0)) { fire := 1 } [] (fun r => { r with accs := [{ entry := 0, space := 1, banks := [0] }] });
      let p := ownPat (memN 0); p.l0 * p.l1 * p.l2 * p.l3 ≤ s.myNode.fire ∧ s.myRegion.accsOf 0 ≠ []) := by unfold MemReady; decide +kernel

/-- The pointers of R245 that reach nothing, and a TFILL whose last access is performed and whose flip fails. -/
theorem witness_NodeAtomics_stops :
    (let n : NodeF := { wid := 0, cfg := 1, ext := [0xF110000000000000, 0] }; let s := nodeSt (.atmN n) {} [(0, [.data [5]])] id;
      MemReady s [0] true ∧ (wordAt n.ext 0).toNat / 2 ^ 56 = 0xF1 ∧ (wordAt n.ext 0).toNat / 2 ^ 52 % 16 ≠ 0) ∧
    (let n : NodeF := { ext := [0xF110000000000000] }; let s := nodeSt (.mxmaxN n) {} [(0, [.data [5]])] id;
      MemReady s [0] false ∧ (wordAt n.ext 0).toNat / 2 ^ 56 = 0xF1 ∧ (wordAt n.ext 0).toNat / 2 ^ 52 % 16 ≠ 0) ∧
    (let n : NodeF := { wid := 0, cfg := 1, ext := [0xF10000000001FFFC, 0] }; let s := nodeSt (.atmN n) {} [(0, [.data [5]])] id;
      MemReady s [0] true ∧ (wordAt n.ext 0).toNat / 2 ^ 52 % 16 = 0 ∧ 0x1FFFC + 4 ≤ s.myRegion.spadBytes) ∧
    (let n : NodeF := { wid := 0, ext := [0x8000, 0x200000004] }; let s := nodeSt (.ldiN n) {} [(0, [.data [1, 2]])] id;
      MemReady s [0] true ∧ (s.lanes 0)[1]? = some 2 ∧ (wordAt n.ext 1).toNat / 2 ^ 32 ≤ (2 : Lane).toNat ∧ n.mod.toNat / 16 % 2 = 0 ∧
      (s.lanes 0).take 1 = [1] ∧ (1 : Lane).toNat < (wordAt n.ext 1).toNat / 2 ^ 32) := by unfold MemReady; decide +kernel
def fillA : Acc := { entry := 0, done := true, flip := some 5 }
theorem witness_NodeAtomics_flip :
    let s := nodeSt (.tfillN { ext := [5] }) {} [(0, [])] (fun r => { (r.setCell 0 ((r.cell 0).setTag 5 2)) with accs := [fillA] });
    (s.myRegion.accsOf 0).head? = some fillA ∧ fillA.done = true ∧ s.myRegion.flipBlocked fillA = true := by decide +kernel

/-- ATM in each window, LDI with indices inside and beyond its limit, MXMAX, and TFILL at the first and the last row of a tile. -/
theorem witness_NodeAtomics :
    (let n : NodeF := { wid := 0, cfg := 1, ext := [0x8000, 0] }; let s := nodeSt (.atmN n) {} [(0, [.data [5]])] id;
      MemReady s [0] true ∧ reaches s { s.myRegion.newAcc n 0 .atomic with
        lanes := [5], gives := true, pages := 2, ptrs := [(0x8000, 4)] } = true) ∧
    (let n : NodeF := { wid := 0, ext := [0x8000, 0x200000004], mod := 0x10 }; let s := nodeSt (.ldiN n) {} [(0, [.data [1, 2]])] id;
      MemReady s [0] true ∧ (wordAt n.ext 1).toNat / 2 ^ 32 = 2 ∧ n.mod.toNat / 16 % 2 = 1 ∧
      reaches s { s.myRegion.newAcc n 0 .load with ptrs := [(0x8004, 4), (0, 0)], gives := true } = true) ∧
    (let n : NodeF := { ext := [0xF00000000001FFFC] }; let s := nodeSt (.mxmaxN n) {} [(0, [.data [5]])] id;
      MemReady s [0] false ∧ (wordAt n.ext 0).toNat / 2 ^ 56 = 0xF0 ∧ s.copyAt n < s.myRegion.ncells ∧
      (wordAt n.ext 0).toNat % 2 ^ 56 + 4 ≤ s.myRegion.spadBytes ∧ s.myRegion.busyTiles 0 0x1FFFC 4 = []) ∧
    (let n : NodeF := { ext := [5] }; let s := nodeSt (.tfillN n) {} [(0, [.data [5]])] id;
      MemReady s [0] false ∧ s.myNode.op.n = 0 ∧ s.myRegion.accsOf 0 = [] ∧ (s.myRegion.cell (s.copyAt n)).tag 5 = 0) ∧
    (let n : NodeF := { ext := [5] }; let s := nodeSt (.tfillN n) { op := { n := 4092 } } [(0, [.data [5]])] id;
      MemReady s [0] false ∧ s.myNode.op.n ≠ 0 ∧ 4096 ≤ s.myNode.op.n + (s.lanes 0).length * fmtSize (nFmt n)) := by
  unfold MemReady; decide +kernel

/-- SRC and SNK in buffer mode: 2 tokens of one I32 lane at 0x8000. -/
def edgeN (cnt : BitVec 24) : NodeF := { cfg := cnt, ext := [0x8010, 4, 0] }
theorem witness_NodeEdges_buffer :
    (let s := nodeSt (.srcN (edgeN 2)) { fire := 1 } [] id; SourceReady s ∧ s.myRegion.withheldAt 0 = false ∧ (edgeN 2).cfg ≠ 0 ∧
      s.myNode.fire < (edgeN 2).cfg.toNat ∧
      reaches s { s.myRegion.newAcc (edgeN 2) 0 .load with ptrs := [(0x8014, 4)], gives := true } = true) ∧
    (let s := nodeSt (.srcN (edgeN 2)) { fire := 2 } [] id; SourceReady s ∧ (edgeN 2).cfg.toNat ≤ s.myNode.fire ∧ s.myRegion.accsOf 0 = []) ∧
    (let s := nodeSt (.snkN (edgeN 2)) { fire := 1 } [(0, [.data [5]])] id; MemReady s [0] false ∧ s.myNode.fire < (edgeN 2).cfg.toNat) ∧
    (let s := nodeSt (.snkN (edgeN 2)) { fire := 2 } [(0, [.data [5]])] id; MemReady s [0] false ∧
      (edgeN 2).cfg.toNat ≤ s.myNode.fire) := by unfold SourceReady MemReady; decide +kernel

/-- A SRC whose port withholds an access; places beyond the address space. -/
theorem witness_NodeEdges_stops :
    (let s := nodeSt (.srcN (edgeN 2)) {} [] (fun r => { r with accs := [{ entry := 0, withheld := some (0, 0), extra := true }] });
      SourceReady s ∧ s.myRegion.withheldAt 0 = true) ∧
    (let n : NodeF := { cfg := 2, ext := [0x00FFFFFFFFFFFFFE, 4, 0] };
      2 ^ 56 < (wordAt n.ext 0).toNat % 2 ^ 56 + 0 * 4 + 2 ^ n.wid.toNat * fmtSize (nFmt n)) := by
  unfold SourceReady; decide +kernel

/-- A descriptor word whose answer has come is read. -/
theorem reads_spec {s : State} {addr : Nat} {f : Fetch} (h : s.fetchOf addr (.read 8) = some f) (hf : s.fetched f = true) (n : NodeF)
    (ks : List Nat) (k : Word → State → State) : s.readDesc n ks addr k = k (BitVec.ofNat 64 (natOf f.bytes)) s.dropFetches := by
  unfold State.readDesc State.nodeFetch
  rw [h]
  simp [hf]
def descF (addr : Nat) (w : Word) : Fetch := fed (.node 0 0) addr (.read 8) (bytesOf 8 w.toNat)
theorem descF_bytes (addr : Nat) (w : Word) (h : natOf (bytesOf 8 w.toNat) = w.toNat) :
    BitVec.ofNat 64 (natOf (descF addr w).bytes) = w := by
  rw [show (descF addr w).bytes = bytesOf 8 w.toNat from rfl, h]; simp

/-- A ring of 4 tokens at 0x8010 whose descriptor words at 0x8000 and 0x8008 have been read as given; the node has moved n tokens
and has seen the other count m. -/
def ringSt (i : Instr) (n m : Nat) (a b : Word) (qs : List (Nat × List Token)) : State :=
  { nodeSt i { op := { flag := true, n := n, m := m } } qs id with fetches := [descF 0x8000 a, descF 0x8008 b] }
/-- Its reading a word. -/
theorem ring_reads (i : Instr) (n m : Nat) (a b : Word) (qs : List (Nat × List Token)) (addr : Nat) (w : Word)
    (h : (ringSt i n m a b qs).fetchOf addr (.read 8) = some (descF addr w)) (hb : natOf (bytesOf 8 w.toNat) = w.toNat) (x : NodeF)
    (ks : List Nat) : ∀ k, (ringSt i n m a b qs).readDesc x ks addr k = k w (ringSt i n m a b qs).dropFetches := fun k => by
  rw [reads_spec h (by rfl) x ks k, descF_bytes addr w hb]
/-- What holds the token of a ring at its port, and where the store of its new count breaks a right: the readable half of the
page table's first entry. -/
def moveA (s : State) : Acc := s.carried [] { s.myRegion.newAcc (edgeN 0) 0 .load with ptrs := [(0x8018, 4)], gives := true }
def moveB (s : State) (addr : Nat) : Acc := { s.myRegion.newAcc (edgeN 0) 0 .store with
  ptrs := [(addr, 8)], bytes := bytesOf 8 3, pages := 0, extra := true }
def moveU (s : State) : State := (s.accReach s.actCue (moveA s)).2
theorem witness_NodeEdges_moves :
    let s := ringSt (.srcN (edgeN 0)) 2 3 3 0 [];
    s.heldAt (moveA s) [(0x8018, 4), (0x8008, 8)] = none ∧ (∃ segs u1, s.accReach s.actCue (moveA s) = (.ok segs, u1) ∧
      (∃ more u2 v, u1.accReach s.actCue (moveB s 0x8008) = (.ok more, u2) ∧ u2.asks (moveA s) [moveB s 0x8008] = (true, v)) ∧
      (∃ va right u2, u1.accReach s.actCue (moveB s 0x1000000008) = (.viol va right, u2))) :=
  ⟨by decide +kernel, runsOf ((ringSt (.srcN (edgeN 0)) 2 3 3 0 []).accReach 0 (moveA (ringSt (.srcN (edgeN 0)) 2 3 3 0 []))).1,
    moveU (ringSt (.srcN (edgeN 0)) 2 3 3 0 []), Prod.ext (by decide +kernel) rfl,
    ⟨runsOf ((moveU (ringSt (.srcN (edgeN 0)) 2 3 3 0 [])).accReach 0 (moveB (ringSt (.srcN (edgeN 0)) 2 3 3 0 []) 0x8008)).1, _, _,
      Prod.ext (by decide +kernel) rfl, Prod.ext (by decide +kernel) rfl⟩,
    ⟨0x1000000008, 1, _, Prod.ext (by decide +kernel) rfl⟩⟩

/-- SRC: its first reading; a token is there, not asked for and asked for; the count is broken; the stream is closed and empty. -/
theorem witness_NodeEdges_src :
    (let s := { ringSt (.srcN (edgeN 0)) 2 2 3 0 [] with regions := [(0, { (ringSt (.srcN (edgeN 0)) 2 2 3 0 []).region 0 with nodes := [] })] };
      SourceReady s ∧ s.myNode.op.flag = false ∧ (s.fetchOf 0x8008 (.read 8)).isSome = true) ∧
    (let s := ringSt (.srcN (edgeN 0)) 2 2 3 0 []; SourceReady s ∧ s.myRegion.withheldAt 0 = false ∧
      (∀ k, s.readDesc (edgeN 0) [] 0x8000 k = k 3 s.dropFetches) ∧ s.dropFetches.regions = s.regions ∧ s.dropFetches.actor = s.actor ∧
      s.myNode.op.flag = true ∧ s.myNode.op.asked = false ∧ s.myNode.op.m ≤ 3 ∧ s.myNode.op.n < 3 ∧ 3 ≤ s.myNode.op.n + 4 ∧
      let u := s.dropFetches.setOp (fun o => { o with m := 3, asked := true })
      u.myNode.op.asked = true ∧
      reaches u { s.myRegion.newAcc (edgeN 0) 0 .load with ptrs := [(0x8018, 4)], gives := true } = true) ∧
    (let s := ringSt (.srcN (edgeN 0)) 2 2 7 0 []; (∀ k, s.readDesc (edgeN 0) [] 0x8000 k = k 7 s.dropFetches) ∧ s.myNode.op.n + 4 < 7) ∧
    (let s := ringSt (.srcN (edgeN 0)) 2 2 0x8000000000000002 0 [];
      (∀ k, s.readDesc (edgeN 0) [] 0x8000 k = k 0x8000000000000002 s.dropFetches) ∧
      (0x8000000000000002 : Word).toNat % 2 ^ 63 = s.myNode.op.n ∧ s.myRegion.accsOf 0 = []) ∧
    (let s := ringSt (.srcN (edgeN 0)) 2 2 2 0 []; (∀ k, s.readDesc (edgeN 0) [] 0x8000 k = k 2 s.dropFetches) ∧
      (2 : Word).toNat % 2 ^ 63 = s.myNode.op.n ∧ (2 : Word).toNat / 2 ^ 63 = 0) :=
  ⟨by unfold SourceReady; decide +kernel, ⟨by unfold SourceReady; decide +kernel, by decide +kernel,
      ring_reads _ _ _ _ _ _ _ _ (by decide +kernel) (by decide +kernel) _ _, by decide +kernel⟩,
    ⟨ring_reads _ _ _ _ _ _ _ _ (by decide +kernel) (by decide +kernel) _ _, by decide +kernel⟩,
    ⟨ring_reads _ _ _ _ _ _ _ _ (by decide +kernel) (by decide +kernel) _ _, by decide +kernel⟩,
    ⟨ring_reads _ _ _ _ _ _ _ _ (by decide +kernel) (by decide +kernel) _ _, by decide +kernel⟩⟩
/-- SNK: a place is free; the reader's count is broken; the ring is full; its first reading finds a closed ring. -/
theorem witness_NodeEdges_snk :
    (let s := ringSt (.snkN (edgeN 0)) 3 0 0 0 [(0, [.data [5]])]; MemReady s [0] false ∧
      (∀ k, s.readDesc (edgeN 0) [0] 0x8008 k = k 0 s.dropFetches) ∧ s.dropFetches.regions = s.regions ∧
      s.myNode.op.flag = true ∧ s.myNode.op.m ≤ 0 ∧ s.myNode.op.n - 0 < 4 ∧
      let u := s.dropFetches.setOp (fun o => { o with m := 0, asked := true })
      reaches u { s.myRegion.newAcc (edgeN 0) 0 .store with
        ptrs := [(0x801C, 4)], bytes := bytesFromLanes .i32 [5], took := [(0, .data [5])] } = true) ∧
    (let s := ringSt (.snkN (edgeN 0)) 3 0 0 4 [(0, [.data [5]])]; (∀ k, s.readDesc (edgeN 0) [0] 0x8008 k = k 4 s.dropFetches) ∧
      s.myNode.op.n < 4) ∧
    (let s := ringSt (.snkN (edgeN 0)) 4 0 0 0 [(0, [.data [5]])]; (∀ k, s.readDesc (edgeN 0) [0] 0x8008 k = k 0 s.dropFetches) ∧
      4 ≤ s.myNode.op.n - 0) ∧
    (let s := ringSt (.snkN (edgeN 0)) 0 0 0x8000000000000000 0 [(0, [.data [5]])];
      (∀ k, s.readDesc (edgeN 0) [0] 0x8000 k = k 0x8000000000000000 s.dropFetches) ∧ (0x8000000000000000 : Word).toNat / 2 ^ 63 = 1) :=
  ⟨⟨by unfold MemReady; decide +kernel, ring_reads _ _ _ _ _ _ _ _ (by decide +kernel) (by decide +kernel) _ _, by decide +kernel⟩,
    ⟨ring_reads _ _ _ _ _ _ _ _ (by decide +kernel) (by decide +kernel) _ _, by decide +kernel⟩,
    ⟨ring_reads _ _ _ _ _ _ _ _ (by decide +kernel) (by decide +kernel) _ _, by decide +kernel⟩,
    ⟨ring_reads _ _ _ _ _ _ _ _ (by decide +kernel) (by decide +kernel) _ _, by decide +kernel⟩⟩

/-! ### Accesses performed, tiles, tables, passes, matrices, ports and control tokens -/

/-- A region with one access waiting: 8 bytes of global memory or scratchpad, alone. -/
def accSt (a : Acc) (who : Actor) : State :=
  { nodeSt (.ldsN {}) {} [] (fun r => { r with accs := [a], nextAcc := 4 }) with actor := who }
def gA (k : AccKind) : Acc := { id := 3, kind := k, ptrs := [(0x8000, 4)], segs := [[⟨0x8000, 4, none⟩]], bytes := [1, 2, 3, 4], gives := true, op := 0, lanes := [5] }
def oA : Acc := { gA .store with space := 1, banks := [2] }
def pend1 (sp : Nat) (who : Actor) : State :=
  { nodeSt (.ldsN {}) {} [] (fun r => { r with pend := [{ id := 3, vcell := 0, slot := 0, space := sp, segs := [(poolKey 0 0 0x10080, [1, 2])], target := 0, banks := if sp = 2 then [] else [2] }] }) with actor := who }

/-- A store of a slot that waits at the banks of 4 bytes. -/
def bankStore : PStore :=
  { id := 9, vcell := 0, slot := 0, space := 1, segs := [], target := 0, banks := keyBanks [(0x8000, 4)] }

theorem witness_AccessServed :
    (∀ k ∈ ([.load, .store, .atomic] : List AccKind), let s := accSt (gA k) (.access 0 3)
      (s.region 0).accs.find? (fun b => b.id == 3 && b.space == 0) = some (gA k) ∧ (s.region 0).accReady (gA k) = true ∧
      (s.region 0).accsOf 0 = [gA k] ∧ s.landed 0 3 3 = true ∧ (mreqParts (gA k).ptrs).length = 1 ∧ (gA k).xfmt = 15 ∧ (∀ g ∈ (gA k).segs, g ≠ [])) ∧
    (let a : Acc := { gA .load with space := 2 }; let s := accSt a (.access 0 3);
      (s.region 0).accs.find? (fun b => b.id == 3 && b.space == 2 && b.banks.isEmpty) = some a ∧ (s.region 0).accReady a = true ∧
      s.remoteReady 0 0 0 3 (segRanges a.segs.flatten) = true ∧ (s.region 0).giveHeld a = false ∧
      s.bankQueued 0 0 (keyBanks (segRanges a.segs.flatten)) = false ∧
      ({ s with regions := [(0, { s.region 0 with pend := [bankStore] })] } : State).bankQueued 0 0 (keyBanks (segRanges a.segs.flatten)) = true) ∧
    (let s := accSt oA (.bank 0 0 2); (s.region 0).accs = [oA] ∧
      (s.region 0).pend = [] ∧ oA.withheld = none ∧ oA.done = false ∧ oA.kind = .store ∧ oA.banks = [2]) ∧
    (2 ∈ ([2, 3] : List Nat) ∧ ([2, 3] : List Nat).erase 2 ≠ []) ∧
    (∀ job ∈ ([.read 4, .atom .add 4 1 0] : List MemJob),
      let f : Fetch := { fed (.slot 0 0 0) 0x8000 job [] with id := 3, space := 1, served := false, banks := [2] }
      let s := { nodeSt (.ldsN {}) {} [] id with actor := .bank 0 0 2, fetches := [f] }
      s.fetches = [f] ∧ (s.region 0).accs = [] ∧ (s.region 0).pend = [] ∧ f.banks = [2]) ∧
    (let s := pend1 0 (.access 0 3); (s.region 0).accs = [] ∧ (s.region 0).pend.map (fun p => (p.id, p.space)) = [(3, 0)] ∧ s.landed 0 3 3 = true) ∧
    (let s := pend1 2 (.access 0 3); (s.region 0).pend.map (fun p => (p.space, p.banks, s.remoteReady 0 p.vcell p.target p.id p.ranges,
      s.bankQueued 0 0 (keyBanks p.ranges))) = [(2, [], true, false)]) ∧
    (let s := pend1 1 (.bank 0 0 2); (s.region 0).pend.map (fun p => (p.target, p.banks)) = [(0, [2])]) := by
  decide +kernel

/-- A memory packet of access 3, on its way to the slice or with the answer. -/
def mp (kind : Nat) (at_ : Option Nat) : Packet :=
  { id := 7, cue := 0, plane := if kind = 3 then 0 else 1, kind := kind, len := 2, ten := 0, cls := 0, srcDie := 0, srcSite := 0, srcCell := 0
    dsts := [{ recv := 0, die := 0, site := if kind = 3 then sliceSite 0 else 0 }], arrives := at_, mem := some { acc := 3, count := 7 } }
def askF (sp : Nat) : Fetch := { fed (.slot 0 0 0) 0x8000 (.read 8) [] with id := 3, space := sp, served := false, parts := [(0x8000, 8)] }
/-- An access whose MREQs are on their way, what a slot asked for, at each kind of memory, and an access with one answer, or two, to
come. -/
theorem witness_AccessServed_packets :
    ({ accSt (gA .load) (.access 0 3) with packets := [mp 3 none] }.landed 0 3 3 = false) ∧
    (∀ sp ∈ [0, 2], let s := { nodeSt (.ldsN {}) {} [] id with fetches := [askF sp] }
      (s.region 0).accs = [] ∧ (s.region 0).pend = [] ∧ s.openFetch 0 3 sp = some (askF sp) ∧ s.landed 0 3 3 = true ∧
      s.remoteReady 0 0 0 3 [] = (sp == 2) ∧ (askF sp).banks = [] ∧ s.bankQueued 0 0 [] = false) ∧
    (∀ k ∈ [1, 2], let a : Acc := { gA .load with done := true, answers := k, res := some (.data [9]) }
      let s := { accSt a (.packet 7) with packets := [mp 4 (some 0)] }
      s.packets.find? (fun q => q.id == 7) = some (mp 4 (some 0)) ∧ (mp 4 (some 0)).mem.map (fun m => m.acc) = some a.id ∧ Tab.has s.regions 0 = true ∧
      (s.region 0).accs.find? (fun b => b.id == a.id) = some a ∧ (s.region 0).accsOf 0 = [a] ∧ (s.region 0).giveHeld a = false) := by
  decide +kernel

/-- A Fly command whose promise has expired. -/
def lateF : FlyCmd := { seq := 0, cue := 0, vcell := 0, task := false, agent := 0, own := true, c := flyW, promise := 0, late := true }

/-- The last tile of a scratchpad of 32 and the first beyond it; a tag that is E and one that is not; a later flip of the tick; a
tile of a late Fly command. -/
theorem witness_NodeTilesTables_tags :
    (let s := nodeSt (.ttagN { cfg := 0x10 }) {} [(0, [.data [31]])] id; NodeReady s ∧ ((s.lanes 0).headD 0).toNat = 31 ∧
      s.myRegion.spadg * 16 = 32 ∧ (s.myRegion.cell (s.copyAt {})).tag 31 = (0x10 : BitVec 24).extractLsb' 0 3 ∧
      (s.myRegion.cell (s.copyAt {})).flipLate s.cyc.toNat (nodeFlipRank 0) 31 = false ∧ s.myRegion.preceded 0 [0] = true ∧
      s.lateTile 0 0 31 = false) ∧
    (let s := nodeSt (.ttagN { cfg := 0x10 }) {} [(0, [.data [31]])] (fun r => r.setCell 0 { r.cell 0 with flips := [(31, 0, slotFlipRank 0)] });
      (s.myRegion.cell 0).flipLate s.cyc.toNat (nodeFlipRank 0) 31 = true) ∧
    (let s := nodeSt (.ttagN { cfg := 0x10 }) {} [(0, [.data [31]])] (fun r => { r with
        accs := [{ id := 3, entry := 1 }], chans := r.chans.map (fun c => { c with pre := [[3]] }) });
      2 ≤ ((0x10 : BitVec 24).extractLsb' 3 3 : BitVec 3).toNat ∧ s.myRegion.preceded 0 [0] = false) ∧
    (let s := { nodeSt (.twaitnN {}) {} [(0, [.data [5]])] id with flys := [(0, { q := [lateF] })] }; s.lateTile 0 0 5 = true) ∧
    (let s := nodeSt (.ttagN { cfg := 1 }) {} [(0, [.data [31]])] id;
      (s.myRegion.cell (s.copyAt {})).tag 31 ≠ (1 : BitVec 24).extractLsb' 0 3) ∧
    (let s := nodeSt (.twaitnN {}) {} [(0, [.data [32]])] id; NodeReady s ∧ s.myRegion.spadg * 16 ≤ ((s.lanes 0).headD 0).toNat) := by
  unfold NodeReady; decide +kernel

/-- TSWAP before, at and past a position, and at the ends of its operands. -/
theorem witness_NodeTilesTables_swap :
    (let s := nodeSt (.tselN {}) {} [(0, [.data [5]])] id; NodeReady s ∧ s.myNode.op.flag = false) ∧
    (let s := nodeSt (.tselN {}) { op := { flag := true } } [(0, [.data [5]])] id; NodeReady s ∧ s.myNode.op.flag = true) ∧
    (let s := nodeSt (.tswapN {}) { fire := 2 } [(0, [.data [5]]), (1, [.data [2]])] id; s.myRegion.outRoom 0 1 = true ∧
      s.myRegion.opHead 0 0 = some (.data [5]) ∧ s.myRegion.opHead 0 1 = some (.data [2]) ∧ ((s.lanes 1).headD 0).toNat = s.myNode.fire) ∧
    (let s := nodeSt (.tswapN {}) { fire := 1 } [(0, [.data [5]]), (1, [.data [2]])] id; s.myNode.fire < ((s.lanes 1).headD 0).toNat) ∧
    (let s := nodeSt (.tswapN {}) { fire := 3 } [(0, [.data [5]]), (1, [.data [2]])] id; ((s.lanes 1).headD 0).toNat < s.myNode.fire) ∧
    (let s := nodeSt (.tswapN {}) { fire := 3 } [(0, [.data [5]]), (1, [.eos])] id; s.myRegion.opHead 0 1 = some .eos) ∧
    (let s := nodeSt (.tswapN {}) { fire := 3 } [(0, [.eos]), (1, [.data [3]])] id; s.myRegion.opHead 0 0 = some .eos) ∧
    (let s := nodeSt (.tswapN {}) { fire := 3 } [(0, [.curtain]), (1, [.data [3]])] id; s.myRegion.opHead 0 0 = some .curtain) := by
  unfold NodeReady; decide +kernel

/-- TEVAL of one F32 lane: unbound; bound to slot 0 with an empty header; with a header of one absent entry, for a NaN and 1. -/
def tevN : NodeF := { fmt := 6 }
def tevSt (b : BitVec 5) (hdr : Word) (x : Lane) : State :=
  { nodeSt (.tevalN tevN) { elems := [(0, { tbind := b })] } [(0, [.data [x]])] id with
    mem := memSetList pages (tableKey 0 0 0) (bytesOfWords [hdr]) }
def isVal : (Nat × NFault × Int) ⊕ List Lane → Bool
  | .inr _ => true
  | .inl _ => false
theorem witness_NodeTilesTables_eval :
    (let s := tevSt 0 0 0x3F800000; NodeReady s ∧ s.myRegion.fields 0 = tevN ∧ s.myRegion.tabServes s.cyc.toNat 0 = true ∧ (s.myNode.elem (s.myCopy tevN)).tbind.toNat < 16) ∧
    (let s := tevSt 16 0 0x3F800000; 16 ≤ (s.myNode.elem (s.myCopy tevN)).tbind.toNat ∧ (s.myRegion.cell (s.copyAt tevN)).tloads = [] ∧
      tabHdrOk (wordsOfBytes (s.read (tableKey 0 0 0) 64)) = false) ∧
    (let s := tevSt 16 0x10000 0x7FC00000; let ws := wordsOfBytes (s.read (tableKey 0 0 0) 64);
      tabHdrOk ws = true ∧ isVal (tevalLanes (fun k => memGet s.mem (tableKey 0 0 0 + k)) (tabHdr ws) tevN 0 (s.lanes 0) []) = true) ∧
    (let s := tevSt 16 0x10000 0x3F800000; let ws := wordsOfBytes (s.read (tableKey 0 0 0) 64);
      isVal (tevalLanes (fun k => memGet s.mem (tableKey 0 0 0 + k)) (tabHdr ws) tevN 0 (s.lanes 0) []) = false) ∧
    (let s := tevSt 16 0x10000 0x3F800000;
      let r := s.myRegion.setCell 0 { s.myRegion.cell 0 with tabAt := 0, tabUsed := 64, tloads := [⟨0, 0, [], 0⟩] };
      r.tabServes 0 0 = false ∧ ∃ c ∈ (r.cell 0).tloads, c.slot = (16 : BitVec 5).toNat % 16 ∧ c.bank = 0) := by
  unfold NodeReady; decide +kernel

/-- CHAIN over 2 tokens of one I32 lane from 0x100 to 0x200: its start with and without a trigger, its last token, its end, and
after its one pass. -/
def chN : NodeF := { ext := [0x0001000200000100, 0] }
def chBanks (s : State) : List Nat := keyBanks (([(chainSrc chN 1, 4), (chainDst chN 1, 4)] : List (Nat × Nat)).flatMap (fun p =>
  segRanges (s.myRegion.spadSegs 0 0 p.1 p.2)))
theorem witness_NodePasses_chain :
    (let s := nodeSt (.chainN chN) {} [(0, [.data [1]])] id; s.myRegion.named 0 0 = true ∧ s.myRegion.opHead 0 0 = some (.data [1]) ∧
      s.myRegion.outRoom 0 1 = true ∧ s.leaveWaits 0 s.actor = false ∧
      s.myNode.op.flag = false ∧ (s.askLeave 0 s.actor (chainLeave chN)).1 = true) ∧
    (let s := { nodeSt (.chainN chN) {} [(0, [.data [1]])] id with dies := [(0, { leaveQ := [⟨.node 0 0, 0, 100, 0⟩] })] };
      s.leaveWaits 0 s.actor = true) ∧
    (let s := nodeSt (.chainN chN) {} [] id; s.myRegion.named 0 0 = false ∧ SourceReady s ∧ s.myNode.op.m = 0 ∧
      (s.askLeave 0 s.actor (chainLeave chN)).1 = true) ∧
    (let s := nodeSt (.chainN chN) { op := { m := 1 } } [] id; SourceReady s ∧ s.myNode.op.m ≠ 0) ∧
    (let s := nodeSt (.chainN chN) { op := { flag := true, n := 1 } } [] id; s.myNode.op.n < chainN chN ∧
      s.myRegion.busyTiles 0 (chainSrc chN 1) 4 = [] ∧ s.myRegion.busyTiles 0 (chainDst chN 1) 4 = [] ∧ chN.ext.length ≠ 3 ∧
      (s.myRegion.accsOf 0).find? (fun a => a.kind == .poll) = none ∧ s.bankQueued 0 0 (chBanks s) = false) ∧
    (let s := nodeSt (.chainN chN) { op := { flag := true, n := 1 } } [] (fun r => (r.setCell 0 ((r.cell 0).setTag 0 2)));
      s.myRegion.busyTiles 0 (chainSrc chN 1) 4 ≠ []) ∧
    (∀ n ∈ [1, 8], let s := nodeSt (.chainN chN) { op := { flag := true, n := 1 } } [] (fun r => { r with
        accs := List.replicate n { entry := 1, space := 1, banks := keyBanks (segRanges (r.spadSegs 0 0 (chainSrc chN 1) 4)) } });
      s.bankQueued 0 0 (chBanks s) = true ∧ s.myRegion.portFull 0 (s.myRegion.portOf 0 0) = (n == 8)) ∧
    (∀ bs ∈ ([[], [3]] : List (List Nat)), let s := nodeSt (.chainN chN) { op := { flag := true, n := 1 } } [] (fun r => { r with
        accs := [chainRequest 0 0 0 bs] });
      ((s.myRegion.accsOf 0).find? (fun a => a.kind == .poll)).map (fun a => a.banks) = some bs) ∧
    (let s := nodeSt (.chainN chN) { op := { flag := true, n := 2 } } [] id; chainN chN ≤ s.myNode.op.n ∧ s.myRegion.outRoom 0 1 = true) := by
  unfold SourceReady; decide +kernel

/-- CSUM: a block of two tokens at its first and its last; a block of one checked against a wrong and a right reference. -/
theorem witness_NodePasses_csum :
    (let n : NodeF := { ext := [1] }; let s := nodeSt (.csumN n) {} [(0, [.data [5]])] id;
      s.myRegion.allData 0 [0] = true ∧ s.myRegion.outRoom 0 1 = true ∧ s.myNode.op.n + 1 ≠ (wordAt n.ext 0).toNat % 2 ^ 16 + 1) ∧
    (let n : NodeF := { ext := [1] }; let s := nodeSt (.csumN n) { op := { n := 1 } } [(0, [.data [5]])] id;
      s.myNode.op.n + 1 = (wordAt n.ext 0).toNat % 2 ^ 16 + 1 ∧ n.mod.toNat / 16 % 4 = 0) ∧
    (let n : NodeF := { ext := [0], mod := 0x20 }; let s := nodeSt (.csumN n) {} [(0, [.data [5]]), (1, [.data [0]])] id;
      s.myRegion.allData 0 [0, 1] = true ∧ s.myNode.op.n + 1 = (wordAt n.ext 0).toNat % 2 ^ 16 + 1 ∧ n.mod.toNat / 16 % 4 = 2 ∧
      csumAdd (csumState s.myNode.op).1 (s.lanes 0) ^^^ 0xFFFFFFFF ≠ (s.lanes 1).headD 0) := by decide +kernel

/-- A matrix node with X and W in BF16 and tiles 1 and 2 in its hands. -/
def matN : NodeF := { fmt := 6, ext := [0x77] }
def matSt (i : Instr) (o : OpSt) (qs : List (Nat × List Token)) : State :=
  nodeSt i { op := o } qs (fun r => r.setCell 0 { r.cell 0 with tags := [(0, 3), (1, 3), (2, 3)] })
/-- The leave of a step's tile stands, where it asks for one. -/
def stepped (s : State) : Bool :=
  !(stepOf (s.lanes 0)).first || (!s.leaveWaits s.myRegion.die s.actor && (s.askLeave s.myRegion.die s.actor 4).1)
theorem witness_NodeMatrix_mma :
    (let s := matSt (.mmaN matN) {} [(0, [.data [1, 2, 2, 0]])]; s.myNode.op.out = [] ∧ s.myRegion.allData 0 s.opsNamed = true ∧
      stepFault s.myRegion matN (stepOf (s.lanes 0)) true = none ∧
      stepTags s.myRegion matN (s.myRegion.entryCell 0) (stepOf (s.lanes 0)) [1] = true ∧ stepped s = true ∧
      stepFlipLate s.myRegion matN 0 (s.myRegion.entryCell 0) (stepOf (s.lanes 0)) false = false ∧ s.myRegion.outRoom 0 1 = true ∧
      (stepOf (s.lanes 0)).last = true) ∧
    (let s := nodeSt (.mmaN matN) {} [(0, [.data [1, 2, 2, 0]])] id;
      stepTags s.myRegion matN (s.myRegion.entryCell 0) (stepOf (s.lanes 0)) [1] = false) ∧
    (let s := matSt (.mmaN matN) {} [(0, [.data [1, 2, 2, 0]])];
      stepFlipLate (s.myRegion.setCell 0 { s.myRegion.cell 0 with flips := [(1, 0, slotFlipRank 0)] }) matN 0 0 (stepOf (s.lanes 0)) false = true) ∧
    (let s := { matSt (.mmaN matN) {} [(0, [.data [1, 2, 1, 0]])] with dies := [(0, { leaveGranted := [.node 0 0] })] };
      (stepOf (s.lanes 0)).first = true ∧ stepped s = true) ∧
    (let s := matSt (.mmaN matN) {} [(0, [.data [32, 2, 0, 0]])]; (stepFault s.myRegion matN (stepOf (s.lanes 0)) true).isSome = true) ∧
    (let s := matSt (.mmaN matN) { out := [.data [1]] } []; s.myNode.op.out = .data [1] :: [] ∧ s.myRegion.outRoom 0 1 = true) := by
  decide +kernel
/-- GMMA's first index token, and a step with both: 2 rows of 64 bytes at 0. -/
def gmN : NodeF := { fmt := 6, ext := [0x8000000000077, 2, 1] }
theorem witness_NodeMatrix_gmma :
    (let s := matSt (.gmmaN gmN) {} [(0, [.data [1, 2, 0, 0]]), (1, [.data [0, 1]])]; s.myNode.op.out = [] ∧
      s.myRegion.allData 0 [0, 1] = true ∧ s.myNode.op.held = none) ∧
    (let s := matSt (.gmmaN gmN) { held := some (.data [0, 1]) } [(0, [.data [1, 2, 0, 0]]), (1, [.data [5, 1]])];
      s.myNode.op.held = some (.data [0, 1]) ∧ stepFault s.myRegion gmN (stepOf (s.lanes 0)) false = none ∧
      s.lanes 1 = [5, 1] ∧ gmRows gmN = 2 ∧ gmOob gmN = true ∧
      stepTags s.myRegion gmN (s.myRegion.entryCell 0) (stepOf (s.lanes 0)) (tilesOf (gmBase gmN) (gmRows gmN * gmStride gmN)) = true ∧
      stepFlipLate s.myRegion gmN 0 (s.myRegion.entryCell 0) (stepOf (s.lanes 0)) true = false ∧ s.myRegion.outRoom 0 1 = true ∧
      stepped s = true) := by decide +kernel

/-- MVM with K = 16, M = 16 and B = 1 from a page of BF16 weights at 2^37, as its state, what operand A holds and what has been
asked for are given; with RES = 1 its tiles are 5 and 6. -/
def mvN (res : BitVec 1) : NodeF := { fmt := 6, mod := 0x70, res := res, ext := [0x2000000000, 0x000F000F, 0x1005] }
def mvSt (o : OpSt) (qs : List (Nat × List Token)) (f : Region → Region := id) (res : BitVec 1 := 0) : State :=
  { nodeSt (.mvmN (mvN res)) { op := o, fire := 1 } qs f with mem := memSetList pages 0x4010 [0x8F, 0x03] }
def mvRow : List Lane := List.replicate 16 0
/-- The call's inputs are there and its leave is granted. -/
def mvO (ph : Nat) : OpSt := { rows := [mvRow], granted := true, phase := ph }
/-- The leaf and the address a call's WBASE translates to, and the state then. -/
def mvWalk (s : State) : Trans × State := translate s (sliceOf 0 0) 0 (2 ^ 37) false
def mvLeaf (s : State) : Word × Nat :=
  match (mvWalk s).1 with
  | .ok leaf pa => (leaf, pa)
  | _ => (0, 0)
/-- A token gathered, an ORDER token amid the input, a full port; outputs given, one before the last and the last; the leave of a
call asked for, and granted. -/
theorem witness_NodeMvm_tokens :
    (∀ x ∈ ([.data mvRow, .order 2] : List Token), let s := mvSt {} [(0, [x])]; s.myNode.op.out = [] ∧ s.myNode.op.flag = false ∧
      s.myRegion.withheldAt 0 = false ∧ s.myNode.op.rows.length < 1 * 16 / 16 ∧ s.myRegion.opHead 0 0 = some x ∧
      s.myRegion.outRoom 0 1 = true) ∧
    (let s := mvSt {} [(0, [.data mvRow])] (fun r => { r with chans := chansOf [(0, [.data mvRow])] [.eos, .eos, .eos, .eos] });
      s.myRegion.opHead 0 0 = some (.data mvRow) ∧ s.myRegion.outRoom 0 1 = false) ∧
    (∀ rest ∈ ([[], [.data [2]]] : List (List Token)), let s := mvSt { out := .data [1] :: rest } [];
      s.myNode.op.out = .data [1] :: rest ∧ s.myRegion.outRoom 0 1 = true) ∧
    (∀ g ∈ ([[], [.node 0 0]] : List (List Actor)), let s := { mvSt { rows := [mvRow] } [] with dies := [(0, { leaveGranted := g })] };
      s.myNode.op.granted = false ∧ 1 * 16 / 16 ≤ s.myNode.op.rows.length ∧
      (s.askLeave 0 s.actor ((1 * 16 * 16 + 65535) / 65536)).1 = !g.isEmpty) := by decide +kernel

/-- The choice: PRMBATCH 0 (the stage path), and limits that lead to the unit; the page and its weights; the unit's room and none. -/
def prm (r : Region) : Region := { r with launch := r.launch.take 6 ++ [0xFF00 + 0xFF, 0] }
theorem witness_NodeMvm_choice :
    (let s := mvSt (mvO 0) []; let p := mvLeaf s; let s1 := (mvWalk s).2
      s.myRegion.withheldAt 0 = false ∧ (mvWalk s).1 = .ok p.1 p.2 ∧ rights p.1 0 true false = none ∧ leafFmt p.1 = 7 ∧
      weightCheck .bf16 (leafGeom p.1) (2 ^ 37) 16 = 0 ∧ weightExtent .bf16 (leafGeom p.1) 16 16 = 512 ∧
      s1.mixedPage 0 (2 ^ 37) 512 .bf16 (leafGeom p.1) = none ∧ s.myRegion.prmBatch ≤ 1 ∧
      s1.queueRoom (64 + 2 * stackOf p.2) = true) ∧
    (let s := mvSt (mvO 0) [] prm; let p := mvLeaf s; let s1 := (mvWalk s).2
      inHbm p.2 = true ∧ (s1.die (dieOfStack (stackOf p.2))).power.dead = false ∧ 1 < s.myRegion.prmBatch ∧
      residentAll s.myRegion (mvN 0) 0 3 = false ∧ min 16 (s1.wing (stackOf p.2)).qm.length < s.myRegion.prmQmax ∧
      (s.myRegion.prmPort ≤ s1.slicePort (sliceOf 0 0) ∨ s.myRegion.prmBytes ≤ weightBytes .bf16 (leafGeom p.1) 16 16)) ∧
    (let s := { mvSt (mvO 2) [] with wings := [(stackOf (mvLeaf (mvSt (mvO 2) [])).2, { qm := List.replicate 16 { cue := 0, vcell := 0, task := false, agent := 0 } })] };
      s.myNode.op.phase = 2 ∧ (mvWalk s).2.queueRoom (64 + 2 * stackOf (mvLeaf s).2) = false) := by decide +kernel

def mvBytes : List Byte := List.replicate 512 0
def reachSegs (o : Reach) : List Seg :=
  match o with
  | .ok segs => segs
  | _ => []
/-- The stage path: the weights asked for, on their way, and come; resident tiles about to be loaded, in the way of a later flip of
the tick, and loaded. -/
theorem witness_NodeMvm_stage :
    (let s := mvSt (mvO 1) []; let q := ((mvWalk s).2.setOp (fun o => { o with phase := 1 })).reach (sliceOf 0 0) 0 0 (2 ^ 37) 512 true false
      s.fetchOf (2 ^ 37) (.read 512) = none ∧ q.1 = .ok (reachSegs q.1)) ∧
    (∀ done ∈ [false, true], let s := { mvSt (mvO 1) [] with fetches := [{ fed (.node 0 0) (2 ^ 37) (.read 512) mvBytes with served := done }] };
      ∃ g, s.fetchOf (2 ^ 37) (.read 512) = some g ∧ s.fetched g = done) ∧
    (let s := mvSt (mvO 1) [] (fun r => r.setCell 0 { r.cell 0 with tags := [(5, 2), (6, 2)] }) 1;
      residentAll s.myRegion (mvN 1) 0 2 = true ∧ mvmTiles (mvN 1) = [5, 6] ∧
      (s.myRegion.cell 0).flipLate 0 (nodeFlipRank 0) 5 = false ∧ 512 ≤ (mvmTiles (mvN 1)).length * 4096) ∧
    (let s := mvSt (mvO 1) [] (fun r => r.setCell 0 { r.cell 0 with tags := [(5, 2), (6, 2)], flips := [(5, 0, slotFlipRank 0)] }) 1;
      residentAll s.myRegion (mvN 1) 0 2 = true ∧ (s.myRegion.cell 0).flipLate 0 (nodeFlipRank 0) 5 = true) ∧
    (let s := mvSt (mvO 1) [] (fun r => r.setCell 0 { r.cell 0 with tags := [(5, 3), (6, 3)] }) 1;
      residentAll s.myRegion (mvN 1) 0 3 = true) := by
  refine ⟨by decide +kernel, ?_, by decide +kernel, by decide +kernel, by decide +kernel⟩
  intro done _
  exact ⟨{ fed (.node 0 0) (2 ^ 37) (.read 512) mvBytes with served := done }, by cases done <;> decide +kernel, by cases done <;> decide +kernel⟩

/-- What keeps a call from its weights: no page, an entry that is not well formed, one that migrates; a right it lacks, an address
off its boundary, a page that holds no weights, and a range past the end of the address space. -/
def mvPage (bs : List Byte) : State := { mvSt (mvO 0) [] with mem := memSetList pages 0x4010 bs }
theorem witness_NodeMvm_stops :
    (mvWalk (mvPage [0])).1 = .invalid ∧ (mvWalk (mvPage [0x8F, 0x43])).1 = .malformed ∧ (mvWalk (mvPage [0, 0, 2])).1 = .migrating ∧
    (mvWalk { mvPage [0x8F, 0x03] with dies := [(0, { power := .dark })] }).1 = .dark 0x2000 ∧
    (let p := mvLeaf (mvPage [0x8B, 0x03]); (mvWalk (mvPage [0x8B, 0x03])).1 = .ok p.1 p.2 ∧ rights p.1 0 true false = some 0) ∧
    weightCheck .bf16 0 (2 ^ 37 + 1) 16 = 1 ∧
    (let p := mvLeaf (mvPage [0x0F]); (mvWalk (mvPage [0x0F])).1 = .ok p.1 p.2 ∧
      weightCheck (fmtOf (leafFmt p.1)) (leafGeom p.1) (2 ^ 37) 16 = 2) ∧
    2 ^ 56 < (2 ^ 56 - 2) + weightExtent .bf16 0 16 16 := by decide +kernel

def breaks : Issue → Bool
  | .viol _ _ => true
  | _ => false
/-- FLYP of a good and of a malformed command; WNGP giving a result, taking each half of a block, and a block that is refused. -/
def lanesOfWords (ws : List Word) : List Lane := ws.flatMap (fun w => [w.setWidth 32, w.extractLsb' 32 32])
theorem witness_NodePorts_engines :
    (let s := nodeSt (.flypN { ext := [0] }) {} [(0, [.data (lanesOfWords [flyW.w0, flyW.w1, flyW.w2])])] id; NodeReady s ∧
      flyMalformed s.myRegion 0 (cmdOfWords (wordsOfLanes (s.lanes 0))) = false ∧ s.leaveWaits 0 s.actor = false ∧
      s.myRegion.preceded 0 s.opsNamed = true ∧ s.queueRoom 0 = true ∧
      (s.askLeave 0 s.actor (leaveUnits (flyBytes (cmdOfWords (wordsOfLanes (s.lanes 0)))))).1 = true) ∧
    (let s := nodeSt (.flypN { ext := [0] }) {} [(0, [.data [0]])] id; flyMalformed s.myRegion 0 (cmdOfWords (wordsOfLanes (s.lanes 0))) = true) ∧
    (let s := nodeSt (.wngpN { ext := [0] }) { results := [(0, [.data [0]])] } [] id; Tab.get s.myNode.results s.myNode.op.m [] = [.data [0]] ∧
      s.myRegion.room (.entry 0 0) 1 = true) ∧
    (let s := nodeSt (.wngpN { ext := [0] }) {} [(0, [.data (lanesOfWords (redW.take 8))])] id;
      Tab.get s.myNode.results s.myNode.op.m [] = [] ∧ s.myNode.op.flag = false ∧ s.myRegion.outRoom 0 1 = true ∧
      ∃ a, s.myRegion.opHead 0 0 = some (.data a)) ∧
    (let s := nodeSt (.wngpN { ext := [0] }) { op := { flag := true, rows := [lanesOfWords (redW.take 8)] } }
        [(0, [.data (List.replicate 16 0)])] id;
      let b := wordsOfLanes (s.myNode.op.rows.headD []) ++ wordsOfLanes (s.lanes 0);
      s.leaveWaits 0 s.actor = false ∧ (s.myRegion.preceded 0 [0] && (s.myRegion.preOf 0).isEmpty) = true ∧
      s.blockFull s.myRegion (blkStack b) false b = false ∧ s.myRegion.outRoom 0 1 = true ∧
      queues (s.issueBlock 0 0 false 0 (blkStack b) false b s.actor 0 s.myNode.fire) = true ∧
      statusOf (s.issueBlock 0 0 false 0 0 false [] s.actor 0 s.myNode.fire) = 1) ∧
    (let s := { nodeSt (.wngpN { ext := [0] }) { op := { flag := true } } [(0, [.data []])] id with tenants := [(0, { tenantOf with stackMask := 0 })] };
      breaks (s.issueBlock 0 0 false 0 0 false redW s.actor 0 s.myNode.fire) = true) := by
  unfold NodeReady
  refine ⟨by decide +kernel, by decide +kernel, by decide +kernel, ⟨by decide +kernel, by decide +kernel, by decide +kernel, _, rfl⟩,
    by decide +kernel, by decide +kernel⟩

/-- What holds FLYP and WNGP: their leave, an access that precedes the token, a full queue, a full port, no token. -/
def portSt (i : Instr) (q : List FlyCmd) (f : Region → Region) : State :=
  { nodeSt i { op := { flag := true } } [(0, [.data (lanesOfWords [flyW.w0, flyW.w1, flyW.w2])])] f with flys := [(0, { q := q })] }
theorem witness_NodePorts_holds :
    ({ portSt (.flypN { ext := [0] }) [] id with dies := [(0, { leaveQ := [⟨.node 0 0, 0, 100, 0⟩] })] } : State).leaveWaits 0 (.node 0 0) = true ∧
    (let s := portSt (.flypN { ext := [0] }) [] (fun r => { r with
        accs := [{ id := 3, entry := 1 }], chans := r.chans.map (fun c => { c with pre := [[3]] }) });
      s.leaveWaits 0 s.actor = false ∧ s.myRegion.preceded 0 s.opsNamed = false ∧ s.myRegion.preceded 0 [0] = false) ∧
    (let s := portSt (.flypN { ext := [0] }) (List.replicate 16 lateF) id;
      s.leaveWaits 0 s.actor = false ∧ s.myRegion.preceded 0 s.opsNamed = true ∧ s.queueRoom 0 = false) ∧
    (let s := fullSt (.flypN { ext := [0] }) {} [(0, [.data (lanesOfWords [flyW.w0, flyW.w1, flyW.w2])])];
      s.myRegion.allData 0 s.opsNamed = true ∧ s.queueRoom 0 = true ∧ s.myRegion.outRoom 0 1 = false) ∧
    (let s := { portSt (.wngpN { ext := [0] }) [] id with wings := [(0, { qs := List.replicate 16 { cue := 0, vcell := 0, task := false, agent := 0 } })] };
      s.blockFull s.myRegion 0 false redW = true) ∧
    (let s := nodeSt (.wngpN { ext := [0] }) {} [(0, [])] id;
      s.myRegion.opHead 0 0 = none ∧ s.myRegion.allData 0 s.opsNamed = false) := by decide +kernel

/-- SENDN with and without its class; RECVN with a packet of its width and of another. -/
def rcvSt (ls : List Lane) : State := nodeSt (.recvnN {}) {} [] (fun r => { r with
  classes := [(0, { recvs := [.node 0], senders := [0], credits := [(0, 1)], queues := [(0, [(0, 9, .data ls)])] })] })
theorem witness_NodePorts_packets :
    (let s := nodeSt (.sendnN { cfg := 2 }) {} [(0, [.data [5]])] id; NodeReady s ∧ s.myTenant.classMask.getLsbD 2 = false) ∧
    (let s := nodeSt (.sendnN {}) {} [(0, [.data [5]])] (fun r => { r with
        classes := [(0, { recvs := [.slot 0 0], senders := [0], credits := [(0, 1)] })] });
      NodeReady s ∧ s.myTenant.classMask.getLsbD 0 = true ∧ s.classLeased 0 0 0 = false ∧ s.myRegion.preceded 0 s.opsNamed = true ∧
      s.hasQuota 0 0 (dataFlits 1) = true ∧ (∀ q ∈ s.myRegion.classDsts 0, 0 < (s.myRegion.cls 0).credit 0 q.recv) ∧
      s.portReady 0 0 0 (dataFlits 1) 0 = true) ∧
    (let s := nodeSt (.sendnN {}) {} [(0, [.data [5]])] (fun r => { r with
        classes := [(0, { recvs := [.slot 0 0], senders := [0] })], exchanges := [{ a := 0, b := 1 }] });
      s.classLeased 0 0 0 = true ∧ ({ s with regions := [(0, { s.region 0 with exchanges := [] })] } : State).classLeased 0 0 0 = false ∧
      s.portReady 0 0 0 (dataFlits 1) 0 = false) ∧
    (let s := nodeSt (.recvnN {}) {} [] id; (s.myRegion.recvNext {} 0).2 = none) ∧
    (let s := rcvSt [5]; s.myRegion.recvNext {} 0 = (0, some (0, 9, .data [5])) ∧ s.myNode.curt = false ∧ s.myNode.eos = false ∧
      ([5] : List Lane).length = 2 ^ (0 : BitVec 3).toNat ∧ s.myRegion.outRoom 0 1 = true) ∧
    (let s := rcvSt [5, 6]; s.myRegion.recvNext {} 0 = (0, some (0, 9, .data [5, 6])) ∧ ([5, 6] : List Lane).length ≠ 2 ^ (0 : BitVec 3).toNat) := by
  unfold NodeReady; decide +kernel

/-- A CFG token for this node of each kind and for another node; EOS and CURTAIN on every operand; EOS beside DATA. -/
theorem witness_NodeControl :
    (∀ k ∈ [0, 1, 2, 3], ∀ tgt ∈ [0, 7], let s := nodeSt (.addN {}) {} [(0, [.cfg k tgt [1]]), (1, [.data [1]])] id
      s.myRegion.outRoom 0 1 = true ∧ s.myRegion.opcode 0 ≠ 0x65 ∧ s.myRegion.opcode 0 ≠ 0x81 ∧ s.myRegion.drains 0 = false ∧ s.myRegion.cfgAt 0 = some 0 ∧
      s.myRegion.opHead 0 0 = some (.cfg k tgt [1]) ∧ s.myRegion.quiet 0 false = true) ∧
    (let s := nodeSt (.addN {}) {} [(0, [.eos]), (1, [.eos])] id; s.myRegion.opcode 0 = 0x11 ∧ s.opsNamed = [0, 1] ∧
      s.myRegion.opHead 0 0 = some .eos ∧ s.myRegion.opHead 0 1 = some .eos) ∧
    (let s := nodeSt (.addN {}) {} [(0, [.eos]), (1, [.data [1]])] id; s.myRegion.opHead 0 0 = some .eos ∧
      s.myRegion.opHead 0 1 = some (.data [1]) ∧ s.myRegion.freeze = none) ∧
    (let s := nodeSt (.carryN {}) {} [(0, [.eos]), (1, [])] id; s.myRegion.opcode 0 = 0x06 ∧ s.myRegion.quiet 0 false = true ∧
      s.myNode.eos = false ∧ s.myNode.op.flag = false ∧ s.myNode.op.held = none ∧ s.myRegion.opHead 0 0 = some .eos) ∧
    (∀ k ∈ [0, 1], let s := nodeSt (.wsumN { ext := [3] }) { op := { n := k, win := [] } } [(0, [.eos])] id;
      s.myRegion.opcode 0 = 0x55 ∧ s.myRegion.quiet 0 false = true ∧ s.opsNamed = [0] ∧ s.myRegion.opHead 0 0 = some .eos ∧
      s.myRegion.outRoom 0 2 = true ∧ s.myNode.op.n = k) ∧
    (let s := nodeSt (.sendnN {}) {} [(0, [.eos])] (fun r => { r with
        classes := [(0, { recvs := [.slot 0 0], senders := [0], credits := [(0, 1)] })] });
      s.myRegion.opcode 0 = 0xA4 ∧ s.myRegion.quiet 0 false = true ∧ s.opsNamed = [0] ∧ s.myRegion.opHead 0 0 = some .eos ∧
      s.myTenant.classMask.getLsbD 0 = true ∧ s.classLeased 0 (s.myRegion.entryCell 0) 0 = false ∧ s.hasQuota 0 0 1 = true ∧
      s.myRegion.classDsts 0 ≠ [] ∧ ∀ q ∈ s.myRegion.classDsts 0, 0 < (s.myRegion.cls 0).credit 0 q.recv) ∧
    (let s := nodeSt (.recvnN {}) {} [] (fun r => { r with
        classes := [(0, { recvs := [.node 0], senders := [0], credits := [(0, 1)], queues := [(0, [(0, 0, .eos)])] })] });
      s.myRegion.opcode 0 = 0xA5 ∧ s.myRegion.recvNext (s.myRegion.fields 0) 0 = (0, some (0, 0, .eos)) ∧ s.myNode.eos = false ∧
      s.myNode.curt = false ∧ s.myRegion.outRoom 0 1 = true) ∧
    (let s := nodeSt (.addN {}) {} [(0, [.curtain]), (1, [.curtain])] id; s.myRegion.quiet 0 true = true ∧
      s.myRegion.opHead 0 0 = some .curtain ∧ s.myRegion.opHead 0 1 = some .curtain) := by decide +kernel

/-- A CFG token on B, and an ORDER token on A. -/
theorem witness_NodeControl_forwards :
    (let s := nodeSt (.addN {}) {} [(0, [.data [1]]), (1, [.cfg 0 0 [1]])] id; s.myRegion.outRoom 0 1 = true ∧
      s.myRegion.drains 0 = false ∧ s.myRegion.cfgAt 0 = some 1 ∧ s.myRegion.opHead 0 1 = some (.cfg 0 0 [1]) ∧ s.myRegion.quiet 0 false = true) ∧
    (let s := nodeSt (.addN {}) {} [(0, [.order 2]), (1, [.data [1]])] id; s.myRegion.cfgAt 0 = some 0 ∧
      s.myRegion.opHead 0 0 = some (.order 2) ∧ s.myRegion.quiet 0 false = true) := by decide +kernel

/-- Operands 0 to k of a node hold EOS, and nothing of it is still in progress. -/
def endsSt (i : Instr) (nd : Node) (ks : List Nat) (f : Region → Region := id) : State := nodeSt i nd (ks.map (fun k => (k, [.eos]))) f
def ended (s : State) (opc : Nat) (ks : List Nat) : Bool :=
  s.myRegion.outRoom 0 1 && (s.myRegion.opcode 0 == opc && (s.myRegion.quiet 0 false && (s.opsNamed == ks &&
    ks.all (fun k => s.myRegion.opHead 0 k == some .eos))))

/-- SNK in buffer and ring mode with its store's request admitted; MERGE of each kind; INV with and without HOLD; TSEL; TSWAP; an LDS
in source mode. -/
theorem witness_NodeControl_ends :
    (∀ c ∈ [2, 0], let cnt := BitVec.ofNat 24 c; let s := endsSt (.snkN (edgeN cnt)) { fire := 1, op := { flag := true, n := 1 } } [0]
      ended s 0x03 [0] = true ∧ s.myRegion.fields 0 = edgeN cnt ∧
      reaches s { s.myRegion.newAcc (edgeN cnt) 0 .store with
        ptrs := [(0x8000, 8)], pages := 0, extra := true, closes := true, bytes := bytesOf 8 (2 ^ 63 + 1) } = true) ∧
    (ended (endsSt (.mergeN { ndt := 1 }) {} [0, 1]) 0x05 [0, 1] = true ∧ ended (endsSt (.mergeN {}) {} [0, 1, 2]) 0x05 [0, 1, 2] = true) ∧
    (∀ h ∈ ([none, some (.data [4])] : List (Option Token)), let s := endsSt (.invN {}) { op := { held := h } } [0, 1]
      ended s 0x07 [0, 1] = true ∧ s.myNode.op.held = h) ∧
    (ended (endsSt (.tselN {}) { op := { flag := true } } [0]) 0x90 [0] = true ∧ ended (endsSt (.tswapN {}) {} [0, 1]) 0x91 [0, 1] = true) ∧
    (let s := endsSt (.ldsN (memN 0)) {} [2]; ended s 0x60 [2] = true ∧ s.myNode.eos = false ∧
      orderNeeded 0x60 (s.myRegion.fields 0) s.myNode.fire = true) := by decide +kernel

/-- TFILL with its tile empty, in an engine's hands, flipped late in the tick, and part filled; CSUM of each mode, with a right and a
wrong reference. -/
theorem witness_NodeControl_closes :
    (let s := endsSt (.tfillN { ext := [5] }) {} [0]; ended s 0x67 [0] = true ∧ s.myNode.op.n = 0) ∧
    (let s := endsSt (.tfillN { ext := [5] }) { op := { n := 4 } } [0] (fun r => r.setCell 0 ((r.cell 0).setTag 5 2));
      ended s 0x67 [0] = true ∧ (s.myRegion.cell 0).tag 5 ≠ 0) ∧
    (let s := endsSt (.tfillN { ext := [5] }) { op := { n := 4 } } [0] (fun r => r.setCell 0 { r.cell 0 with flips := [(5, 0, slotFlipRank 0)] });
      ended s 0x67 [0] = true ∧ (s.myRegion.cell 0).flipLate s.cyc.toNat (nodeFlipRank 0) 5 = true) ∧
    (let s := endsSt (.tfillN { ext := [5] }) { op := { n := 4 } } [0]; ended s 0x67 [0] = true ∧ (s.myRegion.cell 0).tag 5 = 0 ∧
      (s.myRegion.cell 0).flipLate s.cyc.toNat (nodeFlipRank 0) 5 = false ∧ s.myRegion.outRoom 0 2 = true) ∧
    (∀ m ∈ [0, 0x10, 0x20], ∀ x ∈ ([.eos, .data [0]] : List Token),
      let s := nodeSt (.csumN { ext := [1], mod := BitVec.ofNat 8 m }) { op := { n := 1 } } [(0, [.eos]), (1, [x])] id
      s.myRegion.opcode 0 = 0xA1 ∧ s.myRegion.opHead 0 0 = some .eos ∧ s.myNode.op.n ≠ 0 ∧ s.myRegion.opHead 0 1 = some x) ∧
    (let o : OpSt := { n := 1 }; ((csumState o).1 ^^^ 0xFFFFFFFF = (csumState o).2 ^^^ 0xFFFFFFFF) ∧ (csumState o).1 ^^^ 0xFFFFFFFF ≠ 7) := by
  decide +kernel

/-! ### Hypotheses of the statements about commands -/

/-- The state of `taskSt` with window 1 bound to tenant 0, its cues and region 0 as given. -/
def cmdSt (cs : Tab Cue) (f : Region → Region) : State :=
  { taskSt (slotOf []) f with actor := .window 1, windows := [(1, { tenant := some 0 })], cues := cs }

/-- LAUNCH of cue 5 with PREDS 0 at the first and 2 at the second; NJREG and NSREG 1. -/
def lch (preds : Word) : Cmd := { w0 := 0x501 + preds * 0x100000000, w1 := 0x40, w2 := 0x10100 }

/-- A window that is BUSY and one that is not; a command of window 0 at another; a bit that no field holds; after a failed
FWLOAD; 64 bytes and 63. -/
theorem witness_CommandWindow :
    ({ cmdSt [] id with windows := [(1, { busy := some (.launchCmd 1 (lch 0)) })] }.win 1).isBusy = true ∧
    ((cmdSt [] id).win 1).isBusy = false ∧ ((cmdSt [] id).win 15).isBusy = false ∧ (cmdSt [] id).fwOnly = false ∧
    (0x10 ≤ bits (0x11 : Word) 7 0 ∧ bits (0x0F : Word) 7 0 < 0x10) ∧ bitsClear { w0 := 0x501, w7 := 0x1000 } launchBits = false ∧
    ({ cmdSt [] id with fwOnly := true }.fwOnly = true ∧ bits (0x18 : Word) 7 0 ≠ 0x19) ∧
    (List.replicate 63 (0 : Byte)).length ≠ 64 ∧ (List.replicate 64 (0 : Byte)).length = 64 := by decide +kernel

/-- LAUNCH and CUE of the last cue of a tenant's range with 1 successor, of the first beyond it, and of one that is not FREE. -/
theorem witness_CueCommands_launch :
    (let s := cmdSt [] id; let c : Cmd := { w0 := 0x701, w1 := 0x40, w2 := 0x10101, w3 := 7 };
      CmdReady s 1 c launchBits ∧ nsucc c = 1 ∧ succsClear c = true ∧ launchNsreg c = 1 ∧ launchNjreg c = 1 ∧ c.w1.toNat % 64 = 0 ∧
      (s.win 1).tenant = some 0 ∧ (∀ m ∈ cmdCue c :: succs c, (s.tenant 0).hasCue m = true) ∧ (s.cue 7).st = .free ∧
      (s.jobFor 0 (launchJob c) 1).njreg = 1 ∧ (s.jobFor 0 (launchJob c) 1).launched < 1) ∧
    (cmdSt [] id).tenant 0 = tenantOf ∧ tenantOf.hasCue 8 = false ∧
    ((cmdSt [(7, { st := .waiting })] id).cue 7).st ≠ .free := by unfold CmdReady; decide +kernel
theorem witness_CueCommands_cue :
    (∀ k ∈ [1, 2, 3], let c : Cmd := { w0 := BitVec.ofNat 64 (0x702 + k * 2 ^ 44), w1 := 0x2000, w2 := 1 }
      CmdReady (cmdSt [] id) 1 c cueBits ∧ cueKind c = k ∧ nsucc c = 1 ∧ succsClear c = true ∧ c.w1.toNat % 8 = 0 ∧
      winOf c.w1.toNat = 0 ∧ cueSplit c = 0 ∧ cueRecount c = 0) ∧
    (∀ n ∈ [0, 1, 2], let s := cmdSt [(7, { st := .waiting, count := n })] id; let c : Cmd := { w0 := 0x703 };
      CmdReady s 1 c [span 19 0] ∧ (s.win 1).tenant = some 0 ∧ (s.tenant 0).hasCue (cmdCue c) = true ∧ (s.cue 7).st ≠ .free ∧
      (s.cue 7).count = n) ∧
    (1 ≠ 0 ∧ (cmdSt [] id).tenant 0 = tenantOf ∧ tenantOf.hasCue (cmdCue { w0 := 0x803 }) = false) := by
  unfold CmdReady; decide +kernel

/-- CURTAIN and BLACKOUT of a running region, RESUME and RELEASE of a frozen one, RELEASE of a failed cue, and the refusals. -/
theorem witness_RegionCommands :
    (let s := cmdSt [(0, { st := .running })] id; let c : Cmd := { w0 := 0x004 };
      CmdReady s 1 c cmdBits ∧ cmdCue c = 0 ∧ MayName s 0 0 ∧ (s.win 1).tenant = some 0 ∧ (s.tenant 0).hasCue 0 = true ∧
      (s.cue 0).st = .running ∧ (s.region 0).freeze = none ∧ (s.region 0).curtain = false ∧ (s.cue 0).st ≠ .frozen ∧
      (s.tenant 0).hasCue 8 = false) ∧
    (let s := cmdSt [(0, { st := .frozen })] (fun r => { r with tkind := 1, frozen := true, tableau := some (0x100000, 0x100) });
      (s.cue 0).st = .frozen ∧ (s.die (s.region 0).die).power.dead = false ∧ s.tableauStale 0 = false ∧ (s.region 0).tkind ≠ 0 ∧
      (s.region 0).accs = [] ∧ (s.region 0).parkedFly = [] ∧ (s.region 0).parkedWings = [] ∧ (s.cue 0).st ≠ .running) ∧
    (let s := { cmdSt [(0, { st := .frozen })] (fun r => { r with tableau := some (0x100000, 0x100) }) with
        tenants := [(0, { tenantOf with tableaux := [(0x100000, 0x100, true, [], 0)] })] };
      s.tableauStale 0 = true) ∧
    ((cmdSt [(0, { st := .failed })] id).cue 0).st = .failed ∧
    ({ cmdSt [] id with dies := [(0, { power := .dark })] }.die 0).power.dead = true := by unfold CmdReady MayName; decide +kernel

/-- REPLACE at the last cell column and row, at a slice column, with a mask buffer; its conditions; the engine at work; and a
region of no node that fits no cell. -/
def rpl (mask : Word) : Cmd := { w0 := 0xBE400007, w1 := mask }
def frozenSt (f : Region → Region) : State := cmdSt [(0, { st := .frozen })] (fun r => f { r with frozen := true, tableau := some (0x100000, 0x100) })
def failOf (o : Except PlaceFail Region) : Bool :=
  match o with
  | .ok _ => false
  | .error _ => true
theorem witness_ReplaceCommand :
    (let s := frozenSt id; let c := rpl 0;
      CmdReady s 1 c replaceBits ∧ cellColumn (replaceX c) = true ∧ replaceY c ≤ 23 ∧ replaceY c = 23 ∧
      s.dieInRange 1 (replaceDie c) = true ∧ (s.cue 0).st = .frozen ∧ (s.region 0).tableau.isSome = true ∧
      (s.die (replaceDie c)).power.dead = false ∧ (s.tableauPower 0).dead = false ∧ s.tableauStale 0 = false ∧
      (s.die (replaceDie c)).placing = none) ∧
    cellColumn 8 = false ∧ cellColumn 26 = false ∧ cellColumn 25 = true ∧ hostBuf (12 * 2 ^ 36 - 72) 72 = true ∧ hostBuf (12 * 2 ^ 36 - 71) 72 = false ∧
    ({ frozenSt id with dies := [(0, { placing := some 3 })] }.die 0).placing.isSome = true ∧
    ({ frozenSt id with dies := [(1, { power := .dark })] } : State).inReach 0x3000100000 72 = false ∧
    ({ frozenSt id with dies := [(0, { power := .dark })] }.tableauPower 0).dead = true := by unfold CmdReady; decide +kernel

/-- UNLOAD of an object that a tableau pins and of one that none does; TLBINV; DEBUG of a region with and without a tableau, and
at each power; INCQ at the ends of its ranges; ATTEST. -/
theorem witness_ObjectCommands :
    (let s := { cmdSt [] id with tenants := [(0, { tenantOf with tableaux := [(0x100000, 0x100, false, [0x4000], 0)] })] };
      (s.win 1).tenant = some 0 ∧ CmdReady s 1 { w0 := 0x09, w1 := 0x4000 } unloadBits ∧
      (s.tenant 0).tableaux.any (fun p => p.2.2.2.1.contains 0x4000) = true ∧
      (s.tenant 0).tableaux.any (fun p => p.2.2.2.1.contains 0x5000) = false) ∧
    (((cmdSt [] id).win 2).tenant = none ∧ CmdReady (cmdSt [] id) 2 { w0 := 0x09, w1 := 0x4000 } unloadBits) ∧
    (CmdReady (cmdSt [] id) 1 { w0 := 0x0A, w1 := 0x10000, w2 := 0x10000 } [span 7 0, allBits, allBits] ∧ 0x10000 % 65536 = 0) ∧
    (let s := cmdSt [(0, { st := .frozen })] (fun r => { r with tableau := some (0x100000, 0x100) }); let c : Cmd := { w0 := 0x0B, w1 := 0xC0, w2 := 0x3000 };
      CmdReady s 1 c [span 19 0, allBits, allBits] ∧ hostBuf 0x3000 64 = true ∧ Tab.has s.regions 0 = true ∧ (s.debugPower 0 0xC0).dead = false ∧
      (s.region 0).tableau = some (0x100000, 0x100) ∧ 0xC0 + 64 ≤ 0x100) ∧
    (Tab.has (cmdSt [] id).regions 7 = false ∧ ({ cmdSt [] id with dies := [(0, { power := .off })] }.debugPower 0 0) = .off ∧
      ({ cmdSt [] id with dies := [(0, { power := .dark })] }.debugPower 0 0) = .dark) ∧
    (∀ lg ∈ [4, 20], CmdReady (cmdSt [] id) 1 { w0 := BitVec.ofNat 64 (0x0C + lg * 256), w1 := 0x40000 } [span 12 0, allBits] ∧
      bits (BitVec.ofNat 64 (0x0C + lg * 256)) 12 8 = lg ∧ hostBuf 0x40000 (64 + 64 * 2 ^ lg) = true) ∧
    (((cmdSt [] id).win 1).held = [] ∧ bits (0x030C : Word) 12 8 < 4 ∧ 20 < bits (0x150C : Word) 12 8) ∧
    (let s := cmdSt [(0, { st := .running })] id; CmdReady s 1 { w0 := 0x0D, w1 := 0x3000, w2 := 0x4000 } [span 19 0, allBits, allBits] ∧
      hostBuf 0x3000 32 = true ∧ hostBuf 0x4000 384 = true ∧ (s.cue 0).st = .running ∧ (s.cue 1).st ≠ .running ∧ (s.cue 1).st ≠ .frozen) := by
  unfold CmdReady; decide +kernel

theorem witness_ObjectCommands_tlbinv :
    (∀ p ∈ (cmdSt [] id).regions, ((cmdSt [] id).region p.1).translated = [] ∧ ((cmdSt [] id).region p.1).pend = []) ∧
    ∀ f ∈ (cmdSt [] id).fetches, f.served = true ∨ f.space ≠ 0 := by
  refine ⟨fun p h => ?_, fun f h => nomatch h⟩
  obtain rfl := List.mem_singleton.mp h
  decide +kernel

/-- Buffers in the stacks of die 1, in reach and not. -/
def farSt (p : Power) : State := { cmdSt [(0, { st := .running })] id with
  dies := [(1, { power := p })], tenants := [(0, { tenantOf with tableaux := [(0x3000100000, 0x100, false, [0x4000], 0)] })] }
theorem witness_PackageCommands_reach :
    (∀ n ∈ [8, 32, 64, 72, 384, 64 + 64 * 2 ^ 4], (farSt .full).inReach 0x3000100000 n = true ∧
      (farSt .dark).inReach 0x3000100000 n = false ∧ hostBuf 0x3000100000 n = true) ∧
    (farSt .off).inReach 0x3000100000 64 = false ∧ ((farSt .dark).debugPower 0 0).dead = false ∧ (farSt .dark).debugPower 0 0 ≠ .off ∧
    (farSt .dark).inReach (12 * 2 ^ 36 - 72) 72 = true ∧ (farSt .dark).inReach (2 ^ 51) 72 = true := by decide +kernel

/-- TENANT binding a second tenant, one whose cue is in use, a raised arena, and a class that another tenant holds. -/
def tenC (win arenaLen classes : Word) : Cmd :=
  { w0 := 0x0000020000200110 + win * 0x4000, w1 := 0x4000, w2 := 0xFFF000030 + classes * 0x100, w3 := 0x200000, w4 := arenaLen,
    w5 := 0x8000000000000 }
theorem witness_TenantCommands :
    (let s := cmdSt [] id; let c := tenC 2 0x10000 4; let new := bindingOf c (s.tenant (cmdTen c));
      cmdTen c = 1 ∧ tenantWin c = 2 ∧ CmdReady s 0 c tenantBits ∧ new.wellBound = true ∧ tenantOf.overlaps new = false ∧
      (s.tenant 1).bound = false ∧ (s.winOther 1 2).all (fun o => !s.tenantBusy o) = true) ∧
    (let s := cmdSt [] id; (bindingOf (tenC 2 0x10000 3) (s.tenant 1)).wellBound = true ∧
      tenantOf.overlaps (bindingOf (tenC 2 0x10000 3) (s.tenant 1)) = true ∧ (bindingOf (tenC 0 0x10000 4) (s.tenant 1)).wellBound = false) ∧
    (let t := bindingOf (tenC 2 0x10000 4) {}; let s := { cmdSt [(9, { st := .waiting, tenant := 1 })] id with tenants := [(1, t)] };
      s.tenantBusy 1 = true ∧ (s.tenant 1).bound = true ∧ (bindingOf (tenC 2 0x20000 4) t).raisedFrom t = true ∧
      (bindingOf (tenC 2 0x10000 4) t).raisedFrom t = false ∧ (bindingOf (tenC 2 0x20000 4) t).wellBound = true) ∧
    ((let s := cmdSt [(0, { st := .running })] id; s.winOther 1 1 = some 0 ∧ s.tenantBusy 0 = true)) ∧
    (CmdReady (cmdSt [] id) 0 { w0 := 0x11, w1 := 0xFFFFFFFFFF } [span 13 0, allBits] ∧ shareOk 0xFFFFFFFFFF = true ∧ shareOk 0x10000000000 = false ∧
      shareOk 0xFFFFFFFFFFFFFFFF = true) ∧
    (CmdReady (cmdSt [] id) 0 { w0 := 0x313, w1 := 0xFFFF } [span 9 0, span 15 0] ∧ CmdReady (cmdSt [] id) 0 { w0 := 0x14 } [span 9 0, span 15 0]) := by
  unfold CmdReady; decide +kernel

/-- SOUND of the last cell and the first number beyond; EVICT of the last unit and beyond; PODMAP; FWLOAD with and without a cue in
use; POWER to each state, with the trip set, and with a region on the die. -/
theorem witness_PackageCommands :
    (let s := cmdSt [] id; CmdReady s 0 { w0 := 0x023F0015 } soundBits ∧ bits (0x023F0015 : Word) 25 16 = 575 ∧ bits (0x02400015 : Word) 25 16 = 576 ∧
      hostBuf 0x3000 72 = true ∧ CmdReady s 0 { w0 := 0xB16, w1 := 5, w2 := 0x3000 } [span 11 0, allBits, allBits] ∧
      bits (0xB16 : Word) 11 8 = 11 ∧ bits (0xC16 : Word) 11 8 = 12 ∧ CmdReady s 0 { w0 := 0x3FF17, w1 := 5 } [span 17 0, allBits]) ∧
    (let s := cmdSt [] id; (s.win 0).isBusy = false ∧ bits (0x19 : Word) 7 0 = 0x19 ∧ bitsClear { w0 := 0x19, w1 := 0x3000, w2 := 64 } [span 7 0, allBits, allBits] = true ∧
      hostBuf 0x3000 64 = true ∧ s.cues = []) ∧
    (∃ p ∈ (cmdSt [(0, { st := .running })] id).cues, p.2.st ≠ .free) ∧
    (∀ j ∈ [0, 1, 2, 3, 4, 5, 6], CmdReady (cmdSt [] id) 0 { w0 := BitVec.ofNat 64 (0x12 + j * 2 ^ 12) } powerBits ∧
      bits (BitVec.ofNat 64 (0x12 + j * 2 ^ 12)) 14 12 = j) ∧
    ((cmdSt [] id).die 0).tripped = false ∧ ((cmdSt [] id).die 0).power = .full ∧ ((cmdSt [] id).die 0).power ≠ .even ∧
    ({ cmdSt [] id with dies := [(0, { tripped := true })] }.die 0).tripped = true ∧
    (cmdSt [] id).regions.map (fun p => p.2.die) = [0] := by unfold CmdReady; decide +kernel

/-- CHECKPOINT at an offset of 2 MiB, at one off its boundary, with a running cue, and with a die at OFF. -/
theorem witness_CheckpointCommands :
    (let s := cmdSt [(0, { st := .frozen })] id; CmdReady s 0 { w0 := 0x18, w1 := 0x200000 } ckptBits ∧
      0x200000 % 2 ^ 21 = 0 ∧ 0x200000 + portBytes ≤ 2 ^ 41 ∧ s.cues.map (fun p => p.2.st) = [.frozen] ∧
      s.dies.all (fun p => p.2.power != .off) = true) ∧
    0x100000 % 2 ^ 21 ≠ 0 ∧ (cmdSt [(0, { st := .running })] id).cues.map (fun p => p.2.st) = [.running] := by unfold CmdReady; decide +kernel
theorem witness_CheckpointCommands_mem : (cmdSt [] id).memOk := by unfold State.memOk; decide +kernel

/-- A die without a sound cell has no place for a region; one of a CONST is placed from anchor 0. -/
theorem witness_ReplaceCommand_fails :
    failOf (({ frozenSt (fun r => { r with entries := [.constN { ext := [5] }], cellOf := [(0, 0)] }) with
      dies := [(0, { sound := 0 })] } : State).replan 0 0 0 0) = true := by decide +kernel
theorem witness_ReplaceCommand_placed :
    failOf ((frozenSt (fun r => { r with entries := [.constN { ext := [5] }], cellOf := [(0, 0)] })).replan 0 0 0 0) = false := by
  decide +kernel

/-! ### Hypotheses of the statements about engines and events -/

/-- Engine 0 with one command: 64 bytes from 0x8000 to tile 5, which Fly owns, and what else is given. -/
def flySt (w : Cmd) (f : FlyCmd → FlyCmd) (more : Tab FlyEng) : State :=
  { taskSt (slotOf []) (fun r => r.setCell 0 ((r.cell 0).setTag 5 5)) with
    actor := .fly 0
    flys := (0, { q := [f { seq := 3, cue := 0, vcell := 0, task := true, agent := 0, own := true, c := w, promise := 0 }] }) :: more }
def segsR : Reach → List Seg
  | .ok segs => segs
  | _ => []
/-- The engine reaches n bytes at a pointer and its bucket gives. -/
def flyGoes (s : State) (f : FlyCmd) (p n : Nat) (wr : Bool) : Bool :=
  (s.flyReach f p n wr).1 == .ok (segsR (s.flyReach f p n wr).1) && ((s.flyReach f p n wr).2.draw 0 (.fly 0) [n]).1
def reachOk : Reach → Bool
  | .ok _ => true
  | _ => false
def headOf (s : State) : FlyCmd := ((s.fly 0).q.headD { seq := 0, cue := 0, vcell := 0, task := true, agent := 0, own := true, c := {}, promise := 0 })

theorem witness_FlyEngine :
    (let s := flySt flyW id []; s.actor = .fly 0 ∧ (s.fly 0).q = headOf s :: [] ∧ (headOf s).started = false ∧
      (s.die (0 / 16)).power.dead = false ∧ s.flyHeldBack 0 (headOf s) = false ∧ s.cyc.toNat ≤ (headOf s).made ∧
      (headOf s).made < ({ s with cyc := 1 } : State).cyc.toNat) ∧
    (let s := flySt flyW id [(1, { q := [{ seq := 1, cue := 0, vcell := 0, task := true, agent := 0, own := true, c := flyW, promise := 0 }] })];
      s.flyHeldBack 0 (headOf s) = true) ∧
    (let s := flySt flyW (fun f => { f with started := true }) []; (headOf s).started = true ∧ (headOf s).stopped = false ∧
      (headOf s).withheld = none ∧ (headOf s).done < flyBytes (headOf s).c ∧ (headOf s).piece = none ∧ flyGoes s (headOf s) 0x8000 64 false = true) ∧
    (let s := flySt flyW (fun f => { f with started := true, piece := some (List.replicate 64 7) }) [];
      (headOf s).piece = some (List.replicate 64 7) ∧ flyGoes s (headOf s) 0xF000000000005000 64 true = true) ∧
    (let s := flySt { flyW with w1 := 0x400000000000 } (fun f => { f with started := true }) [];
      (s.flyReach (headOf s) 0x400000000000 64 false).1 = .miss 0x400000000000 0) ∧
    (let s := flySt { flyW with w2 := 0xF000000000006000 } (fun f => { f with started := true }) [];
      (s.flyReach (headOf s) 0xF000000000006000 64 true).1 = .viol 6 2) ∧
    (let s := flySt { flyW with w6 := 0x8000 } (fun f => { f with started := true, done := 64 }) []; (headOf s).done = flyBytes (headOf s).c ∧
      (headOf s).piece = none ∧ (headOf s).flipped = false ∧ (headOf s).c.w6 ≠ 0 ∧ flyTiles (s.region 0) (headOf s).c = [5] ∧
      (s.region 0).flipsLate 0 0 [5] = false ∧
      ((s.region 0).setCell 0 { (s.region 0).cell 0 with flips := [(5, 0, slotFlipRank 0)] }).flipsLate 0 0 [5] = true ∧
      (let u := s.setRegion 0 ((s.region 0).flipTiles 0 0 [5]); reachOk (u.flagReach (sliceOf 0 0) 0 0 0x8000).1 = true)) := by decide +kernel

/-- A block of REDUCE, GATHER or MVM on engine e of stack 0, or waiting for it. -/
def wSt (e : Nat) (w : Option WBlk) (f : Wings → Wings) : State :=
  { taskSt (slotOf []) id with
    actor := .wings 0 e, wings := [(0, f { running := w.toList.map (fun w => (e, w)) })], mem := memSetList pages 0x4010 [0x8F, 0x03] }
def blk (ws : List Word) : WBlk := { cue := 0, vcell := 0, task := true, agent := 0, words := ws }
/-- GATHER of 2 elements of 4 bytes through a table of 3; MVM with K, N = 16 from the page of BF16 at 2^37. -/
def gatW (oob : Word) : List Word := [0x20003 + oob * 0x80000, 0, 0, 0x8000, 2, 0x9000, 4, 3, 0xA000, 0, 0, 0, 0, 0, 0, 0]
def mvmW (flag : Word) : List Word := [0x670001, flag, 7, 0x2000000000, 0x10000F000F, 0, 0, 0, 0, 0, 0, 0, 0, 0, 0, 0]
/-- Stack 0 reaches n bytes and its bucket gives. -/
def wGoes (s : State) (e va n : Nat) (wr : Bool) : Bool :=
  let p := s.reach (wingsUnit 0) 0 0 va n (!wr) wr
  reachOk p.1 && (p.2.draw 0 (.wings 0 e) [n]).1

theorem witness_WingsEngine_start :
    (let s := wSt 0 none (fun u => { u with qm := [blk (mvmW 0)] }); s.wingsStopped 0 = false ∧ Tab.has (s.wing 0).running 0 = false ∧
      (s.wing 0).qm = blk (mvmW 0) :: [] ∧ s.cyc.toNat ≤ (blk (mvmW 0)).made ∧
      (blk (mvmW 0)).made < ({ s with cyc := 1 } : State).cyc.toNat) ∧
    (let s := wSt 1 none (fun u => { u with qs := [blk (gatW 0), blk redW] }); (s.wing 0).qs = [blk (gatW 0)] ++ blk redW :: [] ∧
      blkOp redW = 2 ∧ blkOp (gatW 0) ≠ 2 ∧ [blk (gatW 0)].length < 16) ∧
    (let before := List.replicate 16 (blk (gatW 0)); let s := wSt 1 none (fun u => { u with qs := before ++ [blk redW] });
      (s.wing 0).qs = before ++ blk redW :: [] ∧ before.all (fun x => blkOp x.words != 2) = true ∧ 16 ≤ before.length) ∧
    (let s := wSt 3 none (fun u => { u with running := [(2, blk (gatW 0))], qs := [blk (gatW 0)] });
      Tab.has (s.wing 0).running 2 = true ∧ Tab.has (s.wing 0).running 3 = false ∧ blkOp (gatW 0) = 3) := by decide +kernel

theorem witness_WingsEngine_pieces :
    (let w := blk redW; let s := wSt 1 (some w) id; Tab.has (s.wing 0).running 1 = true ∧ Tab.get (s.wing 0).running 1 (blk []) = w ∧
      w.stopped = false ∧ w.withheld = none ∧ w.finished = false ∧ w.buf.length / 64 < redNbuf redW ∧ wGoes s 1 0xA000 64 false = true) ∧
    (let w := { blk redW with buf := List.replicate 64 1 }; let s := wSt 1 (some w) id;
      redNbuf redW ≤ w.buf.length / 64 ∧ wGoes s 1 0x9000 64 true = true) ∧
    (let s := wSt 2 (some (blk (gatW 0))) id; (blk (gatW 0)).pos % 16 = 0 ∧ (blk (gatW 0)).buf = [] ∧ wGoes s 2 0x8000 8 false = true) ∧
    (let w := { blk (gatW 0) with buf := [2, 0, 0, 0, 3, 0, 0, 0] }; let s := wSt 2 (some w) id;
      natOf ((w.buf.drop 0).take 4) < gatNidx (gatW 0) ∧ wGoes s 2 0x9008 4 false = true ∧ gatNidx (gatW 0) ≤ natOf ((w.buf.drop 4).take 4) ∧
      gatOob (gatW 0) = 0 ∧ gatOob (gatW 1) ≠ 0 ∧ wGoes s 2 0xA000 4 true = true ∧
      { w with held := some [1, 2, 3, 4] }.held = some [1, 2, 3, 4]) ∧
    (let s := wSt 0 (some (blk (mvmW 0))) id; (blk (mvmW 0)).geo = none ∧ reachOk (s.reach (wingsUnit 0) 0 0 0x2000000000 1 true false).1 = true ∧
      s.weightPage 0 0x2000000000 = some (.bf16, 0) ∧ weightCheck .bf16 0 0x2000000000 16 = 0 ∧ weightCheck .i32 0 0 16 ≠ 0 ∧
      s.mixedPage 0 0x2000000000 512 .bf16 0 = none) ∧
    (let w := { blk (mvmW 0) with pos := 1, geo := some (7, 0) }; let s := wSt 0 (some w) id; let ps := mvmPieces .bf16 0 (mvmW 0) false;
      ps[1]? = some (.w 0x2000000000 64) ∧ 1 < (ps.filter MvmPiece.reads).length ∧ wGoes s 0 0x2000000000 64 false = true ∧
      2 ^ 56 - 512 + weightExtent .bf16 0 16 16 = 2 ^ 56 ∧ 2 ^ 56 < 2 ^ 56 - 448 + weightExtent .bf16 0 16 16) ∧
    (let w := { blk (mvmW 0) with call := true, geo := some (7, 0) }; let s := wSt 0 (some w) id;
      ((mvmPieces .bf16 0 (mvmW 0) true).filter MvmPiece.reads).length = 8 ∧
      reachOk (s.reach (wingsUnit 0) 0 0 0x2000000000 512 true false).1 = true) := by decide +kernel
/-- The tile pieces of an MVM: X is read first, Y written last. -/
theorem witness_WingsEngine_tiles :
    let s := { wSt 0 (some { blk (mvmW 0) with geo := some (7, 0) }) id with regions := [(0, { (taskSt (slotOf []) id).region 0 with
      cells := [(0, { tags := (List.range 32).map (fun k => (k, 7)) })] })] };
    let ps := mvmPieces .bf16 0 (mvmW 0) false;
    let ins := (ps.filter MvmPiece.reads).length;
    (match (ps[0]? : Option MvmPiece) with
      | some (.x a m) => reachOk (s.tileReach (s.region 0) 0 a m 3)
      | _ => false) = true ∧
    (match (ps[ins]? : Option MvmPiece) with
      | some (.y a m) => reachOk (s.tileReach (s.region 0) 0 a m 3)
      | _ => false) = true := by decide +kernel

/-- A block whose work is done: with a flag, and one that ended with a status. -/
theorem witness_WingsEngine_end :
    (let w := { blk (mvmW 0x8000) with finished := true }; let s := wSt 0 (some w) id; w.finished = true ∧ w.flipped = false ∧ w.call = false ∧
      blkW (mvmW 0x8000) 1 ≠ 0 ∧ w.status = 0 ∧ (s.region 0).flipsLate 0 0 (blkTiles (mvmW 0x8000)) = false ∧
      ((s.region 0).setCell 0 { (s.region 0).cell 0 with flips := (blkTiles (mvmW 0x8000)).map (fun k => (k, 0, slotFlipRank 0)) }).flipsLate 0 0
        (blkTiles (mvmW 0x8000)) = true ∧
      reachOk ((s.setRegion 0 ((s.region 0).flipTiles 0 0 (blkTiles (mvmW 0x8000)))).flagReach (wingsUnit 0) 0 0 0x8000).1 = true) ∧
    { blk redW with finished := true, status := 5 }.status ≠ 0 := by decide +kernel

/-- A walk to a leaf and to none; a copy; a governor that can grant one of two requests; host accesses at the ends of HBM and beyond;
an incident held by a ring with room. -/
def leafOf : Walk → Bool
  | .leaf _ _ _ => true
  | _ => false
theorem witness_MemoryAtWork_events :
    (let s := { taskSt (slotOf []) id with actor := .walk 0 0 0x8000 true }; s.actor = .walk 0 0 0x8000 true ∧
      s.tlb.find? (fun x => x.hits 0 0 0x8000 && (!true || x.dirty)) = none ∧ leafOf (walk s 0 0x8000) = true ∧ walk s 0 0x400000000000 = .invalid) ∧
    (let s := { taskSt (slotOf []) (fun r => r.setCell 0 { r.cell 0 with tloads := [⟨2, 1, [1, 2], 0⟩] }) with actor := .tload 0 0 2 };
      ((s.region 0).cell 0).tloads.find? (fun y => y.slot == 2) = some ⟨2, 1, [1, 2], 0⟩) ∧
    (let s := { taskSt (slotOf []) id with actor := .die 0, dies := [(0, { left := 5, leaveQ := [{ who := .node 0 0, units := 4 }, { who := .node 0 1, units := 4 }] })] };
      (s.die 0).leaveQ.length = 2) ∧
    hostRange (12 * 2 ^ 36 - 8) 8 = true ∧ hostRange (12 * 2 ^ 36 - 7) 8 = false ∧ hostRange (2 ^ 51) 8 = true ∧ hostRange (2 ^ 52) 1 = false ∧
    (sA.hbmReady 0x8000 8 = true ∧ { sA with dies := [(0, { power := .dark })] }.hbmReady 0x8000 8 = false) ∧
    (let s := { taskSt (slotOf []) id with actor := .window 1, windows := [(1, { ring := some (0x3000, 4), held := [{}] })] };
      (s.win 1).held = [{}] ∧ (s.win 1).ring = some (0x3000, 4) ∧ s.ringRoom (s.win 1) = true) := by decide +kernel

/-- An eviction in progress whose page is at rest or in use; an evictor that may begin, and one that is stuck. -/
def evSt (u : Wings) (f : Region → Region) : State := { taskSt (slotOf []) f with actor := .wings 0 0, wings := [(0, u)] }
theorem witness_MemoryAtWork_evictions :
    (let s := evSt { evicting := some (0, 0x4000, 0, 0x10000, 2 ^ 48) } id; s.wingsStopped 0 = false ∧ s.pageInUse 0x10000 = false) ∧
    (let s := evSt {} (fun r => { r with accs := [{ segs := [[⟨0x1FFFC, 4, none⟩]] }] }); s.pageInUse 0x10000 = true) ∧
    (let s := evSt { evlow := 1 } id; (s.wing 0).evicting = none ∧ s.wingsStopped 0 = false ∧ (s.wing 0).evlow ≠ 0 ∧ (s.wing 0).stuck = false) ∧
    (evSt { evlow := 1, stuck := true } id |>.wing 0).stuck = true := by decide +kernel

/-- TICK with a node that fired, one that did not and one in a frozen cell, and one whose copy's counter stands at its highest value;
a frame boundary with LEAVE waiting. -/
theorem witness_TimeEvents :
    (let s := nodeSt (.addN {}) { cleared := [(0, 6)], elems := [(0, { stall := Vector.ofFn (fun _ => 0xFFFF) })] } [(0, [.data [5]])]
        (fun r => r.setCell 0 { slots := [(0, { slotOf [] with st := .idle })] });
      ((s.region 0).node 0).cleared = [(0, 6)] ∧ (((s.region 0).node 0).elem 0).stall.get 6 = 0xFFFF ∧ s.due = [] ∧ s.issueOwed = false ∧ s.tenants.all (fun p => p.2.asks.isEmpty) = true ∧ (s.region 0).accs = [] ∧ Tab.has s.regions 0 = true ∧ (s.region 0).started = true ∧ (s.die 0).power.running = true ∧
      Tab.has (s.region 0).nodes 0 = true ∧ ((s.region 0).cell ((s.region 0).vcellOf 0)).frozen = false ∧ ((s.region 0).node 0).fired = false) ∧
    (nodeSt (.addN {}) { fired := true } [] id |>.myNode).fired = true ∧
    (let s := nodeSt (.addN {}) {} [] (fun r => r.setCell 0 { r.cell 0 with frozen := true });
      ((s.region 0).cell ((s.region 0).vcellOf 0)).frozen = true) ∧
    (let s := { taskSt (slotOf []) (fun r => { r with started := false }) with
        cyc := 1024, windows := [(0, { busy := some (.leaveCmd 0 {}) })], dies := [(0, { lbPending := some 7 })],
        tenants := [(0, { tenantOf with share := 5, demand := true, bkt := 3 })] };
      s.cyc.toNat % 1024 = 0 ∧ s.framed ≠ s.cyc.toNat / 1024 ∧ s.regions.all (fun p => !p.2.started) = true ∧
      s.tenants.all (fun p => p.2.sharePending.isNone) = true ∧ s.windows.map (fun p => p.1) = [0] ∧ (s.win 0).busy = some (.leaveCmd 0 {}) ∧ Tab.has s.dies 0 = true ∧
      Tab.has s.tenants 0 = true ∧ (s.tenant 0).waiters = [] ∧ (s.tenant 0).share ≠ 2 ^ 64 - 1) ∧
    (sA.issueOwed = true ∧ (taskSt { slotOf [] with st := .idle } id).issueOwed = false) ∧
    ({ sA with cyc := 1 }.cyc.toNat % 1024 ≠ 0 ∧ { sA with due := [(.tick, .none)] }.due ≠ []) := by decide +kernel

/-- A packet at the head of its port with and without quota, in the network at a place, and at its last tick. -/
def pkt (f : Packet → Packet) : Packet := f {
  id := 2, cue := 0, plane := 0, kind := 0, len := 1, ten := 0, cls := 0, lanes := [7], srcDie := 0, srcSite := 0, srcCell := 0
  dsts := [{ recv := 0, die := 0, site := 3 }] }
def netSt (f : Packet → Packet) (who : Actor) : State :=
  { taskSt (slotOf []) (fun r => { r with classes := [(0, { recvs := [.slot 0 0], senders := [0] })] }) with
    actor := who, cyc := 5, packets := [pkt f] }

/-- A port where a packet longer than FQ waits. -/
theorem witness_TimeEvents_kept :
    (∀ p ∈ sA.packets, p.len ≤ (sA.die p.srcDie).fq) ∧
    (let s := { netSt (fun p => { p with len := 3 }) .none with dies := [(0, { fqPending := some 2 })] }
      let p := pkt (fun p => { p with len := 3 })
      s.packets = [p] ∧ p.plane = 0 ∧ p.injected = false ∧ s.portHead p = true ∧ s.injectHeld p = false ∧ (s.die 0).fqPending = some 2) := by
  decide +kernel

/-- Each stop of a region: at its limits and below them; a wave that has and has not reached its cell; a readout. -/
def stopSt (f : Region → Region) : State := { taskSt (slotOf []) f with actor := .region 0 }
theorem witness_StopEvents :
    (let s := stopSt (fun r => { r with holdCount := 4, accs := [{ withheld := some (0x8000, 0) }] }); (s.region 0).freeze = none ∧
      (s.region 0).started = true ∧ s.withheldList 0 ≠ [] ∧ (s.region 0).fhold ≤ (s.region 0).holdCount) ∧
    (stopSt (fun r => { r with holdCount := 3 }) |>.region 0).holdCount < (stopSt id |>.region 0).fhold ∧
    (let s := stopSt (fun r => { r with curtain := true, curtFrames := 4 }); (s.region 0).curtain = true ∧ (s.region 0).hold ≤ (s.region 0).curtFrames ∧
      s.curtainDone 0 = false ∧ (s.region 0).freeze = none) ∧
    (let s := stopSt (fun r => { r with curtain := true, cells := [(0, {})] }); s.curtainDone 0 = true) ∧
    (let s := stopSt (fun r => { r with freeze := some ⟨0, 0, 1, {}⟩ }); (s.region 0).frozen = false ∧ s.atRest 0 = false) ∧
    (let s := stopSt (fun r => { r with freeze := some ⟨0, 0, 1, {}⟩, cells := [(0, { frozen := true })] }); s.atRest 0 = true ∧
      (s.region 0).tableau = none) ∧
    (let s := { stopSt (fun r => { r with freeze := some ⟨0, 0, 1, {}⟩, cells := [(0, { frozen := true })] }) with
        tenants := [(0, { tenantOf with arena := 0x100000, arenaLen := 0x100000 })], dies := [(0, { power := .dark })] };
      s.atRest 0 = true ∧ s.inReach 0x100000 72 = false) ∧
    (let s := { stopSt (fun r => { r with freeze := some ⟨3, 0, 1, {}⟩ }) with actor := .cell 0 0, cyc := 3 }; 0 < (s.region 0).ncells ∧
      ((s.region 0).cell 0).frozen = false ∧ 3 + siteDist ((s.region 0).cell 0).site ((s.region 0).cell 0).site ≤ s.cyc.toNat ∧
      2 < 3 + siteDist 0 0) := by decide +kernel

/-- A swap instant; a pair that has settled; a commit of cell 0 from site 0 to site 1; routing again; a lease that may end, and one
frame too early. -/
def crossSt (cyc : Word) (xs : List Exchange) : State :=
  { stopSt (fun r => { r with launch := (launchOf.set 0 0x20000000).set 5 1, exchanges := xs }) with cyc := cyc }
theorem witness_CrossingEvents :
    (let s := crossSt 1024 []; s.actor = .region 0 ∧ (s.region 0).atInstant s.cyc.toNat = true ∧ (s.die 0).power ≠ .dark ∧ (s.region 0).freeze = none) ∧
    (crossSt 1025 [] |>.region 0).atInstant 1025 = false ∧
    (({ crossSt 1024 [] with dies := [(0, { instantMark := 1 })] } : State).die 0).instantMark = 1024 / 1024 ∧
    ((crossSt 1024 []).die 0).instantMark ≠ 1024 / 1024 ∧
    (let x : Exchange := { a := 0, b := 1, va := some 0 }; let s := crossSt 9 [x]; x.stage = 0 ∧ s.pairSettled 0 x = true ∧
      (s.region 0).pairStopped x = true) ∧
    (let x : Exchange := { a := 0, b := 1, va := some 0, stage := 1, finish := 9 }; let s := crossSt 9 [x];
      (s.region 0).exchanges.filter (fun x => x.stage == 1 && decide (x.finish ≤ s.cyc.toNat)) = [x] ∧ x.va ≠ x.vb ∧ x.a ≠ x.b ∧ x.b < 576 ∧
      (s.region 0).die < 4 ∧ s.mem.wf = true) ∧
    ((crossSt 9 []).die 0).placing = none ∧ ({ crossSt 9 [] with dies := [(0, { placing := some 1 })] }.die 0).placing.isSome = true ∧
    (let x : Exchange := { a := 0, b := 1, va := some 0, stage := 2, finish := 1024 }; let s := crossSt 3072 [x];
      s.cyc.toNat % 1024 = 0 ∧ (s.region 0).exchanges = [x] ∧ x.stage = 2 ∧ x.leaseOver = false ∧ x.finish + 2048 ≤ s.cyc.toNat ∧
      s.unanswered 0 x = false ∧ 2048 < x.finish + 2048) := by decide +kernel

/-- A READY control cue of each kind, with ITER below its word and not, and a cue it releases at each count. -/
def ctlSt (kind iter : Nat) : State :=
  { cmdSt [(3, { st := .ready, kind := kind, succ := [4, 5, 6], split := 1, addr := 0x2000, iter := iter }), (4, { st := .waiting, count := 1 }),
      (5, { st := .waiting, count := 2 }), (6, { st := .waiting })] id with actor := .cue 3, readyQ := [3] }
theorem witness_ControlCues :
    (∀ k ∈ [1, 2, 3], let s := ctlSt k 0
      s.actor = .cue 3 ∧ s.nextControl = some 3 ∧ (s.cue 3).st = .ready ∧ (s.cue 3).kind = k ∧ (s.cue 3).succ = [4, 5, 6] ∧ (s.cue 3).rearm = false ∧
      (s.cue 4).count = 1 ∧ (s.cue 5).count = 2 ∧ (s.cue 6).count = 0 ∧ (s.cue 4).st ≠ .free) ∧
    (let s := ctlSt 2 0; let p := s.reach schedulerUnit 0 0 0x2000 8 true false; reachOk p.1 = true ∧ 3 ∉ (s.cue 3).succ ∧
      natOf (p.2.readSegs (segsR p.1)) = 0x4001) ∧ (ctlSt 2 0x4001 |>.cue 3).iter = 0x4001 := by decide +kernel
/-- A word on no page, on a page that migrates, and on one that the tenant may not read. -/
theorem witness_ControlCues_misses :
    let s := { ctlSt 1 0 with mem := pages ++ [(0x4018, 0x0E), (0x401A, 0x02), (0x4020, 0x0B)] };
    (s.reach schedulerUnit 0 0 0x400000000000 8 true false).1 = .miss 0x400000000000 0 ∧
    (s.reach schedulerUnit 0 0 0x3000000000 8 true false).1 = .miss 0x3000000000 2 ∧
    (s.reach schedulerUnit 0 0 0x4000000000 8 true false).1 = .viol 0x4000000000 0 := by decide +kernel

/-- A graph cue whose engine is free; a placed region about to start; a region that has completed, in its two ticks, and one that
has not. -/
theorem witness_RegionLife :
    (let s := { cmdSt [(3, { st := .ready, lrec := 0x8000 })] id with actor := .cue 3, readyQ := [3] };
      s.launchDie 3 = 0 ∧ s.nextGraph 0 = some 3 ∧ (s.cue 3).st = .ready ∧ (s.die 0).placing = none ∧ (s.die 0).power.dead = false) ∧
    (let s := { cmdSt [(0, { st := .placing })] (fun r => { r with started := false }) with actor := .region 0, dies := [(0, { placing := some 0 })] };
      (s.cue 0).st = .placing ∧ (s.region 0).started = false ∧ (s.die 0).placing = some 0 ∧ (s.win 1).busy = none) ∧
    (let s := stopSt (fun r => { r with cells := [(0, { slots := [(0, { slotOf [] with st := .idle, ended := true, endedOnce := true })] })] });
      s.completes 0 = true ∧ (s.region 0).isDone = false ∧ (s.region 0).cells.any (fun p => !p.2.slots.isEmpty) = true) ∧
    (let s := stopSt (fun r => { r with cells := [(0, { slots := [(0, { slotOf [] with st := .done, ended := true, endedOnce := true })] })] });
      s.completes 0 = true ∧ (s.region 0).isDone = true ∧ (s.cue 0).succ = []) ∧
    (stopSt id).completes 0 = false := by decide +kernel

/-- A launch record at 0x8000 of one entry, at 0x8080, and the given words there and in word k of the record. -/
def recWords : List Word := [1, 0x8080, 0x00100808000014A6, 0x0000000100000001, 0, 64, 0x0101, 0, 0, 0, 0, 0, 0, 0, 0, 0]
def scriptSt (rec es : List Word) : State :=
  { cmdSt [(3, { st := .ready, lrec := 0x8000, njreg := 1, nsreg := 1 })] id with
    actor := .cue 3, readyQ := [3], mem := memSetList (memSetList pages 0x8000 (rec.flatMap (leBytes 8))) 0x8080 (es.flatMap (leBytes 8)) }
def placingSt (s : State) : State := { s with readyQ := s.readyQ.erase 3 : State }.moveCue 3 .placing .word0
/-- What a reading answers, and that it answers. -/
def isOk {ε α : Type} (p : Except ε α × State) (P : α → State → Bool) : Bool := match p with
  | (.ok a, u) => P a u
  | _ => false
theorem isOk_spec {ε α : Type} {p : Except ε α × State} {P : α → State → Bool} (h : isOk p P = true) :
    ∃ a u, p = (.ok a, u) ∧ P a u = true := by
  unfold isOk at h
  split at h
  · exact ⟨_, _, rfl, h⟩
  · exact absurd h Bool.false_ne_true
def regionRead (ws : List Word) : Region := { tenant := 0, die := bits (wordAt ws 0) 18 17, launch := ws, lrec := 0x8000 }
/-- The record of `scriptSt` reads and is well formed, its script reads, and P holds of the two. -/
def scriptRead (s : State) (P : Region → List (List Word) → Bool) : Bool :=
  isOk ((placingSt s).readWords 0 0 0x8000 16) (fun ws u => checkLaunch ws == none &&
    isOk (u.readEntries 0 (regionRead ws).die (regionRead ws).nent 0 ((regionRead ws).lw 1).toNat []) (fun es v =>
      isOk (v.readList 0 0 0 0 4 0x18) (fun _ v => isOk (v.readList 0 0 0 0 1 0x1C) (fun _ v =>
        isOk (v.readList 0 0 0 0 2 0x1A) (fun _ v => isOk (v.readList 0 0 0 (regionRead ws).ncode 4 0x1B) (fun cd _ =>
          P { regionRead ws with codeRecs := cd, image := es.flatten, entries := entriesOf es } es))))))
def constWords : List Word := [0x0001840000000000, 1, 5]

/-- A record and a script that break no rule, and then a code record that does; a script of an opcode that is not assigned, and one of
an ADD whose operands lead out of it; a record with an HOLD of 0. -/
theorem witness_RegionLife_script :
    (let s := scriptSt recWords constWords; s.actor = .cue 3 ∧ (s.cue 3).st = .ready ∧ s.launchDie 3 = 0 ∧ s.nextGraph 0 = some 3 ∧
      (s.die 0).placing = none ∧ (s.die 0).power.dead = false) ∧
    scriptRead (scriptSt recWords constWords) (fun r es => r.checkScript es == none) = true ∧
    scriptRead (scriptSt recWords [0xFF00000000000000, 0]) (fun r es => (r.checkScript es).map (fun p => p.code) == some 1) = true ∧
    scriptRead (scriptSt recWords [0x1101A40000000000, 0x0000100002000000]) (fun r es => (r.checkScript es).isSome) = true ∧
    isOk ((placingSt (scriptSt (recWords.set 3 0) constWords)).readWords 0 0 0x8000 16) (fun ws _ => (checkLaunch ws).isSome) = true ∧
    scriptRead (scriptSt ((recWords.set 9 0x100000000).set 11 0x8100) constWords) (fun r es =>
      r.checkScript es == none && (r.checkRecords 4).isSome) = true := by decide +kernel
/-- The words of CONST, and of ADD, each with one field that rejects it: REP, WID 5, RATE 0 and 17, NDT, ORD, RES, SCOPE, bits 63:62,
an extension count, a port without a distance, a required operand that is absent. -/
theorem witness_RegionLife_script_fields :
    (let n := entryFields 0x0001840000000000 1 [5]; nodeRow 0x01 = some ⟨.absent, .absent, .absent, 0, 1, false⟩ ∧
      n.repm1 = 0 ∧ n.wid.toNat ≤ 4 ∧ n.rate = 16 ∧ n.ext.length = 1) ∧
    (entryFields 0x0005840000000000 1 []).repm1 ≠ 0 ∧ 4 < (entryFields 0x0001AC0000000000 1 []).wid.toNat ∧
    (entryFields 0x0001800000000000 1 []).rate = 0 ∧ 16 < (entryFields 0x0001844000000000 1 []).rate.toNat ∧
    (entryFields 0x0001842000000000 1 []).ndt = 1 ∧ (entryFields 0x0001841000000000 1 []).ord = 1 ∧
    (entryFields 0x0001840800000000 1 []).res = 1 ∧ (entryFields 0x0001840100000000 1 []).scope ≠ 0 ∧
    (0x4000000000000000 : Word).toNat / 2 ^ 62 ≠ 0 ∧ 1 < (entryFields 0 2 [5, 6]).ext.length ∧
    (let q := (entryFields 0 (1 <<< 42) []).sa; q.dist = 0 ∧ q.port ≠ 0) ∧ 0 < (entryFields 0 (1 <<< 44) []).sa.dist.toNat ∧
    (opUse 0x11 (entryFields 0x1101A40000000000 0 []) 0 = .required ∧ ({} : Region).taskEnds 0 0 = []) := by decide +kernel
/-- The success of a placement: the launch is taken and planned. -/
theorem witness_RegionLife_placed :
    isOk ((placingSt (scriptSt recWords constWords)).takeLaunch 3) (fun x v =>
      match v.plan 3 x with
      | .ok y => decide (0 < y.ncells)
      | .error _ => false) = true := by decide +kernel

def hop0 : PktHop := { ring := siteRing 0 0, stop := siteStop 0, vc := 0, origin := 1, arrive := 3 }
theorem witness_NetworkEvents_ports :
    (let s := netSt id (.packet 2); s.packets.find? (fun q => q.id == 2) = some (pkt id) ∧ (pkt id).injected = false ∧ s.portHead (pkt id) = true ∧
      s.injectHeld (pkt id) = false ∧ s.portUsed (pkt id) 5 = false ∧ s.bufferRoom 0 (siteRing 0 0) (siteStop 0) 0 5 8 1 = true ∧ (pkt id).len ≤ (s.die 0).fq ∧
      (s.pcell 0 0).used + 1 ≤ (s.die 0).fq) ∧
    (let s := { netSt id (.packet 2) with packets := [pkt id, pkt (fun p => { p with id := 3, hops := [{ ring := 0, stop := 0, vc := 0, origin := 1, arrive := 5 }] })] };
      s.portUsed (pkt id) 5 = true) ∧
    (let s := { netSt (fun p => { p with long := true }) (.packet 2) with dies := [(0, { fq := 0 })] }; (s.die 0).fq < (pkt id).len ∧
      s.packets.map (fun p => p.long) = [true]) ∧
    (let s := { netSt id (.packet 2) with pcells := [(0, { used := 2048 })] }; (s.die 0).fq < (s.pcell 0 0).used + 1 ∧ (pkt id).long = false) ∧
    (let p := pkt (fun p => { p with injected := true, arrives := some 5 }); p.arrives = some 5 ∧ 5 ≤ (netSt id (.packet 2)).cyc.toNat ∧
      p.taken = false ∧ Tab.has (netSt id (.packet 2)).regions 0 = true ∧ p.dsts.map (fun x => x.recv) = [0] ∧
      (((netSt id (.packet 2)).region 0).cls 0).recvs[0]? = some (.slot 0 0) ∧
      (∀ v ∈ (((netSt id (.packet 2)).region 0).cls 0).senders, v = p.srcCell) ∧
      ¬∀ v ∈ ([0, 1] : List Nat), v = p.srcCell ∨ (0, v, 1) ∈ ([] : List (Nat × Nat × Nat))) := by decide +kernel
/-- One packet at a stop: it goes on; it keeps back for another that leaves by its ejection port. -/
def hopSt (ps : List Packet) : State := { netSt id (.stop 0 (siteRing 0 0) (siteStop 0)) with packets := ps }
def ejP (n site : Nat) (h : PktHop) : Packet := pkt (fun p => { p with
  id := n, injected := true, hops := [h], dsts := [{ recv := 0, die := 0, site := site }] })
theorem witness_NetworkEvents_stops :
    (let s := hopSt [ejP 2 3 hop0]; (s.candidates 0 (siteRing 0 0) (siteStop 0) 5).map (fun q => (q.packet.id, q.hop, q.parts.length)) = [(2, hop0, 1)] ∧
      (s.candidates 0 (siteRing 0 0) (siteStop 0) 5).any (fun q => s.yields q 5) = false) ∧
    (let s := hopSt [ejP 2 1 hop0, ejP 3 1 { hop0 with stop := siteStop 1, origin := 0 }];
      (s.candidates 0 (siteRing 0 0) (siteStop 0) 5).map (fun q => q.packet.id) = [2] ∧
      (s.candidates 0 (siteRing 0 0) (siteStop 0) 5).all (fun q => s.yields q 5) = true) ∧
    (hopSt []).candidates 0 (siteRing 0 0) (siteStop 0) 5 = [] := by decide +kernel

/-- Transitions by one step and by more; a die that a running cue keeps from DARK; a trip; errors of each kind. -/
theorem witness_PowerEvents :
    (let s := { sA with actor := .die 0, dies := [(0, { target := some .low, moving := true })] }; (s.die 0).target = some .low ∧ (s.die 0).moving = true ∧
      s.mayEnter 0 .low = true ∧ powerStep (s.die 0).power .low ≠ .low ∧ powerStep .even .low = .low) ∧
    (let s := { cmdSt [] id with regions := [], actor := .die 0, dies := [(0, { power := .dark, target := some .off, moving := true })] };
      (s.die 0).target = some .off ∧ s.mayEnter 0 .off = true ∧ powerStep (s.die 0).power .off = .off) ∧
    (let s := { cmdSt [(0, { st := .running })] id with actor := .die 0, dies := [(0, { target := some .dark, moving := true })] };
      Tab.has s.regions 0 = true ∧ (s.region 0).die = 0 ∧ (s.cue 0).st = .running ∧ (s.die 0).target = some .dark) ∧
    (let s := { sA with windows := [(0, { busy := some (.powerDarkCmd 0 { w0 := 0x4012 }) })] };
      (s.win 0).busy = some (.powerDarkCmd 0 { w0 := 0x4012 }) ∧ cmdDie { w0 := 0x4012 } = 0) ∧
    ((sA.die 0).tripped = false ∧ ({ sA with dies := [(0, { tripped := true })] }.die 0).tripped = true) ∧
    (let s := { sA with actor := .error 2 1 0 0 0 }; Tab.has s.regions 0 = true ∧ (s.region 0).started = true ∧
      ((s.region 0).slot (0 / 16) (0 % 16)).st = .run ∧ (s.region 0).freeze = none) := by decide +kernel

/-! ### Hypotheses of the statements about the whole machine -/

def fetchSt (bs : List Byte) (f : Region → Region) : State :=
  { taskSt (slotOf []) f with pick := some (.slot 0 0 0), mem := memSetList pages (storeKey 0 0 0x40) bs }
/-- A slot that may issue at a word, on a data-marked line and at no word; a node that may step; what is due. -/
def isInstr (o : Except WordErr Instr) (i : Instr) : Bool :=
  match o with
  | .ok j => i == j
  | .error _ => false
def isErr (o : Except WordErr Instr) : Bool :=
  match o with
  | .ok _ => false
  | .error _ => true
theorem witness_StepRunsDecoded :
    (let s := fetchSt [0x00, 0x28, 0x64, 0x04] id; s.pick = some (.slot 0 0 0) ∧ s.slotTurn 0 0 0 = true ∧
      lineMarked ((s.region 0).cell 0) ((s.region 0).slot 0 0).pc.toNat = false ∧
      isInstr (decodeTask (BitVec.ofNat 32 (natOf (s.read (storeKey 0 0 0x40) 4)))) (.add 3 4 5) = true) ∧
    (let s := fetchSt [] (fun r => r.setCell 0 { r.cell 0 with marked := [(1, 1)] }); lineMarked ((s.region 0).cell 0) 0x40 = true ∧
      isErr (decodeTask 0) = true) ∧
    (fetchSt [] (fun r => r.setCell 0 { r.cell 0 with issuedAt := some 0 })).slotTurn 0 0 0 = false ∧
    (let s := { s3 (.addN {}) with pick := some (.node 0 0) }; s.pick = some (.node 0 0) ∧ s.nodeRuns 0 0 = true ∧
      (s.region 0).nodeInstr 0 = some (.addN {})) ∧
    (let s := { cmdSt [] id with pick := some (.write 1 []) }; s.pick = some (.write 1 []) ∧ (s.win 1).isBusy = false ∧ s.outOfTurn 1 = false) ∧
    (let s := { cmdSt [] id with pick := some (.write 1 []), accepted := some (0, 2) }; s.outOfTurn 1 = true) ∧
    (let s := { sA with due := [(.frameBoundary, .none)] }; s.pick = none ∧ s.due = (.frameBoundary, .none) :: [] ∧ isEvent .frameBoundary = true) := by
  decide +kernel

/-- A well-formed instruction of each of the three kinds. -/
theorem witness_DecodeEncode :
    ((.add 3 4 5 : Instr).wf = true ∧ (encodeTask (.add 3 4 5)).isSome = true) ∧
    ((.addN { fmt := 6, sa := ⟨1, 0⟩, sb := ⟨2, 1⟩ } : Instr).wf = true ∧ (encodeEntry (.addN { fmt := 6, sa := ⟨1, 0⟩, sb := ⟨2, 1⟩ })).isSome = true) ∧
    ((.launchCmd 3 (lch 0) : Instr).wf = true ∧ (commandBytes (.launchCmd 3 (lch 0))).isSome = true) := by decide +kernel

theorem nextOf {o : Host.Outcome State Fault Refusal} (h : (match o with
    | .next _ => true
    | _ => false) = true) : ∃ t, o = .next t := by
  cases o
  · exact ⟨_, rfl⟩
  all_goals exact absurd h Bool.false_ne_true
theorem witness_MemoryCanonical : (fetchSt [0x00, 0x28, 0x64, 0x04] id).memOk ∧ ∃ t, step (fetchSt [0x00, 0x28, 0x64, 0x04] id) = .next t :=
  ⟨by unfold State.memOk; decide +kernel, nextOf (by decide +kernel)⟩
/-- A state with one region, whose slot is about to run ADD, keeps each of the three bounds, and its step answers. -/
def addSt : State := fetchSt [0x00, 0x28, 0x64, 0x04] (fun r => { r with chans := [{ prod := .entry 0 0, cons := .entry 1 0, q := [.eos, .eos, .eos, .eos] }] })
theorem addSt_steps : ∃ t, step addSt = .next t := nextOf (by decide +kernel)
theorem get_single {α : Type} (a d : α) (c : Nat) : Tab.get [(0, a)] c d = if c = 0 then a else d := by
  by_cases h : c = 0 <;> simp [Tab.get, h, eq_comm]
theorem addSt_regions (P : Region → Prop) (h0 : P (addSt.region 0)) (h1 : P {}) (c : Nat) : P (addSt.region c) := by
  rw [State.region, show addSt.regions = [(0, addSt.region 0)] from rfl, get_single]
  split
  · exact h0
  · exact h1
theorem witness_ChannelBound : addSt.chansFit ∧ ∃ t, step addSt = .next t :=
  ⟨addSt_regions (fun r => ∀ ch ∈ r.chans, ch.q.length ≤ 4) (by decide +kernel) (fun _ h => nomatch h), addSt_steps⟩
theorem witness_CellsApart : addSt.cellsApart ∧ ∃ t, step addSt = .next t := by
  refine ⟨fun c d h hc hd => ?_, addSt_steps⟩
  have one (k : Nat) (hk : Tab.has addSt.regions k = true) : k = 0 := by
    rw [Tab.has, show addSt.regions = [(0, addSt.region 0)] from rfl, List.any_cons, List.any_nil, Bool.or_false] at hk
    exact (beq_iff_eq.mp hk).symm
  exact absurd ((one c hc).trans (one d hd).symm) h
theorem witness_StackBounds : addSt.stacksFit ∧ ∃ t, step addSt = .next t := by
  refine ⟨⟨fun c v k => ?_, fun c h => ?_⟩, addSt_steps⟩
  · have rest : ({} : Slot).stackFits := by unfold Slot.stackFits; decide +kernel
    refine addSt_regions (fun r => (r.slot v k).stackFits) ?_ rest c
    rw [Region.slot, Region.cell, show (addSt.region 0).cells = [(0, { slots := [(0, slotOf [])] })] from rfl, get_single]
    by_cases hv : v = 0
    · rw [if_pos hv, VCell.slot, get_single]
      split
      · unfold Slot.stackFits; decide +kernel
      · exact rest
    · rw [if_neg hv]; exact rest
  · rw [State.cue, show addSt.cues = [(0, { st := .running, njreg := 1, nsreg := 1 })] from rfl, get_single] at h
    split at h <;> exact nomatch h
/-- A slot's stack at its two limits, and beyond them. -/
theorem witness_StackBounds_edges : { slotOf [] with ssp := 0x80 }.stackFits ∧ { slotOf [] with ssp := 0x180 }.stackFits ∧
    ¬{ slotOf [] with ssp := 0x78 }.stackFits ∧ ¬{ slotOf [] with ssp := 0x188 }.stackFits := by unfold Slot.stackFits; decide +kernel
theorem witness_TaskIsolation : (encodeTask (.add 3 4 5)).isSome = true ∧ (.illegalWord 0 : Instr) = .illegalWord 0 := by decide +kernel

/-! ### Decoding: words written out from the encoding tables of spec/ -/

/-- Each word decodes to its instruction, which is well-formed and encodes to the word. -/
def wordsRead (l : List (Nat × Instr)) : Bool := l.all (fun p => decodeTableWord 32 p.1 == some p.2 && p.2.wf && encodeTask p.2 == some (BitVec.ofNat 32 p.1))

/-- Each word is refused (R79). -/
def wordsRefused (l : List Nat) : Bool := l.all (fun w => (decodeTableWord 32 w).isNone)

/-- Word 0s that with one word 1 and its extension words are entries of the given firings, well-formed. -/
def entries (w1 : Word) (f : NodeF) (l : List (Word × (NodeF → Instr))) : Bool :=
  l.all (fun p => match decodeEntry (p.1 :: w1 :: (f.ext ++ [7])) with
    | .ok (i, rest) => i == p.2 f && i.wf && rest == [7] && encodeEntry i == some (p.1 :: w1 :: f.ext)
    | .error _ => false)

/-- Whether a script's first entry is refused, and why. -/
def entryErr (ws : List Word) (e : EntryErr) : Bool :=
  match decodeEntry ws with
  | .ok _ => false
  | .error x => x == e

/-- The worked words of spec/ (R79 and the worked examples of the task chapters). -/
theorem test_decode_worked : wordsRead [
    (0x08C00006, .addi 6 0 6), (0x08A3FFF8, .addi 5 3 0xFFF8), (0xC0611006, .vadd 3 1 2 .f32), (0x04A5100B, .max 5 5 2),
    (0xD0642A80, .aadd 3 4 5 2 1), (0xD4000002, .fenceRel 0), (0xD8640180, .tflip 3 4 1 4), (0xEC090202, .baraw 9 2),
    (0x5822FFF8, .ldd 1 2 0xFFF8), (0x80E00003, .beq 7 0 3), (0xB0400100, .csrr 2 0x010)] = true := by decide +kernel

/-- R79: a v17, a range from g9 to g4, word 0; an unassigned ALU function, CLZ with a b, SLLI by 64, LUI with an a, VAND of f32,
VADD of b32, format 11, VCVT to format 14, CSR operation 4, atomic 9, AFADD of 64 bits, FENCE of kind 0, TWAIT with an N,
SENDP of class 16, ECALL with a d, a major between the groups; and a width that no task word has. -/
theorem test_decode_refused : wordsRefused [0xC2211006, 0xA5240000, 0x00000000, 0x0400000C, 0x04000820, 0x18000040, 0x28010000,
    0xC0000066, 0xC000000D, 0xC000000B, 0xC0007130, 0xB0000004, 0xD0000009, 0xD0000087, 0xD4000000, 0xD8000021, 0xDC000090,
    0xF0200000, 0x30000000] = true ∧ decodeTableWord 16 0x0006 = none := by decide +kernel

/-- R74, R75: major 1, d 21, a 10, b 31, one function each. -/
theorem test_decode_alu : wordsRead [
    (0x06AAF800, .add 21 10 31), (0x06AAF801, .sub 21 10 31), (0x06AAF802, .and 21 10 31), (0x06AAF803, .or 21 10 31),
    (0x06AAF804, .xor 21 10 31), (0x06AAF805, .sll 21 10 31), (0x06AAF806, .srl 21 10 31),
    (0x06AAF807, .sra 21 10 31), (0x06AAF808, .slt 21 10 31), (0x06AAF809, .sltu 21 10 31),
    (0x06AAF80A, .min 21 10 31), (0x06AAF80B, .max 21 10 31), (0x06AAF810, .mul 21 10 31),
    (0x06AAF811, .mulh 21 10 31), (0x06AAF814, .div 21 10 31), (0x06AAF815, .divu 21 10 31),
    (0x06AAF816, .rem 21 10 31), (0x06AAF818, .divt 21 10 31), (0x06AA0020, .clz 21 10), (0x06AA0021, .popc 21 10)] = true := by
  decide +kernel

/-- R73, R74: majors 2 to 11, imm16 0x8001, shift 33. -/
theorem test_decode_immediates : wordsRead [
    (0x0AAA8001, .addi 21 10 0x8001), (0x0EAA8001, .andi 21 10 0x8001), (0x12AA8001, .ori 21 10 0x8001),
    (0x16AA8001, .xori 21 10 0x8001), (0x1AAA0021, .slli 21 10 33), (0x1EAA0021, .srli 21 10 33),
    (0x22AA0021, .srai 21 10 33), (0x26AA8001, .slti 21 10 0x8001), (0x2AA08001, .lui 21 0x8001),
    (0x2EAA8001, .lhi 21 10 0x8001)] = true := by
  decide +kernel

/-- R74: majors 0x10 to 0x1C. -/
theorem test_decode_loads_stores : wordsRead [
    (0x42AA8001, .ldb 21 10 0x8001), (0x46AA8001, .ldbu 21 10 0x8001), (0x4AAA8001, .ldh 21 10 0x8001),
    (0x4EAA8001, .ldhu 21 10 0x8001), (0x52AA8001, .ldw 21 10 0x8001), (0x56AA8001, .ldwu 21 10 0x8001),
    (0x5AAA8001, .ldd 21 10 0x8001), (0x5DAA8001, .vld 13 10 0x8001), (0x62AA8001, .stb 21 10 0x8001),
    (0x66AA8001, .sth 21 10 0x8001), (0x6AAA8001, .stw 21 10 0x8001), (0x6EAA8001, .std 21 10 0x8001),
    (0x71AA8001, .vst 13 10 0x8001)] = true := by
  decide +kernel

/-- R72, R74: the compared registers at [25:21] and [20:16]; ranges 9 to 20. -/
theorem test_decode_branches : wordsRead [
    (0x815FFFFE, .beq 10 31 0xFFFE), (0x855FFFFE, .bne 10 31 0xFFFE), (0x895FFFFE, .blt 10 31 0xFFFE),
    (0x8D5FFFFE, .bge 10 31 0xFFFE), (0x915FFFFE, .bltu 10 31 0xFFFE), (0x955FFFFE, .bgeu 10 31 0xFFFE),
    (0x9BFFFFFE, .j 0x3FFFFFE), (0x9FFFFFFE, .jal 0x3FFFFFE), (0xA2AA8001, .jalr 21 10 0x8001),
    (0xA5340000, .pushm 9 20), (0xA9340000, .popm 9 20)] = true := by
  decide +kernel

/-- R72, R78: csr 0x8FF at [15:4], the operation at [3:0]. -/
theorem test_decode_csr : wordsRead [
    (0xB2A08FF0, .csrr 21 0x8FF), (0xB2AA8FF1, .csrw 21 10 0x8FF), (0xB2AA8FF2, .csrs 21 10 0x8FF),
    (0xB2AA8FF3, .csrc 21 10 0x8FF)] = true := by
  decide +kernel

/-- R77: the function at [10:4], the lane format at [3:0]; VCVT has its other format in b. -/
theorem test_decode_vector : wordsRead [
    (0xC1AA7806, .vadd 13 10 15 .f32), (0xC1AA7816, .vsub 13 10 15 .f32), (0xC1AA7826, .vmul 13 10 15 .f32),
    (0xC1AA7836, .vfma 13 10 15 .f32), (0xC1AA7846, .vmin 13 10 15 .f32), (0xC1AA7856, .vmax 13 10 15 .f32),
    (0xC1AA7865, .vand 13 10 15 .n8), (0xC1AA7875, .vor 13 10 15 .n8), (0xC1AA7885, .vshl 13 10 15 .n8),
    (0xC1AA7895, .vshr 13 10 15 .n8), (0xC1AA78A6, .veq 13 10 15 .f32), (0xC1AA78B6, .vlt 13 10 15 .f32),
    (0xC1AA0106, .vsplat 13 10 .f32), (0xC2AAF916, .vget 21 10 31 .f32), (0xC1AAF926, .vput 13 10 31 .f32),
    (0xC1AA4936, .vcvt 13 10 .e4m3 .f32), (0xC2AA0146, .vrsum 21 10 .f32)] = true := by
  decide +kernel

/-- R76. -/
theorem test_decode_fp32 : wordsRead [
    (0xC6AAF800, .fadd 21 10 31), (0xC6AAF801, .fsub 21 10 31), (0xC6AAF802, .fmul 21 10 31),
    (0xC6AAF803, .fdiv 21 10 31), (0xC6AA0004, .fsqrt 21 10), (0xC6AAF808, .flt 21 10 31),
    (0xC6AA0010, .fcvtif 21 10), (0xC6AA0011, .fcvtfi 21 10)] = true := by
  decide +kernel

/-- R78: rung 5 at [10:8], width 1 at [7]; FENCE has its kind at [1:0] and rung at [4:2]. -/
theorem test_decode_atomics : wordsRead [
    (0xD2AAFD80, .aadd 21 10 31 5 1), (0xD2AAFD81, .amax 21 10 31 5 1), (0xD2AAFD82, .amin 21 10 31 5 1),
    (0xD2AAFD83, .aand 21 10 31 5 1), (0xD2AAFD84, .aor 21 10 31 5 1), (0xD2AAFD85, .aswp 21 10 31 5 1),
    (0xD2AAFD86, .acas 21 10 31 5 1), (0xD2AAFD07, .afadd 21 10 31 5), (0xD2AAFD08, .amaxa 21 10 31 5),
    (0xD4000015, .fenceAcq 5), (0xD4000016, .fenceRel 5), (0xD4000017, .fenceFull 5)] = true := by
  decide +kernel

/-- R78: tags 5 and 2; channel end 19; class 11. -/
theorem test_decode_channels : wordsRead [
    (0xDAAA0540, .tflip 21 10 5 2), (0xD80A0501, .twait 10 5), (0xDEA00013, .recv 21 19), (0xDDA00033, .recvv 13 19),
    (0xDC0A0053, .send 10 19), (0xDC0A0073, .sendv 10 19), (0xDC0AF88B, .sendp 10 31 11), (0xDC0000AB, .maskc 11),
    (0xDC0000CB, .unmaskc 11)] = true := by
  decide +kernel

/-- R78: majors 0x38 to 0x3C. -/
theorem test_decode_system : wordsRead [
    (0xE00A0000, .sleepuntil 10), (0xE6AA0000, .flyc 21 10), (0xE6AA0001, .wngc 21 10), (0xE80AF800, .tload 10 31),
    (0xEC0A0500, .bara 10 5), (0xEC0A0501, .barw 10 5), (0xEC0A0502, .baraw 10 5), (0xF0000000, .ecall),
    (0xF0000001, .eret), (0xF0000002, .brk)] = true := by
  decide +kernel

/-- R61, R62, R68: an entry of every opcode, in f32, 16 lanes, rate 16, replication 2 where the opcode allows it, A from port 1 at
distance 3, B from port 2 at 5, C from port 0 at 7. -/
theorem test_decode_entries :
  entries 0x0000000000000000 { repm1 := 0, fmt := 6, wid := 4, rate := 16 } [
    (0x0001A40000000000, .constN), (0x0101A40000000000, .iotaN), (0xA501A40000000000, .recvnN)] = true ∧
  entries 0x0000000000000001 { repm1 := 0, fmt := 6, wid := 4, rate := 16, ext := [161] } [
    (0x0201A40000000000, .srcN)] = true ∧
  entries 0x0000340000000001 { repm1 := 0, fmt := 6, wid := 4, rate := 16, sa := ⟨3, 1⟩, ext := [161] } [
    (0x0301A40000000000, .snkN), (0x6701A40000000000, .tfillN), (0x8401A40000000000, .mxmaxN)] = true ∧
  entries 0x0000340005800000 { repm1 := 0, fmt := 6, wid := 4, rate := 16, sa := ⟨3, 1⟩, sb := ⟨5, 2⟩ } [
    (0x0401A40000000000, .steerN), (0x0701A40000000000, .invN), (0x0801A40000000000, .gateN),
    (0x9101A40000000000, .tswapN)] = true ∧
  entries 0x0000340005800070 { repm1 := 0, fmt := 6, wid := 4, rate := 16, sa := ⟨3, 1⟩, sb := ⟨5, 2⟩, sc := ⟨7, 0⟩ } [
    (0x0501A40000000000, .mergeN), (0x0601A40000000000, .carryN), (0x6601A40000000000, .ordjN)] = true ∧
  entries 0x0000340000000000 { repm1 := 0, fmt := 6, wid := 4, rate := 16, sa := ⟨3, 1⟩ } [
    (0x0901A40000000000, .barN), (0x0A01A40000000000, .curtN), (0x4401A40000000000, .sclwN),
    (0x6501A40000000000, .fencenN), (0x6801A40000000000, .ttagN), (0x6901A40000000000, .twaitnN),
    (0x8301A40000000000, .wscaleN), (0x9001A40000000000, .tselN), (0xA201A40000000000, .flypN),
    (0xA301A40000000000, .wngpN), (0xA401A40000000000, .sendnN)] = true ∧
  entries 0x0000340000000000 { repm1 := 1, fmt := 6, wid := 4, rate := 16, sa := ⟨3, 1⟩ } [
    (0x1005A40000000000, .movN), (0x1805A40000000000, .sqrtN), (0x1905A40000000000, .negN),
    (0x1A05A40000000000, .absN), (0x2705A40000000000, .classN), (0x2C05A40000000000, .notN),
    (0x3205A40000000000, .popcN), (0x3305A40000000000, .clzN), (0x3405A40000000000, .ctzN),
    (0x3505A40000000000, .brevN), (0x3605A40000000000, .floorN), (0x3705A40000000000, .ceilN),
    (0x3805A40000000000, .truncN), (0x3905A40000000000, .rintN), (0x4005A40000000000, .cvtN),
    (0x4105A40000000000, .quantN), (0x5005A40000000000, .rsumN), (0x5105A40000000000, .rmaxN),
    (0x5205A40000000000, .rminN), (0x5305A40000000000, .rmaxaN), (0x5A05A40000000000, .bcastN),
    (0x5B05A40000000000, .packN), (0x5C05A40000000000, .unpackN), (0x9205A40000000000, .tevalN)] = true ∧
  entries 0x0000340005800000 { repm1 := 1, fmt := 6, wid := 4, rate := 16, sa := ⟨3, 1⟩, sb := ⟨5, 2⟩ } [
    (0x1105A40000000000, .addN), (0x1205A40000000000, .subN), (0x1305A40000000000, .mulN),
    (0x1705A40000000000, .divN), (0x1B05A40000000000, .minN), (0x1C05A40000000000, .maxN),
    (0x1D05A40000000000, .mulhN), (0x1E05A40000000000, .remN), (0x2005A40000000000, .cmpeqN),
    (0x2105A40000000000, .cmpneN), (0x2205A40000000000, .cmpltN), (0x2305A40000000000, .cmpleN),
    (0x2405A40000000000, .cmpgtN), (0x2505A40000000000, .cmpgeN), (0x2605A40000000000, .cmpunN),
    (0x2905A40000000000, .andN), (0x2A05A40000000000, .orN), (0x2B05A40000000000, .xorN),
    (0x2D05A40000000000, .andnN), (0x2E05A40000000000, .shlN), (0x2F05A40000000000, .shrN),
    (0x3005A40000000000, .shraN), (0x3105A40000000000, .rotlN), (0x3A05A40000000000, .copysignN),
    (0x3B05A40000000000, .absdiffN), (0x5405A40000000000, .rdotN)] = true ∧
  entries 0x0000340005800070 { repm1 := 1, fmt := 6, wid := 4, rate := 16, sa := ⟨3, 1⟩, sb := ⟨5, 2⟩, sc := ⟨7, 0⟩ } [
    (0x1405A40000000000, .fmaN), (0x1505A40000000000, .fmsN), (0x1605A40000000000, .fnmaN),
    (0x1F05A40000000000, .clampN), (0x2805A40000000000, .selN)] = true ∧
  entries 0x0000340005800001 { repm1 := 1, fmt := 6, wid := 4, rate := 16, sa := ⟨3, 1⟩, sb := ⟨5, 2⟩, ext := [161] } [
    (0x4205A40000000000, .deqN)] = true ∧
  entries 0x0000340000000001 { repm1 := 1, fmt := 6, wid := 4, rate := 16, sa := ⟨3, 1⟩, ext := [161] } [
    (0x4305A40000000000, .scaleN), (0x5505A40000000000, .wsumN), (0x5605A40000000000, .wmaxN),
    (0x5705A40000000000, .wminN), (0x5805A40000000000, .wmaxaN), (0x5905A40000000000, .shufN)] = true ∧
  entries 0x0000340000000071 { repm1 := 1, fmt := 6, wid := 4, rate := 16, sa := ⟨3, 1⟩, sc := ⟨7, 0⟩, ext := [161] } [
    (0x6005A40000000000, .ldsN)] = true ∧
  entries 0x0000340005800071
    { repm1 := 1, fmt := 6, wid := 4, rate := 16, sa := ⟨3, 1⟩, sb := ⟨5, 2⟩, sc := ⟨7, 0⟩, ext := [161] } [
    (0x6105A40000000000, .stsN), (0x6405A40000000000, .atmN)] = true ∧
  entries 0x0000340000000072 { repm1 := 1, fmt := 6, wid := 4, rate := 16, sa := ⟨3, 1⟩, sc := ⟨7, 0⟩, ext := [161, 162] } [
    (0x6205A40000000000, .ldgN), (0x6A05A40000000000, .ldiN)] = true ∧
  entries 0x0000340005800072
    { repm1 := 1, fmt := 6, wid := 4, rate := 16, sa := ⟨3, 1⟩, sb := ⟨5, 2⟩, sc := ⟨7, 0⟩, ext := [161, 162] } [
    (0x6305A40000000000, .stgN)] = true ∧
  entries 0x0000340005800001 { repm1 := 0, fmt := 6, wid := 4, rate := 16, sa := ⟨3, 1⟩, sb := ⟨5, 2⟩, ext := [161] } [
    (0x8001A40000000000, .mmaN), (0xA101A40000000000, .csumN)] = true ∧
  entries 0x0000340000000002 { repm1 := 0, fmt := 6, wid := 4, rate := 16, sa := ⟨3, 1⟩, ext := [161, 162] } [
    (0x8101A40000000000, .mvmN)] = true ∧
  entries 0x0000340005800002 { repm1 := 0, fmt := 6, wid := 4, rate := 16, sa := ⟨3, 1⟩, sb := ⟨5, 2⟩, ext := [161, 162] } [
    (0x8201A40000000000, .gmmaN)] = true ∧
  entries 0x0000340000000002 { repm1 := 1, fmt := 6, wid := 4, rate := 16, sa := ⟨3, 1⟩, ext := [161, 162] } [
    (0xA005A40000000000, .chainN)] = true := by decide +kernel

/-- The worked entry of R69 (ADD in f32, REP 4), and QUANT with its arithmetic controls; an unassigned code, the reserved bits of
word 1, an entry whose extension words lie past the image. -/
theorem test_decode_entry_worked :
    entries 0x0000100003000000 { repm1 := 3, fmt := 6, wid := 4, rate := 16, sa := ⟨1, 0⟩, sb := ⟨3, 0⟩ } [
      (0x110DA40000000000, .addN)] = true ∧
    entries 0x0000100000000000 { fmt := 9, wid := 2, rate := 16, mod := 0x18, sa := ⟨1, 0⟩ } [(0x4102540018000000, .quantN)] = true ∧
    entryErr [0xB000000000000000, 0] .opcode = true ∧ entryErr [0, 0x4000000000000000] .reserved = true ∧
    entryErr [0, 2, 5] .truncated = true ∧ entryErr [0] .truncated = true := by decide +kernel

/-- A command of R398 by its first word, the other seven being 1 to 7: 64 bytes, little-endian. -/
def cmdBytes (w0 : Nat) : List Byte := bytesOf 8 w0 ++ [1, 2, 3, 4, 5, 6, 7].flatMap (fun b => b :: List.replicate 7 0)

/-- R398: a write of every command code, with what tells two rows of one code apart; code 0x0E is no command, nor is a write of
another size. -/
theorem test_decode_commands :
    [(0x12301, Instr.launchCmd), (0x02, .cueCmd), (0x03, .cuerelCmd), (0x04, .curtainCmd), (0x05, .blackoutCmd),
      (0x06, .resumeCmd), (0x07, .replaceCmd), (0x08, .releaseCmd), (0x09, .unloadCmd), (0x109, .unloadForceCmd),
      (0x0A, .tlbinvCmd), (0x0B, .debugCmd), (0x0C, .incqCmd), (0x0D, .attestCmd), (0x10, .tenantCmd), (0x11, .shareCmd),
      (0x3012, .powerRunningCmd), (0x4012, .powerDarkCmd), (0x5012, .powerOffCmd), (0x6012, .powerRunningCmd), (0x13, .leaveCmd),
      (0x14, .quotaCmd), (0x15, .soundSetCmd), (0x8000015, .soundQueryCmd), (0x16, .evictCmd), (0x17, .podmapCmd),
      (0x18, .checkpointSaveCmd), (0x118, .checkpointRestoreCmd), (0x19, .fwloadCmd)].all (fun (p : Nat × (Nat → Cmd → Instr)) =>
        let i := p.2 3 ⟨BitVec.ofNat 64 p.1, 1, 2, 3, 4, 5, 6, 7⟩
        decodeCommand 3 (cmdBytes p.1) == i && i.wf && encode i == cmdBytes p.1) = true ∧
    decodeCommand 3 (cmdBytes 0x0E) = .callboardOtherWrite 3 (cmdBytes 0x0E) ∧
    decodeCommand 3 [0x01] = .callboardOtherWrite 3 [0x01] := by decide +kernel

/-! ### Well-formedness: an ill-formed term for each check -/

/-- Formats a vector function does not accept (R204), a range that goes down (R79), an illegal word that is an instruction. -/
theorem smoke_task_fields :
    (Instr.vadd 1 2 3 .b32).wf = false ∧ (Instr.veq 1 2 3 .gs4).wf = false ∧ (Instr.vrsum 1 2 .b32).wf = false ∧
    (Instr.vand 1 2 3 .f32).wf = false ∧ (Instr.vsplat 1 2 .gs3).wf = false ∧ (Instr.vcvt 1 2 .gs4 .f32).wf = false ∧
    (Instr.vcvt 1 2 .f32 .gs4).wf = false ∧ (Instr.pushm 9 4).wf = false ∧ (Instr.popm 31 0).wf = false ∧
    (Instr.illegalWord 0x08C00006).wf = false ∧ (Instr.illegalWord 0).wf = true := by decide +kernel

/-- A command with another command's code, or the other row's field; a write that is a command (R398). -/
theorem smoke_commands :
    (Instr.cueCmd 1 { w0 := 0x03 }).wf = false ∧ (Instr.unloadCmd 1 { w0 := 0x109 }).wf = false ∧
    (Instr.unloadForceCmd 1 { w0 := 0x09 }).wf = false ∧ (Instr.powerRunningCmd 0 { w0 := 0x4012 }).wf = false ∧
    (Instr.powerDarkCmd 0 { w0 := 0x12 }).wf = false ∧ (Instr.soundSetCmd 0 { w0 := 0x8000015 }).wf = false ∧
    (Instr.checkpointRestoreCmd 0 { w0 := 0x18 }).wf = false ∧ (Instr.callboardOtherWrite 1 (cmdBytes 0x04)).wf = false ∧
    (Instr.callboardOtherWrite 1 []).wf = true := by decide +kernel

/-- The fields of a firing (R61 to R63, R67, R68): a reserved format, width 5, rates 0 and 17, replication of a node that has none,
a port without a distance, an operand the opcode does not use, one extension word too few and one too many. -/
theorem smoke_firing :
    (Instr.addN { sa := ⟨1, 0⟩, sb := ⟨2, 0⟩ }).wf = true ∧ (Instr.addN { fmt := 14 }).wf = false ∧ (Instr.addN { wid := 5 }).wf = false ∧
    (Instr.addN { rate := 0 }).wf = false ∧ (Instr.addN { rate := 17 }).wf = false ∧ (Instr.steerN { repm1 := 1 }).wf = false ∧
    (Instr.addN { sb := ⟨0, 1⟩ }).wf = false ∧ (Instr.addN { sc := ⟨1, 0⟩ }).wf = false ∧ (Instr.movN { sb := ⟨1, 0⟩ }).wf = false ∧
    (Instr.ldgN { ext := [1] }).wf = false ∧ (Instr.addN { ext := [1] }).wf = false := by decide +kernel

/-! ### One step: results of worked examples and of the rules' edges -/

/-- The value of g5 after an instruction at `sA` (g1 = 5, g2 = 0, g3 = -2^63, g4 = -1). -/
def g5 (i : Instr) : Option Word := match exec i sA with
  | .next t => some (t.rg 5)
  | _ => none

/-- R194, R195: -2^63 + -2^63 wraps to 0; division by 0 and of -2^63 by -1; MULH and SRA keep the sign; SLTU does not. -/
theorem test_alu_edges : [g5 (.add 5 3 3), g5 (.div 5 1 2), g5 (.div 5 3 2), g5 (.divu 5 1 2), g5 (.rem 5 1 2), g5 (.div 5 3 4),
    g5 (.rem 5 3 4), g5 (.mulh 5 3 4), g5 (.mulh 5 4 1), g5 (.sra 5 3 1), g5 (.slt 5 4 2), g5 (.sltu 5 4 2), g5 (.clz 5 2),
    g5 (.popc 5 4), g5 (.sub 0 1 2)] =
  [some 0, some 0x7FFFFFFFFFFFFFFF, some 0x8000000000000000, some 0xFFFFFFFFFFFFFFFF, some 5, some 0x8000000000000000, some 0,
    some 0, some 0xFFFFFFFFFFFFFFFF, some 0xFC00000000000000, some 1, some 0, some 64, some 64, some 0] := by decide +kernel

/-- R196: LUI extends the sign, the logical immediates do not, LHI replaces the top 16 bits. -/
theorem test_immediates : [g5 (.lui 5 0x8000), g5 (.ori 5 2 0x8000), g5 (.andi 5 4 0xFFFF), g5 (.addi 5 1 0xFFF8),
    g5 (.lhi 5 4 0x1234), g5 (.slti 5 4 0), g5 (.srai 5 3 63)] =
  [some 0xFFFFFFFF80000000, some 0x8000, some 0xFFFF, some 0xFFFFFFFFFFFFFFFD, some 0x1234FFFFFFFFFFFF, some 1,
    some 0xFFFFFFFFFFFFFFFF] := by decide +kernel

/-- R19: g0 stays 0. R73: a branch taken from 0x40 by 3 words; JALR leaves pc + 4 in its d. -/
theorem test_pc : (match exec (.addi 0 1 7) sA with
    | .next t => (t.rg 0, t.me.pc) | _ => (1, 0)) = (0, 0x44) ∧
    (match exec (.beq 2 0 3) sA with
    | .next t => t.me.pc | _ => 0) = 0x4C ∧
    (match exec (.jalr 5 2 0x80) sA with
    | .next t => (t.rg 5, t.me.pc) | _ => (0, 0)) = (0x44, 0x80) := by decide +kernel

/-- The data token that an entry's node puts on port 0. -/
def out0 (i : Instr) (qs : List (Nat × List Token)) : List Token := match exec i (nodeSt i {} qs id) with
  | .next t => ((t.region 0).chans.getD qs.length { prod := .entry 9 0, cons := .entry 9 0 }).q
  | _ => []
/-- CVT from f32 to a format under MOD[3:0] of the f32 lane v. -/
def cvtOf (dst : BitVec 4) (m : BitVec 4) (v : Lane) : List Token :=
  out0 (.cvtN { fmt := dst, mod := (6 : BitVec 4) ++ m }) [(0, [.data [v]])]

/-- The worked conversions of spec/02: 300.0 to bf16, f16, e4m3 and e5m2 under RNE, to e4m3 and e5m2 upwards; 470.0 to e4m3
without and with SAT. -/
theorem test_worked_conversions :
    [cvtOf 7 0 0x43960000, cvtOf 8 0 0x43960000, cvtOf 9 0 0x43960000, cvtOf 10 0 0x43960000, cvtOf 9 3 0x43960000,
      cvtOf 10 3 0x43960000, cvtOf 9 0 0x43EB0000, cvtOf 9 8 0x43EB0000] =
    [[.data [0x4396]], [.data [0x5CB0]], [.data [0x79]], [.data [0x5D]], [.data [0x7A]], [.data [0x5D]], [.data [0x7F]],
      [.data [0x7E]]] := by decide +kernel

/-- Node arithmetic: 1.0 + 1.0 in f32, 2^31 - 1 + 1 in i32, -1 and 1 compared as i32, 7 by -2 with its remainder (R86, R88, R91). -/
theorem test_node_arith :
    out0 (.addN { fmt := 6 }) [(0, [.data [0x3F800000]]), (1, [.data [0x3F800000]])] = [.data [0x40000000]] ∧
    out0 (.addN { fmt := 0 }) [(0, [.data [0x7FFFFFFF]]), (1, [.data [1]])] = [.data [0x80000000]] ∧
    out0 (.cmpltN { fmt := 0 }) [(0, [.data [0xFFFFFFFF]]), (1, [.data [1]])] = [.data [0xFFFFFFFF]] ∧
    out0 (.remN { fmt := 0 }) [(0, [.data [7]]), (1, [.data [0xFFFFFFFE]])] = [.data [1]] := by decide +kernel

/-- R221, R370: ECALL saves its pc in TEPC and goes to TVEC in SUPV; ERET in SUPV returns to TEPC in RUN with TSTAT[0] clear. -/
theorem test_ecall_eret :
    (match exec .ecall sA with
      | .next t => (t.me.pc, t.me.tepc, t.me.st) | _ => (0, 0, .idle)) = (0x200, 0x40, .supv) ∧
    (match exec .eret (taskSt { slotOf [] with tstat := 1, st := .supv, tepc := 0x88 } id) with
      | .next t => (t.me.pc, t.me.tstat, t.me.st) | _ => (0, 0, .idle)) = (0x88, 0, .run) := by decide +kernel
end Sys2Proof.Tests
end

section
/-! SUPPORT. Time (R5, R14, R20, R290, R353 to R355): what the parts of TICK and of FRAME_BOUNDARY do, and what they leave alone. -/

namespace Sys2Proof.Machine

/-! ### Sparse tables mapped entry by entry -/

theorem Tab.has_cons {α : Type} (j : Nat) (x : α) (t : Tab α) (k : Nat) :
    Tab.has ((j, x) :: t) k = (j == k || Tab.has t k) := rfl

/-- What a mapped table holds at a key that it has. -/
theorem Tab.get_mapVal {α β : Type} (f : Nat → α → β) (t : Tab α) (k : Nat) (d : α) (d' : β) (h : Tab.has t k = true) :
    Tab.get (Tab.mapVal f t) k d' = f k (Tab.get t k d) := by
  induction t with
  | nil => cases h
  | cons p t ih =>
    obtain ⟨j, x⟩ := p
    by_cases e : j = k
    · subst e; simp [Tab.mapVal, Tab.get]
    · have ht : Tab.has t k = true := by simpa [Tab.has_cons, e] using h
      have := ih ht
      simpa [Tab.mapVal, Tab.get, e] using this

/-- At any key, where the map takes the default to the default. -/
theorem Tab.get_mapVal_default {α : Type} (f : α → α) (t : Tab α) (k : Nat) (d : α) (h : f d = d) :
    Tab.get (Tab.mapVal (fun _ x => f x) t) k d = f (Tab.get t k d) := by
  induction t with
  | nil => exact h.symm
  | cons p t ih =>
    obtain ⟨j, x⟩ := p
    by_cases e : j = k
    · simp [Tab.mapVal, Tab.get, e]
    · simpa [Tab.mapVal, Tab.get, e] using ih

theorem Tab.mapVal_id {α : Type} (f : Nat → α → α) (t : Tab α) (h : ∀ p ∈ t, f p.1 p.2 = p.2) : Tab.mapVal f t = t := by
  unfold Tab.mapVal
  calc List.map (fun p : Nat × α => (p.1, f p.1 p.2)) t
      = List.map id t := List.map_congr_left (fun p hp => by rw [h p hp]; rfl)
    _ = t := List.map_id t

theorem Tab.has_set {α : Type} (t : Tab α) (i k : Nat) (v : α) (h : Tab.has t k = true) : Tab.has (Tab.set t i v) k = true := by
  induction t with
  | nil => cases h
  | cons p t ih =>
    obtain ⟨j, x⟩ := p
    unfold Tab.set
    split
    · rw [Tab.has_cons, h, Bool.or_true]
    · split
      · next e => subst e; exact h
      · rw [Tab.has_cons, Bool.or_eq_true] at h ⊢
        exact h.imp_right ih

/-- What holds of every entry and of the default holds of every value read. -/
theorem Tab.get_of_all {α : Type} (P : α → Prop) (t : Tab α) (k : Nat) (d : α) (hd : P d) (h : ∀ p ∈ t, P p.2) :
    P (Tab.get t k d) := by
  induction t with
  | nil => exact hd
  | cons p t ih =>
    obtain ⟨j, x⟩ := p
    by_cases e : j = k
    · simpa [Tab.get, e] using h (j, x) List.mem_cons_self
    · simpa [Tab.get, e] using ih (fun q hq => h q (List.mem_cons_of_mem _ hq))

/-! ### The bucket requests of a tick (R354) -/

theorem judgeAll_idle {t : Tenant} (h : t.asks = []) : t.judgeAll = t := by
  have e : t.judgeAll = { t with asks := [] } := by unfold Tenant.judgeAll; rw [h]; rfl
  rw [e, ← h]

/-- A requester granted in the tick it asks is not held in it. -/
def State.grantIn (s : State) (a : Actor) : State :=
  match a with
  | .node c e => s.setRegion c ((s.region c).setNode e { (s.region c).node e with fired := true })
  | _ => s

theorem judgeTick_eq (s : State) :
    s.judgeTick = (s.tenants.flatMap (fun p => p.2.judgeAll.grants.drop p.2.grants.length)).foldl State.grantIn
      { s with tenants := Tab.mapVal (fun _ (t : Tenant) => t.judgeAll) s.tenants } := rfl

/-- What grants may change: the nodes of regions. -/
def GrantOnly (s t : State) : Prop :=
  { t with regions := s.regions } = s ∧
  ∀ c, (t.region c).cells = (s.region c).cells ∧ (Tab.has s.regions c = true → Tab.has t.regions c = true)

theorem GrantOnly.refl (s : State) : GrantOnly s s := ⟨rfl, fun _ => ⟨rfl, id⟩⟩
theorem GrantOnly.trans {s t u : State} (h : GrantOnly s t) (k : GrantOnly t u) : GrantOnly s u := by
  obtain ⟨h1, h2⟩ := h
  obtain ⟨k1, k2⟩ := k
  refine ⟨?_, fun c => ⟨(k2 c).1.trans (h2 c).1, fun q => (k2 c).2 ((h2 c).2 q)⟩⟩
  rw [← h1, ← k1]

theorem grantIn_only (s : State) (a : Actor) : GrantOnly s (s.grantIn a) := by
  unfold State.grantIn
  split
  · next c e =>
    refine ⟨rfl, fun d => ⟨?_, Tab.has_set _ _ _ _⟩⟩
    by_cases h : d = c
    · subst h; rw [State.setRegion_region]; rfl
    · rw [State.setRegion_region_ne _ _ _ _ h]
  · exact .refl s

theorem foldl_grantIn_only (as : List Actor) (s : State) : GrantOnly s (as.foldl State.grantIn s) := by
  induction as generalizing s with
  | nil => exact .refl s
  | cons a as ih => exact (grantIn_only s a).trans (ih _)

theorem judgeTick_grants (s : State) :
    GrantOnly { s with tenants := Tab.mapVal (fun _ (t : Tenant) => t.judgeAll) s.tenants } s.judgeTick := by
  rw [judgeTick_eq]; exact foldl_grantIn_only _ _

/-- Judging the requests changes tenants and regions alone. -/
theorem judgeTick_only (s : State) : { s.judgeTick with regions := s.regions, tenants := s.tenants } = s := by
  have h := congrArg (fun t : State => { t with tenants := s.tenants }) (judgeTick_grants s).1
  exact h

theorem judgeTick_tenants (s : State) : s.judgeTick.tenants = Tab.mapVal (fun _ (t : Tenant) => t.judgeAll) s.tenants :=
  congrArg State.tenants (judgeTick_grants s).1
theorem judgeTick_packets (s : State) : s.judgeTick.packets = s.packets := by
  have h := congrArg State.packets (judgeTick_only s); exact h
theorem judgeTick_cyc (s : State) : s.judgeTick.cyc = s.cyc := by
  have h := congrArg State.cyc (judgeTick_only s); exact h
theorem judgeTick_die (s : State) (d : Nat) : s.judgeTick.die d = s.die d := by
  have h := congrArg (fun t : State => t.die d) (judgeTick_only s); exact h
theorem judgeTick_flying (s : State) (c : Nat) : s.judgeTick.flying c = s.flying c := by
  unfold State.flying; rw [judgeTick_packets]

/-- With no request in the tick nothing is judged. -/
theorem judgeTick_idle {s : State} (h : ∀ p ∈ s.tenants, p.2.asks = []) : s.judgeTick = s := by
  have ht : Tab.mapVal (fun _ (t : Tenant) => t.judgeAll) s.tenants = s.tenants :=
    Tab.mapVal_id _ _ (fun p hp => judgeAll_idle (h p hp))
  have hg : s.tenants.flatMap (fun p => p.2.judgeAll.grants.drop p.2.grants.length) = [] := by
    rw [List.flatMap_eq_nil_iff]
    intro p hp
    rw [judgeAll_idle (h p hp), List.drop_length]
  rw [judgeTick_eq, ht, hg]; rfl

/-! ### Tokens given late (R363) -/

/-- What giving what performed accesses owe may change: no slot, and no node goes. -/
def DeliverOnly (r r' : Region) : Prop :=
  { r' with accs := r.accs, cells := r.cells, chans := r.chans, nodes := r.nodes } = r ∧
  (∀ v, (r'.cell v).slots = (r.cell v).slots) ∧ ∀ e, Tab.has r.nodes e = true → Tab.has r'.nodes e = true

theorem DeliverOnly.refl (r : Region) : DeliverOnly r r := ⟨rfl, fun _ => rfl, fun _ => id⟩
theorem DeliverOnly.trans {a b c : Region} (h : DeliverOnly a b) (k : DeliverOnly b c) : DeliverOnly a c := by
  obtain ⟨h1, h2, h3⟩ := h
  obtain ⟨k1, k2, k3⟩ := k
  refine ⟨?_, fun v => (k2 v).trans (h2 v), fun e q => k3 e (h3 e q)⟩
  rw [← h1, ← k1]

theorem deliverOnly_accs (r : Region) (as : List Acc) : DeliverOnly r { r with accs := as } := ⟨rfl, fun _ => rfl, fun _ => id⟩
theorem deliverOnly_give (r : Region) (p : End) (t : Token) (pre : List Nat) : DeliverOnly r (r.give p t pre) :=
  ⟨rfl, fun _ => rfl, fun _ => id⟩
theorem deliverOnly_setNode (r : Region) (e : Nat) (n : Node) : DeliverOnly r (r.setNode e n) :=
  ⟨rfl, fun _ => rfl, fun _ => Tab.has_set _ _ _ _⟩
theorem deliverOnly_flipTag (r : Region) (v now rank t : Nat) (x : BitVec 3) :
    DeliverOnly r (r.setCell v ((r.cell v).flipTag now rank t x)) := by
  refine ⟨rfl, fun u => ?_, fun _ => id⟩
  by_cases h : u = v
  · subst h; rw [Region.setCell_cell]; rfl
  · rw [Region.setCell_cell_ne _ _ _ _ h]

/-- The parts of giving what one access owes, in their order: its flip, its token, its ORDER token, and the end of its node. -/
def Region.giveFlip (r : Region) (e : Nat) (a : Acc) : Region :=
  match a.flip with
  | some t => r.setCell a.cell ((r.cell a.cell).flipTag r.now (nodeFlipRank e) t 1)
  | none => r
def Region.giveToken (r : Region) (e : Nat) (a : Acc) (pre : List Nat) : Region :=
  match a.gives, a.res with
  | true, some t => r.give (.entry e 0) t pre
  | _, _ => r
def Region.giveOrder (r : Region) (e : Nat) (a : Acc) (pre : List Nat) : Region :=
  match a.owed with
  | some sc => r.give (.entry e 1) (.order sc) pre
  | none => r
def Region.giveEnd (r : Region) (e : Nat) (a : Acc) : Region :=
  if a.closes then r.setNode e { r.node e with eos := true } else r

theorem giveFlip_only (r : Region) (e : Nat) (a : Acc) : DeliverOnly r (r.giveFlip e a) := by
  unfold Region.giveFlip; split
  · exact deliverOnly_flipTag _ _ _ _ _ _
  · exact .refl r
theorem giveToken_only (r : Region) (e : Nat) (a : Acc) (pre : List Nat) : DeliverOnly r (r.giveToken e a pre) := by
  unfold Region.giveToken; split
  · exact deliverOnly_give _ _ _ _
  · exact .refl r
theorem giveOrder_only (r : Region) (e : Nat) (a : Acc) (pre : List Nat) : DeliverOnly r (r.giveOrder e a pre) := by
  unfold Region.giveOrder; split
  · exact deliverOnly_give _ _ _ _
  · exact .refl r
theorem giveEnd_only (r : Region) (e : Nat) (a : Acc) : DeliverOnly r (r.giveEnd e a) := by
  unfold Region.giveEnd; split
  · exact deliverOnly_setNode _ _ _
  · exact .refl r

/-- A delivery stops, or gives what the node's first access owes and goes on. -/
theorem deliver_succ (k e : Nat) (r : Region) : Region.deliver (k + 1) e r = r ∨ ∃ a as pre, Region.deliver (k + 1) e r =
    Region.deliver k e ((((({ r with accs := as } : Region).giveFlip e a).giveToken e a pre).giveOrder e a pre).giveEnd e a) := by
  rw [Region.deliver]
  split
  · exact .inl rfl
  · next a _ _ =>
    split
    · exact .inl rfl
    · exact .inr ⟨a, _, _, rfl⟩

theorem deliver_only (k e : Nat) (r : Region) : DeliverOnly r (Region.deliver k e r) := by
  induction k generalizing r with
  | zero => exact .refl r
  | succ k ih =>
    obtain h | ⟨a, as, pre, h⟩ := deliver_succ k e r
    · rw [h]; exact .refl r
    · rw [h]
      exact (deliverOnly_accs r as).trans ((giveFlip_only _ e a).trans ((giveToken_only _ e a pre).trans
        ((giveOrder_only _ e a pre).trans ((giveEnd_only _ e a).trans (ih _)))))

theorem foldl_deliver_only (es : List Nat) (r : Region) :
    DeliverOnly r (es.foldl (fun r e => r.deliver r.accs.length e) r) := by
  induction es generalizing r with
  | nil => exact .refl r
  | cons e es ih => exact (deliver_only r.accs.length e r).trans (ih _)

theorem deliverLate_only (r : Region) : DeliverOnly r r.deliverLate := foldl_deliver_only _ _
theorem deliverLate_fields (r : Region) (e : Nat) : r.deliverLate.fields e = r.fields e := by
  have h := congrArg (fun q : Region => q.fields e) (deliverLate_only r).1; exact h
theorem deliverLate_vcellOf (r : Region) (e : Nat) : r.deliverLate.vcellOf e = r.vcellOf e := by
  have h := congrArg (fun q : Region => q.vcellOf e) (deliverLate_only r).1; exact h
theorem deliverLate_slot (r : Region) (v k : Nat) : r.deliverLate.slot v k = r.slot v k := by
  unfold Region.slot VCell.slot; rw [(deliverLate_only r).2.1 v]

/-- With no access there is nothing to give. -/
theorem deliverLate_idle {r : Region} (h : r.accs = []) : r.deliverLate = r := by
  unfold Region.deliverLate; rw [h]; rfl

/-! ### The stall counters of a node (R14, R202) -/

theorem stallCause_held {r : Region} {e : Nat} (ws fly : List Nat) (h : r.nodeHeld e = true) : r.stallCause ws fly e = 0 := by
  unfold Region.stallCause; rw [if_pos h]

/-- A node of a region without accesses waits for what its last attempt met. -/
theorem stallCause_idle {r : Region} {e : Nat} (fly : List Nat) (hr : r.accs = []) (h : r.nodeHeld e = false) :
    r.stallCause r.memWaiters fly e = (r.node e).cause := by
  have hx : r.accsOf e = [] := by unfold Region.accsOf; rw [hr]; rfl
  have ht : r.tileWaits fly e = false := by unfold Region.tileWaits; rw [hx]; rfl
  have hp : ∀ c, r.portWaits e c = false := fun c => by unfold Region.portWaits; rw [hx]; simp
  have hw : r.memWaiters = [] := by unfold Region.memWaiters; rw [hr]; rfl
  unfold Region.stallCause
  simp [h, ht, hp, hw]

theorem deliverLate_stallCause_idle {r : Region} {e : Nat} (fly : List Nat) (hr : r.accs = [])
    (h : r.deliverLate.nodeHeld e = false) :
    r.deliverLate.stallCause r.memWaiters fly e = (r.deliverLate.node e).cause := by
  rw [deliverLate_idle hr] at h ⊢
  exact stallCause_idle fly hr h

theorem stallOf_fin (el : Elem) (x : Fin 8) : stallOf el x.val = el.stall.get x := by
  have lt : x.val < el.stall.toList.length := by rw [Vector.length_toList]; exact x.isLt
  exact (List.getElem_eq_getD (h := lt) 0).symm

/-- The stall counters of an element after one is set. -/
theorem setStall_get (el : Elem) (k : Nat) (v : BitVec 16) (x : Fin 8) :
    (setStall el k v).stall.get x = if x.val = k then v else el.stall.get x := by
  show (el.stall.setIfInBounds k v)[x.val] = _
  rw [Vector.getElem_setIfInBounds]
  simp only [eq_comm]
  rfl

/-- The node after a tick in which it did not fire. -/
structure Stalled (nd nd' : Node) (copy why : Nat) : Prop where
  frame : { nd' with elems := nd.elems, cleared := nd.cleared } = nd
  cleared : nd'.cleared = []
  others : ∀ j, j ≠ copy → nd'.elem j = nd.elem j
  counts : ∀ x : Fin 8, (nd'.elem copy).stall.get x =
    if x.val = why ∧ (copy, why) ∉ nd.cleared then
      (if (nd.elem copy).stall.get x = 0xFFFF then 0xFFFF else (nd.elem copy).stall.get x + 1)
    else (nd.elem copy).stall.get x

theorem tickNode_fired (r : Region) (ws fly : List Nat) (e : Nat) {nd : Node} (h : nd.fired = true) :
    r.tickNode ws fly e nd = { nd with fired := false, cleared := [] } := by
  unfold Region.tickNode; rw [if_pos h]

theorem tickNode_stalled (r : Region) (ws fly : List Nat) (e : Nat) {nd : Node} (h : nd.fired = false) :
    Stalled nd (r.tickNode ws fly e nd) (nd.fire % nodeRep (r.fields e)) (r.stallCause ws fly e) := by
  unfold Region.tickNode
  rw [if_neg (by simp [h])]
  dsimp only
  have hk : copyOf (r.fields e) nd.fire = nd.fire % nodeRep (r.fields e) := rfl
  rw [hk]
  generalize nd.fire % nodeRep (r.fields e) = copy
  generalize r.stallCause ws fly e = why
  split
  · next hc =>
    have hm : (copy, why) ∈ nd.cleared := by simpa using hc
    exact ⟨rfl, rfl, fun _ _ => rfl, fun x => by rw [if_neg (fun q => q.2 hm)]; rfl⟩
  · next hc =>
    have hm : (copy, why) ∉ nd.cleared := by simpa using hc
    refine ⟨rfl, rfl, fun j hj => Node.setElem_elem_ne _ _ _ _ hj, fun x => ?_⟩
    show ((nd.setElem copy _).elem copy).stall.get x = _
    rw [Node.setElem_elem, setStall_get]
    by_cases hx : x.val = why
    · rw [if_pos hx, if_pos (show x.val = why ∧ (copy, why) ∉ nd.cleared from ⟨hx, hm⟩), ← hx, stallOf_fin]
    · rw [if_neg hx, if_neg (fun q => hx q.1)]

/-! ### A region's tick (R5, R14) -/

/-- A node of a region over a tick: one in a cell that the wave has reached stands still (R381). -/
def Region.nodeTicked (r : Region) (ws fly : List Nat) (e : Nat) (nd : Node) : Node :=
  if (r.cell (r.vcellOf e)).frozen then { nd with cleared := [] } else r.tickNode ws fly e nd

theorem tick_node (r : Region) (fly : List Nat) (now : Nat) {e : Nat} (h : Tab.has r.nodes e = true) :
    (r.tick fly now).node e = r.deliverLate.nodeTicked r.memWaiters fly e (r.deliverLate.node e) :=
  Tab.get_mapVal (r.deliverLate.nodeTicked r.memWaiters fly) r.deliverLate.nodes e {} {} ((deliverLate_only r).2.2 e h)

theorem tick_slot (r : Region) (fly : List Nat) (now v k : Nat) : (r.tick fly now).slot v k = r.slot v k := deliverLate_slot r v k
theorem tick_chans (r : Region) (fly : List Nat) (now : Nat) : (r.tick fly now).chans = r.deliverLate.chans := rfl

/-- What a tick makes of the region of a cue. -/
def State.tickRegion (s : State) (c : Nat) (r : Region) : Region :=
  if r.started && (s.die r.die).power.running then r.tick (s.flying c) (s.cyc.toNat + 1) else { r with now := s.cyc.toNat + 1 }

theorem tickRegion_running {s : State} {c : Nat} {r : Region} (hs : r.started = true) (hp : (s.die r.die).power.running = true) :
    s.tickRegion c r = r.tick (s.flying c) (s.cyc.toNat + 1) := by
  unfold State.tickRegion; rw [hs, hp]; rfl

theorem tickRegion_slot (s : State) (c : Nat) (r : Region) (v k : Nat) : (s.tickRegion c r).slot v k = r.slot v k := by
  unfold State.tickRegion; split
  · exact tick_slot _ _ _ _ _
  · rfl

theorem tickRegion_chans (s : State) (c : Nat) {r : Region} (h : r.accs = []) : (s.tickRegion c r).chans = r.chans := by
  unfold State.tickRegion; split
  · rw [tick_chans, deliverLate_idle h]
  · rfl

/-! ### TICK -/

theorem exec_tick (s : State) : exec .tick s = execTick s := rfl

theorem execTick_waits {s : State} (h : s.due ≠ [] ∨ s.issueOwed = true) : execTick s = .next s := by
  unfold execTick
  rw [if_pos (by simpa using h)]

/-- The state after a tick, but for the steps that the new tick makes due. -/
def State.ticked (u : State) : State :=
  { u with cyc := u.cyc + 1, regions := Tab.mapVal u.tickRegion u.regions, packets := u.packets.filter (fun p => !p.taken) }

/-- The steps that a tick which has begun makes due. -/
def State.broughtDue (u : State) : List (Instr × Actor) :=
  let t := u.cyc.toNat
  (if t % 1024 = 0 then [(.frameBoundary, .none)] else []) ++
    u.regions.flatMap (fun p => p.2.waveSteps p.1 t) ++ u.sleepSteps ++ u.markerSteps t ++ u.promiseSteps t ++ u.netSteps t

theorem execTick_goes {s : State} (hd : s.due = []) (hi : s.issueOwed = false) :
    execTick s = .next { s.judgeTick.ticked with due := s.judgeTick.ticked.broughtDue } := by
  unfold execTick
  rw [if_neg (by simp [hd, hi])]
  rfl

/-- A frame's first tick runs its boundary before anything else that it brings. -/
theorem broughtDue_boundary {u : State} (h : u.cyc.toNat % 1024 = 0) : u.broughtDue.head? = some (.frameBoundary, .none) := by
  unfold State.broughtDue
  dsimp only
  rw [if_pos h]
  rfl

theorem ticked_only (s : State) : { s.judgeTick.ticked with
    cyc := s.cyc, regions := s.regions, tenants := s.tenants, packets := s.packets } = s := by
  have h := congrArg (fun t : State => { t with cyc := s.cyc, packets := s.packets }) (judgeTick_only s)
  exact h

theorem ticked_tenant (s : State) (k : Nat) : s.judgeTick.ticked.tenant k = (s.tenant k).judgeAll := by
  show Tab.get s.judgeTick.tenants k {} = _
  rw [judgeTick_tenants]
  exact Tab.get_mapVal_default _ _ _ _ (judgeAll_idle rfl)

/-- A region that stands before the tick, after it. -/
theorem ticked_region {s : State} {c : Nat} (h : Tab.has s.regions c = true) :
    s.judgeTick.ticked.region c = s.judgeTick.tickRegion c (s.judgeTick.region c) :=
  Tab.get_mapVal _ _ _ _ _ (((judgeTick_grants s).2 c).2 h)

theorem ticked_slot {s : State} {c : Nat} (h : Tab.has s.regions c = true) (v k : Nat) :
    (s.judgeTick.ticked.region c).slot v k = (s.region c).slot v k := by
  rw [ticked_region h, tickRegion_slot]
  unfold Region.slot Region.cell
  rw [((judgeTick_grants s).2 c).1]
  rfl

/-! A node of a running region after a tick. -/

section
variable {s : State} {c e : Nat} {r : Region} (h : Tab.has s.regions c = true) (hr : s.judgeTick.region c = r)
  (hs : r.started = true) (hp : (s.die r.die).power.running = true) (he : Tab.has r.nodes e = true)
include h hr hs hp he

theorem ticked_node : (s.judgeTick.ticked.region c).node e =
    r.deliverLate.nodeTicked r.memWaiters (s.flying c) e (r.deliverLate.node e) := by
  rw [ticked_region h, hr, tickRegion_running hs (by rw [judgeTick_die]; exact hp), tick_node _ _ _ he, judgeTick_flying]

theorem ticked_node_frozen (hz : (r.deliverLate.cell (r.vcellOf e)).frozen = true) :
    (s.judgeTick.ticked.region c).node e = { r.deliverLate.node e with cleared := [] } := by
  rw [ticked_node h hr hs hp he, Region.nodeTicked, deliverLate_vcellOf, if_pos hz]

theorem ticked_node_runs (hz : (r.deliverLate.cell (r.vcellOf e)).frozen = false) :
    (s.judgeTick.ticked.region c).node e = r.deliverLate.tickNode r.memWaiters (s.flying c) e (r.deliverLate.node e) := by
  rw [ticked_node h hr hs hp he, Region.nodeTicked, deliverLate_vcellOf, if_neg (by rw [hz]; decide)]

theorem ticked_node_fired (hz : (r.deliverLate.cell (r.vcellOf e)).frozen = false) (hf : (r.deliverLate.node e).fired = true) :
    (s.judgeTick.ticked.region c).node e = { r.deliverLate.node e with fired := false, cleared := [] } := by
  rw [ticked_node_runs h hr hs hp he hz, tickNode_fired _ _ _ _ hf]

theorem ticked_node_stalled (hz : (r.deliverLate.cell (r.vcellOf e)).frozen = false)
    (hf : (r.deliverLate.node e).fired = false) :
    Stalled (r.deliverLate.node e) ((s.judgeTick.ticked.region c).node e) ((r.deliverLate.node e).fire % nodeRep (r.fields e))
      (r.deliverLate.stallCause r.memWaiters (s.flying c) e) := by
  rw [ticked_node_runs h hr hs hp he hz, ← deliverLate_fields]
  exact tickNode_stalled _ _ _ _ hf
end

/-! ### Dies at a frame boundary (R290, R353, R401) -/

/-- Granting leaves touches the units left, the queue and the grants. -/
theorem grantLeave_only (k : Nat) (b : Bool) (d : Die) :
    { grantLeave k b d with left := d.left, leaveQ := d.leaveQ, leaveGranted := d.leaveGranted } = d := by
  induction k generalizing d with
  | zero => rfl
  | succ k ih =>
    unfold grantLeave
    split
    · rfl
    · next q rest _ =>
      split
      · have h := congrArg (fun x : Die => { x with left := d.left, leaveQ := d.leaveQ, leaveGranted := d.leaveGranted })
          (ih { d with left := d.left - q.units, leaveQ := rest, leaveGranted := d.leaveGranted ++ [q.who] })
        exact h
      · split <;> rfl

/-- What of a die a boundary fixes. -/
structure Renewed (d d' : Die) : Prop where
  lb : d'.lb = d.lbPending.getD d.lb
  lbPending : d'.lbPending = none
  fq : d'.fq = d.fqPending.getD d.fq
  fqPending : d'.fqPending = none
  moving : d'.moving = d.target.isSome
  power : d'.power = d.power
  sound : d'.sound = d.sound
  left : d.leaveQ = [] → d'.left = d'.lb

theorem atBoundary_renewed (d : Die) : Renewed d d.atBoundary := by
  have only := grantLeave_only d.leaveQ.length true
    { d with lb := d.lbPending.getD d.lb, lbPending := none, fq := d.fqPending.getD d.fq, fqPending := none
             left := d.lbPending.getD d.lb, moving := d.target.isSome }
  have keeps {α : Type} (g : Die → α) := congrArg g only
  refine ⟨keeps Die.lb, keeps Die.lbPending, keeps Die.fq, keeps Die.fqPending, keeps Die.moving, keeps Die.power,
    keeps Die.sound, fun h => ?_⟩
  unfold Die.atBoundary
  rw [h]
  rfl

/-! ### Quota at a frame boundary (R353) -/

/-- Every port has its quota again. -/
def State.quotaBack (s : State) : State := { s with pcells := Tab.mapVal (fun _ (p : PCell) => { p with used := 0 }) s.pcells }

theorem resetQuota_eq (s : State) : s.resetQuota = (s.packets.filter s.longHead).foldl State.letLong s.quotaBack := rfl

theorem quotaBack_pcell (s : State) (d site : Nat) : s.quotaBack.pcell d site = { s.pcell d site with used := 0 } :=
  Tab.get_mapVal_default (fun p : PCell => { p with used := 0 }) s.pcells _ {} rfl

theorem setPcell_pcell (s : State) (d i : Nat) (q : PCell) (d' i' : Nat) :
    (s.setPcell d i q).pcell d' i' = if cellNo d' i' = cellNo d i then q else s.pcell d' i' := Tab.get_set _ _ _ _ _

/-- The site that a packet is presented at is one of the package's. -/
def Packet.atSite (p : Packet) : Prop := p.srcDie ≤ 3 ∧ p.srcSite < 576

theorem srcDie_of_cellNo {p q : Packet} (hp : p.atSite) (hq : q.atSite)
    (h : cellNo p.srcDie p.srcSite = cellNo q.srcDie q.srcSite) : p.srcDie = q.srcDie := by
  obtain ⟨-, hp⟩ := hp
  obtain ⟨-, hq⟩ := hq
  unfold cellNo at h
  omega

/-- What letting packets go leaves alone: everything but the packets and the quota used at the ports. -/
def QuotaOnly (s t : State) : Prop :=
  { t with packets := s.packets, pcells := s.pcells } = s ∧ ∀ d site, (t.pcell d site).rleft = (s.pcell d site).rleft

theorem QuotaOnly.refl (s : State) : QuotaOnly s s := ⟨rfl, fun _ _ => rfl⟩
theorem QuotaOnly.trans {s t u : State} (h : QuotaOnly s t) (k : QuotaOnly t u) : QuotaOnly s u := by
  refine ⟨?_, fun d site => (k.2 d site).trans (h.2 d site)⟩
  rw [← h.1, ← k.1]
theorem QuotaOnly.die {s t : State} (h : QuotaOnly s t) (d : Nat) : t.die d = s.die d := by
  have := congrArg (fun u : State => u.die d) h.1; exact this

theorem letLong_pcell (s : State) (p : Packet) (d site : Nat) : (s.letLong p).pcell d site =
    if cellNo d site = cellNo p.srcDie p.srcSite then { s.pcell p.srcDie p.srcSite with used := (s.die p.srcDie).fq }
    else s.pcell d site := setPcell_pcell _ _ _ _ _ _

theorem letLong_packets (s : State) (p : Packet) :
    (s.letLong p).packets = s.packets.map (fun (q : Packet) => if q.id = p.id then { q with long := true } else q) := rfl

theorem letLong_only (s : State) (p : Packet) : QuotaOnly s (s.letLong p) := by
  refine ⟨rfl, fun d site => ?_⟩
  rw [letLong_pcell]
  split
  · next h => unfold State.pcell; rw [h]
  · rfl

theorem quotaBack_only (s : State) : QuotaOnly s s.quotaBack := ⟨rfl, fun d site => by rw [quotaBack_pcell]⟩

theorem foldl_letLong_only (ps : List Packet) (s : State) : QuotaOnly s (ps.foldl State.letLong s) := by
  induction ps generalizing s with
  | nil => exact .refl s
  | cons p ps ih => exact (letLong_only s p).trans (ih _)

theorem resetQuota_only (s : State) : QuotaOnly s s.resetQuota := by
  rw [resetQuota_eq]; exact (quotaBack_only s).trans (foldl_letLong_only _ _)

/-- With no packet longer than FQ at a head, no quota is used. -/
theorem resetQuota_used {s : State} (h : ∀ p ∈ s.packets, p.len ≤ (s.die p.srcDie).fq) (d site : Nat) :
    (s.resetQuota.pcell d site).used = 0 := by
  have none : s.packets.filter s.longHead = [] := by
    rw [List.filter_eq_nil_iff]
    intro p hp hl
    have hlt : (s.die p.srcDie).fq < p.len := by
      unfold State.longHead at hl
      simp only [Bool.and_eq_true, decide_eq_true_eq] at hl
      exact hl.2
    have := h p hp
    omega
  rw [resetQuota_eq, none]
  show (s.quotaBack.pcell d site).used = 0
  rw [quotaBack_pcell]

/-- A packet has taken the whole quota of its port. -/
def State.takesFrame (s : State) (p : Packet) : Prop := (s.pcell p.srcDie p.srcSite).used = (s.die p.srcDie).fq
/-- A packet with the id of p that a boundary lets go. -/
def State.letGo (s : State) (p : Packet) : Prop := ∃ q ∈ s.packets, q.id = p.id ∧ q.long = true

theorem letLong_takesFrame (s : State) (p : Packet) : (s.letLong p).takesFrame p := by
  unfold State.takesFrame
  rw [letLong_pcell, if_pos rfl]
  rfl

theorem letLong_keeps_takesFrame {s : State} {p q : Packet} (hp : p.atSite) (hq : q.atSite) (h : s.takesFrame p) :
    (s.letLong q).takesFrame p := by
  unfold State.takesFrame
  rw [letLong_pcell]
  split
  · next e => rw [srcDie_of_cellNo hp hq e]; rfl
  · exact h

theorem letLong_letGo {s : State} {p : Packet} (h : ∃ q ∈ s.packets, q.id = p.id) : (s.letLong p).letGo p := by
  obtain ⟨q, hq, e⟩ := h
  refine ⟨{ q with long := true }, ?_, e, rfl⟩
  rw [letLong_packets, List.mem_map]
  exact ⟨q, hq, if_pos e⟩

/-- Letting another packet go takes no packet away, and none that was let go waits again. -/
theorem letLong_keeps {s : State} {q x : Packet} (h : x ∈ s.packets) :
    ∃ y ∈ (s.letLong q).packets, y.id = x.id ∧ (x.long = true → y.long = true) := by
  refine ⟨_, by rw [letLong_packets]; exact List.mem_map_of_mem h, ?_⟩
  split
  · exact ⟨rfl, fun _ => rfl⟩
  · exact ⟨rfl, id⟩

theorem letLong_keeps_letGo {s : State} {p q : Packet} (h : s.letGo p) : (s.letLong q).letGo p := by
  obtain ⟨x, hx, e, l⟩ := h
  obtain ⟨y, hy, e', l'⟩ := letLong_keeps (q := q) hx
  exact ⟨y, hy, e'.trans e, l' l⟩

/-- A packet that is let go, or has been, has the frame's quota once all have been let go. -/
theorem foldl_letLong_done (ps : List Packet) (s : State) (p : Packet) (hp : p.atSite) (hs : ∀ q ∈ ps, q.atSite)
    (hid : ∃ q ∈ s.packets, q.id = p.id) (h : p ∈ ps ∨ (s.takesFrame p ∧ s.letGo p)) :
    (ps.foldl State.letLong s).takesFrame p ∧ (ps.foldl State.letLong s).letGo p := by
  induction ps generalizing s with
  | nil => exact h.resolve_left (by simp)
  | cons q ps ih =>
    have hid' : ∃ x ∈ (s.letLong q).packets, x.id = p.id := by
      obtain ⟨x, hx, e⟩ := hid
      obtain ⟨y, hy, e', -⟩ := letLong_keeps (q := q) hx
      exact ⟨y, hy, e'.trans e⟩
    refine ih (s.letLong q) (fun x hx => hs x (List.mem_cons_of_mem _ hx)) hid' ?_
    rcases h with h | ⟨hu, hl⟩
    · rcases List.mem_cons.mp h with rfl | h
      · exact .inr ⟨letLong_takesFrame s p, letLong_letGo hid⟩
      · exact .inl h
    · exact .inr ⟨letLong_keeps_takesFrame hp (hs q List.mem_cons_self) hu, letLong_keeps_letGo hl⟩

/-- A packet longer than FQ at a head takes the whole quota of its port and goes. -/
theorem resetQuota_long {s : State} {p : Packet} (hp : p ∈ s.packets) (hl : s.longHead p = true)
    (hs : ∀ q ∈ s.packets, q.plane = 0 → q.atSite) : s.resetQuota.takesFrame p ∧ s.resetQuota.letGo p := by
  have plane : ∀ q, s.longHead q = true → q.plane = 0 := fun q hq => by
    unfold State.longHead at hq
    simp only [Bool.and_eq_true, beq_iff_eq] at hq
    exact hq.1.1.1.1
  rw [resetQuota_eq]
  refine foldl_letLong_done _ _ p (hs p hp (plane p hl)) (fun q hq => ?_) ⟨p, hp, rfl⟩ (.inl (List.mem_filter.mpr ⟨hp, hl⟩))
  obtain ⟨hq, hql⟩ := List.mem_filter.mp hq
  exact hs q hq (plane q hql)

/-! ### Buckets at a frame boundary (R354, R355) -/

theorem takeShare_none {t : Tenant} (h : t.sharePending = none) : t.takeShare = t := by
  unfold Tenant.takeShare; rw [h]

theorem bucketUpdate_eq {s : State} (h : ∀ p ∈ s.tenants, p.2.sharePending = none) : s.bucketUpdate =
    { s with tenants := Tab.mapVal (fun _ (t : Tenant) => t.atBoundary s.bucketPool s.demandShares) s.tenants } := by
  have e : Tab.mapVal (fun _ (t : Tenant) => t.takeShare) s.tenants = s.tenants :=
    Tab.mapVal_id _ _ (fun p hp => takeShare_none (h p hp))
  unfold State.bucketUpdate
  rw [e]

theorem atBoundary_unthrottled {t : Tenant} (pool d : Nat) (h : t.share = 2 ^ 64 - 1) : t.atBoundary pool d = t := by
  unfold Tenant.atBoundary Tenant.unthrottled
  rw [if_pos (by rw [h]; rfl)]

/-- A throttled tenant for which nobody waits. -/
theorem atBoundary_idle {t : Tenant} (pool d : Nat) (h : t.share ≠ 2 ^ 64 - 1) (hw : t.waiters = []) :
    t.atBoundary pool d = { t with demand := false, bkt := t.refill pool d } := by
  have e : t.atBoundary pool d = { t with demand := false, bkt := t.refill pool d, waiters := [] } := by
    unfold Tenant.atBoundary Tenant.unthrottled
    rw [if_neg (by simpa using h), hw]
    rfl
  rw [e, ← hw]

/-! ### Regions at a frame boundary -/

/-- No region has started. -/
def State.noneStarted (s : State) : Prop := ∀ c, (s.region c).started = false

theorem regionBoundary_quiet {s : State} (h : s.noneStarted) (c : Nat) :
    { s.regionBoundary c with regions := s.regions } = s ∧ (s.regionBoundary c).noneStarted := by
  have e : s.regionBoundary c = s.setRegion c { s.region c with
      exchanges := (s.region c).exchanges.map (fun (x : Exchange) => { x with tried := false }) } := by
    unfold State.regionBoundary
    dsimp only
    rw [if_pos]
    rw [State.setRegion_region, h c]
    rfl
  rw [e]
  refine ⟨rfl, fun d => ?_⟩
  by_cases hd : d = c
  · subst hd; rw [State.setRegion_region]; exact h d
  · rw [State.setRegion_region_ne _ _ _ _ hd]; exact h d

theorem foldl_regionBoundary_quiet (cs : List Nat) {s : State} (h : s.noneStarted) :
    { cs.foldl State.regionBoundary s with regions := s.regions } = s := by
  induction cs generalizing s with
  | nil => rfl
  | cons c cs ih =>
    obtain ⟨only, quiet⟩ := regionBoundary_quiet h c
    have h := congrArg (fun t : State => { t with regions := s.regions }) (ih quiet)
    exact h.trans only

/-! ### Windows at a frame boundary (R397) -/

/-- The window waits for a place or for memory, so that its command is tried again. -/
def Win.retries (q : Win) : Prop := ∃ v c, ∃ i ∈ ([.replaceCmd v c, .debugCmd v c, .attestCmd v c, .incqCmd v c, .soundSetCmd v c,
  .soundQueryCmd v c, .fwloadCmd v c, .unloadForceCmd v c] : List Instr), q.busy = some i
/-- The window waits for the boundary. -/
def Win.tillBoundary (q : Win) : Prop :=
  ∃ v c, q.busy = some (.shareCmd v c) ∨ q.busy = some (.leaveCmd v c) ∨ q.busy = some (.quotaCmd v c)
/-- The window reports its command as DONE. -/
def Win.isDone (q : Win) : Prop := q.state = 2 ∧ q.result = 0 ∧ q.busy = none

theorem pollWindow_tillBoundary {s : State} {w : Nat} (h : (s.win w).tillBoundary) : s.pollWindow w = s.finish w resOk := by
  obtain ⟨v, c, h | h | h⟩ := h <;> unfold State.pollWindow <;> rw [h]

theorem pollWindow_free {s : State} {w : Nat} (h : (s.win w).busy = none) : s.pollWindow w = s := by
  unfold State.pollWindow; rw [h]

/-- A window whose command is not tried again stays as it is or is DONE. -/
theorem pollWindow_cases {s : State} {w : Nat} (h : ¬(s.win w).retries) : s.pollWindow w = s ∨ s.pollWindow w = s.finish w resOk := by
  have no : ∀ v c i, i ∈ ([.replaceCmd v c, .debugCmd v c, .attestCmd v c, .incqCmd v c, .soundSetCmd v c, .soundQueryCmd v c,
      .fwloadCmd v c, .unloadForceCmd v c] : List Instr) → (s.win w).busy ≠ some i := fun v c i hi e => h ⟨v, c, i, hi, e⟩
  unfold State.pollWindow
  split
  · exact .inr rfl
  · exact .inr rfl
  · exact .inr rfl
  · split
    · exact .inr rfl
    · exact .inl rfl
  iterate 8 next v c e => exact absurd e (no v c _ (by simp))
  · exact .inl rfl

/-- Polling a window reaches only that window, and leaves no window with a command to be tried again that had none. -/
theorem pollWindow_only {s : State} (h : ∀ v, ¬(s.win v).retries) (w : Nat) :
    { s.pollWindow w with windows := s.windows } = s ∧ (∀ v, v ≠ w → (s.pollWindow w).win v = s.win v) ∧
    ∀ v, ¬((s.pollWindow w).win v).retries := by
  obtain e | e := pollWindow_cases (h w) <;> rw [e]
  · exact ⟨rfl, fun _ _ => rfl, h⟩
  · refine ⟨rfl, fun v hv => State.setWin_win_ne _ _ _ _ hv, fun v => ?_⟩
    by_cases hv : v = w
    · subst hv
      rintro ⟨_, _, i, -, hb⟩
      rw [State.finish, State.setWin_win] at hb
      cases hb
    · rw [State.finish, State.setWin_win_ne _ _ _ _ hv]; exact h v

theorem foldl_pollWindow_only (ws : List Nat) {s : State} (h : ∀ v, ¬(s.win v).retries) :
    { ws.foldl State.pollWindow s with windows := s.windows } = s := by
  induction ws generalizing s with
  | nil => rfl
  | cons w ws ih =>
    obtain ⟨only, -, quiet⟩ := pollWindow_only h w
    have h := congrArg (fun t : State => { t with windows := s.windows }) (ih quiet)
    exact h.trans only

theorem finish_isDone (s : State) (w : Nat) : ((s.finish w resOk).win w).isDone := by
  rw [State.finish, State.setWin_win]; exact ⟨rfl, rfl, rfl⟩

/-- A window that waits for the boundary, or is DONE, is DONE once it has been polled. -/
theorem foldl_pollWindow_done (ws : List Nat) {s : State} (h : ∀ v, ¬(s.win v).retries) (w : Nat)
    (hw : (s.win w).isDone ∨ (w ∈ ws ∧ (s.win w).tillBoundary)) : ((ws.foldl State.pollWindow s).win w).isDone := by
  induction ws generalizing s with
  | nil => exact hw.resolve_right (by simp)
  | cons v ws ih =>
    obtain ⟨-, others, quiet⟩ := pollWindow_only h v
    refine ih quiet ?_
    by_cases e : w = v
    · subst e
      left
      rcases hw with hd | ⟨-, hb⟩
      · rw [pollWindow_free hd.2.2]; exact hd
      · rw [pollWindow_tillBoundary hb]; exact finish_isDone s w
    · rw [others w e]
      exact hw.imp_right (fun q => ⟨(List.mem_cons.mp q.1).resolve_left e, q.2⟩)

theorem pollWindows_only {s : State} (h : ∀ v, ¬(s.win v).retries) : { s.pollWindows with windows := s.windows } = s := by
  unfold State.pollWindows
  generalize List.range 16 = ws
  exact foldl_pollWindow_only ws h

theorem pollWindows_done {s : State} (h : ∀ v, ¬(s.win v).retries) {w : Nat} (hw : w ≤ 15) (hb : (s.win w).tillBoundary) :
    (s.pollWindows.win w).isDone := by
  have hm : w ∈ List.range 16 := List.mem_range.mpr (by omega)
  unfold State.pollWindows
  generalize List.range 16 = ws at hm
  exact foldl_pollWindow_done ws h w (.inr ⟨hm, hb⟩)

/-! ### FRAME_BOUNDARY -/

theorem exec_frameBoundary (s : State) : exec .frameBoundary s = execFrameBoundary s := rfl

theorem execFrameBoundary_waits {s : State} (h : s.cyc.toNat % 1024 ≠ 0 ∨ s.framed = s.cyc.toNat / 1024) :
    execFrameBoundary s = .next s := by
  unfold execFrameBoundary
  dsimp only
  rw [if_pos h]

/-- The dies at a boundary. -/
def State.diesRenewed (s : State) : State :=
  { s with framed := s.cyc.toNat / 1024, dies := Tab.mapVal (fun _ (d : Die) => d.atBoundary) s.dies }
/-- Then the quotas and buckets. -/
def State.refilled (s : State) : State := s.diesRenewed.resetQuota.bucketUpdate
/-- Then the regions. -/
def State.regionsPolled (s : State) : State := (Tab.keys s.refilled.regions).foldl State.regionBoundary s.refilled
/-- Then the windows. -/
def State.polled (s : State) : State := s.regionsPolled.pollWindows

theorem execFrameBoundary_goes {s : State} (h : s.cyc.toNat % 1024 = 0) (hf : s.framed ≠ s.cyc.toNat / 1024) :
    ∃ due, execFrameBoundary s = .next { s.polled with due := due } := by
  unfold execFrameBoundary
  dsimp only
  rw [if_neg (fun q => q.elim (fun a => a h) hf)]
  exact ⟨_, rfl⟩

theorem diesRenewed_die {s : State} {d : Nat} (h : Tab.has s.dies d = true) : Renewed (s.die d) (s.diesRenewed.die d) := by
  have e : s.diesRenewed.die d = (s.die d).atBoundary :=
    Tab.get_mapVal (fun _ (d : Die) => d.atBoundary) s.dies d {} {} h
  rw [e]; exact atBoundary_renewed _

/-! Dies, quotas and buckets aside, nothing has changed. -/

theorem refilled_keeps {α : Type} (g : State → α) (s : State) : g { s.refilled with
    framed := s.framed, dies := s.dies, packets := s.packets, pcells := s.pcells, tenants := s.tenants } = g s := by
  have h := congrArg (fun t : State => g { t with framed := s.framed, dies := s.dies, tenants := s.tenants })
    (resetQuota_only s.diesRenewed).1
  exact h
theorem refilled_framed (s : State) : s.refilled.framed = s.cyc.toNat / 1024 := by
  have h := congrArg State.framed (resetQuota_only s.diesRenewed).1; exact h
theorem refilled_die (s : State) (d : Nat) : s.refilled.die d = s.diesRenewed.die d := (resetQuota_only s.diesRenewed).die d

theorem refilled_renewed {s : State} {d : Nat} (h : Tab.has s.dies d = true) : Renewed (s.die d) (s.refilled.die d) := by
  rw [refilled_die]; exact diesRenewed_die h

theorem refilled_rleft (s : State) (d site : Nat) : (s.refilled.pcell d site).rleft = (s.pcell d site).rleft :=
  (resetQuota_only s.diesRenewed).2 d site

theorem refilled_used {s : State} (h : ∀ p ∈ s.packets, p.len ≤ (s.refilled.die p.srcDie).fq) (d site : Nat) :
    (s.refilled.pcell d site).used = 0 :=
  resetQuota_used (s := s.diesRenewed) (fun p hp => by rw [← refilled_die]; exact h p hp) d site

/-- A packet longer than FQ that nothing else holds at its port, at a boundary. -/
theorem refilled_long {s : State} {p : Packet} (hp : p ∈ s.packets) (hplane : p.plane = 0) (hinj : p.injected = false)
    (hhead : s.portHead p = true) (hheld : s.injectHeld p = false) (hlong : (s.refilled.die p.srcDie).fq < p.len)
    (hs : ∀ q ∈ s.packets, q.plane = 0 → q.atSite) : s.refilled.takesFrame p ∧ s.refilled.letGo p := by
  have head : s.diesRenewed.portHead p = true := hhead
  have held : s.diesRenewed.injectHeld p = false := hheld
  rw [refilled_die] at hlong
  have long : s.diesRenewed.longHead p = true := by
    unfold State.longHead
    rw [hplane, hinj, head, held, decide_eq_true hlong]
    rfl
  exact resetQuota_long (s := s.diesRenewed) hp long hs

theorem refilled_tenant {s : State} {k : Nat} (hs : ∀ p ∈ s.tenants, p.2.sharePending = none) (hk : Tab.has s.tenants k = true) :
    s.refilled.tenant k = (s.tenant k).atBoundary s.bucketPool s.demandShares := by
  have e : s.diesRenewed.resetQuota.tenants = s.tenants := by
    have h := congrArg State.tenants (resetQuota_only s.diesRenewed).1; exact h
  have hp : s.diesRenewed.resetQuota.bucketPool = s.bucketPool := by unfold State.bucketPool State.throttled; rw [e]
  have hd : s.diesRenewed.resetQuota.demandShares = s.demandShares := by unfold State.demandShares State.throttled; rw [e]
  unfold State.refilled
  rw [bucketUpdate_eq (by rw [e]; exact hs), hp, hd, e]
  exact Tab.get_mapVal (fun _ (t : Tenant) => t.atBoundary s.bucketPool s.demandShares) s.tenants k {} {} hk

/-! Where no region has started and no window's command is tried again, the rest of the boundary reaches regions and windows. -/

theorem regionsPolled_only {s : State} (hr : s.noneStarted) : { s.regionsPolled with regions := s.refilled.regions } = s.refilled := by
  have e : s.refilled.regions = s.regions := refilled_keeps State.regions s
  have quiet : s.refilled.noneStarted := by unfold State.noneStarted State.region; rw [e]; exact hr
  exact foldl_regionBoundary_quiet _ quiet

theorem regionsPolled_win {s : State} (hr : s.noneStarted) (w : Nat) : s.regionsPolled.win w = s.win w :=
  (congrArg (fun t : State => t.win w) (regionsPolled_only hr)).trans (refilled_keeps (fun t => t.win w) s)

/-- Only regions and windows differ. -/
def PollOnly (s t : State) : Prop := { t with regions := s.regions, windows := s.windows } = s

section
variable {s t u : State}

/-- A change of regions, then one of windows. -/
theorem PollOnly.of_two (hr : { u with regions := s.regions } = s) (hw : { t with windows := u.windows } = u) : PollOnly s t := by
  unfold PollOnly
  rw [← hr, ← hw]
theorem PollOnly.framed (h : PollOnly s t) : t.framed = s.framed := by have e := congrArg State.framed h; exact e
theorem PollOnly.mem (h : PollOnly s t) : t.mem = s.mem := by have e := congrArg State.mem h; exact e
theorem PollOnly.cues (h : PollOnly s t) : t.cues = s.cues := by have e := congrArg State.cues h; exact e
theorem PollOnly.packets (h : PollOnly s t) : t.packets = s.packets := by have e := congrArg State.packets h; exact e
theorem PollOnly.die (h : PollOnly s t) (d : Nat) : t.die d = s.die d := by
  have e := congrArg (fun q : State => q.die d) h; exact e
theorem PollOnly.pcell (h : PollOnly s t) (d site : Nat) : t.pcell d site = s.pcell d site := by
  have e := congrArg (fun q : State => q.pcell d site) h; exact e
theorem PollOnly.tenant (h : PollOnly s t) (k : Nat) : t.tenant k = s.tenant k := by
  have e := congrArg (fun q : State => q.tenant k) h; exact e
end

theorem polled_only {s : State} (hr : s.noneStarted) (hw : ∀ v, ¬(s.win v).retries) : PollOnly s.refilled s.polled :=
  .of_two (regionsPolled_only hr) (pollWindows_only (fun v => by rw [regionsPolled_win hr]; exact hw v))

theorem polled_isDone {s : State} (hr : s.noneStarted) (hw : ∀ v, ¬(s.win v).retries) {w : Nat} (h : w ≤ 15)
    (hb : (s.win w).tillBoundary) : (s.polled.win w).isDone := by
  refine pollWindows_done (fun v => ?_) h ?_ <;> rw [regionsPolled_win hr]
  · exact hw v
  · exact hb

/-! ### The statement -/

/-- Settles O44: TICK judges the bucket requests, counts CYC and gives each node that has not fired one stall count; FRAME_BOUNDARY
renews dies, quotas and buckets and polls the windows. -/
theorem timeEvents : Obligations.TimeEvents := by
  intro s u
  refine ⟨fun h => ⟨s, by rw [exec_tick, execTick_waits h], rfl⟩, judgeTick_idle, fun hd hi => ?_,
    fun h => ⟨s, by rw [exec_frameBoundary, execFrameBoundary_waits h], rfl⟩, ?_⟩
  · refine ⟨_, (exec_tick s).trans (execTick_goes hd hi), congrArg (· + 1) (judgeTick_cyc s), ?_, ticked_tenant s,
      congrArg (List.filter _) (judgeTick_packets s), fun h => broughtDue_boundary h, fun c hc => ?_⟩
    · have h := congrArg (fun t : State => { t with due := s.due }) (ticked_only s); exact h
    · intro r r'
      refine ⟨ticked_slot hc, fun ha => ⟨deliverLate_idle ha, ?_⟩, fun hs hp e he => ?_⟩
      · exact (congrArg Region.chans (ticked_region hc)).trans (tickRegion_chans _ _ ha)
      · intro nd copy why
        refine ⟨stallCause_held _ _, deliverLate_stallCause_idle _, ticked_node_frozen hc rfl hs hp he,
          ticked_node_fired hc rfl hs hp he, fun hz hf => ?_⟩
        obtain ⟨frame, cleared, others, counts⟩ := ticked_node_stalled hc rfl hs hp he hz hf
        exact ⟨frame, cleared, others, counts⟩
  · intro h0 hf hs hp' hn busyTill throttled pool wants
    have hr : s.noneStarted := fun c => Tab.get_of_all (fun r : Region => r.started = false) s.regions c {} rfl hs
    have hw : ∀ v, ¬(s.win v).retries := fun w ⟨v, c, i, hi, hb⟩ => hn w v c i hi hb
    have only := polled_only hr hw
    have windows : ∀ w, w ≤ 15 → (s.win w).tillBoundary → (s.polled.win w).isDone := fun w => polled_isDone hr hw
    obtain ⟨due, hx⟩ := execFrameBoundary_goes h0 hf
    refine ⟨_, (exec_frameBoundary s).trans hx, ?_⟩
    clear hx
    generalize s.polled = t at only windows
    refine ⟨only.framed.trans (refilled_framed s), fun a => ?_, only.cues.trans (refilled_keeps State.cues s), fun d hd => ?_,
      fun d site _ _ => ⟨?_, fun hlen => ?_⟩, fun p hp hplane hinj hhead hheld hlong hsites => ?_, fun k hk hwait => ?_, windows⟩
    · exact congrArg (fun m => memGet m a) (only.mem.trans (refilled_keeps State.mem s))
    · have renewed := refilled_renewed hd
      rw [← only.die] at renewed
      obtain ⟨lb, lbPending, fq, fqPending, moving, power, sound, left⟩ := renewed
      exact ⟨lb, lbPending, fq, fqPending, moving, power, sound, left⟩
    · exact (congrArg PCell.rleft (only.pcell d site)).trans (refilled_rleft s d site)
    · have used := refilled_used (s := s) (fun p hp => by rw [← only.die]; exact hlen p hp) d site
      exact (congrArg PCell.used (only.pcell d site)).trans used
    · have hlong' : (s.refilled.die p.srcDie).fq < p.len := by rw [← only.die]; exact hlong
      obtain ⟨takes, go⟩ := refilled_long hp hplane hinj hhead hheld hlong' hsites
      unfold State.takesFrame at takes
      unfold State.letGo at go
      rw [← only.pcell, ← only.die] at takes
      rw [← only.packets] at go
      exact ⟨takes, go⟩
    · have tenant := (only.tenant k).trans (refilled_tenant hp' hk)
      refine ⟨fun hmax => ?_, fun hthr => ?_⟩
      · exact tenant.trans (atBoundary_unthrottled _ _ hmax)
      · exact tenant.trans (atBoundary_idle _ _ hthr hwait)

end Sys2Proof.Machine
end

section
/-! SUPPORT. Decode of encode (R60 to R79, R398): the fields that a packed word gives back, and the decoders on packed words. -/

namespace Sys2Proof

/-! ### The fields of a packed task word (R72) -/

section
variable (m : BitVec 6) (d a b : Reg) (fn : BitVec 11) (i : BitVec 16) (o : BitVec 26)

@[simp] theorem wMaj_packTR : wMaj (packTR m d a b fn) = m := by
  simp only [wMaj, packTR, BitVec.extractLsb'_append_eq_ite]; simp
@[simp] theorem wD_packTR : wD (packTR m d a b fn) = d := by
  simp only [wD, packTR, BitVec.extractLsb'_append_eq_ite]; simp
@[simp] theorem wA_packTR : wA (packTR m d a b fn) = a := by
  simp only [wA, packTR, BitVec.extractLsb'_append_eq_ite]; simp
@[simp] theorem wB_packTR : wB (packTR m d a b fn) = b := by
  simp only [wB, packTR, BitVec.extractLsb'_append_eq_ite]; simp
@[simp] theorem wFn_packTR : wFn (packTR m d a b fn) = fn := by
  simp only [wFn, packTR, BitVec.extractLsb'_append_eq_ite]; simp
@[simp] theorem wMaj_packTI : wMaj (packTI m d a i) = m := by
  simp only [wMaj, packTI, BitVec.extractLsb'_append_eq_ite]; simp
@[simp] theorem wD_packTI : wD (packTI m d a i) = d := by
  simp only [wD, packTI, BitVec.extractLsb'_append_eq_ite]; simp
@[simp] theorem wA_packTI : wA (packTI m d a i) = a := by
  simp only [wA, packTI, BitVec.extractLsb'_append_eq_ite]; simp
@[simp] theorem wImm_packTI : wImm (packTI m d a i) = i := by
  simp only [wImm, packTI, BitVec.extractLsb'_append_eq_ite]; simp
@[simp] theorem wMaj_packTJ : wMaj (packTJ m o) = m := by
  simp only [wMaj, packTJ, BitVec.extractLsb'_append_eq_ite]; simp
@[simp] theorem wOff26_packTJ : wOff26 (packTJ m o) = o := by
  simp only [wOff26, packTJ, BitVec.extractLsb'_append_eq_ite]; simp
end

/-! ### Fields of a field (R72, R77, R78) -/

@[simp] theorem vecField_vreg (v : VReg) : vecField (vreg v) = .ok v := by
  simp only [vecField, vreg, BitVec.extractLsb'_append_eq_ite]; simp

theorem fmtOf?_fmtCode (t : Fmt) : Machine.fmtOf? (Machine.fmtCode t) = some t := by cases t <;> rfl

theorem fmtCode_lt (t : Fmt) : Machine.fmtCode t < 16 := by cases t <;> decide

@[simp] theorem toNat_ofNat_fmtCode (t : Fmt) : (BitVec.ofNat 4 (Machine.fmtCode t)).toNat = Machine.fmtCode t :=
  Nat.mod_eq_of_lt (fmtCode_lt t)

theorem ok_bind {α β ε : Type} (x : α) (f : α → Except ε β) : (Except.ok x >>= f) = f x := rfl

/-- A lane format that the function accepts is read back from its code (R204). -/
theorem vecFmt_fmtCode {ok : Nat → Bool} {t : Fmt} (h : ok (Machine.fmtCode t) = true) :
    vecFmt ok (BitVec.ofNat 4 (Machine.fmtCode t)) = .ok t := by
  rw [vecFmt, toNat_ofNat_fmtCode, h, fmtOf?_fmtCode]; rfl

/-! ### Each group of task words on a packed word (R74) -/

section
variable (d a b : Reg) (fn : BitVec 11) (i : BitVec 16)

theorem decodeTask_alu : decodeTask (packTR 0x01 d a b fn) = decodeAlu d a b fn.toNat := by simp [decodeTask]
theorem decodeTask_csr : decodeTask (packTI 0x2C d a i) = decodeCsr d a i := by simp [decodeTask]
theorem decodeTask_vec : decodeTask (packTR 0x30 d a b fn) = decodeVec d a b (fn.extractLsb' 4 7).toNat (fn.extractLsb' 0 4) := by
  simp only [decodeTask, wMaj_packTR, wD_packTR, wA_packTR, wB_packTR, wFn_packTR, BitVec.reduceToNat]
theorem decodeTask_fp : decodeTask (packTR 0x31 d a b fn) = decodeFp d a b fn.toNat := by simp [decodeTask]
theorem decodeTask_atom : decodeTask (packTR 0x34 d a b fn) = decodeAtom d a b fn := by simp [decodeTask]
theorem decodeTask_fence : decodeTask (packTI 0x35 d a i) = decodeFence d a i := by simp [decodeTask]
theorem decodeTask_tile : decodeTask (packTR 0x36 d a b fn) = decodeTile d a b fn := by simp [decodeTask]
theorem decodeTask_chan : decodeTask (packTR 0x37 d a b fn) = decodeChan d a b fn := by simp [decodeTask]
theorem decodeTask_eng : decodeTask (packTR 0x39 d a b fn) = decodeEng d a b fn.toNat := by simp [decodeTask]
theorem decodeTask_barr : decodeTask (packTR 0x3B d a b fn) = decodeBarr d a b fn := by simp [decodeTask]
theorem decodeTask_sys : decodeTask (packTR 0x3C d a b fn) = decodeSys d a b fn.toNat := by simp [decodeTask]
end

/-! ### The decoders' arms on packed fields -/

theorem decodeShift_append (mk : BitVec 6 → Instr) (s : BitVec 6) : decodeShift mk ((0 : BitVec 10) ++ s) = .ok (mk s) := by
  rw [decodeShift, BitVec.extractLsb'_append_eq_left, BitVec.extractLsb'_append_eq_right]; rfl

theorem decodeVmem_vreg (mk : VReg → Instr) (v : VReg) : decodeVmem mk (vreg v) = .ok (mk v) := by
  rw [decodeVmem, vecField_vreg]; rfl

theorem decodeTm_le (i : Instr) {f l : Reg} (h : f.toNat ≤ l.toNat) : decodeTm i f l 0 = .ok i := by
  rw [decodeTm, if_pos h]; rfl

theorem decodeTask_packTV (d a b : Reg) (f : BitVec 7) (t : Fmt) :
    decodeTask (packTV d a b f t) = decodeVec d a b f.toNat (BitVec.ofNat 4 (Machine.fmtCode t)) := by
  rw [packTV, decodeTask_vec, BitVec.extractLsb'_append_eq_left, BitVec.extractLsb'_append_eq_right]

/-- A lane-wise function of three vector registers (R205). -/
theorem vec3_vreg (mk : VReg → VReg → VReg → Fmt → Instr) {ok : Nat → Bool} (d a b : VReg) {t : Fmt}
    (h : ok (Machine.fmtCode t) = true) :
    vec3 mk ok (vreg d) (vreg a) (vreg b) (BitVec.ofNat 4 (Machine.fmtCode t)) = .ok (mk d a b t) := by
  rw [vec3, vecField_vreg, vecField_vreg, vecField_vreg, vecFmt_fmtCode h]; rfl

/-! ### Task words (R71 to R79) -/

/-- The word of a task instruction decodes to it: by the decoder's groups. -/
theorem decodeTask_encodeTask {i : Instr} {w : BitVec 32} (hf : taskFieldsOk i = true) (hw : encodeTask i = some w) :
    decodeTask w = .ok i := by
  cases i
  all_goals cases hw
  case add | sub | and | or | xor | sll | srl | sra | slt | sltu | min | max | mul | mulh | div | divu | rem | divt | clz | popc =>
    exact decodeTask_alu ..
  case fadd | fsub | fmul | fdiv | fsqrt | flt | fcvtif | fcvtfi => exact decodeTask_fp ..
  case flyc | wngc => exact decodeTask_eng ..
  case ecall | eret | brk => exact decodeTask_sys ..
  case slli | srli | srai =>
    simp only [packShift, decodeTask, wMaj_packTI, wD_packTI, wA_packTI, wImm_packTI, BitVec.reduceToNat, decodeShift_append]
  case vld | vst =>
    simp only [decodeTask, wMaj_packTI, wD_packTI, wA_packTI, wImm_packTI, BitVec.reduceToNat, decodeVmem_vreg]
  case pushm | popm =>
    simp only [decodeTask, wMaj_packTI, wD_packTI, wA_packTI, wImm_packTI, BitVec.reduceToNat, decodeTm_le _ (of_decide_eq_true hf)]
  case addi | andi | ori | xori | slti | lui | lhi | ldb | ldbu | ldh | ldhu | ldw | ldwu | ldd | stb | sth | stw | std | beq | bne |
      blt | bge | bltu | bgeu | j | jal | jalr | sleepuntil | tload =>
    simp [decodeTask, needZero]
  case vadd | vsub | vmul | vfma | vmin | vmax | vand | vor | vshl | vshr | veq | vlt =>
    exact (decodeTask_packTV ..).trans (vec3_vreg _ _ _ _ hf)
  case vsplat | vget | vput =>
    simp only [decodeTask_packTV, decodeVec, BitVec.reduceToNat, vecField_vreg, vecFmt_fmtCode (ok := vfmtMove) hf, ok_bind]
    rfl
  case vrsum =>
    simp only [decodeTask_packTV, decodeVec, BitVec.reduceToNat, vecField_vreg, vecFmt_fmtCode (ok := vfmtArith) hf, ok_bind]
    rfl
  case vcvt =>
    obtain ⟨hu, ht⟩ := Bool.and_eq_true_iff.mp hf
    simp only [decodeTask_packTV, decodeVec, BitVec.reduceToNat, vecField_vreg, vecFmt_fmtCode hu, vecFmt_fmtCode ht, ok_bind]
    rfl
  -- The groups whose function field is itself packed: CSR, ATOM, FENCE, TILE, CHAN and BARR (R78).
  case csrr | csrw | csrs | csrc | aadd | amax | amin | aand | aor | aswp | acas | afadd | amaxa | fenceAcq | fenceRel | fenceFull |
      tflip | twait | recv | recvv | send | sendv | sendp | maskc | unmaskc | bara | barw | baraw =>
    simp only [packCsr, decodeTask_csr, decodeCsr, packAtom, decodeTask_atom, decodeAtom, packFence, decodeTask_fence, decodeFence,
      decodeTask_tile, decodeTile, packChan, decodeTask_chan, decodeChan, packBarr, decodeTask_barr, decodeBarr, vecField_vreg,
      ok_bind, BitVec.extractLsb'_append_eq_ite]
    simp [needZero]

/-- A task instruction has no other encoding. -/
theorem encodeTask_alone {i : Instr} {w : BitVec 32} (hw : encodeTask i = some w) :
    encodeEntry i = none ∧ commandBytes i = none := by
  cases i
  all_goals cases hw
  all_goals exact ⟨rfl, rfl⟩

/-! ### Script entries (R60 to R68) -/

/-- The opcode of a firing is a byte, names its instruction, and is that of no command. -/
theorem nodeOf_opcOf {i : Instr} {opc : Nat} {n : NodeF} (h : opcOf i = some (opc, n)) :
    nodeOf opc n = some i ∧ opc < 256 ∧ commandBytes i = none := by
  cases i
  all_goals cases h
  all_goals exact ⟨rfl, by decide, rfl⟩

/-- No opcode takes more than three extension words (R68). -/
theorem nodeRow_xmax_le {opc : Nat} {row : NodeRow} (h : nodeRow opc = some row) : row.xmax ≤ 3 := by
  unfold nodeRow at h
  split at h
  all_goals cases h
  all_goals decide

@[simp] theorem packOpnd_dist (o : Opnd) : (packOpnd o).extractLsb' 2 18 = o.dist := BitVec.extractLsb'_append_eq_left
@[simp] theorem packOpnd_port (o : Opnd) : (packOpnd o).extractLsb' 0 2 = o.port := BitVec.extractLsb'_append_eq_right

theorem packW0_opcode (opc : BitVec 8) (n : NodeF) : (packW0 opc n).extractLsb' 56 8 = opc := by
  simp (disch := decide) only [packW0, BitVec.extractLsb'_append_eq_of_le, Nat.reduceSub, BitVec.extractLsb'_eq_self]

theorem packW1_reserved (n : NodeF) : (packW1 n).extractLsb' 62 2 = 0 := by
  simp (disch := decide) only [packW1, BitVec.extractLsb'_append_eq_of_le, Nat.reduceSub, BitVec.extractLsb'_eq_self]

theorem packW1_length (n : NodeF) : (packW1 n).extractLsb' 0 2 = BitVec.ofNat 2 n.ext.length :=
  BitVec.extractLsb'_append_eq_right

/-- The two packed words give back every field of the entry (R61, R62). -/
theorem entryFields_pack (opc : BitVec 8) (n : NodeF) : entryFields (packW0 opc n) (packW1 n) n.ext = n := by
  simp (disch := decide) only [entryFields, packW0, packW1, BitVec.extractLsb'_append_eq_of_le,
    BitVec.extractLsb'_append_eq_of_add_le, Nat.reduceSub, BitVec.extractLsb'_eq_self, packOpnd_dist, packOpnd_port]

/-- R60, R62, R66: the packed words, with the extension words behind them, are split off as one entry. -/
theorem decodeEntry_pack {opc : Nat} {n : NodeF} {i : Instr} (hi : nodeOf opc n = some i) (ho : opc < 256) (hx : n.ext.length ≤ 3)
    (rest : List Word) :
    decodeEntry (packW0 (BitVec.ofNat 8 opc) n :: packW1 n :: (n.ext ++ rest)) = .ok (i, rest) := by
  have opcode : (BitVec.ofNat 8 opc).toNat = opc := Nat.mod_eq_of_lt ho
  have count : (BitVec.ofNat 2 n.ext.length).toNat = n.ext.length := Nat.mod_eq_of_lt (by omega)
  have room : ¬(n.ext ++ rest).length < n.ext.length := by simp
  simp only [decodeEntry, packW1_reserved, packW1_length, packW0_opcode, opcode, count, if_true, if_neg room, List.take_left,
    List.drop_left, entryFields_pack, hi]

/-- Well-formedness bounds a task word's fields and fixes a command's code. -/
theorem Instr.wf_fields {i : Instr} (h : i.wf = true) : taskFieldsOk i = true ∧ cmdCodeOk i = true :=
  Bool.and_eq_true_iff.mp (Bool.and_eq_true_iff.mp h).1

/-- A well-formed firing has at most three extension words. -/
theorem Instr.wf_ext_length_le {i : Instr} {opc : Nat} {n : NodeF} (hi : i.wf = true) (ho : opcOf i = some (opc, n)) :
    n.ext.length ≤ 3 := by
  have entry := (Bool.and_eq_true_iff.mp hi).2
  rw [ho] at entry
  dsimp only at entry
  split at entry
  · cases entry
  · next row hr => exact Nat.le_trans (of_decide_eq_true (Bool.and_eq_true_iff.mp entry).2) (nodeRow_xmax_le hr)

/-- What has an entry's words is a firing. -/
theorem encodeEntry_eq_some {i : Instr} {ws : List Word} (h : encodeEntry i = some ws) :
    ∃ opc n, opcOf i = some (opc, n) ∧ ws = packW0 (BitVec.ofNat 8 opc) n :: packW1 n :: n.ext := by
  unfold encodeEntry at h
  split at h
  · next opc n ho => exact ⟨opc, n, ho, (Option.some.inj h).symm⟩
  · cases h

theorem encodeEntry_alone {i : Instr} {ws : List Word} (h : encodeEntry i = some ws) : commandBytes i = none := by
  obtain ⟨opc, n, ho, -⟩ := encodeEntry_eq_some h
  obtain ⟨-, -, alone⟩ := nodeOf_opcOf ho
  exact alone

/-- The words of a firing's entry decode to it and leave the words behind them. -/
theorem decodeEntry_encodeEntry {i : Instr} {ws : List Word} (hi : i.wf = true) (h : encodeEntry i = some ws) (rest : List Word) :
    decodeEntry (ws ++ rest) = .ok (i, rest) := by
  obtain ⟨opc, n, ho, rfl⟩ := encodeEntry_eq_some h
  obtain ⟨node, byte, -⟩ := nodeOf_opcOf ho
  exact decodeEntry_pack node byte (Instr.wf_ext_length_le hi ho) rest

/-! ### Callboard commands (R397, R398) -/

theorem length_bytesOfWords (ws : List Word) : (bytesOfWords ws).length = 8 * ws.length := by
  induction ws with
  | nil => rfl
  | cons w ws ih =>
    rw [bytesOfWords, List.flatMap_cons, List.length_append, Machine.bytesOf_length, ← bytesOfWords, ih, List.length_cons]
    omega

/-- Eight bytes ahead make one word. -/
theorem wordsOfBytes_bytesOf (v : Nat) (bs : List Byte) :
    wordsOfBytes (bytesOf 8 v ++ bs) = BitVec.ofNat 64 (natOf (bytesOf 8 v)) :: wordsOfBytes bs := rfl

theorem wordsOfBytes_bytesOfWords (ws : List Word) : wordsOfBytes (bytesOfWords ws) = ws := by
  induction ws with
  | nil => rfl
  | cons w ws ih =>
    have whole : natOf (bytesOf 8 w.toNat) = w.toNat := (Machine.natOf_bytesOf 8 _).trans (Nat.mod_eq_of_lt w.isLt)
    rw [bytesOfWords, List.flatMap_cons, wordsOfBytes_bytesOf, ← bytesOfWords, ih, whole, BitVec.ofNat_toNat, BitVec.setWidth_eq]

/-- The 64 bytes of a command, read as words, are its words. -/
theorem cmdOfWords_bytes (c : Cmd) : cmdOfWords (wordsOfBytes (bytesOfWords c.words)) = c := by
  rw [wordsOfBytes_bytesOfWords]; rfl

/-- The bytes of a callboard command decode to it: by its code, and by the field that tells two rows of one code apart (R398). -/
theorem decodeCommand_commandBytes {i : Instr} {win : Nat} {bs : List Byte} (hf : cmdCodeOk i = true)
    (h : commandBytes i = some (win, bs)) : decodeCommand win bs = i := by
  have size (c : Cmd) : (bytesOfWords c.words).length = 64 := length_bytesOfWords c.words
  cases i
  all_goals cases h
  case callboardOtherWrite => exact eq_of_beq hf
  case launchCmd | cueCmd | cuerelCmd | curtainCmd | blackoutCmd | resumeCmd | replaceCmd | releaseCmd | tlbinvCmd | debugCmd |
      incqCmd | attestCmd | tenantCmd | shareCmd | leaveCmd | quotaCmd | evictCmd | podmapCmd | fwloadCmd =>
    have code := eq_of_beq hf
    simp only [decodeCommand, size, if_true, cmdOfWords_bytes, code, BitVec.reduceToNat]
  case unloadCmd | soundSetCmd | checkpointSaveCmd | powerDarkCmd =>
    obtain ⟨code, field⟩ := Bool.and_eq_true_iff.mp hf
    simp only [decodeCommand, size, if_true, cmdOfWords_bytes, eq_of_beq code, eq_of_beq field, BitVec.reduceToNat]
  case unloadForceCmd | soundQueryCmd | checkpointRestoreCmd | powerOffCmd =>
    obtain ⟨code, field⟩ := Bool.and_eq_true_iff.mp hf
    simp only [decodeCommand, size, if_true, cmdOfWords_bytes, eq_of_beq code, eq_of_beq field, BitVec.reduceToNat]
    rfl
  case powerRunningCmd c =>
    obtain ⟨hf, notOff⟩ := Bool.and_eq_true_iff.mp hf
    obtain ⟨code, notDark⟩ := Bool.and_eq_true_iff.mp hf
    have dark : (c.w0.extractLsb' 12 3).toNat ≠ 4 := fun h => bne_iff_ne.mp notDark (BitVec.eq_of_toNat_eq h)
    have off : (c.w0.extractLsb' 12 3).toNat ≠ 5 := fun h => bne_iff_ne.mp notOff (BitVec.eq_of_toNat_eq h)
    simp only [decodeCommand, size, if_true, cmdOfWords_bytes, eq_of_beq code, BitVec.reduceToNat, if_neg dark, if_neg off]

/-! ### The statements -/

/-- Settles O54: by the three kinds of encoding. -/
theorem decodeEncode : Obligations.DecodeEncode := by
  intro i hi
  obtain ⟨task, command⟩ := Instr.wf_fields hi
  refine ⟨fun w h => ?_, fun ws h => ?_, fun win bs h => ?_⟩
  · exact ⟨decodeTask_encodeTask task h, encodeTask_alone h⟩
  · exact ⟨decodeEntry_encodeEntry hi h, encodeEntry_alone h⟩
  · exact decodeCommand_commandBytes command h

/-- Settles O52: each word is the encoding of a well-formed instruction, and no major is 0. -/
theorem decodeWords : Obligations.DecodeWords := by
  have task (i : Instr) (hi : taskFieldsOk i = true) {w : BitVec 32} (h : encodeTask i = some w) : decodeTask w = .ok i :=
    decodeTask_encodeTask hi h
  refine ⟨task _ rfl rfl, task _ rfl rfl, task _ rfl rfl, task _ rfl rfl, task _ rfl rfl, task _ rfl rfl, task _ rfl rfl,
    task _ rfl rfl, rfl, ?_, ?_⟩
  · exact decodeEntry_encodeEntry (i := .addN { fmt := 6, wid := 4, rate := 16, sa := ⟨1, 0⟩, sb := ⟨2, 0⟩ }) rfl rfl []
  · exact decodeCommand_commandBytes (i := .launchCmd 3 { w0 := 0x501 }) rfl rfl

end Sys2Proof
end

section
/-! SUPPORT. What a step runs at each kind of pick (R12, R20, R71, R79, R395, R397). -/

namespace Sys2Proof.Machine

/-! ### Who moves -/

section
variable {s t u : State} {p : Pick} (hp : s.nextPick = (p, t))
include hp

theorem step_runs {i : Instr} (he : t.enter p = (some i, u)) : step s = exec i u := by rw [step, hp]; simp only [he]
theorem step_stays (he : t.enter p = (none, u)) : step s = .next u := by rw [step, hp]; simp only [he]
end

theorem nextPick_picked {s : State} {p : Pick} (h : s.pick = some p) : s.nextPick = (p, { s with pick := none }) := by
  rw [State.nextPick, h]

theorem nextPick_due {s : State} {i : Instr} {a : Actor} {rest : List (Instr × Actor)} (h : s.pick = none)
    (hd : s.due = (i, a) :: rest) : s.nextPick = (.event i a, { s with due := rest }) := by
  rw [State.nextPick, h, hd]

/-! ### The word a slot issues (R71, R79) -/

theorem fetchInstr_decoded {s : State} {i : Instr} (hm : lineMarked s.myCell s.me.pc.toNat = false)
    (hd : decodeTask s.fetchWord = .ok i) : s.fetchInstr = i := by
  simp only [State.fetchInstr, hm, hd, Bool.false_eq_true, if_false]

theorem fetchInstr_illegal {s : State}
    (h : lineMarked s.myCell s.me.pc.toNat = true ∨ ∃ x, decodeTask s.fetchWord = .error x) :
    s.fetchInstr = .illegalWord s.fetchWord := by
  unfold State.fetchInstr
  obtain hm | ⟨x, hd⟩ := h
  · simp only [hm, if_true]
  · simp only [hd, ite_self]

/-! ### What each pick enters -/

/-- The state at a pick, once the picked unit acts. -/
def State.acting (s : State) (a : Actor) : State := { s with pick := none, actor := a }

section
variable {s : State} {c v k e w : Nat} {bs : List Byte}

theorem enter_slot (h : s.slotTurn c v k = true) : ({ s with pick := none } : State).enter (.slot c v k) =
    (some (s.acting (.slot c v k)).fetchInstr, (s.acting (.slot c v k)).takeTurn c v k) :=
  if_pos h
theorem enter_slot_waits (h : s.slotTurn c v k = false) : ({ s with pick := none } : State).enter (.slot c v k) =
    (none, s.acting (.slot c v k)) :=
  if_neg (Bool.eq_false_iff.mp h)
theorem enter_node : ({ s with pick := none } : State).enter (.node c e) =
    (if s.nodeRuns c e then (s.region c).nodeInstr e else none, s.acting (.node c e)) := rfl
theorem enter_write (h : s.outOfTurn w = false) : ({ s with pick := none } : State).enter (.write w bs) =
    (some (s.writeInstr w bs), { s.acting (.window w) with accepted := some (s.cyc.toNat, w) }) :=
  if_neg (Bool.eq_false_iff.mp h)
theorem enter_write_discarded (h : s.outOfTurn w = true) : ({ s with pick := none } : State).enter (.write w bs) =
    (none, { s with pick := none }) :=
  if_pos h
end

theorem writeInstr_idle {s : State} {w : Nat} (h : (s.win w).isBusy = false) (bs : List Byte) :
    s.writeInstr w bs = decodeCommand w bs :=
  if_neg (Bool.eq_false_iff.mp h)
theorem writeInstr_busy {s : State} {w : Nat} (h : (s.win w).isBusy = true) (bs : List Byte) :
    s.writeInstr w bs = .callboardOtherWrite w bs :=
  if_pos h

/-! ### The statement -/

/-- Settles O51: what each pick enters, and what a slot issues. -/
theorem stepRunsDecoded : Obligations.StepRunsDecoded := by
  intro s
  refine ⟨fun c v k hp => ?_, fun c e hp => ?_, fun w bs hp => ?_, fun i a rest hp hd ev => ?_⟩
  · have picked := nextPick_picked hp
    refine ⟨fun turn => ⟨fun i hm hd => ?_, fun h => ?_⟩, fun h => step_stays picked (enter_slot_waits h)⟩
    · have fetched : (s.acting (.slot c v k)).fetchInstr = i := fetchInstr_decoded hm hd
      exact step_runs picked (fetched ▸ enter_slot turn)
    · have fetched := fetchInstr_illegal (s := s.acting (.slot c v k)) h
      exact step_runs picked ((enter_slot turn).trans (congrArg (fun i => (some i, _)) fetched))
  · have picked := nextPick_picked hp
    refine ⟨fun runs i hi => ?_, fun h => ?_⟩
    · exact step_runs picked (by rw [enter_node, runs, if_pos rfl, hi]; rfl)
    · exact step_stays picked (by rw [enter_node, h]; rfl)
  · have picked := nextPick_picked hp
    refine ⟨fun turn idle => ?_, fun turn busy => ?_, fun h => step_stays picked (enter_write_discarded h)⟩
    · exact step_runs picked (writeInstr_idle idle bs ▸ enter_write turn)
    · exact step_runs picked (writeInstr_busy busy bs ▸ enter_write turn)
  · have picked := nextPick_due hp hd
    exact step_runs picked (by rw [State.enter, ev]; rfl)

end Sys2Proof.Machine
end
